-- ==== Sys2Proof/Word.lean ====
section
/-! DEFINITION. The word types of the GS-24: bytes on the link, in a store cell and at the head. -/

namespace Sys2Proof

/-- One byte: of a payload, of an image, of a store cell. Image bytes are opaque to the part (1.2). -/
abbrev Byte := BitVec 8

/-- A 16-bit word: the check word of a frame or reply (R187). -/
abbrev Word16 := BitVec 16

end Sys2Proof
end

