-- ==== Sys2Proof/Config.lean ====
section
/-! DEFINITION. What is fixed for the machine: capacities, the straps, and the free values of what the spec leaves open. -/

namespace Sys2Proof

/-- The five straps, read when a reset ends (R182). `banksLessOne` is BANKS − 1, so that BANKS is 1 to 8. -/
structure Straps where
  number       : Fin 16
  head         : Bool
  authLimit    : Fin 4
  banksLessOne : Fin 8
  spare        : Bool
  deriving DecidableEq, Repr

namespace Straps

/-- BANKS, 1 to 8 (R104). -/
def banks (p : Straps) : Nat := p.banksLessOne.val + 1

/-- This station's number; 0 is read as no number (R182). -/
def station (p : Straps) : Nat := p.number.val

/-- Stations 1 to AUTH-LIMIT are authorities (0.2, R171). -/
def isAuthority (p : Straps) (src : Nat) : Bool := 1 ≤ src && src ≤ p.authLimit.val

end Straps

namespace Config

/-- Frames held by the transmit queue (R177). -/
def txCapacity : Nat := 12
/-- Entries of the fetch list (R62). -/
def fetchCapacity : Nat := 8
/-- Entries of the Line Queue (R14). -/
def queueCapacity : Nat := 6
/-- Entries of the Image Cache (R76). -/
def cacheCapacity : Nat := 256
/-- Entries of the directory (R86). -/
def directoryCapacity : Nat := 64
/-- Records of the store index (R107). -/
def indexCapacity : Nat := 2048
/-- Pending LOAD writes (R112). -/
def writeCapacity : Nat := 4
/-- Cells of one bank (R104). -/
def cellsPerBank : Nat := 1024
/-- Bytes of one cell (R104). -/
def bytesPerCell : Nat := 64
/-- Attempts of one frame (R173). -/
def maxAttempts : Nat := 8
/-- Ranges of one WITHDRAW frame (R101). -/
def withdrawRanges : Nat := 16
/-- The longest payload (R187). -/
def maxPayload : Nat := 528
/-- Script tables (R19). -/
def scriptTables : Nat := 16
/-- The number the model gives the spare physical bank S; working banks are 0 to 7 (R104). -/
def spareBank : Nat := 8

/-- The board of `State.reset`: the setting station of the worked examples, number 6 and AUTH-LIMIT 1 (8.15), four
banks and a spare (7.8). DESIGN CHOICE: the spec fixes no strap; unsafe (log 3). -/
def boardStraps : Straps :=
  { number := 6, head := true, authLimit := 1, banksLessOne := 3, spare := true }

/-- What the cell at an address holds after the `epoch`-th power-on reset. FREE VALUE: R123 leaves it undefined (log 8). -/
opaque powerOnCell (epoch address : Nat) : BitVec 512

/-- Whether a PAGE-END notice carries the cause EXPIRY when the close expiry is taken while a PAGE-END waits for its
lines to drain. FREE VALUE: R160 names the two causes and does not say which of them this close has (log 16). -/
opaque expiryNamesCause : Bool

end Config

end Sys2Proof
end

