-- ==== Sys2Proof/Syntax.lean ====
section
/-! DEFINITION. The commands of the GS-24: one constructor of `Instr` for each row of spec/opcode_table.json, with its operands. -/

namespace Sys2Proof

/-- A glyph key: face 0 to 255 and glyph index 0 to 4095 (R1). -/
structure Key where
  face  : Nat
  index : Nat
  deriving DecidableEq, Repr

/-- A span: the keys of one face whose index lies from `first` to `last` (R2). -/
structure Span where
  face  : Nat
  first : Nat
  last  : Nat
  deriving DecidableEq, Repr

/-- A range of keys, by ordinal, both ends included (R2). -/
structure KeyRange where
  first : Key
  last  : Key
  deriving DecidableEq, Repr

/-- Source and destination of a frame; destination 0 addresses all stations (11.1). -/
structure Hdr where
  src : Nat
  dst : Nat
  deriving DecidableEq, Repr

/-- The arbitration field: class, kind, source (R168). -/
structure Arb where
  cls  : Nat
  kind : Nat
  src  : Nat
  deriving DecidableEq, Repr

/-- A frame as it stands on the link, but for its check word, which is a field of its own wherever a frame is sent or read
(11.1). -/
structure RawFrame where
  cls     : Nat
  kind    : Nat
  src     : Nat
  dst     : Nat
  payload : List Byte
  deriving DecidableEq, Repr

/-- A reply of a held exchange as it stands on the link, but for its check word (11.1). -/
structure RawReply where
  src     : Nat
  dst     : Nat
  status  : Nat
  payload : List Byte
  deriving DecidableEq, Repr

/-- Joining classes (R19). -/
inductive JoinClass where
  | none | right | dual | mark
  deriving DecidableEq, Repr

/-- A code entry of a script table (R19). -/
structure CodeEntry where
  cls      : JoinClass
  isolated : Nat
  final    : Nat
  initial  : Nat
  medial   : Nat
  deriving DecidableEq, Repr

/-- A ligature entry of a script table (R19). -/
structure LigEntry where
  first    : Nat
  second   : Nat
  ligature : Nat
  deriving DecidableEq, Repr

/-- The fields of a HEADER piece (R21). -/
structure HeaderFields where
  codeBase   : Nat
  codeCount  : Nat
  ligCount   : Nat
  spaceCode  : Nat
  spaceWidth : Nat
  deriving DecidableEq, Repr

/-- A run of a LINE frame, fields as they stand on the link (2.1, 11.3). -/
structure RunFrame where
  table : Nat
  dir   : Nat
  face  : Nat
  size  : Nat
  codes : List Nat
  deriving DecidableEq, Repr

/-- A LINE frame, fields as they stand on the link: `mode` and the directions are codes (2.1, 11.3). -/
structure LineFrame where
  number  : Nat
  measure : Nat
  leading : Nat
  mode    : Nat
  baseDir : Nat
  squeeze : Nat
  runs    : List RunFrame
  deriving DecidableEq, Repr

/-- One way of an ANNOUNCE: primary and alternate (5.4). -/
structure WayFrame where
  primary   : Nat
  alternate : Nat
  deriving DecidableEq, Repr

/-- An ANNOUNCE: its way count is the length of `ways` (5.4). -/
structure AnnounceFrame where
  first    : Key
  last     : Key
  version  : Nat
  ways     : List WayFrame
  complete : Bool
  deriving DecidableEq, Repr

/-- The declared fields of a LOAD piece 0 (R110). -/
structure LoadFields where
  key          : Key
  pieceCount   : Nat
  advanceWidth : Nat
  originX      : Int
  originY      : Int
  imageLength  : Nat
  deriving DecidableEq, Repr

/-- The fields of an ALARM-SET: AUTO-CUT as its byte (R157, 11.3). -/
structure AlarmFrame where
  line      : Nat
  column    : Nat
  page      : Nat
  maskLine  : Bool
  maskCol   : Bool
  maskPage  : Bool
  autoCut   : Nat
  deriving DecidableEq, Repr

/-- The twelve commands of a CONTROL frame (8.3.1). -/
inductive ControlCmd where
  | pageBegin (columns depth closeTime : Nat)
  | pageEnd | run | stop | cut | galleyReset | proofOn | proofOff | proceed
  | alarmSet (a : AlarmFrame)
  | clearFlags | stationClear
  deriving DecidableEq, Repr

/-- The six fields of a STORE-POLICY, each of which may be absent; enables as their byte (7.2, 11.3). -/
structure PolicyFrame where
  threshold : Option Nat
  drip      : Option Nat
  sparing   : Option Nat
  patrol    : Option Nat
  thaw      : Option Nat
  force     : Option Nat
  deriving DecidableEq, Repr

/-- What a read of a cell finds (R116). -/
inductive CellCond where
  | clean | corrected | uncorrectable
  deriving DecidableEq, Repr

/-- An access of the store arbiter with what the memory shows for the cells it reads (R115, R116). -/
inductive StoreAccess where
  | serve (conds : List CellCond)
  | loadWrite
  | localRead (conds : List CellCond)
  | copyStep (cond : CellCond)
  | patrolStep (cond : CellCond)
  deriving DecidableEq, Repr

/-- An access that a station reset interrupts: `writes` of its cell writes have been begun, the last of them under way (R122). -/
structure Interrupted where
  access : StoreAccess
  writes : Nat
  deriving DecidableEq, Repr

/-- What a station reset finds: whether TENURE is asserted when it ends (R181), and the store access under way when it arrives
(R122). -/
structure AtReset where
  tenure : Bool
  begun  : Option Interrupted
  deriving DecidableEq, Repr

/-- The answer slots that other stations assert on a FETCH (R170, R174). -/
structure Asserted where
  ack    : Bool
  object : Bool
  deriving DecidableEq, Repr

/-- What a station follows on the link without being addressed (R170): a frame with whose answer slots the tenure ends, a FETCH that
its holder has taken and whose tenure goes on to the reply, and that reply. -/
inductive Followed where
  | frame (h : Hdr) | heldFetch (h : Hdr) | reply (h : Hdr)
  deriving DecidableEq, Repr

/-- The source and destination of what was followed. -/
def Followed.hdr : Followed → Hdr
  | .frame h | .heldFetch h | .reply h => h

/-- The commands: one for each row of spec/opcode_table.json. -/
inductive Instr where
  /-- POWER_ON_RESET: the straps read; `tenure` says whether TENURE is found asserted when it ends (R181, R182). -/
  | powerOnReset (p : Straps) (tenure : Bool)
  /-- STATION_RESET: as POWER_ON_RESET, from the SRST pin (R122, R182). -/
  | stationReset (p : Straps) (found : AtReset)
  /-- FETCH: `others` are the slots that other stations assert (R170, R174). -/
  | fetch (h : Hdr) (key : Key) (others : Asserted)
  /-- ENROL: station, bank count, spare present, head present, record count (R186). -/
  | enrol (h : Hdr) (station banks : Nat) (spare head : Bool) (records : Nat)
  /-- ANNOUNCE (R92 to R97). -/
  | announce (h : Hdr) (a : AnnounceFrame)
  /-- WITHDRAW (R99). -/
  | withdraw (h : Hdr) (ranges : List KeyRange)
  /-- INVALIDATE (R81). -/
  | invalidate (h : Hdr) (span : Span)
  /-- THRESHOLD: a STORE-POLICY that carries the threshold alone (R129). -/
  | threshold (h : Hdr) (value : Nat)
  /-- DRIP_INTERVAL: a STORE-POLICY that carries the drip interval alone (R129). -/
  | dripInterval (h : Hdr) (value : Nat)
  /-- SPARING_ENABLE: a STORE-POLICY that carries the sparing enable alone (R130). -/
  | sparingEnable (h : Hdr) (value : Nat)
  /-- PATROL_ENABLE: a STORE-POLICY that carries the patrol enable alone (R130). -/
  | patrolEnable (h : Hdr) (value : Nat)
  /-- THAW: a STORE-POLICY that carries THAW alone (R131). -/
  | thaw (h : Hdr) (bank : Nat)
  /-- FORCE: a STORE-POLICY that carries FORCE alone (R132). -/
  | force (h : Hdr) (bank : Nat)
  /-- LINE (R13, R14). -/
  | line (h : Hdr) (l : LineFrame)
  /-- PAGE_BEGIN: a CONTROL frame with this command alone (R148). -/
  | pageBegin (h : Hdr) (columns depth closeTime : Nat)
  /-- PAGE_END (R160). -/
  | pageEnd (h : Hdr)
  /-- RUN (R149). -/
  | run (h : Hdr)
  /-- STOP (R149). -/
  | stop (h : Hdr)
  /-- CUT (R155). -/
  | cut (h : Hdr)
  /-- GALLEY_RESET (R156). -/
  | galleyReset (h : Hdr)
  /-- PROOF_ON (R151). -/
  | proofOn (h : Hdr)
  /-- PROOF_OFF (R151). -/
  | proofOff (h : Hdr)
  /-- PROCEED (R151). -/
  | proceed (h : Hdr)
  /-- ALARM_SET (R157). -/
  | alarmSet (h : Hdr) (a : AlarmFrame)
  /-- CLEAR_FLAGS (R163). -/
  | clearFlags (h : Hdr)
  /-- STATION_CLEAR (R165). -/
  | stationClear (h : Hdr)
  /-- HEADER of a SCRIPT-LOAD (R21). -/
  | header (h : Hdr) (table : Nat) (f : HeaderFields)
  /-- CLASS_BLOCK of a SCRIPT-LOAD (R22). -/
  | classBlock (h : Hdr) (table first : Nat) (entries : List CodeEntry)
  /-- LIGATURE of a SCRIPT-LOAD (R23). -/
  | ligature (h : Hdr) (table first : Nat) (entries : List LigEntry)
  /-- COMMIT of a SCRIPT-LOAD (R24). -/
  | commit (h : Hdr) (table : Nat)
  /-- LOAD_PIECE_0 (R110). -/
  | loadPiece0 (h : Hdr) (f : LoadFields) (bytes : List Byte)
  /-- LOAD_PIECE: pieces 1 to 7 (R112). -/
  | loadPiece (h : Hdr) (key : Key) (piece pieceCount : Nat) (bytes : List Byte)
  /-- DISCARD (R114). -/
  | discard (h : Hdr) (span : Span)
  /-- LINE_REPORT received by this station (R171). -/
  | lineReport (h : Hdr) (payload : List Byte)
  /-- NOTICE received by this station (R171). -/
  | notice (h : Hdr) (payload : List Byte)
  /-- FRAME_OUT_OF_FORM: a frame out of form, with bad fields, or too long to be followed to its end (R187 to R189). -/
  | frameOutOfForm (f : RawFrame)
  /-- CHECK_WORD_WRONG: a frame and the check word it carried; it is read to its end when its length allows (R170, R172, R187). -/
  | checkWordWrong (f : RawFrame) (check : Word16)
  /-- FRAME_OBSERVED: a frame or reply followed in BUSY-OTHER to a correct check word (R90, R170). -/
  | frameObserved (followed : Followed)
  /-- CONTEND: the arbitration fields of the stations that begin in the same bit period (R168). -/
  | contend (others : List Arb)
  /-- SEND_ATTEMPT_END: the two answer slots as the sender reads them (R173). -/
  | sendAttemptEnd (ack object : Bool)
  /-- DISTURBANCE: broken off, out of form, or a read-back mismatch (R169, R176). -/
  | disturbance
  /-- STALL_LIMIT (R176). -/
  | stallLimit
  /-- FREE_CONDITION (R167). -/
  | freeCondition
  /-- HOLD_LIMIT: `taken` holds the cell conditions when the serve has been taken and not ended (R120). -/
  | holdLimit (taken : Option (List CellCond))
  /-- REPLY_SENT (R174). -/
  | replySent
  /-- REPLY: the reply read and the check word it carried (R170, R175, R189). -/
  | reply (r : RawReply) (check : Word16)
  /-- SERVE: what the memory shows for each cell read, in order; cells beyond the list read CLEAN (R119). -/
  | serve (conds : List CellCond)
  /-- LOAD_WRITE (R112). -/
  | loadWrite
  /-- LOCAL_READ (R118). -/
  | localRead (conds : List CellCond)
  /-- COPY_STEP (R136). -/
  | copyStep (cond : CellCond)
  /-- PATROL_STEP (R134). -/
  | patrolStep (cond : CellCond)
  /-- PATROL_INTERVAL (R133). -/
  | patrolInterval
  /-- COPY_INTERVAL (R136). -/
  | copyInterval
  /-- DEFER_TIMER of the fetch entry for a key (R68). -/
  | deferTimer (key : Key)
  /-- LINE_TAKE (R16). -/
  | lineTake
  /-- EXPOSED from the head (R152). -/
  | exposed
  /-- CUT_DONE from the head (R154). -/
  | cutDone
  /-- READY from the head (R161). -/
  | ready
  /-- FILM_LOW from the head (R162). -/
  | filmLow
  /-- FILM_OUT from the head (R161). -/
  | filmOut
  /-- HEAD_FAULT from the head (R161). -/
  | headFault
  /-- CLOSE_EXPIRY (R159). -/
  | closeExpiry
  /-- CLOSE_COMPLETE (R160). -/
  | closeComplete
  /-- ENROL_OFFER (R183). -/
  | enrolOffer
  /-- ENROL_WAIT_EXPIRY (R184). -/
  | enrolWaitExpiry
  /-- CLOSE_TIMER_TICK (R158). -/
  | closeTimerTick
  /-- CONTROL: a list of commands (R146). -/
  | control (h : Hdr) (commands : List ControlCmd)
  /-- STORE_POLICY: any of six fields (R128). -/
  | storePolicy (h : Hdr) (p : PolicyFrame)
  deriving DecidableEq, Repr

end Sys2Proof
end

