-- ==== Sys2Proof/Decode.lean ====
section
/-! DEFINITION. The commands a word of the opcode table spells: none, for no row of spec/opcode_table.json gives bits. The frames
of the link are read and built in Machine/Layout.lean. -/

namespace Sys2Proof

/-- No row of the table gives bits, so no word spells a command (98_reader.md: n_rows_with_fixed 0). -/
def decodeTableWord (_nbits _w : Nat) : Option Instr := none

end Sys2Proof
end

