-- ==== Sys2Proof/Machine/State.lean ====
section
/-! DEFINITION. The state of the GS-24: one structure for each block of 0.3, plain data, and the machine right after a power-on
reset. -/

namespace Sys2Proof.Machine

/-! ## Glyph images -/

/-- A glyph image record (1.2). -/
structure ImageRecord where
  key          : Key
  advanceWidth : Nat
  originX      : Int
  originY      : Int
  imageLength  : Nat
  bytes        : List Byte
  deriving DecidableEq, Repr

/-! ## Lines, placements and reports -/

/-- The eight line flags (R57). -/
structure LineFlags where
  substituted   : Bool := false
  markOverflow  : Bool := false
  uncovered     : Bool := false
  squeezed      : Bool := false
  unjustified   : Bool := false
  staleImage    : Bool := false
  alternateUsed : Bool := false
  noDirectory   : Bool := false
  deriving DecidableEq, Repr

/-- Setting modes (2.1). -/
inductive Mode where
  | left | right | centre | justify
  deriving DecidableEq, Repr

/-- Directions of a run and of a line (2.1). -/
inductive Dir where
  | ltr | rtl
  deriving DecidableEq, Repr

/-- A run of an accepted line (2.1). -/
structure Run where
  table : Nat
  dir   : Dir
  face  : Nat
  size  : Nat
  codes : List Nat
  deriving DecidableEq, Repr

/-- The line header that a slot holds (R35). -/
structure LineHeader where
  number    : Nat
  requester : Nat
  measure   : Nat
  leading   : Nat
  mode      : Mode
  baseDir   : Dir
  squeeze   : Nat
  deriving DecidableEq, Repr

/-- Outcomes of a line (R56, 11.3). -/
inductive LineOutcome where
  | set | overset | closed | cleared | cutShort
  deriving DecidableEq, Repr

/-- A place on film (R145). -/
structure Galley where
  page   : Nat
  column : Nat
  line   : Nat
  deriving DecidableEq, Repr

/-- A LINE-REPORT (R56). -/
structure LineReport where
  number      : Nat
  outcome     : LineOutcome
  natural     : Nat
  set         : Nat
  placements  : Nat
  substituted : Nat
  flags       : LineFlags
  galley      : Option Galley
  deriving DecidableEq, Repr

/-- The outcome that a Line Queue entry waits to report (R15). -/
inductive ReportMark where
  | closed | cleared
  deriving DecidableEq, Repr

/-- A Line Queue entry: the request whole, its requester (in the header) and the report mark (2.1.1). -/
structure QueueEntry where
  header : LineHeader
  runs   : List Run
  mark   : Option ReportMark
  deriving DecidableEq, Repr

/-- Placement roles (R10). -/
inductive Role where
  | base | mark | ligature | space | substitute
  deriving DecidableEq, Repr

/-- Placement states (R38). -/
inductive PlacementState where
  | unresolved | awaiting | resolved | substituted
  deriving DecidableEq, Repr

/-- A placement record (R9). `waitsRoom` marks an UNRESOLVED placement that found the fetch list full (R42). `origin` is a
MARK's own converted origin, x and y, which R12 keeps while the mark is RESOLVED or SUBSTITUTED. -/
structure Placement where
  cluster   : Nat
  role      : Role
  key       : Option Key
  size      : Nat
  state     : PlacementState
  waitsRoom : Bool
  ref       : Option Nat
  advance   : Option Nat
  origin    : Option (Int × Int)
  x         : Option Int
  y         : Option Int
  deriving DecidableEq, Repr

/-- The measurement of a line (R36): gap reductions by gap, additions by visual place. -/
structure Measurement where
  natural   : Nat
  set       : Nat
  start     : Nat
  gaps      : List Nat
  additions : List Nat
  deriving DecidableEq, Repr

/-- What a resolution pass stands at: nothing, its own local read (R39), an earlier read of the slot (R41), or, at its end, the
older slot's answer to a room event (R45). -/
inductive PassWait where
  | running | reading | readHeld | parked
  deriving DecidableEq, Repr

/-- A resolution pass: present only in RESOLVING (R36). -/
structure Pass where
  pos       : Nat
  again     : Bool
  wait      : PassWait
  deriving DecidableEq, Repr

/-- Slot states (R36). -/
inductive SlotState where
  | empty | resolving | awaiting | ready | exposing | reporting
  deriving DecidableEq, Repr

/-- An assembly slot (R36). `held` counts the passes of the older slot that a room event still holds this slot back by (R45). -/
structure Slot where
  state   : SlotState
  header  : Option LineHeader
  list    : List Placement
  flags   : LineFlags
  pass    : Option Pass
  held    : Nat
  measured : Option Measurement
  report  : Option LineReport
  deriving DecidableEq, Repr

/-- The slot that holds no line. -/
def Slot.vacant : Slot :=
  { state := .empty, header := none, list := [], flags := {}, pass := none, held := 0, measured := none, report := none }

/-- Slot 0 and slot 1. -/
inductive SlotId where
  | zero | one
  deriving DecidableEq, Repr

/-- The Assembly Slots: two slots and the age mark (3.1). -/
structure Slots where
  slot0 : Slot
  slot1 : Slot
  age   : Option SlotId
  deriving DecidableEq, Repr

/-! ## Script tables -/

/-- States of a script table (R19). -/
inductive TableState where
  | empty | loading | complete
  deriving DecidableEq, Repr

/-- A script table (R19). -/
structure ScriptTable where
  state      : TableState
  codeBase   : Nat
  codeCount  : Nat
  spaceCode  : Nat
  spaceWidth : Nat
  entries    : List CodeEntry
  ligCount   : Nat
  ligatures  : List LigEntry
  nextClass  : Option Nat
  nextLig    : Option Nat
  deriving DecidableEq, Repr

/-- The EMPTY table (R25); its contents are discarded. -/
def ScriptTable.blank : ScriptTable :=
  { state := .empty, codeBase := 0, codeCount := 0, spaceCode := 0, spaceWidth := 0, entries := [], ligCount := 0,
    ligatures := [], nextClass := none, nextLig := none }

/-! ## Image Cache -/

/-- States of a cache entry (R76). -/
inductive CacheState where
  | valid | stale
  deriving DecidableEq, Repr

/-- Where a cached record came from (R76). -/
inductive Origin where
  | localStore | remotePrimary | remoteAlternate
  deriving DecidableEq, Repr

/-- A cache entry (R76). -/
structure CacheEntry where
  key    : Key
  record : ImageRecord
  state  : CacheState
  pins   : Nat
  origin : Origin
  deriving DecidableEq, Repr

/-- The Image Cache: the held entries by number, and the recency order, least recently used first (R76, R77). -/
structure Cache where
  entries : List (Nat × CacheEntry)
  recency : List Nat
  deriving DecidableEq, Repr

/-! ## Fetch list -/

/-- The target's place in the key's way (R62). -/
inductive TargetRole where
  | primary | alternate
  deriving DecidableEq, Repr

/-- States of a fetch entry (R62); the defer timer runs exactly in DEFERRED. -/
inductive FetchState where
  | waitingLink | exchanging | deferred
  deriving DecidableEq, Repr

/-- A fetch entry (R62). -/
structure Fetch where
  key    : Key
  state  : FetchState
  target : Nat
  role   : TargetRole
  tried  : List Nat
  failed : Nat
  defers : Nat
  deriving DecidableEq, Repr

/-! ## Directory Unit -/

/-- A way of a directory entry (R86). -/
structure Way where
  primary         : Nat
  alternate       : Nat
  primaryStruck   : Bool
  alternateStruck : Bool
  deriving DecidableEq, Repr

/-- A directory entry; its way count is the length of `ways` (R86). -/
structure DirEntry where
  first   : Key
  last    : Key
  version : Nat
  ways    : List Way
  deriving DecidableEq, Repr

/-- Directory states (R98). -/
inductive DirState where
  | enrolling | operational
  deriving DecidableEq, Repr

/-- The Directory Unit: entries in ascending order of first key, state, complete mark, one ABSENT mark for each station number
0 to 15 (0 never set), the outgoing withdrawal list, and whether the enrol wait runs (R86, R90, R97, R98, R101, R184). -/
structure Directory where
  entries   : List DirEntry
  state     : DirState
  complete  : Bool
  absent    : List Bool
  outgoing  : List KeyRange
  enrolWait : Bool
  deriving DecidableEq, Repr

/-! ## Glyph Store -/

/-- What a cell holds: bytes with a fresh check code, or the uncorrectable mark of a copy step (R116, R136). -/
inductive Cell where
  | data (bytes : List Byte)
  | marked
  deriving DecidableEq, Repr

/-- The store memory: (address, cell) pairs with strictly rising addresses; the address of cell c of physical bank p is
1024 × p + c. An address not listed holds what the power-on reset left (R123). -/
abbrev Memory := List (Nat × Cell)

/-- States of a store index record (R107). -/
inductive RecordState where
  | loading | valid | poisoned
  deriving DecidableEq, Repr

/-- A store index record (R107). -/
structure StoreRecord where
  key          : Key
  bank         : Nat
  firstCell    : Nat
  cellCount    : Nat
  imageLength  : Nat
  advanceWidth : Nat
  originX      : Int
  originY      : Int
  state        : RecordState
  nextPiece    : Option Nat
  deriving DecidableEq, Repr

/-- A pending LOAD write: `live` until its record is removed or restarted (R112). -/
structure LoadWrite where
  key   : Key
  bank  : Nat
  cell  : Nat
  bytes : List Byte
  live  : Bool
  deriving DecidableEq, Repr

/-- A waiting local read: `live` while the slot's line has no outcome (R41, R115). -/
structure ReadRequest where
  slot : SlotId
  key  : Key
  live : Bool
  deriving DecidableEq, Repr

/-- The Glyph Store Controller: bank map, memory, store index in ascending order of key, LOAD write queue, waiting serve and
waiting local reads (R105, R107, R112, R115). `epoch` counts the power-on resets of the memory (log 8). -/
structure Store where
  map    : List Nat
  memory : Memory
  epoch  : Nat
  index  : List StoreRecord
  writes : List LoadWrite
  serve  : Option Key
  reads  : List ReadRequest
  deriving DecidableEq, Repr

/-! ## Patrol and Spare Unit -/

/-- Bank states (R124). -/
inductive BankState where
  | good | atThreshold | copying | spared | withdrawn
  deriving DecidableEq, Repr

/-- A bank record (R124). -/
structure Bank where
  count : Nat
  state : BankState
  deriving DecidableEq, Repr

/-- Spare states (R124). -/
inductive SpareState where
  | absent | free | target | inUse
  deriving DecidableEq, Repr

/-- The Patrol and Spare Unit (R124), with the patrol's and the copy engine's timers and requests (R133, R136). -/
structure Patrol where
  banks        : List Bank
  threshold    : Nat
  drip         : Nat
  sparing      : Bool
  enabled      : Bool
  posBank      : Nat
  posCell      : Nat
  passes       : Nat
  spare        : SpareState
  copySource   : Option Nat
  copyProgress : Option Nat
  intervalRuns : Bool
  stepWaits    : Bool
  copyIntervalRuns : Bool
  copyStepWaits    : Bool
  deriving DecidableEq, Repr

/-! ## Exposure Sequencer and Head Port -/

/-- Sequencer states; PROOF-WAIT holds its waiting slot (R143, R150). -/
inductive SeqState where
  | stopped | running | proofWait (i : SlotId) | exposing | cutting | fault
  deriving DecidableEq, Repr

/-- Kinds of a cut (R154). -/
inductive CutKind where
  | pageFull | alarm | commanded | close
  deriving DecidableEq, Repr

/-- The cut record: `runs` says that the state after the cut is RUNNING and not STOPPED (R143, R154). -/
structure CutRecord where
  kind      : CutKind
  renumbers : Bool
  runs      : Bool
  deriving DecidableEq, Repr

/-- Page states (R144). -/
inductive PageState where
  | noPage | opened | closed
  deriving DecidableEq, Repr

/-- The cause that a PAGE-END notice carries (R160). -/
inductive CloseCause where
  | pageEnd | expiry
  deriving DecidableEq, Repr

/-- The alarm settings (R157). -/
structure Alarm where
  line     : Nat
  column   : Nat
  page     : Nat
  maskLine : Bool
  maskCol  : Bool
  maskPage : Bool
  autoCut  : Bool
  deriving DecidableEq, Repr

/-- The page accumulator: thirteen flags (R163). -/
structure Accumulator where
  line       : LineFlags := {}
  alarm      : Bool := false
  closed     : Bool := false
  filmLow    : Bool := false
  reportLost : Bool := false
  noticeLost : Bool := false
  deriving DecidableEq, Repr

/-- The Exposure Sequencer (8.2 to 8.11). `closing` is present while close in progress is set, with the close's cause. -/
structure Sequencer where
  state       : SeqState
  cutPending  : Bool
  stopPending : Bool
  proof       : Bool
  cutRecord   : Option CutRecord
  closing     : Option CloseCause
  expiryHeld  : Bool
  page        : PageState
  owner       : Option Nat
  columns     : Nat
  depth       : Nat
  galley      : Galley
  exposedSinceCut : Bool
  alarm       : Alarm
  closeTimer  : Nat
  acc         : Accumulator
  deriving DecidableEq, Repr

/-- The outstanding head message (R142). -/
inductive Outstanding where
  | none | line | cut
  deriving DecidableEq, Repr

/-- What the head receives for one placement (R10, 11.4). -/
structure HeadPlacement where
  role   : Role
  box    : Bool
  x      : Int
  size   : Nat
  y      : Option Int
  record : Option ImageRecord
  deriving DecidableEq, Repr

/-- A line transfer (R150, 11.4). -/
structure LineTransfer where
  leading    : Nat
  placements : List HeadPlacement
  deriving DecidableEq, Repr

/-! ## Link Controller -/

/-- Reasons of a refused command (R146). -/
inductive RefuseReason where
  | sender | state
  deriving DecidableEq, Repr

/-- Reasons of a refused load (R113). -/
inductive LoadReason where
  | noIndexRoom | noCellRoom
  deriving DecidableEq, Repr

/-- The ten notices (11.3). -/
inductive Notice where
  | proofReady (line : Nat)
  | pageEnd (cause : CloseCause) (at_ : Galley) (acc : Accumulator)
  | alarm (at_ : Galley)
  | filmLow
  | headFault (filmOut : Bool) (line : Option Nat)
  | commandRefused (code position : Nat) (reason : RefuseReason)
  | loadRefused (key : Key) (reason : LoadReason)
  | poisoned (key : Key) (bank : Nat)
  | spared (bank : Nat)
  | withdrawn (bank valid ranges : Nat)
  deriving DecidableEq, Repr

/-- The fields of an ENROL (R183). -/
structure EnrolFields where
  station : Nat
  banks   : Nat
  spare   : Bool
  head    : Bool
  records : Nat
  deriving DecidableEq, Repr

/-- A frame of the transmit queue (9.7). -/
inductive TxFrame where
  | enrol (e : EnrolFields)
  | withdraw (ranges : List KeyRange)
  | report (dst : Nat) (r : LineReport)
  | notice (dst : Nat) (n : Notice)
  deriving DecidableEq, Repr

/-- A frame held by the transmit queue, its attempt count, and whether it is the one being attempted (R177). -/
structure TxEntry where
  frame    : TxFrame
  attempts : Nat
  onLink   : Bool
  deriving DecidableEq, Repr

/-- The eleven states of the Link Controller (R167). -/
inductive LinkState where
  | idle | contending | sending | awaitAnswer | busyOther | receiving | holding | replying | awaitReply | recovery | mute
  deriving DecidableEq, Repr

/-- What this station sends in the current tenure (R168). -/
inductive Tenure where
  | none | fetch | frame
  deriving DecidableEq, Repr

/-- The exchange in progress; `detached` when its entry has left the fetch list (R73, R175). -/
structure Exchange where
  key      : Key
  target   : Nat
  role     : TargetRole
  attempts : Nat
  detached : Bool
  deriving DecidableEq, Repr

/-- The replies of a holder (R119). -/
inductive Reply where
  | image (r : ImageRecord) | defer | damaged | notHeld
  deriving DecidableEq, Repr

/-- The Link Controller (9.1 to 9.9). `free` says that the free condition holds, `listens` that it has been seen since the last
reset (R181); `requester` is the station whose FETCH this station holds or answers, and `reply` the reply it sends (R174); `enrolDue` and
`enrolWaits` stand for the ENROL not yet built and the ENROL waiting for room (R183). -/
structure Link where
  state      : LinkState
  free       : Bool
  listens    : Bool
  tenure     : Tenure
  queue      : List TxEntry
  exchange   : Option Exchange
  requester  : Option Nat
  reply      : Option Reply
  enrolDue   : Bool
  enrolWaits : Bool
  deriving DecidableEq, Repr

/-! ## The station -/

/-- What the part drives at its three ports within one step (log 10). -/
inductive Output where
  /-- The answer slots of a frame or reply that this station read (R172, R175). -/
  | answer (ack object : Bool)
  /-- A frame begun and won on the link, with the check word that ends it (R168, R187). -/
  | frame (f : RawFrame) (check : Word16)
  /-- A reply begun, with the check word that ends it (R174, R187). -/
  | reply (r : RawReply) (check : Word16)
  /-- A line transfer to the head (R150). -/
  | line (t : LineTransfer)
  /-- CUT to the head (R154). -/
  | cut
  /-- ABORT to the head (R166). -/
  | abort
  /-- A cell written through the Glyph Store port, at its physical address (R112, R116, R134, R136). -/
  | cell (address : Nat) (c : Cell)
  deriving DecidableEq, Repr

/-- Why a step stops with a fault: no command of the GS-24 does, so there is no reason. Safe: nothing raises one. -/
inductive Fault where
  deriving DecidableEq, Repr

/-- Why a step has no meaning. -/
inductive Refusal where
  /-- Raised by an arm of `exec` whose command has no meaning yet; safe, for nothing can be proved of it. No arm raises it. -/
  | notModelled (mnemonic : String)
  deriving DecidableEq, Repr

/-- The state of the GS-24, by block (0.3), with the ports' output of the last step and the commands waiting. -/
structure State where
  straps  : Straps
  link    : Link
  lines   : List QueueEntry
  tables  : List ScriptTable
  slots   : Slots
  cache   : Cache
  fetches : List Fetch
  dir     : Directory
  store   : Store
  patrol  : Patrol
  seq     : Sequencer
  head    : Outstanding
  out     : List Output
  pending : List Instr
  deriving DecidableEq, Repr

namespace State

def setStraps (p : Straps) (s : State) : State := { s with straps := p }
def setLink (x : Link) (s : State) : State := { s with link := x }
def setLines (x : List QueueEntry) (s : State) : State := { s with lines := x }
def setTables (x : List ScriptTable) (s : State) : State := { s with tables := x }
def setSlots (x : Slots) (s : State) : State := { s with slots := x }
def setCache (x : Cache) (s : State) : State := { s with cache := x }
def setFetches (x : List Fetch) (s : State) : State := { s with fetches := x }
def setDir (x : Directory) (s : State) : State := { s with dir := x }
def setStore (x : Store) (s : State) : State := { s with store := x }
def setPatrol (x : Patrol) (s : State) : State := { s with patrol := x }
def setSeq (x : Sequencer) (s : State) : State := { s with seq := x }
def setHead (x : Outstanding) (s : State) : State := { s with head := x }
def setOut (x : List Output) (s : State) : State := { s with out := x }
def setPending (x : List Instr) (s : State) : State := { s with pending := x }

end State

/-! ## Reset values -/

/-- R181; with station number 0 the Link Controller is MUTE and owes no ENROL (R182). `tenure`: TENURE is found asserted. -/
def Link.afterReset (p : Straps) (tenure : Bool) : Link :=
  { state := if p.station = 0 then .mute else if tenure then .busyOther else .idle
    free := false, listens := false, tenure := .none, queue := [], exchange := none, requester := none, reply := none
    enrolDue := p.station ≠ 0, enrolWaits := false }

/-- R61: both slots EMPTY, the age mark absent. -/
def Slots.afterReset : Slots := { slot0 := .vacant, slot1 := .vacant, age := none }

/-- R84. -/
def Cache.afterReset : Cache := { entries := [], recency := [] }

/-- R103; with station number 0 the directory is OPERATIONAL (R98, R182). -/
def Directory.afterReset (p : Straps) : Directory :=
  { entries := [], state := if p.station = 0 then .operational else .enrolling, complete := false
    absent := List.replicate 16 false, outgoing := [], enrolWait := false }

/-- R123: logical bank b maps to physical bank b, nothing is held, and every cell is undefined. -/
def Store.afterPowerOn (p : Straps) (epoch : Nat) : Store :=
  { map := List.range p.banks, memory := [], epoch := epoch, index := [], writes := [], serve := none, reads := [] }

/-- R141. -/
def Patrol.afterPowerOn (p : Straps) : Patrol :=
  { banks := List.replicate p.banks { count := 0, state := .good }
    threshold := 24, drip := 4, sparing := true, enabled := true, posBank := 0, posCell := 0, passes := 0
    spare := if p.spare then .free else .absent, copySource := none, copyProgress := none
    intervalRuns := true, stepWaits := false, copyIntervalRuns := false, copyStepWaits := false }

/-- R166, the column of a power-on reset. -/
def Sequencer.afterPowerOn : Sequencer :=
  { state := .stopped, cutPending := false, stopPending := false, proof := false, cutRecord := none, closing := none
    expiryHeld := false, page := .noPage, owner := none, columns := 1, depth := 255
    galley := { page := 0, column := 0, line := 0 }, exposedSinceCut := false
    alarm := { line := 0, column := 0, page := 0, maskLine := false, maskCol := false, maskPage := false, autoCut := false }
    closeTimer := 0, acc := {} }

/-- The station after a power-on reset that reads the straps `p` (10.2.1). -/
def State.powerOn (p : Straps) (tenure : Bool) (epoch : Nat) : State :=
  { straps := p, link := .afterReset p tenure, lines := [], tables := List.replicate Config.scriptTables .blank
    slots := .afterReset, cache := .afterReset, fetches := [], dir := .afterReset p, store := .afterPowerOn p epoch
    patrol := .afterPowerOn p, seq := .afterPowerOn, head := .none, out := [], pending := [] }

/-- The machine right after a power-on reset of the board that log 3 names. -/
def State.reset : State := State.powerOn Config.boardStraps false 0

end Sys2Proof.Machine
end

