-- ==== Sys2Proof/Machine/Flags.lean ====
section
/-! DEFINITION. The line flags and the page accumulator: how flags are gathered (R57, R163). -/

namespace Sys2Proof.Machine

/-- The flags set in either (R57: each at most once). -/
def LineFlags.or (a b : LineFlags) : LineFlags :=
  { substituted := a.substituted || b.substituted, markOverflow := a.markOverflow || b.markOverflow
    uncovered := a.uncovered || b.uncovered, squeezed := a.squeezed || b.squeezed
    unjustified := a.unjustified || b.unjustified, staleImage := a.staleImage || b.staleImage
    alternateUsed := a.alternateUsed || b.alternateUsed, noDirectory := a.noDirectory || b.noDirectory }

/-- The accumulator takes the flags of a report as it is placed (R57, R163). -/
def Accumulator.takeReport (a : Accumulator) (f : LineFlags) : Accumulator := { a with line := a.line.or f }

/-- The line flags as bits 0 to 7 (11.3). -/
def LineFlags.bits (f : LineFlags) : List Bool :=
  [f.substituted, f.markOverflow, f.uncovered, f.squeezed, f.unjustified, f.staleImage, f.alternateUsed, f.noDirectory]

/-- The accumulator as bits 0 to 12 (11.3). -/
def Accumulator.bits (a : Accumulator) : List Bool :=
  a.line.bits ++ [a.alarm, a.closed, a.filmLow, a.reportLost, a.noticeLost]

/-- The number whose bit i is the i-th of the list. -/
def bitsToNat : List Bool → Nat
  | [] => 0
  | b :: bs => b.toNat + 2 * bitsToNat bs

namespace State

/-- A change of the page accumulator. -/
def setAcc (f : Accumulator → Accumulator) (s : State) : State := s.setSeq { s.seq with acc := f s.seq.acc }

/-- NOTICE-LOST becomes set (R163). -/
def noticeLost (s : State) : State := s.setAcc fun a => { a with noticeLost := true }

/-- REPORT-LOST becomes set (R163). -/
def reportLost (s : State) : State := s.setAcc fun a => { a with reportLost := true }

end State

end Sys2Proof.Machine
end

