-- ==== Sys2Proof/Machine/Operands.lean ====
section
/-! DEFINITION. The operands of commands: keys, spans and ranges, the scaling of master units, and the form of image records. -/

namespace Sys2Proof

/-! ## Keys (R1, R2) -/

/-- The key ordinal, face × 4096 + index (R1). -/
def Key.ordinal (k : Key) : Nat := k.face * 4096 + k.index

/-- A key field may carry an index up to 0FFFh (R189). -/
def Key.indexOk (k : Key) : Bool := k.index ≤ 4095

/-- A span covers a key of its face between its indices (R2). -/
def Span.covers (s : Span) (k : Key) : Bool := k.face == s.face && s.first ≤ k.index && k.index ≤ s.last

/-- R189: neither index above 0FFFh. -/
def Span.indexOk (s : Span) : Bool := s.first ≤ 4095 && s.last ≤ 4095

/-- A range covers the keys between its ends by ordinal (R2). -/
def KeyRange.covers (r : KeyRange) (k : Key) : Bool := r.first.ordinal ≤ k.ordinal && k.ordinal ≤ r.last.ordinal

/-- At least one key lies in both ranges, neither of them empty (R93). -/
def KeyRange.overlaps (a b : KeyRange) : Bool := a.first.ordinal ≤ b.last.ordinal && b.first.ordinal ≤ a.last.ordinal

/-- R189: no key field above 0FFFh. -/
def KeyRange.indexOk (r : KeyRange) : Bool := r.first.indexOk && r.last.indexOk

namespace Machine

/-! ## Scaling (R5, R6, R8) -/

/-- The advance at a size, rounded half up (R5). -/
def advanceAt (width size : Nat) : Nat := (width * size + 50) / 100

/-- A signed offset at a size, rounded half away from zero (R6). -/
def offsetAt (v : Int) (size : Nat) : Int :=
  if 0 ≤ v then ((v.natAbs * size + 50) / 100 : Nat) else -((v.natAbs * size + 50) / 100 : Nat)

/-- The advance of the missing-glyph box, half an em (R8). -/
def boxAdvance (size : Nat) : Nat := 5 * size

/-! ## Image records (R3) -/

/-- The ranges of the declared fields of an image (R3). -/
def fieldsInRange (advanceWidth : Nat) (originX originY : Int) (imageLength : Nat) : Bool :=
  advanceWidth ≤ 2000 && -1000 ≤ originX && originX ≤ 1000 && -1000 ≤ originY && originY ≤ 1000
    && 8 ≤ imageLength && imageLength ≤ 512

/-- A glyph image record is well formed (R3). -/
def ImageRecord.wellFormed (r : ImageRecord) : Bool :=
  fieldsInRange r.advanceWidth r.originX r.originY r.imageLength && r.bytes.length == r.imageLength

/-- Cells of an image of `n` bytes, and LOAD pieces that carry it (R107, R110). -/
def cellsFor (n : Nat) : Nat := (n + 63) / 64

/-! ## Codes of a LINE frame (11.3) -/

def modeOf : Nat → Option Mode
  | 0 => some .left
  | 1 => some .right
  | 2 => some .centre
  | 3 => some .justify
  | _ => none

def dirOf : Nat → Option Dir
  | 0 => some .ltr
  | 1 => some .rtl
  | _ => none

/-- A run as accepted, when its table, direction, size and codes are in range (R4, R13). -/
def runOf (r : RunFrame) : Option Run :=
  match dirOf r.dir with
  | some d =>
    if r.table < 16 && 8 ≤ r.size && r.size ≤ 240 && 1 ≤ r.codes.length && r.codes.length ≤ 120 then
      some { table := r.table, dir := d, face := r.face, size := r.size, codes := r.codes }
    else none
  | none => none

/-- All of a list, or nothing. -/
def allSome {α β : Type} (f : α → Option β) : List α → Option (List β)
  | [] => some []
  | x :: xs =>
    match f x, allSome f xs with
    | some y, some ys => some (y :: ys)
    | _, _ => none

/-- The line request of a LINE frame from `src`, or nothing when it is malformed (R4, R13). -/
def requestOf (src : Nat) (l : LineFrame) : Option (LineHeader × List Run) :=
  match modeOf l.mode, dirOf l.baseDir, allSome runOf l.runs with
  | some m, some d, some rs =>
    if 1 ≤ l.measure && l.measure ≤ 32767 && 1 ≤ l.leading && l.leading ≤ 4095 && l.squeeze ≤ 15
        && 1 ≤ l.runs.length && l.runs.length ≤ 8 && (l.runs.map fun r => r.codes.length).sum ≤ 120 then
      some ({ number := l.number, requester := src, measure := l.measure, leading := l.leading, mode := m, baseDir := d
              squeeze := l.squeeze }, rs)
    else none
  | _, _, _ => none

end Machine

end Sys2Proof
end

