-- ==== Sys2Proof/Machine/Measure.lean ====
section
/-! DEFINITION. Measure, squeeze, setting modes and positions of a line whose placements are all RESOLVED or SUBSTITUTED (R12,
R48 to R53). -/

namespace Sys2Proof.Machine

namespace Placement

def isBase (p : Placement) : Bool := p.role != .mark

/-- RESOLVED or SUBSTITUTED. -/
def done (p : Placement) : Bool := p.state == .resolved || p.state == .substituted

/-- The advance, 0 while absent. -/
def width (p : Placement) : Nat := p.advance.getD 0

end Placement

/-- The y offsets of a list in visual order: a MARK's is the sum of the converted origins y of the marks of its cluster up to it,
and absent while one of them has none (R12). `sum` runs over the marks of the current cluster. -/
def withY (sum : Option Int) : List Placement → List Placement
  | [] => []
  | p :: ps =>
    if p.isBase then p :: withY (some 0) ps
    else
      let sum' := match sum, p.origin with
        | some a, some o => some (a + o.2)
        | _, _ => none
      { p with y := sum' } :: withY sum' ps

/-- The cluster bases in visual order (R11). -/
def bases (ps : List Placement) : List Placement := ps.filter Placement.isBase

/-- The advances of the clusters in visual order (R11). -/
def advances (ps : List Placement) : List Nat := (bases ps).map Placement.width

/-- The natural width N (R48). -/
def naturalWidth (ps : List Placement) : Nat := (advances ps).sum

/-- The limits of the gaps, from the left (R48, R49). -/
def gapLimits (squeeze : Nat) (ps : List Placement) : List Nat := (advances ps).dropLast.map (min squeeze)

/-- The squeeze capacity C (R48). -/
def capacity (squeeze : Nat) (ps : List Placement) : Nat := (gapLimits squeeze ps).sum

/-- One round over the gaps, each (limit, reduction), with `e` units still to take: every gap below its limit is reduced by one
until none is left (R49). -/
def squeezeRound : Nat → List (Nat × Nat) → Nat × List (Nat × Nat)
  | e, [] => (e, [])
  | e, g :: gs =>
    if 0 < e && g.2 < g.1 then
      let r := squeezeRound (e - 1) gs
      (r.1, (g.1, g.2 + 1) :: r.2)
    else
      let r := squeezeRound e gs
      (r.1, g :: r.2)

/-- `n` rounds (R49). -/
def squeezeRounds : Nat → Nat → List (Nat × Nat) → List (Nat × Nat)
  | 0, _, gs => gs
  | n + 1, e, gs =>
    let r := squeezeRound e gs
    squeezeRounds n r.1 r.2

/-- The reductions of the gaps for an excess E: no limit is above the squeeze, so as many rounds as the squeeze are enough (R49). -/
def gapReductions (squeeze e : Nat) (ps : List Placement) : List Nat :=
  (squeezeRounds squeeze e ((gapLimits squeeze ps).map fun l => (l, 0))).map (·.2)

/-- The additions of JUSTIFY by visual place: each SPACE cluster takes the quotient, the leftmost ones, as many as the remainder,
one unit more (R52). -/
def justifyAdditions (quotient : Nat) : Nat → List Placement → List Nat
  | _, [] => []
  | rest, p :: ps =>
    if p.role = .space then
      if rest = 0 then quotient :: justifyAdditions quotient 0 ps
      else (quotient + 1) :: justifyAdditions quotient (rest - 1) ps
    else 0 :: justifyAdditions quotient rest ps

/-- The number of SPACE clusters, k (R52). -/
def spaceCount (ps : List Placement) : Nat := ((bases ps).filter fun p => p.role == .space).length

/-- What measurement finds: the line is set (with the flags SQUEEZED or UNJUSTIFIED), or it is overset with its narrowest width
(R48 to R52). -/
inductive Measured where
  | fits (m : Measurement) (squeezed unjustified : Bool)
  | overset (natural narrowest : Nat)
  deriving DecidableEq, Repr

/-- LEFT, RIGHT and CENTRE (R51). -/
def setAt (natural start : Nat) : Measurement :=
  { natural := natural, set := natural, start := start, gaps := [], additions := [] }

/-- A line that fits, set in its mode; X is the extra width (R51, R52). -/
def setInMode (h : LineHeader) (ps : List Placement) : Measured :=
  let n := naturalWidth ps
  let x := h.measure - n
  match h.mode with
  | .left => .fits (setAt n 0) false false
  | .right => .fits (setAt n x) false false
  | .centre => .fits (setAt n (x / 2)) false false
  | .justify =>
    let k := spaceCount ps
    if k = 0 then
      match h.baseDir with
      | .ltr => .fits (setAt n 0) false true
      | .rtl => .fits (setAt n x) false true
    else
      .fits { natural := n, set := h.measure, start := 0, gaps := [], additions := justifyAdditions (x / k) (x % k) (bases ps) }
        false false

/-- The measurement of a line (R48). -/
def measureLine (h : LineHeader) (ps : List Placement) : Measured :=
  let n := naturalWidth ps
  if n ≤ h.measure then setInMode h ps
  else
    let e := n - h.measure
    let c := capacity h.squeeze ps
    if e ≤ c then
      .fits { natural := n, set := h.measure, start := 0, gaps := gapReductions h.squeeze e ps, additions := [] } true false
    else .overset n (n - c)

/-- Positions from the left: `x` is where the next cluster's base stands, `at_` where the current one's does; a MARK stands at its
base's plus its converted origin x (R12, R53). -/
def withX (x at_ : Int) : List Nat → List Nat → List Placement → List Placement
  | _, _, [] => []
  | gaps, adds, p :: ps =>
    if p.isBase then
      { p with x := some x } :: withX (x + p.width + adds.headD 0 - gaps.headD 0) x gaps.tail adds.tail ps
    else { p with x := some (at_ + (p.origin.getD (0, 0)).1) } :: withX x at_ gaps adds ps

/-- Every placement takes its x position (R53). -/
def positioned (m : Measurement) (ps : List Placement) : List Placement := withX m.start m.start m.gaps m.additions ps

end Sys2Proof.Machine
end

