-- ==== Sys2Proof/Machine/Cache.lean ====
section
/-! DEFINITION. The Image Cache: lookup, pins and recency, insertion and eviction, invalidation and clearing (R76 to R84). -/

namespace Sys2Proof.Machine

namespace Cache

/-- The entry of a number. -/
def entry (c : Cache) (n : Nat) : Option CacheEntry := (c.entries.find? fun e => e.1 == n).map (·.2)

/-- The number of the VALID entry for a key (R78). -/
def validNumber (c : Cache) (k : Key) : Option Nat :=
  (c.entries.find? fun e => e.2.key == k && e.2.state == .valid).map (·.1)

/-- A change of the entry of a number. -/
def update (n : Nat) (f : CacheEntry → CacheEntry) (c : Cache) : Cache :=
  { c with entries := c.entries.map fun e => if e.1 == n then (e.1, f e.2) else e }

/-- The entry of a number leaves the cache. -/
def drop (n : Nat) (c : Cache) : Cache :=
  { entries := c.entries.filter fun e => e.1 != n, recency := c.recency.filter fun m => m != n }

/-- A placement comes to refer to an entry: its count becomes one higher, and it leaves the recency order (R77). -/
def pin (n : Nat) (c : Cache) : Cache :=
  let c' := c.update n fun e => { e with pins := e.pins + 1 }
  { c' with recency := c.recency.filter fun m => m != n }

/-- A placement stops referring to an entry: at count 0 a VALID entry joins the recency order as most recently used, and a
STALE entry leaves the cache (R77). -/
def unpin (n : Nat) (c : Cache) : Cache :=
  match c.entry n with
  | none => c
  | some e =>
    if 1 < e.pins then c.update n fun e => { e with pins := e.pins - 1 }
    else match e.state with
      | .stale => c.drop n
      | .valid =>
        let c' := c.update n fun e => { e with pins := 0 }
        { c' with recency := (c.recency.filter fun m => m != n) ++ [n] }

/-- The pins of a released list, in list order (R77, log 25). -/
def unpinAll (refs : List Nat) (c : Cache) : Cache := refs.foldl (fun c n => c.unpin n) c

/-- The lowest number from `k` that ascending entries leave free. -/
def firstFree : Nat → List (Nat × CacheEntry) → Nat
  | k, [] => k
  | k, e :: rest => if e.1 == k then firstFree (k + 1) rest else k

/-- The number of a new entry: the lowest free one, or, when 256 are held, that of the least recently used (R79). A full cache
with no unpinned entry does not occur (R76); number 0 stands for it (log 28). -/
def newNumber (c : Cache) : Nat :=
  if c.entries.length < Config.cacheCapacity then firstFree 0 c.entries else c.recency.headD 0

def insertSorted (n : Nat) (e : CacheEntry) : List (Nat × CacheEntry) → List (Nat × CacheEntry)
  | [] => [(n, e)]
  | x :: xs => if n < x.1 then (n, e) :: x :: xs else x :: insertSorted n e xs

/-- An insertion: a new VALID entry, unpinned and most recently used, with the number it takes (R79). The placements it was made
for pin it next (R77). -/
def insert (r : ImageRecord) (o : Origin) (c : Cache) : Nat × Cache :=
  let n := c.newNumber
  let c' := c.drop n
  (n, { entries := insertSorted n { key := r.key, record := r, state := .valid, pins := 0, origin := o } c'.entries
        recency := c'.recency ++ [n] })

/-- The pinned VALID entries of a span: those that an INVALIDATE makes STALE (R81). -/
def madeStale (sp : Span) (c : Cache) : List Nat :=
  (c.entries.filter fun e => sp.covers e.2.key && e.2.state == .valid && 0 < e.2.pins).map (·.1)

/-- An INVALIDATE on the entries: the unpinned VALID ones of the span leave, the pinned ones become STALE (R81). -/
def invalidate (sp : Span) (c : Cache) : Cache :=
  let leaves := fun (e : CacheEntry) => sp.covers e.key && e.state == .valid && e.pins == 0
  let gone := (c.entries.filter fun e => leaves e.2).map (·.1)
  { entries := (c.entries.filter fun e => !leaves e.2).map fun e =>
      if sp.covers e.2.key then (e.1, { e.2 with state := .stale }) else e
    recency := c.recency.filter fun n => !gone.contains n }

/-- STATION-CLEAR: only the entries that an exposing slot's references name stay, pinned by those references (R83). -/
def keepOnly (refs : List Nat) (c : Cache) : Cache :=
  { entries := (c.entries.filter fun e => refs.contains e.1).map fun e => (e.1, { e.2 with pins := refs.count e.1 })
    recency := [] }

end Cache

end Sys2Proof.Machine
end

