-- ==== Sys2Proof/Machine/Directory.lean ====
section
/-! DEFINITION. The Directory Unit: ways and lookup, target choice, marks, ANNOUNCE and WITHDRAW on the directory's entries
(R64, R86 to R102). -/

namespace Sys2Proof.Machine

namespace Way

/-- A station is a holder of a way (R86). -/
def holds (w : Way) (station : Nat) : Bool := w.primary == station || w.alternate == station

/-- A holder's struck mark becomes set; a way that does not name the station is unchanged (R91, R99). -/
def strike (station : Nat) (w : Way) : Way :=
  { w with primaryStruck := w.primaryStruck || (w.primary == station)
           alternateStruck := w.alternateStruck || (w.alternate == station && w.alternate != 0) }

/-- The station is a holder of the way and its mark is clear (R100). -/
def unstruckFor (station : Nat) (w : Way) : Bool :=
  (w.primary == station && !w.primaryStruck) || (w.alternate == station && !w.alternateStruck)

end Way

namespace DirEntry

def range (e : DirEntry) : KeyRange := { first := e.first, last := e.last }

/-- The number of the way of a key (R87). -/
def wayNumber (e : DirEntry) (k : Key) : Nat := (k.ordinal - e.first.ordinal) % e.ways.length

/-- A station is a holder of an entry (R86). -/
def heldBy (e : DirEntry) (station : Nat) : Bool := e.ways.any fun w => w.holds station

/-- The station's struck mark becomes set in every way in which it is a holder (R96, R99, R100). -/
def strike (station : Nat) (e : DirEntry) : DirEntry := { e with ways := e.ways.map (Way.strike station) }

end DirEntry

namespace Directory

/-- The entry whose range covers a key; ranges never overlap (R88). -/
def entryOf (d : Directory) (k : Key) : Option DirEntry := d.entries.find? fun e => e.range.covers k

/-- The way of a key (R87, R88). -/
def wayOf (d : Directory) (k : Key) : Option Way :=
  match d.entryOf k with
  | some e => e.ways[e.wayNumber k]?
  | none => none

/-- The ABSENT mark of a station (R90). -/
def isAbsent (d : Directory) (station : Nat) : Bool := d.absent.getD station false

/-- The ABSENT mark of a station becomes clear; there is none for source 0 (R90, R189). -/
def clearAbsent (station : Nat) (d : Directory) : Directory := { d with absent := d.absent.set station false }

/-- The ABSENT mark of a station becomes set (R90). -/
def setAbsent (station : Nat) (d : Directory) : Directory := { d with absent := d.absent.set station true }

/-- A holder that may be asked: not 0, not struck, not this station, not tried (R64). -/
def mayAsk (own : Nat) (tried : List Nat) (holder : Nat) (struck : Bool) : Bool :=
  holder != 0 && !struck && holder != own && !tried.contains holder

/-- The candidates of a way, primary first (R64). -/
def candidates (own : Nat) (tried : List Nat) (w : Way) : List (Nat × TargetRole) :=
  (if mayAsk own tried w.primary w.primaryStruck then [(w.primary, .primary)] else [])
    ++ (if mayAsk own tried w.alternate w.alternateStruck then [(w.alternate, .alternate)] else [])

/-- The target for a key: the first candidate without an ABSENT mark, or the first candidate (R64). -/
def chooseTarget (own : Nat) (tried : List Nat) (d : Directory) (k : Key) : Option (Nat × TargetRole) :=
  match d.wayOf k with
  | none => none
  | some w =>
    match (candidates own tried w).find? fun t => !d.isAbsent t.1 with
    | some t => some t
    | none => (candidates own tried w).head?

/-- A NOT-HELD outcome strikes the target in the way of the key (R91). -/
def strikeNotHeld (k : Key) (station : Nat) (d : Directory) : Directory :=
  { d with entries := d.entries.map fun e =>
      if e.range.covers k then { e with ways := e.ways.modify (e.wayNumber k) (Way.strike station) } else e }

/-- A WITHDRAW strikes its sender in every entry that a listed range overlaps (R99). -/
def strikeRanges (ranges : List KeyRange) (station : Nat) (d : Directory) : Directory :=
  { d with entries := d.entries.map fun e => if ranges.any (·.overlaps e.range) then e.strike station else e }

/-! ## ANNOUNCE -/

/-- R92. -/
def announceValid (a : AnnounceFrame) : Bool :=
  a.first.ordinal ≤ a.last.ordinal && a.version != 0 && a.ways.length ≤ 4
    && a.ways.all fun w => 1 ≤ w.primary && w.primary ≤ 15 && w.alternate ≤ 15 && w.alternate != w.primary

def announceRange (a : AnnounceFrame) : KeyRange := { first := a.first, last := a.last }

/-- The entries that an ANNOUNCE overlaps (R93). -/
def overlapped (a : AnnounceFrame) (d : Directory) : List DirEntry := d.entries.filter fun e => e.range.overlaps (announceRange a)

/-- An overlapped entry has an equal or higher version: the ANNOUNCE is ignored as to its range (R93). -/
def announceOld (a : AnnounceFrame) (d : Directory) : Bool := (d.overlapped a).any fun e => a.version ≤ e.version

/-- The table cannot hold the result (R94). -/
def announceNoRoom (a : AnnounceFrame) (d : Directory) : Bool :=
  !a.ways.isEmpty && Config.directoryCapacity < d.entries.length - (d.overlapped a).length + 1

/-- The new entry of an ANNOUNCE, its struck marks clear (R96). -/
def newEntry (a : AnnounceFrame) : DirEntry :=
  { first := a.first, last := a.last, version := a.version
    ways := a.ways.map fun w =>
      { primary := w.primary, alternate := w.alternate, primaryStruck := false, alternateStruck := false } }

/-- Ascending order of first key (R86). -/
def insertEntry (e : DirEntry) : List DirEntry → List DirEntry
  | [] => [e]
  | x :: xs => if e.first.ordinal < x.first.ordinal then e :: x :: xs else x :: insertEntry e xs

/-- The overlapped entries are removed, and the items taken from them leave the outgoing withdrawal list (R93, R102). -/
def removeOverlapped (a : AnnounceFrame) (d : Directory) : Directory :=
  { d with entries := d.entries.filter fun e => !e.range.overlaps (announceRange a)
           outgoing := d.outgoing.filter fun r => !((d.overlapped a).map DirEntry.range).contains r }

/-- The new entry is inserted; when `struck`, it is struck for this station and its range is listed (R96). -/
def insertNew (own : Nat) (a : AnnounceFrame) (struck : Bool) (d : Directory) : Directory :=
  let e := newEntry a
  if struck then
    { d with entries := insertEntry (e.strike own) d.entries, outgoing := d.outgoing ++ [e.range] }
  else { d with entries := insertEntry e d.entries }

/-- The COMPLETE flag takes effect: the complete mark is set, the directory becomes OPERATIONAL and the enrol wait ends
(R97, R184). -/
def takeComplete (d : Directory) : Directory := { d with complete := true, state := .operational, enrolWait := false }

/-! ## This station's own withdrawal -/

/-- The entries struck by the withdrawal of a bank that holds a VALID record in each range `inBank` accepts (R100). -/
def strikesOwn (own : Nat) (inBank : KeyRange → Bool) (e : DirEntry) : Bool :=
  e.ways.any (Way.unstruckFor own) && inBank e.range

/-- This station is struck in those entries and their ranges join the outgoing withdrawal list (R100). -/
def withdrawOwn (own : Nat) (inBank : KeyRange → Bool) (d : Directory) : Directory :=
  { d with entries := d.entries.map fun e => if strikesOwn own inBank e then e.strike own else e
           outgoing := d.outgoing ++ (d.entries.filter (strikesOwn own inBank)).map DirEntry.range }

/-- How many ranges that withdrawal lists (R140). -/
def ranges (own : Nat) (inBank : KeyRange → Bool) (d : Directory) : Nat := (d.entries.filter (strikesOwn own inBank)).length

/-- The enrol wait starts when the ENROL leaves the queue, unless the directory is already OPERATIONAL (R184). -/
def startWait (d : Directory) : Directory :=
  match d.state with
  | .enrolling => { d with enrolWait := true }
  | .operational => d

/-- The enrol wait runs out (R184). -/
def expireWait (d : Directory) : Directory := { d with state := .operational, enrolWait := false }

end Directory

end Sys2Proof.Machine
end

