-- ==== Sys2Proof/Machine/Layout.lean ====
section
/-! DEFINITION. The layouts of chapter 11: the check word, the frames and replies this station builds, the line transfer, and the
reading of an arrived frame into a command, with the checks of R188 and R189. -/

namespace Sys2Proof.Machine

/-! ## Fields: most significant bit and byte first (chapter 11) -/

/-- A field of `n` bits. -/
def bitsOf : Nat → Nat → List Bool
  | 0, _ => []
  | n + 1, v => v.testBit n :: bitsOf n v

/-- A field of `n` bytes. -/
def bytesOf : Nat → Nat → List Byte
  | 0, _ => []
  | n + 1, v => bytesOf n (v / 256) ++ [BitVec.ofNat 8 v]

/-- A signed field of two bytes, two's complement. -/
def signedBytes (v : Int) : List Byte := bytesOf 2 (BitVec.ofInt 16 v).toNat

/-- A field of one byte, read. -/
def read1 (a : Byte) : Nat := a.toNat
/-- A field of two bytes, read. -/
def read2 (a b : Byte) : Nat := a.toNat * 256 + b.toNat
/-- A signed field of two bytes, read. -/
def readSigned (a b : Byte) : Int := (BitVec.ofNat 16 (read2 a b)).toInt
/-- A glyph key takes 3 bytes, face then index (11.1). -/
def readKey (a b c : Byte) : Key := { face := read1 a, index := read2 b c }

def keyBytes (k : Key) : List Byte := bytesOf 1 k.face ++ bytesOf 2 k.index
def rangeBytes (r : KeyRange) : List Byte := keyBytes r.first ++ keyBytes r.last

/-! ## The check word (R187) -/

/-- One bit through the generator x^16+x^12+x^5+1. -/
def checkStep (c : Word16) (b : Bool) : Word16 := if c.msb != b then (c <<< 1) ^^^ 0x1021#16 else c <<< 1

/-- From FFFFh, each bit in the order sent, no final inversion (R187). -/
def checkWord (bits : List Bool) : Word16 := bits.foldl checkStep 0xFFFF#16

def payloadBits (p : List Byte) : List Bool := (p.map fun b => bitsOf 8 b.toNat).flatten

/-- From the first class bit to the last payload bit (R187, 11.1). -/
def frameBits (f : RawFrame) : List Bool :=
  bitsOf 2 f.cls ++ bitsOf 4 f.kind ++ bitsOf 4 f.src ++ bitsOf 4 f.dst ++ bitsOf 10 f.payload.length ++ payloadBits f.payload

/-- From the first source bit to the last payload bit (R187, 11.1). -/
def replyBits (r : RawReply) : List Bool :=
  bitsOf 4 r.src ++ bitsOf 4 r.dst ++ bitsOf 2 r.status ++ bitsOf 10 r.payload.length ++ payloadBits r.payload

/-! ## The arbitration field (R168) -/

/-- The ten bits of an arbitration field in the order sent: class, kind, source. -/
def arbBits (a : Arb) : List Bool := bitsOf 2 a.cls ++ bitsOf 4 a.kind ++ bitsOf 4 a.src

/-- Class and kind of a frame of the transmit queue (11.2). -/
def TxFrame.cls : TxFrame → Nat
  | .enrol _ | .withdraw _ => 1
  | .report _ _ | .notice _ _ => 2

def TxFrame.kind : TxFrame → Nat
  | .enrol _ => 1
  | .withdraw _ => 3
  | .report _ _ => 3
  | .notice _ _ => 4

/-- ENROL and WITHDRAW go to all stations (R101, R183). -/
def TxFrame.dst : TxFrame → Nat
  | .enrol _ | .withdraw _ => 0
  | .report d _ | .notice d _ => d

/-! ## Frames built (11.3) -/

def outcomeCode : LineOutcome → Nat
  | .set => 0
  | .overset => 1
  | .closed => 2
  | .cleared => 3
  | .cutShort => 4

def galleyBytes (g : Galley) : List Byte := bytesOf 2 g.page ++ bytesOf 1 g.column ++ bytesOf 1 g.line

def enrolBytes (e : EnrolFields) : List Byte :=
  bytesOf 1 e.station ++ bytesOf 1 e.banks ++ bytesOf 1 (bitsToNat [e.spare, e.head]) ++ bytesOf 2 e.records

def withdrawBytes (rs : List KeyRange) : List Byte := bytesOf 1 rs.length ++ (rs.map rangeBytes).flatten

def reportBytes (r : LineReport) : List Byte :=
  bytesOf 2 r.number ++ bytesOf 1 (outcomeCode r.outcome) ++ bytesOf 3 r.natural ++ bytesOf 3 r.set
    ++ bytesOf 1 r.placements ++ bytesOf 1 r.substituted ++ bytesOf 1 (bitsToNat r.flags.bits)
    ++ (match r.galley with
        | some g => galleyBytes g
        | none => [])

def noticeBytes : Notice → List Byte
  | .proofReady n => bytesOf 1 1 ++ bytesOf 2 n
  | .pageEnd c g a =>
    bytesOf 1 2 ++ bytesOf 1 (match c with
      | .pageEnd => 0
      | .expiry => 1) ++ galleyBytes g ++ bytesOf 2 (bitsToNat a.bits)
  | .alarm g => bytesOf 1 3 ++ galleyBytes g
  | .filmLow => bytesOf 1 4
  | .headFault out n =>
    bytesOf 1 5 ++ bytesOf 1 (if out then 0 else 1) ++ (match n with
      | some l => bytesOf 2 l
      | none => [])
  | .commandRefused c p r =>
    bytesOf 1 6 ++ bytesOf 1 c ++ bytesOf 1 p ++ bytesOf 1 (match r with
      | .sender => 0
      | .state => 1)
  | .loadRefused k r =>
    bytesOf 1 7 ++ keyBytes k ++ bytesOf 1 (match r with
      | .noIndexRoom => 0
      | .noCellRoom => 1)
  | .poisoned k b => bytesOf 1 8 ++ keyBytes k ++ bytesOf 1 b
  | .spared b => bytesOf 1 9 ++ bytesOf 1 b
  | .withdrawn b n m => bytesOf 1 10 ++ bytesOf 1 b ++ bytesOf 2 n ++ bytesOf 1 m

def TxFrame.payload : TxFrame → List Byte
  | .enrol e => enrolBytes e
  | .withdraw rs => withdrawBytes rs
  | .report _ r => reportBytes r
  | .notice _ n => noticeBytes n

/-- A frame of the transmit queue as station `src` sends it. -/
def TxFrame.raw (src : Nat) (f : TxFrame) : RawFrame :=
  { cls := f.cls, kind := f.kind, src := src, dst := f.dst, payload := f.payload }

/-- A FETCH as station `src` sends it to its target (11.1). -/
def fetchFrame (src target : Nat) (k : Key) : RawFrame :=
  { cls := 0, kind := 1, src := src, dst := target, payload := keyBytes k }

/-! ## Replies (11.1) -/

def imageFields (r : ImageRecord) : List Byte :=
  bytesOf 2 r.advanceWidth ++ signedBytes r.originX ++ signedBytes r.originY ++ bytesOf 2 r.imageLength ++ r.bytes

def Reply.status : Reply → Nat
  | .image _ => 0
  | .defer => 1
  | .damaged => 2
  | .notHeld => 3

def Reply.payload : Reply → List Byte
  | .image r => keyBytes r.key ++ imageFields r
  | .defer | .damaged | .notHeld => []

/-- A reply as holder `src` sends it to requester `dst`. -/
def Reply.raw (src dst : Nat) (r : Reply) : RawReply := { src := src, dst := dst, status := r.status, payload := r.payload }

/-- The record of an IMAGE reply's payload, nothing when the payload is too short for its fields or its length is not
11 + the image length (R189). -/
def readImage : List Byte → Option ImageRecord
  | a :: b :: c :: w1 :: w2 :: x1 :: x2 :: y1 :: y2 :: n1 :: n2 :: bytes =>
    if bytes.length = read2 n1 n2 then
      some { key := readKey a b c, advanceWidth := read2 w1 w2, originX := readSigned x1 x2, originY := readSigned y1 y2
             imageLength := read2 n1 n2, bytes := bytes }
    else none
  | _ => none

/-! ## The line transfer (11.4) -/

def roleCode : Role → Nat
  | .base => 0
  | .mark => 1
  | .ligature => 2
  | .space => 3
  | .substitute => 4

/-- The x position of a placement, signed, three bytes. -/
def xBytes (x : Int) : List Byte := bytesOf 3 (BitVec.ofInt 24 x).toNat

def HeadPlacement.bytes (p : HeadPlacement) : List Byte :=
  bytesOf 1 (roleCode p.role + (if p.box then 64 else 0) + (if p.record.isSome then 128 else 0)) ++ xBytes p.x ++ bytesOf 1 p.size
    ++ (match p.y with
        | some y => signedBytes y
        | none => [])
    ++ (match p.record with
        | some r => imageFields r
        | none => [])

/-- The bytes of a line transfer (11.4). -/
def LineTransfer.bytes (t : LineTransfer) : List Byte :=
  bytesOf 2 t.leading ++ bytesOf 1 t.placements.length ++ (t.placements.map HeadPlacement.bytes).flatten

/-! ## Reading an arrived frame (R188)

The reader of a kind answers nothing when the payload's length is not what its fields declare. -/

def readWays : List Byte → Option (List WayFrame)
  | [] => some []
  | p :: a :: rest => (readWays rest).map ({ primary := read1 p, alternate := read1 a } :: ·)
  | [_] => none

def readAnnounce : List Byte → Option AnnounceFrame
  | f0 :: f1 :: f2 :: l0 :: l1 :: l2 :: v1 :: v0 :: flags :: n :: rest =>
    match readWays rest with
    | some ws =>
      if ws.length = read1 n then
        some { first := readKey f0 f1 f2, last := readKey l0 l1 l2, version := read2 v1 v0, ways := ws
               complete := flags.getLsbD 0 }
      else none
    | none => none
  | _ => none

def readRanges : List Byte → Option (List KeyRange)
  | [] => some []
  | a :: b :: c :: d :: e :: f :: rest => (readRanges rest).map ({ first := readKey a b c, last := readKey d e f } :: ·)
  | _ => none

def readWithdraw : List Byte → Option (List KeyRange)
  | n :: rest =>
    match readRanges rest with
    | some rs => if rs.length = read1 n then some rs else none
    | none => none
  | [] => none

def readSpan : List Byte → Option Span
  | [f, a, b, c, d] => some { face := read1 f, first := read2 a b, last := read2 c d }
  | _ => none

/-- Bit i of the presence byte marks a field as present (11.3). -/
def present (flags : Byte) (i : Nat) (v : Byte) : Option Nat := if flags.getLsbD i then some (read1 v) else none

def readPolicy : List Byte → Option PolicyFrame
  | [p, a, b, c, d, e, f] =>
    some { threshold := present p 0 a, drip := present p 1 b, sparing := present p 2 c, patrol := present p 3 d
           thaw := present p 4 e, force := present p 5 f }
  | _ => none

/-- `n` two-byte codes and what follows them. -/
def readCodes : Nat → List Byte → Option (List Nat × List Byte)
  | 0, bs => some ([], bs)
  | n + 1, a :: b :: rest => (readCodes n rest).map fun r => (read2 a b :: r.1, r.2)
  | _ + 1, _ => none

/-- `n` runs that take up all the bytes. -/
def readRuns : Nat → List Byte → Option (List RunFrame)
  | 0, [] => some []
  | n + 1, t :: d :: f :: s :: c :: rest =>
    match readCodes (read1 c) rest with
    | some (codes, rest') =>
      (readRuns n rest').map ({ table := read1 t, dir := read1 d, face := read1 f, size := read1 s, codes := codes } :: ·)
    | none => none
  | _, _ => none

def readLine : List Byte → Option LineFrame
  | n1 :: n0 :: m1 :: m0 :: l1 :: l0 :: mode :: dir :: sq :: count :: rest =>
    (readRuns (read1 count) rest).map fun rs =>
      { number := read2 n1 n0, measure := read2 m1 m0, leading := read2 l1 l0, mode := read1 mode, baseDir := read1 dir
        squeeze := read1 sq, runs := rs }
  | _ => none

/-- The commands without fields, by code (11.3). -/
def plainCommand : Nat → Option ControlCmd
  | 2 => some .pageEnd
  | 3 => some .run
  | 4 => some .stop
  | 5 => some .cut
  | 6 => some .galleyReset
  | 7 => some .proofOn
  | 8 => some .proofOff
  | 9 => some .proceed
  | 11 => some .clearFlags
  | 12 => some .stationClear
  | _ => none

/-- One command and what follows it. -/
def readCommand : List Byte → Option (ControlCmd × List Byte)
  | [] => none
  | code :: rest =>
    if read1 code = 1 then
      match rest with
      | c :: d :: t1 :: t0 :: rest' => some (.pageBegin (read1 c) (read1 d) (read2 t1 t0), rest')
      | _ => none
    else if read1 code = 10 then
      match rest with
      | l :: c :: p :: m :: a :: rest' =>
        some (.alarmSet { line := read1 l, column := read1 c, page := read1 p, maskLine := m.getLsbD 0, maskCol := m.getLsbD 1
                          maskPage := m.getLsbD 2, autoCut := read1 a }, rest')
      | _ => none
    else (plainCommand (read1 code)).map fun c => (c, rest)

/-- `n` commands that take up all the bytes. -/
def readCommands : Nat → List Byte → Option (List ControlCmd)
  | 0, [] => some []
  | n + 1, bs =>
    match readCommand bs with
    | some (c, rest) => (readCommands n rest).map (c :: ·)
    | none => none
  | 0, _ :: _ => none

def readControl : List Byte → Option (List ControlCmd)
  | n :: rest => readCommands (read1 n) rest
  | [] => none

/-- The joining class in the top two bits of the class and isolated field (11.3). -/
def classOf : Nat → JoinClass
  | 0 => .none
  | 1 => .right
  | 2 => .dual
  | _ => .mark

def readEntries : List Byte → Option (List CodeEntry)
  | [] => some []
  | a :: b :: c :: d :: e :: f :: g :: h :: rest =>
    (readEntries rest).map
      ({ cls := classOf (read2 a b / 16384), isolated := read2 a b % 4096, final := read2 c d, initial := read2 e f
         medial := read2 g h } :: ·)
  | _ => none

def readLigatures : List Byte → Option (List LigEntry)
  | [] => some []
  | a :: b :: c :: d :: e :: f :: rest =>
    (readLigatures rest).map ({ first := read2 a b, second := read2 c d, ligature := read2 e f } :: ·)
  | _ => none

/-- A SCRIPT-LOAD piece, by its type 1 to 4 (11.3). -/
def readScript (h : Hdr) : List Byte → Option Instr
  | table :: type :: rest =>
    if read1 type = 1 then
      match rest with
      | [b1, b0, c1, c0, l, s1, s0, w1, w0] =>
        some (.header h (read1 table) { codeBase := read2 b1 b0, codeCount := read2 c1 c0, ligCount := read1 l
                                        spaceCode := read2 s1 s0, spaceWidth := read2 w1 w0 })
      | _ => none
    else if read1 type = 2 then
      match rest with
      | f1 :: f0 :: n :: es =>
        match readEntries es with
        | some xs => if xs.length = read1 n then some (.classBlock h (read1 table) (read2 f1 f0) xs) else none
        | none => none
      | _ => none
    else if read1 type = 3 then
      match rest with
      | f :: n :: es =>
        match readLigatures es with
        | some xs => if xs.length = read1 n then some (.ligature h (read1 table) (read1 f) xs) else none
        | none => none
      | _ => none
    else if read1 type = 4 then
      match rest with
      | [] => some (.commit h (read1 table))
      | _ => none
    else none
  | _ => none

/-- A LOAD piece: at least 13 bytes for piece 0 and 5 for the others (R188). -/
def readLoad (h : Hdr) : List Byte → Option Instr
  | a :: b :: c :: n :: count :: rest =>
    if read1 n = 0 then
      match rest with
      | w1 :: w0 :: x1 :: x0 :: y1 :: y0 :: l1 :: l0 :: bytes =>
        some (.loadPiece0 h { key := readKey a b c, pieceCount := read1 count, advanceWidth := read2 w1 w0
                              originX := readSigned x1 x0, originY := readSigned y1 y0, imageLength := read2 l1 l0 } bytes)
      | _ => none
    else some (.loadPiece h (readKey a b c) (read1 n) (read1 count) rest)
  | _ => none

/-- An arrived frame as the command it spells: nothing when its class and kind pair is not in 11.2 or its length is not what
its kind declares (R188). -/
def readFrame (f : RawFrame) : Option Instr :=
  let h : Hdr := { src := f.src, dst := f.dst }
  match f.cls, f.kind with
  | 0, 1 =>
    match f.payload with
    | [a, b, c] => some (.fetch h (readKey a b c) { ack := false, object := false })
    | _ => none
  | 1, 1 =>
    match f.payload with
    | [s, b, fl, n1, n0] => some (.enrol h (read1 s) (read1 b) (fl.getLsbD 0) (fl.getLsbD 1) (read2 n1 n0))
    | _ => none
  | 1, 2 => (readAnnounce f.payload).map (.announce h ·)
  | 1, 3 => (readWithdraw f.payload).map (.withdraw h ·)
  | 1, 4 => (readSpan f.payload).map (.invalidate h ·)
  | 1, 5 => (readPolicy f.payload).map (.storePolicy h ·)
  | 2, 1 => (readLine f.payload).map (.line h ·)
  | 2, 2 => (readControl f.payload).map (.control h ·)
  | 2, 3 => some (.lineReport h f.payload)
  | 2, 4 => some (.notice h f.payload)
  | 3, 1 => readLoad h f.payload
  | 3, 2 => (readSpan f.payload).map (.discard h ·)
  | 3, 3 => readScript h f.payload
  | _, _ => none

/-! ## Bad fields (R189) -/

/-- An enable is present with a value above 1. -/
def enableBad : Option Nat → Bool
  | some v => 1 < v
  | none => false

def policyBad (p : PolicyFrame) : Bool := enableBad p.sparing || enableBad p.patrol

def commandBad : ControlCmd → Bool
  | .alarmSet a => 1 < a.autoCut
  | .pageBegin _ _ _ | .pageEnd | .run | .stop | .cut | .galleyReset | .proofOn | .proofOff | .proceed | .clearFlags
  | .stationClear => false

/-- NOTICE LOAD-REFUSED and NOTICE POISONED carry a key field after their code (11.3). -/
def noticeBad : List Byte → Bool
  | code :: a :: b :: c :: _ => (read1 code == 7 || read1 code == 8) && !(readKey a b c).indexOk
  | _ => false

/-- The fields, other than the source, for which R189 refuses a frame that is in form. -/
def fieldsBad : Instr → Bool
  | .fetch _ k _ => !k.indexOk
  | .announce _ a => !(a.first.indexOk && a.last.indexOk)
  | .withdraw _ rs => !rs.all KeyRange.indexOk
  | .invalidate _ sp | .discard _ sp => !sp.indexOk
  | .storePolicy _ p => policyBad p
  | .control _ cs => cs.any commandBad
  | .loadPiece0 _ f _ => !f.key.indexOk
  | .loadPiece _ k _ _ _ => !k.indexOk
  | .notice _ p => noticeBad p
  | _ => false

/-- An arrived frame fails the checks of R188 or R189. -/
def outOfForm (f : RawFrame) : Bool :=
  f.src == 0 || match readFrame f with
    | some i => fieldsBad i
    | none => true

end Sys2Proof.Machine
end

