-- ==== Sys2Proof/Machine/Store.lean ====
section
/-! DEFINITION. The Glyph Store's memory, index, allocation and LOAD write queue, and the bank records of the Patrol and Spare Unit
with the settings of STORE-POLICY (R104 to R114, R124 to R139). -/

namespace Sys2Proof.Machine

/-! ## Memory -/

/-- The address of a cell of a physical bank. -/
def cellAddress (physical cell : Nat) : Nat := physical * Config.cellsPerBank + cell

/-- The canonical form of a memory: strictly rising addresses. -/
def Memory.wf : Memory → Bool
  | [] => true
  | [_] => true
  | a :: b :: rest => a.1 < b.1 && Memory.wf (b :: rest)

/-- The cell listed at an address; none has been written there since the power-on reset otherwise (R123). -/
def Memory.read (m : Memory) (a : Nat) : Option Cell := (m.find? fun e => e.1 == a).map (·.2)

/-- A cell is written, and the canonical form is kept. -/
def Memory.write (a : Nat) (c : Cell) : Memory → Memory
  | [] => [(a, c)]
  | x :: xs => if a < x.1 then (a, c) :: x :: xs else if x.1 == a then (a, c) :: xs else x :: Memory.write a c xs

/-- The 64 bytes of a block, the first in the low bits. -/
def blockBytes (b : BitVec 512) : List Byte := (List.range 64).map fun i => b.extractLsb' (8 * i) 8

/-- 64 zero bytes (R134, R136). -/
def zeroCell : Cell := .data (List.replicate 64 0)

/-- The bytes that a read of a cell uses: those written, or, where nothing has been written, what the power-on reset left, a
free value (R123, log 8). A marked cell gives none. -/
def cellBytes (m : Memory) (epoch a : Nat) : List Byte :=
  match m.read a with
  | some (.data bs) => bs
  | some .marked => []
  | none => blockBytes (Config.powerOnCell epoch a)

/-- What a read finds: a cell with the uncorrectable mark is UNCORRECTABLE, whatever the memory shows (R116). -/
def readCond (m : Memory) (a : Nat) (shown : CellCond) : CellCond :=
  match m.read a with
  | some .marked => .uncorrectable
  | some (.data _) | none => shown

/-! ## Index -/

namespace StoreRecord

/-- The record holds a cell of its bank (R106, R107). -/
def holdsCell (r : StoreRecord) (bank cell : Nat) : Bool :=
  r.bank == bank && r.firstCell ≤ cell && cell < r.firstCell + r.cellCount

end StoreRecord

/-- The record of a key (R107). -/
def findRecord (k : Key) (ix : List StoreRecord) : Option StoreRecord := ix.find? fun r => r.key == k

/-- The record that holds a cell; a cell is USED when there is one and FREE otherwise (R106). -/
def cellHolder (ix : List StoreRecord) (bank cell : Nat) : Option StoreRecord := ix.find? fun r => r.holdsCell bank cell

/-- Ascending order of key, one record for a key (R107). -/
def insertRecord (r : StoreRecord) : List StoreRecord → List StoreRecord
  | [] => [r]
  | x :: xs => if r.key.ordinal < x.key.ordinal then r :: x :: xs else x :: insertRecord r xs

/-- A change of the record of a key. -/
def updateRecord (k : Key) (f : StoreRecord → StoreRecord) (ix : List StoreRecord) : List StoreRecord :=
  ix.map fun r => if r.key == k then f r else r

/-- The `n` cells from `f` are FREE and in the bank (R109). -/
def runFree (ix : List StoreRecord) (bank n f : Nat) : Bool :=
  f + n ≤ Config.cellsPerBank && (List.range n).all fun k => (cellHolder ix bank (f + k)).isNone

/-- The lowest run of `n` FREE cells from `f` in a bank, over `fuel` cells (R109). -/
def findRun (ix : List StoreRecord) (bank n : Nat) : Nat → Nat → Option Nat
  | 0, _ => none
  | fuel + 1, f => if runFree ix bank n f then some f else findRun ix bank n fuel (f + 1)

/-- The first of the banks with a run of `n` FREE cells, and that run (R109). -/
def allocate (ix : List StoreRecord) (n : Nat) : List Nat → Option (Nat × Nat)
  | [] => none
  | b :: bs =>
    match findRun ix b n Config.cellsPerBank 0 with
    | some f => some (b, f)
    | none => allocate ix n bs

namespace Store

/-- The physical address of a logical cell, through the bank map as it stands (R105). -/
def address (st : Store) (bank cell : Nat) : Nat := cellAddress (st.map.getD bank bank) cell

/-- Records leave the index; their pending LOAD writes stay queued, to be dropped (R111, R112, R114, R121). -/
def removeWhere (p : StoreRecord → Bool) (st : Store) : Store :=
  { st with index := st.index.filter fun r => !p r
            writes := st.writes.map fun w => if st.index.any (fun r => p r && r.key == w.key) then { w with live := false } else w }

/-- The image record of an index record, from the first image length bytes of its cells (R118, R119). -/
def imageOf (st : Store) (r : StoreRecord) : ImageRecord :=
  { key := r.key, advanceWidth := r.advanceWidth, originX := r.originX, originY := r.originY, imageLength := r.imageLength
    bytes := (((List.range r.cellCount).map fun k =>
      cellBytes st.memory st.epoch (st.address r.bank (r.firstCell + k))).flatten).take r.imageLength }

/-- What a read of every cell of a record finds; cells beyond the list read CLEAN (R116). -/
def recordConds (st : Store) (r : StoreRecord) (shown : List CellCond) : List CellCond :=
  (List.range r.cellCount).map fun k => readCond st.memory (st.address r.bank (r.firstCell + k)) (shown.getD k .clean)

/-- The LOAD write queue is full (R110, R112). -/
def writesFull (st : Store) : Bool := Config.writeCapacity ≤ st.writes.length

/-- The arbiter may take an access of a kind when none of a kind before it waits (R115). -/
def mayWrite (st : Store) : Bool := st.serve.isNone
def mayRead (st : Store) : Bool := st.serve.isNone && st.writes.isEmpty
def mayCopy (st : Store) : Bool := st.serve.isNone && st.writes.isEmpty && st.reads.isEmpty

end Store

/-! ## Bank records and the patrol walk -/

namespace Patrol

def bankState (p : Patrol) (b : Nat) : BankState := (p.banks.getD b { count := 0, state := .good }).state

def isWithdrawn (p : Patrol) (b : Nat) : Bool := p.bankState b == .withdrawn

def setBank (b : Nat) (f : Bank → Bank) (p : Patrol) : Patrol := { p with banks := p.banks.modify b f }

/-- The banks that an allocation searches, in ascending order (R109). -/
def openBanks (p : Patrol) : List Nat := (List.range p.banks.length).filter fun b => !p.isWithdrawn b

/-- Every logical bank is WITHDRAWN (R133). -/
def allWithdrawn (p : Patrol) : Bool := p.banks.all fun b => b.state == .withdrawn

/-- The lowest AT-THRESHOLD bank (R135). -/
def lowestAtThreshold (p : Patrol) : Option Nat := (List.range p.banks.length).find? fun b => p.bankState b == .atThreshold

/-- A counted report: the count becomes one higher, and at the threshold the bank is frozen AT-THRESHOLD (R125, R126). -/
def countReport (b : Nat) (p : Patrol) : Patrol :=
  p.setBank b fun k =>
    match k.state with
    | .good =>
      if k.count + 1 < p.threshold then { k with count := k.count + 1 }
      else { count := k.count + 1, state := .atThreshold }
    | .atThreshold | .copying | .spared | .withdrawn => k

/-- A drip lowers the counts of the GOOD banks (R127). -/
def dripBanks (p : Patrol) : Patrol :=
  { p with banks := p.banks.map fun k => if k.state == .good then { k with count := k.count - 1 } else k, passes := 0 }

/-- The completion of a pass: the pass count, made one higher, may make a drip fall due (R127, R133). -/
def completePass (p : Patrol) : Patrol :=
  if p.drip ≤ p.passes + 1 then p.dripBanks else { p with passes := p.passes + 1 }

/-- The position moves to cell 0 of the next bank; from the last bank to bank 0, which completes a pass unless every bank is
WITHDRAWN (R133). -/
def nextBank (p : Patrol) : Patrol :=
  if p.posBank + 1 < p.banks.length then { p with posBank := p.posBank + 1, posCell := 0 }
  else
    let q := { p with posBank := 0, posCell := 0 }
    if p.allWithdrawn then q else q.completePass

/-- The position leaves WITHDRAWN banks, at most `fuel` of them (R133). The model's choice (log 36): once every bank is WITHDRAWN the
position stays where it then stands. -/
def skipWithdrawn : Nat → Patrol → Patrol
  | 0, p => p
  | fuel + 1, p => if p.isWithdrawn p.posBank && !p.allWithdrawn then skipWithdrawn fuel p.nextBank else p

/-- The walk's position rests on a bank that is not WITHDRAWN, when there is one (R133). -/
def settlePosition (p : Patrol) : Patrol := skipWithdrawn p.banks.length p

/-- The position after a step on its cell (R133). -/
def advance (p : Patrol) : Patrol :=
  if p.posCell + 1 < Config.cellsPerBank then { p with posCell := p.posCell + 1 } else p.nextBank.settlePosition

/-- A patrol step ends: the position moves, leaving a bank that is WITHDRAWN, and the next interval starts (R133). -/
def afterStep (p : Patrol) : Patrol := { p.advance.settlePosition with stepWaits := false, intervalRuns := true }

/-- A patrol step finds its bank WITHDRAWN: nothing is read, and the position moves to cell 0 of the next bank (R133). -/
def passedOver (p : Patrol) : Patrol := { p.nextBank.settlePosition with stepWaits := false, intervalRuns := true }

/-- The patrol interval runs out: a step is requested, unless every bank is WITHDRAWN (R133); then the interval runs no more, which is
the model's choice (log 36). -/
def intervalOver (p : Patrol) : Patrol :=
  if p.allWithdrawn then { p with intervalRuns := false }
  else { p.settlePosition with intervalRuns := false, stepWaits := true }

/-- A copy step ends and the copy goes on: progress becomes one higher, and the copy interval starts (R136). -/
def copyOn (c : Nat) (p : Patrol) : Patrol :=
  { p with copyProgress := some (c + 1), copyStepWaits := false, copyIntervalRuns := true }

/-- A copy begins: the bank is COPYING, the spare TARGET, and progress 0 (R135). The first copy step is requested at once and not
after a copy interval, which is the model's choice (log 33): R136 gives the interval between one step and the next alone. -/
def beginCopy (b : Nat) (p : Patrol) : Patrol :=
  { (p.setBank b fun k => { k with state := .copying }) with
    spare := .target, copySource := some b, copyProgress := some 0, copyStepWaits := true, copyIntervalRuns := false }

/-- A copy is aborted: the bank is AT-THRESHOLD, the spare FREE, and no copy step waits (R138). -/
def abortCopy (p : Patrol) : Patrol :=
  match p.copySource with
  | some b =>
    { (p.setBank b fun k => { k with state := .atThreshold }) with
      spare := .free, copySource := none, copyProgress := none, copyStepWaits := false, copyIntervalRuns := false }
  | none => p

/-! ## STORE-POLICY fields (R128 to R132); nothing when the field is refused -/

def setThreshold (v : Nat) (p : Patrol) : Option Patrol :=
  if 1 ≤ v && v ≤ 255 then
    some { p with threshold := v, banks := p.banks.map fun k =>
      if k.state == .good && v ≤ k.count then { k with state := .atThreshold } else k }
  else none

def setDrip (v : Nat) (p : Patrol) : Option Patrol := if 1 ≤ v && v ≤ 15 then some { p with drip := v } else none

/-- Off from on aborts a copy (R130). The spare decision that on from off calls for is made after the last field (R128). -/
def setSparing (v : Nat) (p : Patrol) : Option Patrol :=
  if v == 1 then some { p with sparing := true }
  else if p.sparing then some ({ p with sparing := false }.abortCopy)
  else some p

/-- On from off: the interval starts and the walk resumes; off from on: a waiting step is withdrawn (R130). -/
def setEnabled (v : Nat) (p : Patrol) : Option Patrol :=
  if v == 1 then
    if p.enabled then some p else some ({ p with enabled := true, intervalRuns := true }.settlePosition)
  else if p.enabled then some { p with enabled := false, intervalRuns := false, stepWaits := false }
  else some p

def setThaw (b : Nat) (p : Patrol) : Option Patrol :=
  if b < p.banks.length then
    match p.bankState b with
    | .good | .atThreshold | .spared => some (p.setBank b fun _ => { count := 0, state := .good })
    | .copying | .withdrawn => none
  else none

def setForce (b : Nat) (p : Patrol) : Option Patrol :=
  if b < p.banks.length then
    match p.bankState b with
    | .good | .spared => some (p.setBank b fun k => { k with state := .atThreshold })
    | .atThreshold | .withdrawn => some p
    | .copying => none
  else none

/-- One field that may be absent. -/
def field (f : Nat → Patrol → Option Patrol) (v : Option Nat) (p : Patrol) : Option Patrol :=
  match v with
  | some x => f x p
  | none => some p

/-- The six fields in their order, each checked against the unit as the earlier ones leave it (R128). -/
def applyPolicy (f : PolicyFrame) (p : Patrol) : Option Patrol :=
  (field setThreshold f.threshold p).bind fun p =>
    (field setDrip f.drip p).bind fun p =>
      (field setSparing f.sparing p).bind fun p =>
        (field setEnabled f.patrol p).bind fun p =>
          (field setThaw f.thaw p).bind fun p => field setForce f.force p

end Patrol

/-- A frame calls for the spare decision when a field of it can bring a bank AT-THRESHOLD, or sets sparing on from off (R128 to
R130, R132, R135). -/
def policyDecides (f : PolicyFrame) (p : Patrol) : Bool :=
  f.threshold.isSome || f.force.isSome || (f.sparing == some 1 && !p.sparing)

end Sys2Proof.Machine
end

