-- ==== Sys2Proof/Machine/Ops.lean ====
section
/-! DEFINITION. The operations that blocks share: outputs, slots by number, the transmit queue with its offers and its waiting
owners, notices, and MUTE (R37, R58, R101, R164, R177 to R180). -/

namespace Sys2Proof.Machine

/-! ## Slots by number -/

namespace SlotId

def other : SlotId → SlotId
  | .zero => .one
  | .one => .zero

end SlotId

namespace Slots

def get (x : Slots) : SlotId → Slot
  | .zero => x.slot0
  | .one => x.slot1

def put (x : Slots) (i : SlotId) (v : Slot) : Slots :=
  match i with
  | .zero => { x with slot0 := v }
  | .one => { x with slot1 := v }

/-- The slot whose line was taken first: the one the age mark names (R37). -/
def older (x : Slots) : SlotId := x.age.getD .zero

def younger (x : Slots) : SlotId := x.older.other

/-- A slot becomes EMPTY: the age mark names the other slot if that slot holds a line, and is absent otherwise (R37). -/
def vacate (x : Slots) (i : SlotId) : Slots :=
  { x.put i .vacant with age := if (x.get i.other).state = .empty then none else some i.other }

end Slots

namespace State

/-- This station's number. -/
def own (s : State) : Nat := s.straps.station

/-- The step's outputs begin anew (log 10). -/
def fresh (s : State) : State := s.setOut []

/-- Something is driven at a port. -/
def emit (o : Output) (s : State) : State := s.setOut (s.out ++ [o])

def slot (s : State) (i : SlotId) : Slot := s.slots.get i

def putSlot (i : SlotId) (v : Slot) (s : State) : State := s.setSlots (s.slots.put i v)

def mapCache (f : Cache → Cache) (s : State) : State := s.setCache (f s.cache)
def mapDir (f : Directory → Directory) (s : State) : State := s.setDir (f s.dir)
def mapStore (f : Store → Store) (s : State) : State := s.setStore (f s.store)
def mapPatrol (f : Patrol → Patrol) (s : State) : State := s.setPatrol (f s.patrol)
def mapSeq (f : Sequencer → Sequencer) (s : State) : State := s.setSeq (f s.seq)
def mapLink (f : Link → Link) (s : State) : State := s.setLink (f s.link)

/-! ## The transmit queue (R177) -/

/-- A frame's place: by class, then by age (R177). -/
def insertTx (e : TxEntry) : List TxEntry → List TxEntry
  | [] => [e]
  | x :: xs => if e.frame.cls < x.frame.cls then e :: x :: xs else x :: insertTx e xs

/-- The placing of a LINE-REPORT is the moment at which the accumulator takes its flags (R57, R177). -/
def atPlacing (f : TxFrame) (s : State) : State :=
  match f with
  | .report _ r => s.setAcc fun a => a.takeReport r.flags
  | .enrol _ | .withdraw _ | .notice _ _ => s

/-- The owner learns REFUSED or ABSENT (R179, R184). -/
def giveUp (f : TxFrame) (s : State) : State :=
  match f with
  | .report _ _ => s.reportLost
  | .notice _ _ => s.noticeLost
  | .withdraw _ => s
  | .enrol _ => s.mapDir Directory.startWait

/-- The owner learns DELIVERED (R179, R184). -/
def delivered (f : TxFrame) (s : State) : State :=
  match f with
  | .report _ _ | .notice _ _ | .withdraw _ => s
  | .enrol _ => s.mapDir Directory.startWait

/-- An offer: whether the frame is placed. In MUTE it is placed and given up without an attempt (R177, R180). -/
def offer (f : TxFrame) (s : State) : State × Bool :=
  if s.link.state = .mute then ((s.atPlacing f).giveUp f, true)
  else if s.link.queue.length < Config.txCapacity then
    ((s.atPlacing f).mapLink fun l => { l with queue := insertTx { frame := f, attempts := 0, onLink := false } l.queue }, true)
  else (s, false)

/-- A NOTICE is offered once: when the queue is full it is dropped and NOTICE-LOST becomes set (R164, R177). -/
def notify (dst : Nat) (n : Notice) (s : State) : State :=
  let r := s.offer (.notice dst n)
  if r.2 then r.1 else r.1.noticeLost

/-- Notices for the page owner go to all stations when there is none (R164). -/
def ownerOrAll (s : State) : Nat := s.seq.owner.getD 0

/-! ## Owners waiting for room (R179) -/

/-- VALID records in banks that are not WITHDRAWN (R107, R183). -/
def usableRecords (s : State) : Nat :=
  (s.store.index.filter fun r => r.state == .valid && !s.patrol.isWithdrawn r.bank).length

/-- The ENROL's fields, taken when it is placed (R183). -/
def enrolFields (s : State) : EnrolFields :=
  { station := s.own, banks := s.straps.banks, spare := s.patrol.spare != .absent, head := s.straps.head
    records := s.usableRecords }

/-- The ENROL is offered; it waits when the queue is full (R183). -/
def offerEnrol (s : State) : State :=
  let r := s.offer (.enrol s.enrolFields)
  r.1.mapLink fun l => { l with enrolWaits := !r.2 }

/-- WITHDRAW frames of up to 16 ranges, as many as find room (R101). -/
def offerWithdraws : Nat → State → State
  | 0, s => s
  | fuel + 1, s =>
    if s.dir.outgoing.isEmpty then s
    else
      let r := s.offer (.withdraw (s.dir.outgoing.take Config.withdrawRanges))
      if r.2 then offerWithdraws fuel (r.1.mapDir fun d => { d with outgoing := d.outgoing.drop Config.withdrawRanges }) else s

/-- The outgoing withdrawal list is offered (R101). -/
def offerOutgoing (s : State) : State := offerWithdraws s.dir.outgoing.length s

/-- A REPORTING slot offers its report; once it is placed the slot becomes EMPTY (R58). -/
def offerSlot (i : SlotId) (s : State) : State :=
  match (s.slot i).state, (s.slot i).report, (s.slot i).header with
  | .reporting, some rep, some h =>
    let r := s.offer (.report h.requester rep)
    if r.2 then r.1.setSlots (r.1.slots.vacate i) else s
  | _, _, _ => s

/-- The report of a line that leaves from the Line Queue (R17). -/
def queueReport (e : QueueEntry) (m : ReportMark) : LineReport :=
  { number := e.header.number
    outcome := match m with
      | .closed => .closed
      | .cleared => .cleared
    natural := 0, set := 0, placements := 0, substituted := 0, flags := {}, galley := none }

/-- The entries to which `which` gives an outcome offer their reports, oldest first: a placed one leaves, the others keep their
places with the report mark set (R17). -/
def reportEntries (which : QueueEntry → Option ReportMark) : List QueueEntry → State → List QueueEntry × State
  | [], s => ([], s)
  | e :: es, s =>
    match which e with
    | none =>
      let r := reportEntries which es s
      (e :: r.1, r.2)
    | some m =>
      let o := s.offer (.report e.header.requester (queueReport e m))
      let r := reportEntries which es o.1
      if o.2 then r else ({ e with mark := some m } :: r.1, r.2)

def reportLines (which : QueueEntry → Option ReportMark) (s : State) : State :=
  let r := reportEntries which s.lines s
  r.2.setLines r.1

/-- At a gain of room: a waiting ENROL, the outgoing withdrawal list, then the waiting reports, oldest line first (R58, R179). -/
def gainRoom (s : State) : State :=
  let s := if s.link.enrolWaits then s.offerEnrol else s
  let s := s.offerOutgoing
  let first := s.slots.older
  ((s.offerSlot first).offerSlot first.other).reportLines QueueEntry.mark

/-! ## MUTE (R180) -/

/-- MUTE is entered: the exchanging entry waits for the link again, every queued frame is given up, and the owners that waited
for room are served. -/
def enterMute (s : State) : State :=
  let held := s.link.queue
  let s := s.setFetches (s.fetches.map fun f => if f.state = .exchanging then { f with state := .waitingLink } else f)
  let s := s.mapLink fun l => { l with state := .mute, free := false, tenure := .none, queue := [], exchange := none
                                       requester := none, reply := none }
  (held.foldl (fun s e => s.giveUp e.frame) s).gainRoom

end State

end Sys2Proof.Machine
end

