-- ==== Sys2Proof/Machine/Spare.lean ====
section
/-! DEFINITION. Error reports, poisoning, the spare decision, withdrawal and the completion of a copy (R100, R117, R121, R125,
R126, R135, R139, R140). -/

namespace Sys2Proof.Machine

namespace State

/-- A VALID record of the bank has its key in a range (R96, R100). -/
def validIn (s : State) (bank : Nat) (r : KeyRange) : Bool :=
  s.store.index.any fun x => x.state == .valid && x.bank == bank && r.covers x.key

/-- VALID records left in a bank (R140). -/
def validCount (s : State) (bank : Nat) : Nat := (s.store.index.filter fun x => x.state == .valid && x.bank == bank).length

/-- NOTICE WITHDRAWN to each authority, stations 1 to AUTH-LIMIT in ascending order (R140). -/
def notifyAuthorities (n : Notice) (s : State) : State :=
  (List.range s.straps.authLimit.val).foldl (fun s k => s.notify (k + 1) n) s

/-- The walk leaves a WITHDRAWN bank at once, unless a step waits at the arbiter or the walk is stopped (R133, log 29). -/
def leaveWithdrawn (s : State) : State :=
  if s.patrol.enabled && !s.patrol.stepWaits then s.mapPatrol Patrol.settlePosition else s

/-- A bank is withdrawn, in the four steps of R140. -/
def withdrawBank (b : Nat) (s : State) : State :=
  let s := s.mapPatrol fun p => p.setBank b fun k => { k with state := .withdrawn }
  let s := s.mapStore fun st => st.removeWhere fun r => r.bank == b && r.state == .loading
  let listed := s.dir.ranges s.own (s.validIn b)
  let s := (s.mapDir fun d => d.withdrawOwn s.own (s.validIn b)).offerOutgoing
  (s.notifyAuthorities (.withdrawn b (s.validCount b) listed)).leaveWithdrawn

/-- The banks that are AT-THRESHOLD are withdrawn in ascending order (R135). -/
def withdrawWaiting : List Nat → State → State
  | [], s => s
  | b :: bs, s => withdrawWaiting bs (if s.patrol.bankState b = .atThreshold then s.withdrawBank b else s)

/-- The spare decision (R135). -/
def spareDecision (s : State) : State :=
  if s.patrol.sparing then
    match s.patrol.spare with
    | .free =>
      match s.patrol.lowestAtThreshold with
      | some b => s.mapPatrol (Patrol.beginCopy b)
      | none => s
    | .target => s
    | .inUse | .absent => withdrawWaiting (List.range s.patrol.banks.length) s
  else s

/-- One correctable error report against a bank, from a cell that `held` says held data (a VALID or POISONED record): counted
when the bank is GOOD, and at the threshold the spare decision is made at once (R125, R126). -/
def reportError (b : Nat) (held : Bool) (s : State) : State :=
  if held && s.patrol.bankState b = .good then
    let s := s.mapPatrol (Patrol.countReport b)
    if s.patrol.bankState b = .atThreshold then s.spareDecision else s
  else s

/-- The reports of an access, one for each corrected cell, in order (R116, R125). -/
def reportAll (b : Nat) (held : Bool) : List CellCond → State → State
  | [], s => s
  | .corrected :: cs, s => reportAll b held cs (s.reportError b held)
  | .clean :: cs, s | .uncorrectable :: cs, s => reportAll b held cs s

/-- A VALID record becomes POISONED at the end of an access, with NOTICE POISONED to all stations (R117). -/
def poison (k : Key) (s : State) : State :=
  match findRecord k s.store.index with
  | some r =>
    if r.state = .valid then
      (s.mapStore fun st => { st with index := updateRecord k (fun r => { r with state := .poisoned }) st.index }).notify 0
        (.poisoned k r.bank)
    else s
  | none => s

/-- A cell is written through the store port. -/
def writeCell (a : Nat) (c : Cell) (s : State) : State :=
  (s.mapStore fun st => { st with memory := st.memory.write a c }).emit (.cell a c)

/-- The corrected cells of an access are written back with what they hold (R116); `addresses` are those of the cells read. -/
def writeBack : List (Nat × CellCond) → State → State
  | [], s => s
  | (a, .corrected) :: rest, s => writeBack rest (s.writeCell a (.data (cellBytes s.store.memory s.store.epoch a)))
  | (_, .clean) :: rest, s | (_, .uncorrectable) :: rest, s => writeBack rest s

/-- A read of all the cells of a VALID record (R116, R117): write-backs and reports as the cells are read, and the record
POISONED at the end when a cell is UNCORRECTABLE. -/
def readRecord (r : StoreRecord) (conds : List CellCond) (s : State) : State :=
  let found := s.store.recordConds r conds
  let s' := writeBack (((List.range r.cellCount).map fun k => s.store.address r.bank (r.firstCell + k)).zip found) s
  let s' := reportAll r.bank true found s'
  if found.contains .uncorrectable then s'.poison r.key else s'

/-- The image that such a read gives, or nothing when a cell is UNCORRECTABLE; read from the cells as the access finds them. -/
def imageRead (r : StoreRecord) (conds : List CellCond) (s : State) : Option ImageRecord :=
  if (s.store.recordConds r conds).contains .uncorrectable then none else some (s.store.imageOf r)

/-- A copy completes (R139). -/
def completeCopy (b : Nat) (s : State) : State :=
  let s := s.mapStore fun st => { st with map := st.map.set b Config.spareBank }
  let s := s.mapPatrol fun p =>
    { (p.setBank b fun k => { k with state := .spared }) with
      spare := .inUse, copySource := none, copyProgress := none, copyStepWaits := false, copyIntervalRuns := false }
  (s.notify 0 (.spared b)).spareDecision

end State

end Sys2Proof.Machine
end

