-- ==== Sys2Proof/Machine/Slots.lean ====
section
/-! DEFINITION. The Assembly Slots: resolution passes, the ends of fetches, room events, invalidation, measurement, reports, and
the hand-over of a READY line to the Exposure Sequencer (R36 to R60, R150). -/

namespace Sys2Proof.Machine

/-! ## Placements (R9, R38) -/

/-- A placement comes to refer to a cache entry: its advance, and a MARK's converted origin (R5, R9, R12, R40). -/
def resolveWith (n : Nat) (r : ImageRecord) (p : Placement) : Placement :=
  { p with state := .resolved, waitsRoom := false, ref := some n
           advance := some (if p.role = .mark then 0 else advanceAt r.advanceWidth p.size)
           origin := if p.role = .mark then some (offsetAt r.originX p.size, offsetAt r.originY p.size) else none }

/-- A placement becomes SUBSTITUTED (R8, R42, R44). -/
def substitute (p : Placement) : Placement :=
  { p with state := .substituted, waitsRoom := false, ref := none
           advance := some (if p.role = .mark then 0 else boxAdvance p.size)
           origin := if p.role = .mark then some (0, 0) else none }

/-- A placement returns to UNRESOLVED after an invalidation (R9, R46). -/
def unresolve (p : Placement) : Placement :=
  { p with state := .unresolved, waitsRoom := false, ref := none, advance := none, origin := none, x := none, y := none }

/-- A placement becomes AWAITING on a fetch (R42). -/
def await (p : Placement) : Placement := { p with state := .awaiting, waitsRoom := false }

/-- A placement waits for room in the fetch list (R42). -/
def waitRoom (p : Placement) : Placement := { p with waitsRoom := true }

namespace Slot

/-- The list changes; the y offsets follow (R12). -/
def withList (ps : List Placement) (t : Slot) : Slot := { t with list := withY (some 0) ps }

/-- The cache entry references of the list, in list order (R9). -/
def refs (t : Slot) : List Nat := t.list.filterMap Placement.ref

/-- A resolution pass begins at position 0 with its repeat mark clear (R37, R45, R46). -/
def beginPass (t : Slot) : Slot := { t with state := .resolving, pass := some { pos := 0, again := false, wait := .running } }

/-- The repeat mark is set (R39). -/
def markAgain (t : Slot) : Slot := { t with pass := t.pass.map fun p => { p with again := true } }

/-- The line is in assembly and has no outcome: RESOLVING, AWAITING or READY. -/
def inAssembly (t : Slot) : Bool := t.state == .resolving || t.state == .awaiting || t.state == .ready

/-- The line takes part in the order of transfer (R54). -/
def inOrder (t : Slot) : Bool := t.inAssembly || t.state == .exposing

/-- A placement waits for room in a slot that may retry it (R45). The model's choice (log 32): a placement that found the list full keeps
waiting for room while a local read made at its own position is outstanding, so that a room event then sets its slot's repeat mark and,
in the older slot, holds the younger slot back. -/
def waitsForRoom (t : Slot) : Bool :=
  (t.state == .resolving || t.state == .awaiting) && t.list.any fun p => p.state == .unresolved && p.waitsRoom

/-- Placements that are AWAITING on a key, in a slot whose line has no outcome (R43, R44). -/
def awaits (k : Key) (p : Placement) : Bool := p.state == .awaiting && p.key == some k

end Slot

namespace State

/-! ## Passes -/

def setPass (i : SlotId) (f : Pass → Pass) (s : State) : State :=
  s.putSlot i { s.slot i with pass := (s.slot i).pass.map f }

def setPlacement (i : SlotId) (pos : Nat) (f : Placement → Placement) (s : State) : State :=
  s.putSlot i ((s.slot i).withList ((s.slot i).list.modify pos f))

def setFlags (i : SlotId) (f : LineFlags) (s : State) : State :=
  s.putSlot i { s.slot i with flags := (s.slot i).flags.or f }

/-- A placement refers to entry `n` and pins it (R40, R41, R43). -/
def resolveAt (i : SlotId) (pos n : Nat) (s : State) : State :=
  match s.cache.entry n with
  | some e => (s.mapCache fun c => c.pin n).setPlacement i pos (resolveWith n e.record)
  | none => s

/-- The local store holds the key in a VALID record of a bank that is not WITHDRAWN (R41, R118). -/
def storeHolds (k : Key) (s : State) : Bool :=
  match findRecord k s.store.index with
  | some r => r.state == .valid && !s.patrol.isWithdrawn r.bank
  | none => false

/-- A local read is requested; the pass waits on it (R39, R41). -/
def queueRead (i : SlotId) (k : Key) (s : State) : State :=
  (s.mapStore fun st => { st with reads := st.reads ++ [{ slot := i, key := k, live := true }] }).setPass i fun p =>
    { p with wait := .reading }

/-- The second step: a slot whose earlier read is outstanding requests its own only when that one completes (R41). -/
def secondStep (i : SlotId) (k : Key) (s : State) : State :=
  if s.store.reads.any fun r => r.slot == i then s.setPass i fun p => { p with wait := .readHeld } else s.queueRead i k

/-- A fetch entry is created, newest in the list (R63). -/
def createFetch (k : Key) (t : Nat × TargetRole) (s : State) : State :=
  s.setFetches (s.fetches ++ [{ key := k, state := .waitingLink, target := t.1, role := t.2, tried := [t.1], failed := 0, defers := 0 }])

/-- A fetch is created for the placement (R42). Where a VALID entry for the key is held, which only a third step after a local read
can find, R85 bars the fetch, and the placement takes that entry instead (log 13). -/
def fetchFor (i : SlotId) (pos : Nat) (k : Key) (t : Nat × TargetRole) (s : State) : State :=
  match s.cache.validNumber k with
  | some n => s.resolveAt i pos n
  | none => (s.createFetch k t).setPlacement i pos await

/-- The third step (R42). -/
def thirdStep (i : SlotId) (pos : Nat) (k : Key) (s : State) : State :=
  if s.fetches.any fun f => f.key == k then s.setPlacement i pos await
  else
    match s.dir.chooseTarget s.own [] k with
    | none => (s.setPlacement i pos substitute).setFlags i { substituted := true }
    | some t => if s.fetches.length < Config.fetchCapacity then s.fetchFor i pos k t else s.setPlacement i pos waitRoom

/-- The resolution steps at an UNRESOLVED placement (R39 to R42). -/
def visit (i : SlotId) (pos : Nat) (k : Key) (s : State) : State :=
  match s.cache.validNumber k with
  | some n => s.resolveAt i pos n
  | none => if s.storeHolds k then s.secondStep i k else s.thirdStep i pos k

/-- The pass moves on by one position. -/
def passOn (i : SlotId) (s : State) : State := s.setPass i fun p => { p with pos := p.pos + 1, wait := .running }

/-- The walk over the positions that are left, until it ends or waits on a read (R39). -/
def walk : Nat → SlotId → State → State
  | 0, _, s => s
  | fuel + 1, i, s =>
    match (s.slot i).pass with
    | none => s
    | some p =>
      match (s.slot i).list[p.pos]? with
      | none => s
      | some pl =>
        match pl.state, pl.key with
        | .unresolved, some k =>
          let s := s.visit i p.pos k
          if ((s.slot i).pass.map Pass.wait) = some .running then walk fuel i (s.passOn i) else s
        | _, _ => walk fuel i (s.passOn i)

/-! ## Room events and their order (R45) -/

/-- The younger slot is held back no more: an AWAITING slot begins its pass, a parked repeat begins, and a pass under way is to
be repeated (R45). -/
def releaseHeld (j : SlotId) (s : State) : State :=
  let t : Slot := { s.slot j with held := 0 }
  match t.state, t.pass with
  | .awaiting, _ => s.putSlot j t.beginPass
  | .resolving, some p => if p.wait = .parked then s.putSlot j t.beginPass else s.putSlot j t.markAgain
  | _, _ => s.putSlot j t

/-- A pass of slot `i` has ended: the other slot is held back by one pass less (R45). -/
def passEnded (i : SlotId) (s : State) : State :=
  match (s.slot i.other).held with
  | 0 => s
  | 1 => s.releaseHeld i.other
  | n + 2 => s.putSlot i.other { s.slot i.other with held := n + 1 }

/-- Slot `i` runs no pass any more: nothing holds the other slot back (R45). -/
def passesOver (i : SlotId) (s : State) : State := if (s.slot i.other).held = 0 then s else s.releaseHeld i.other

/-- A slot that waits for room answers a room event (R45). -/
def answerRoom (i : SlotId) (s : State) : State :=
  match (s.slot i).state with
  | .awaiting => s.putSlot i (s.slot i).beginPass
  | .resolving => s.putSlot i (s.slot i).markAgain
  | .empty | .ready | .exposing | .reporting => s

/-- A room event: each slot that waits for room answers it, the younger one only after the pass by which the older one does
(R45, log 14). -/
def roomEvent (s : State) : State :=
  let o := s.slots.older
  let y := o.other
  if (s.slot o).waitsForRoom && (s.slot y).waitsForRoom then
    let passes := if (s.slot o).state = .resolving then 2 else 1
    let s := s.answerRoom o
    let t : Slot := { s.slot y with held := max (s.slot y).held passes }
    s.putSlot y (if t.state = .resolving then t.markAgain else t)
  else if (s.slot o).waitsForRoom then s.answerRoom o
  else if (s.slot y).waitsForRoom then s.answerRoom y
  else s

/-! ## Outcomes and reports (R50, R55 to R60) -/

/-- The report of a slot's line (R56). -/
def buildReport (t : Slot) (h : LineHeader) (o : LineOutcome) (widths : Nat × Nat) (g : Option Galley) : LineReport :=
  { number := h.number, outcome := o, natural := widths.1, set := widths.2, placements := t.list.length
    substituted := (t.list.filter fun p => p.state == .substituted).length, flags := t.flags, galley := g }

/-- The line is given its outcome: the list is released and unpinned, a read outstanding for it is wanted no more, and the report
is built and offered (R50, R55, R56, R58, R59). -/
def finishLine (i : SlotId) (o : LineOutcome) (widths : Nat × Nat) (g : Option Galley) (s : State) : State :=
  let t := s.slot i
  match t.header with
  | none => s
  | some h =>
    let s := s.mapCache fun c => c.unpinAll t.refs
    let s := s.mapStore fun st => { st with reads := st.reads.map fun r => if r.slot = i then { r with live := false } else r }
    let s := s.putSlot i { Slot.vacant with state := .reporting, header := some h, flags := t.flags
                                            report := some (buildReport t h o widths g) }
    (s.offerSlot i).passesOver i

/-- The widths that a CLOSED, CLEARED, SET or CUT-SHORT report carries (R56). -/
def widthsOf (t : Slot) : Nat × Nat :=
  match t.measured with
  | some m => (m.natural, m.set)
  | none => (0, 0)

/-- A line that is RESOLVING, AWAITING or READY is given the outcome CLOSED or CLEARED (R59, R60). -/
def endAssembly (o : LineOutcome) (i : SlotId) (s : State) : State :=
  if (s.slot i).inAssembly then s.finishLine i o (widthsOf (s.slot i)) none else s

/-- Both slots, the older line first (R59). -/
def endBoth (o : LineOutcome) (s : State) : State :=
  let first := s.slots.older
  (s.endAssembly o first).endAssembly o first.other

/-! ## Measurement (R48) -/

/-- The slot measures its line: READY with its positions, or OVERSET (R48 to R53). -/
def measureSlot (i : SlotId) (s : State) : State :=
  let t := s.slot i
  match t.header with
  | none => s
  | some h =>
    match measureLine h t.list with
    | .fits m sq un =>
      s.putSlot i { t with state := .ready, pass := none, list := positioned m t.list, measured := some m
                           flags := t.flags.or { squeezed := sq, unjustified := un } }
    | .overset n narrowest => s.finishLine i .overset (n, narrowest) none

/-- The last pass has ended: the line is measured, or the slot becomes AWAITING (R39). -/
def endPass (i : SlotId) (s : State) : State :=
  let s := s.passesOver i
  if (s.slot i).list.all Placement.done then s.measureSlot i
  else s.putSlot i { s.slot i with state := .awaiting, pass := none }

/-- Passes of a slot, until one waits or the last one has ended; the repeat mark calls for one more (R39). The model's choice (log 35): a
repeat of the younger slot that falls due while a room event holds that slot back is parked whatever set its mark, an INVALIDATE or an
earlier event included; a pass that an INVALIDATE itself begins is not held back. -/
def passes : Nat → SlotId → State → State
  | 0, _, s => s
  | fuel + 1, i, s =>
    let s := walk ((s.slot i).list.length - ((s.slot i).pass.map Pass.pos).getD 0) i s
    match (s.slot i).pass with
    | none => s
    | some p =>
      if p.wait = .running then
        if p.again then
          if 0 < (s.slot i).held then s.setPass i fun p => { p with wait := .parked }
          else passes fuel i ((s.putSlot i (s.slot i).beginPass).passEnded i)
        else s.endPass i
      else s

/-- What a slot does at once after an event: a pass that may run runs, and an AWAITING line that is complete is measured
(R39, R43, R44). -/
def runSlot (i : SlotId) (s : State) : State :=
  match (s.slot i).state with
  | .resolving => if ((s.slot i).pass.map Pass.wait) = some .running then passes 2 i s else s
  | .awaiting => if (s.slot i).list.all Placement.done then s.measureSlot i else s
  | .empty | .ready | .exposing | .reporting => s

/-! ## Hand-over (R54, R150, R151) -/

/-- The head of the slots (R54). -/
def headSlot (s : State) : Option SlotId :=
  let o := s.slots.older
  if (s.slot o).inOrder then some o else if (s.slot o.other).inOrder then some o.other else none

/-- What the head receives for a placement; the record is that of the entry it refers to, VALID or STALE (R10, R78). -/
def headPlacement (c : Cache) (p : Placement) : HeadPlacement :=
  { role := p.role, box := p.state == .substituted, x := p.x.getD 0, size := p.size
    y := if p.role = .mark then some (p.y.getD 0) else none
    record := match p.ref with
      | some n => (c.entry n).map CacheEntry.record
      | none => none }

def lineTransfer (c : Cache) (t : Slot) : LineTransfer :=
  { leading := (t.header.map LineHeader.leading).getD 0, placements := t.list.map (headPlacement c) }

/-- The line transfer: the slot and the sequencer become EXPOSING, and LINE is outstanding (R54, R142, R150). -/
def transfer (i : SlotId) (s : State) : State :=
  let t := s.slot i
  (((s.putSlot i { t with state := .exposing }).mapSeq fun q => { q with state := .exposing }).setHead .line).emit
    (.line (lineTransfer s.cache t))

/-- The sequencer takes a READY line: at once, or into PROOF-WAIT with its notice (R150). -/
def takeReady (i : SlotId) (s : State) : State :=
  if s.seq.proof then
    (s.mapSeq fun q => { q with state := .proofWait i }).notify s.ownerOrAll
      (.proofReady (((s.slot i).header.map LineHeader.number).getD 0))
  else s.transfer i

/-- In RUNNING the head of the slots is taken as soon as it is READY (R150). -/
def dispatch (s : State) : State :=
  if s.seq.state = .running then
    match s.headSlot with
    | some i => if (s.slot i).state = .ready then s.takeReady i else s
    | none => s
  else s

/-- In PROOF-WAIT, the sequencer becomes RUNNING when the waiting slot leaves READY (R151). -/
def leaveProof (s : State) : State :=
  match s.seq.state with
  | .proofWait i => if (s.slot i).state = .ready then s else s.mapSeq fun q => { q with state := .running }
  | .stopped | .running | .exposing | .cutting | .fault => s

/-- What follows at once from an event on the slots: the older slot runs, then the younger, and a READY head of the slots is taken
(R39, R45, R150, log 21). -/
def settle (s : State) : State :=
  let s := s.leaveProof
  let o := s.slots.older
  ((s.runSlot o).dispatch.runSlot o.other).dispatch

/-! ## Ends of fetches (R43, R44, R72) -/

/-- The AWAITING placements of a slot for a key refer to entry `n`; an image from an alternate sets ALTERNATE-USED (R43, R66). -/
def resolveAwaiting (k : Key) (n : Nat) (r : ImageRecord) (alternate : Bool) (i : SlotId) (s : State) : State :=
  let t := s.slot i
  let hits := (t.list.filter (Slot.awaits k)).length
  if hits = 0 then s
  else
    let s := s.mapCache fun c => (List.replicate hits n).foldl (fun c m => c.pin m) c
    let s := s.putSlot i (t.withList (t.list.map fun p => if Slot.awaits k p then resolveWith n r p else p))
    if alternate then s.setFlags i { alternateUsed := true } else s

def resolveAllAwaiting (k : Key) (n : Nat) (r : ImageRecord) (alternate : Bool) (s : State) : State :=
  (s.resolveAwaiting k n r alternate .zero).resolveAwaiting k n r alternate .one

/-- The AWAITING placements of a slot for a key become SUBSTITUTED (R44). -/
def substituteAwaiting (k : Key) (i : SlotId) (s : State) : State :=
  let t := s.slot i
  if t.list.any (Slot.awaits k) then
    (s.putSlot i (t.withList (t.list.map fun p => if Slot.awaits k p then substitute p else p))).setFlags i { substituted := true }
  else s

/-- An entry leaves the fetch list: a room event (R45). -/
def dropFetch (k : Key) (s : State) : State := s.setFetches (s.fetches.filter fun f => f.key != k)

/-! ## Invalidation (R46, R47) -/

/-- A slot acts on the entries that become STALE (R46, R47). -/
def staleSlot (ns : List Nat) (i : SlotId) (s : State) : State :=
  let t := s.slot i
  let refers := fun (p : Placement) => match p.ref with
    | some n => ns.contains n
    | none => false
  if t.list.any refers then
    if t.state = .exposing then s.setFlags i { staleImage := true }
    else if t.inAssembly then
      let s := s.mapCache fun c => c.unpinAll ((t.list.filter refers).filterMap Placement.ref)
      let t := t.withList (t.list.map fun p => if refers p then unresolve p else p)
      match t.state with
      | .resolving => s.putSlot i t.markAgain
      | .ready =>
        s.putSlot i { (t.withList (t.list.map fun p => { p with x := none })).beginPass with
          measured := none, flags := { t.flags with squeezed := false, unjustified := false } }
      | .awaiting | .empty | .exposing | .reporting => s.putSlot i t.beginPass
    else s
  else s

end State

end Sys2Proof.Machine
end

