-- ==== Sys2Proof/Machine/Fetch.lean ====
section
/-! DEFINITION. The Fetch Engine: what an exchange's outcome does to its entry, its waiting placements and the directory
(R66 to R73). -/

namespace Sys2Proof.Machine

/-- What an exchange returns: a reply status, an IMAGE with its record when it has one, or the link's ABSENT or REFUSED (4.1.3). -/
inductive ExchangeOutcome where
  | image (r : Option ImageRecord) | defer | damaged | notHeld | absent | refused
  deriving DecidableEq, Repr

/-- The origin of an image by the role its target had (R66). -/
def originOf : TargetRole → Origin
  | .primary => .remotePrimary
  | .alternate => .remoteAlternate

/-- A record is well formed and carries the key of the fetch (R3, R66). -/
def acceptable (k : Key) (r : ImageRecord) : Bool := r.wellFormed && r.key == k

namespace State

def fetchOf (k : Key) (s : State) : Option Fetch := s.fetches.find? fun f => f.key == k

def updateFetch (k : Key) (f : Fetch → Fetch) (s : State) : State :=
  s.setFetches (s.fetches.map fun e => if e.key == k then f e else e)

/-- A record enters the Image Cache as a VALID entry (R79). -/
def insertImage (r : ImageRecord) (o : Origin) (s : State) : Nat × State :=
  let c := s.cache.insert r o
  (c.1, s.setCache c.2)

/-- A fetch ends with an image: the entry leaves, the record enters the cache, the waiting placements take it, and the departure is
a room event (R43, R66). -/
def endWithImage (f : Fetch) (r : ImageRecord) (s : State) : State :=
  let s := s.dropFetch f.key
  let c := s.insertImage r (originOf f.role)
  (c.2.resolveAllAwaiting f.key c.1 r (f.role == .alternate)).roomEvent.settle

/-- A fetch ends in final failure (R44, R71). -/
def finalFailure (k : Key) (s : State) : State :=
  (((s.dropFetch k).substituteAwaiting k .zero).substituteAwaiting k .one).roomEvent.settle

/-- A failed attempt: the third ends the fetch, and otherwise a new target is chosen from the directory as it stands (R71). -/
def failedAttempt (f : Fetch) (s : State) : State :=
  if 3 ≤ f.failed + 1 then s.finalFailure f.key
  else
    match s.dir.chooseTarget s.own f.tried f.key with
    | some t =>
      s.updateFetch f.key fun e =>
        { e with state := .waitingLink, target := t.1, role := t.2, tried := f.tried ++ [t.1], failed := f.failed + 1, defers := 0 }
    | none => s.finalFailure f.key

/-- The marks that an outcome sets in the directory (R70, R71, R73, R90, R91). -/
def markOutcome (x : Exchange) (o : ExchangeOutcome) (s : State) : State :=
  match o with
  | .notHeld => s.mapDir (Directory.strikeNotHeld x.key x.target)
  | .absent | .refused => s.mapDir (Directory.setAbsent x.target)
  | .image _ | .defer | .damaged => s

/-- The outcome of a detached exchange (R73). -/
def takeDetached (x : Exchange) (o : ExchangeOutcome) (s : State) : State :=
  match o with
  | .image (some r) =>
    if acceptable x.key r && (s.cache.validNumber x.key).isNone && (s.fetchOf x.key).isNone then (s.insertImage r (originOf x.role)).2
    else s
  | .image none | .defer | .damaged | .notHeld | .absent | .refused => s

/-- The outcome of an entry's exchange (R66 to R71). -/
def takeAttached (f : Fetch) (o : ExchangeOutcome) (s : State) : State :=
  match o with
  | .image (some r) => if acceptable f.key r then s.endWithImage f r else s.failedAttempt f
  | .defer =>
    if f.defers < 4 then s.updateFetch f.key fun e => { e with state := .deferred, defers := f.defers + 1 }
    else s.failedAttempt f
  | .image none | .damaged | .notHeld | .absent | .refused => s.failedAttempt f

/-- An exchange ends with its outcome: it is in progress no more, the directory takes its marks before a new target is chosen, and
the entry or the detached exchange takes the outcome (R66 to R73). -/
def takeOutcome (x : Exchange) (o : ExchangeOutcome) (s : State) : State :=
  let s := (s.mapLink fun l => { l with exchange := none, tenure := .none }).markOutcome x o
  if x.detached then s.takeDetached x o
  else
    match s.fetchOf x.key with
    | some f => s.takeAttached f o
    | none => s

end State

end Sys2Proof.Machine
end

