-- ==== Sys2Proof/Machine/Receive.lean ====
section
/-! DEFINITION. The Link Controller's receiving and sending: following a frame to its end, the checks and the answer of an arrived
frame, contention, and what an attempt's end does (R167 to R176, R187 to R189). -/

namespace Sys2Proof.Machine

namespace State

/-! ## Receiving -/

/-- The station reads frames: it has seen the free condition since the last reset, and no tenure is its own (R170, R181). -/
def listening (s : State) : Bool := s.link.listens && (s.link.state == .idle || s.link.state == .busyOther)

/-- A frame from this source has been read whole with a correct check word: its ABSENT mark is cleared; source 0 has none
(R90, R189). -/
def heard (src : Nat) (s : State) : State := if src = 0 then s else s.mapDir (Directory.clearAbsent src)

/-- The tenure that this station followed has ended: IDLE, and the free condition is still to come (R167). -/
def tenureOver (s : State) : State := s.mapLink fun l => { l with state := .idle, free := false }

/-- The tenure that this station follows goes on after the frame: a held exchange, through which it stays BUSY-OTHER (R170). -/
def tenureGoesOn (s : State) : State := s.mapLink fun l => { l with state := .busyOther, free := false }

/-- A frame is addressed to this station or to all stations (R170). -/
def addressed (h : Hdr) (s : State) : Bool := h.dst == s.own || h.dst == 0

/-- An arrived frame is refused before its owner sees it: its source is 0, its fields are bad, or it is of a library kind and its
source is no authority (R171, R189). -/
def turnedAway (h : Hdr) (bad library : Bool) (s : State) : Bool :=
  h.src == 0 || bad || (library && !s.straps.isAuthority h.src)

/-- The answer slots of a frame that the owner has taken or refused (R172). -/
def answered (r : State × Bool) : State := r.1.emit (.answer r.2 (!r.2))

/-- A frame with a correct check word and in form reaches its end: it is observed when it is not addressed to this station, and
otherwise it arrives and is answered (R170 to R172). `owner` is what its owner does with it, and whether it takes it. -/
def receive (h : Hdr) (bad library : Bool) (owner : State → State × Bool) (s : State) : State :=
  let s := s.fresh
  if s.listening then
    let t := s.tenureOver.heard h.src
    if s.addressed h then
      if s.turnedAway h bad library then answered (t, false) else answered (owner t)
    else t
  else s

/-! ## Contention (R168) -/

/-- One station against the others, bit by bit: the line reads low when any station still in the contention sends 0; a station that
sent 1 and reads 0 has lost. The answer says whether this station's field is sent unbeaten. -/
def unbeaten : List Bool → List (List Bool) → Bool
  | [], _ => true
  | b :: bs, others =>
    let read := b && others.all fun o => o.headD true
    if b == read then unbeaten bs ((others.filter fun o => o.headD true == read).map List.tail) else false

/-- This station's field wins against the fields of the stations that began in the same bit period. -/
def wins (mine : Arb) (others : List Arb) : Bool := unbeaten (arbBits mine) (others.map arbBits)

/-- The oldest WAITING-LINK entry (R65). -/
def oldestWaiting (s : State) : Option Fetch := s.fetches.find? fun f => f.state == .waitingLink

/-- A fetch entry is taken: it becomes EXCHANGING and its exchange is in progress (R65, R175). -/
def takeEntry (f : Fetch) (s : State) : State :=
  (s.updateFetch f.key fun e => { e with state := .exchanging }).mapLink fun l =>
    { l with exchange := some { key := f.key, target := f.target, role := f.role, attempts := 0, detached := false } }

/-- When no exchange is in progress, the oldest WAITING-LINK entry is taken (R65, R178). -/
def beginExchange (s : State) : State :=
  match s.link.exchange with
  | some _ => s
  | none =>
    match s.oldestWaiting with
    | some f => s.takeEntry f
    | none => s

/-- The frame that contends: the FETCH of the exchange, or the first frame of the queue (R178). -/
def chosen (s : State) : Option (Tenure × RawFrame) :=
  match s.link.exchange with
  | some x => some (.fetch, fetchFrame s.own x.target x.key)
  | none =>
    match s.link.queue with
    | e :: _ => some (.frame, e.frame.raw s.own)
    | [] => none

def RawFrame.arb (f : RawFrame) : Arb := { cls := f.cls, kind := f.kind, src := f.src }

/-- An attempt is counted when the arbitration field has been sent unbeaten (R169). -/
def countAttempt (t : Tenure) (l : Link) : Link :=
  match t with
  | .none => l
  | .fetch => { l with exchange := l.exchange.map fun x => { x with attempts := x.attempts + 1 } }
  | .frame =>
    { l with queue := match l.queue with
        | e :: es => { e with attempts := e.attempts + 1, onLink := true } :: es
        | [] => [] }

/-- A frame goes out with its check word (R187). -/
def emitFrame (f : RawFrame) (s : State) : State := s.emit (.frame f (checkWord (frameBits f)))

/-- A reply goes out with its check word (R187). -/
def emitReply (r : RawReply) (s : State) : State := s.emit (.reply r (checkWord (replyBits r)))

/-- The contention of the chosen frame: won, the frame is sent; lost, the winner's frame is followed (R168). -/
def contendWith (others : List Arb) (t : Tenure) (f : RawFrame) (s : State) : State :=
  if wins (RawFrame.arb f) others then
    (s.mapLink fun l => { countAttempt t l with state := .sending, free := false, tenure := t }).emitFrame f
  else s.mapLink fun l => { l with state := .busyOther, free := false }

/-! ## Ends of attempts (R173, R175, R179) -/

/-- What an attempt came to: delivered, failed with the outcome that an 8th failure gives, or absent at once. -/
inductive AttemptEnd where
  | delivered | failed (last : ExchangeOutcome) | silent
  deriving DecidableEq, Repr

/-- The frame being attempted (R177). -/
def onLink (s : State) : Option TxEntry := s.link.queue.find? fun e => e.onLink

/-- The frame being attempted leaves the queue, its owner learns the outcome, and the queue's room is offered (R179). -/
def frameLeaves (e : TxEntry) (given : Bool) (s : State) : State :=
  let s := s.mapLink fun l => { l with queue := l.queue.filter fun e => !e.onLink }
  ((if given then s.delivered e.frame else s.giveUp e.frame).gainRoom).settle

/-- The frame being attempted stays for another attempt (R173). -/
def frameStays (s : State) : State :=
  s.mapLink fun l => { l with queue := l.queue.map fun e => { e with onLink := false } }

/-- A queue frame's attempt ends (R173, R179). -/
def frameAttempt (a : AttemptEnd) (s : State) : State :=
  match s.onLink with
  | some e =>
    match a with
    | .delivered => s.frameLeaves e true
    | .silent => s.frameLeaves e false
    | .failed _ => if Config.maxAttempts ≤ e.attempts then s.frameLeaves e false else s.frameStays
  | none => s

/-- An exchange's attempt fails, by what an 8th failure gives, or its target is absent at once (R173, R175). -/
def exchangeAttempt (a : AttemptEnd) (s : State) : State :=
  match s.link.exchange with
  | some x =>
    match a with
    | .delivered => s
    | .silent => s.takeOutcome x .absent
    | .failed last => if Config.maxAttempts ≤ x.attempts then s.takeOutcome x last else s
  | none => s

/-- The station leaves its own tenure for a state, and the attempt has ended. -/
def endTenure (next : LinkState) (a : AttemptEnd) (s : State) : State :=
  let t := s.link.tenure
  let s := s.mapLink fun l => { l with state := next, tenure := .none, free := false }
  match t with
  | .none => s
  | .fetch => s.exchangeAttempt a
  | .frame => s.frameAttempt a

/-- The destination of the frame being sent is all stations. -/
def sendsToAll (s : State) : Bool :=
  match s.link.tenure, s.onLink with
  | .frame, some e => e.frame.dst == 0
  | _, _ => false

/-- How the two answer slots end an attempt (R173). -/
def attemptEnd (toAll ack object : Bool) : AttemptEnd :=
  if object then .failed .refused else if ack || toAll then .delivered else .silent

/-- A disturbance or a stall seen outside an attempt of this station: RECOVERY, and a reply being sent is broken off (R174, R176). -/
def breakOff (s : State) : State :=
  s.mapLink fun l => { l with state := .recovery, free := false, requester := none, reply := none }

/-- A disturbance, by the station's state; in HOLDING none can be seen (log 20), and a station that has seen no free condition since
its reset follows no frame from IDLE (R167, R169, R176, R181). -/
def disturbed (s : State) : State :=
  match s.link.state with
  | .sending | .awaitAnswer | .awaitReply => s.endTenure .recovery (.failed .absent)
  | .contending | .busyOther | .receiving | .replying => s.breakOff
  | .idle => if s.link.listens then s.breakOff else s
  | .holding | .recovery | .mute => s

/-- A reply fails its check: OBJECT, and the attempt has failed (R175, R189). -/
def replyRefused (s : State) : State := (s.emit (.answer false true)).endTenure .idle (.failed .refused)

/-- A station that reads frames follows one of this payload length. The length is checked when it has been read: above 528 the frame
cannot be followed to its end, which is a form disturbance, with neither answer slot asserted; otherwise `f` says what its end does
(R170, R176, R187). -/
def follow (length : Nat) (f : State → State) (s : State) : State :=
  if s.listening then if Config.maxPayload < length then s.disturbed else f s else s

/-- A reply to another station is followed to its end: a correct check word clears its source's ABSENT mark, whatever its destination
(R90, R170). -/
def observeReply (r : RawReply) (check : Word16) (s : State) : State :=
  if check ≠ checkWord (replyBits r) then s.tenureOver else s.tenureOver.heard r.src

/-- The outcome that a reply's status names (11.1, R189). -/
def replyOutcome (r : RawReply) : ExchangeOutcome :=
  match r.status with
  | 0 => .image (readImage r.payload)
  | 1 => .defer
  | 2 => .damaged
  | _ => .notHeld

end State

end Sys2Proof.Machine
end

