-- ==== Sys2Proof/Machine/LibraryFamily.lean ====
section
/-! DEFINITION. The library frames that the Directory Unit, the Image Cache, the Shaping Engine and the Patrol and Spare Unit own:
ANNOUNCE, WITHDRAW, INVALIDATE, STORE-POLICY with its six fields, and SCRIPT-LOAD with its four pieces. -/

namespace Sys2Proof.Machine

namespace State

/-! ## Directory -/

/-- This station is a holder of the new entry, and a VALID record in its range lies in a WITHDRAWN bank (R96). -/
def newEntryStruck (a : AnnounceFrame) (s : State) : Bool :=
  (Directory.newEntry a).heldBy s.own
    && s.store.index.any fun r => r.state == .valid && s.patrol.isWithdrawn r.bank && (Directory.announceRange a).covers r.key

/-- The COMPLETE flag of an ANNOUNCE answered with ACK (R97). -/
def takeFlag (a : AnnounceFrame) (s : State) : State := if a.complete then s.mapDir Directory.takeComplete else s

/-- The range of an ANNOUNCE: the overlapped entries leave, the new entry enters, and what it lists is offered (R93, R95, R96,
R101, R102). -/
def applyAnnounce (a : AnnounceFrame) (s : State) : State :=
  let t := s.mapDir (Directory.removeOverlapped a)
  if a.ways.isEmpty then t else (t.mapDir (Directory.insertNew s.own a (s.newEntryStruck a))).offerOutgoing

/-- The Directory Unit's handling of an ANNOUNCE (R92 to R97). -/
def takeAnnounce (a : AnnounceFrame) (s : State) : State × Bool :=
  if Directory.announceValid a then
    if s.dir.announceOld a then (s.takeFlag a, true)
    else if s.dir.announceNoRoom a then (s, false)
    else ((s.applyAnnounce a).takeFlag a, true)
  else (s, false)

/-- The list of a WITHDRAW is in order (R99). -/
def withdrawValid (rs : List KeyRange) : Bool :=
  1 ≤ rs.length && rs.length ≤ 16 && rs.all fun r => r.first.ordinal ≤ r.last.ordinal

/-- The Directory Unit's handling of a WITHDRAW (R99). -/
def takeWithdraw (src : Nat) (rs : List KeyRange) (s : State) : State × Bool :=
  if withdrawValid rs then (s.mapDir (Directory.strikeRanges rs src), true) else (s, false)

/-! ## Image Cache -/

/-- The Image Cache's handling of an INVALIDATE, the slots' response within it (R46, R47, R81). -/
def takeInvalidate (sp : Span) (s : State) : State :=
  let ns := s.cache.madeStale sp
  let t := s.mapCache (Cache.invalidate sp)
  let o := t.slots.older
  ((t.staleSlot ns o).staleSlot ns o.other).settle

/-! ## Store policy -/

/-- The Patrol and Spare Unit's handling of a STORE-POLICY (R128). -/
def takePolicy (h : Hdr) (f : PolicyFrame) (s : State) : State × Bool :=
  if h.dst = 0 then (s, false)
  else
    match s.patrol.applyPolicy f with
    | some p => (if policyDecides f s.patrol then (s.setPatrol p).spareDecision else s.setPatrol p, true)
    | none => (s, false)

/-- A STORE-POLICY frame that arrives (R171, R189). -/
def receivePolicy (h : Hdr) (f : PolicyFrame) (s : State) : State := s.receive h (policyBad f) true (takePolicy h f)

/-! ## Script tables -/

def table (n : Nat) (s : State) : ScriptTable := s.tables.getD n .blank

/-- A piece for table `n`: refused when it has no such table (log 17) or when `f` refuses it. -/
def takePiece (n : Nat) (f : ScriptTable → Option ScriptTable) (s : State) : State × Bool :=
  if n < Config.scriptTables then
    match f (s.table n) with
    | some t => (s.setTables (s.tables.set n t), true)
    | none => (s, false)
  else (s, false)

end State

namespace ScriptTable

/-- HEADER (R21). -/
def header (f : HeaderFields) (_ : ScriptTable) : Option ScriptTable :=
  if f.codeCount ≤ 256 && f.ligCount ≤ 64 && f.spaceWidth ≤ 2000 then
    if f.codeCount = 0 then some .blank
    else
      some { state := .loading, codeBase := f.codeBase, codeCount := f.codeCount, spaceCode := f.spaceCode
             spaceWidth := f.spaceWidth, entries := [], ligCount := f.ligCount, ligatures := [], nextClass := some 0
             nextLig := some 0 }
  else none

/-- Entries written from number `first` upward; none is left out below it (R22, R23). -/
def write {α : Type} (first : Nat) (new old : List α) : List α := old.take first ++ new ++ old.drop (first + new.length)

def codeEntryOk (e : CodeEntry) : Bool := e.isolated ≤ 4095 && e.final ≤ 4095 && e.initial ≤ 4095 && e.medial ≤ 4095

def ligEntryOk (e : LigEntry) : Bool := e.first ≤ 4095 && e.second ≤ 4095 && e.ligature ≤ 4095

/-- CLASS-BLOCK (R22). -/
def classBlock (first : Nat) (es : List CodeEntry) (t : ScriptTable) : Option ScriptTable :=
  match t.state, t.nextClass with
  | .loading, some n =>
    if 1 ≤ es.length && es.length ≤ 64 && first ≤ n && first + es.length ≤ t.codeCount && es.all codeEntryOk then
      some { t with entries := write first es t.entries, nextClass := some (max n (first + es.length)) }
    else none
  | _, _ => none

/-- LIGATURE (R23). -/
def ligature (first : Nat) (es : List LigEntry) (t : ScriptTable) : Option ScriptTable :=
  match t.state, t.nextLig with
  | .loading, some n =>
    if 1 ≤ es.length && es.length ≤ 64 && t.nextClass == some t.codeCount && first ≤ n && first + es.length ≤ t.ligCount
        && es.all ligEntryOk then
      some { t with ligatures := write first es t.ligatures, nextLig := some (max n (first + es.length)) }
    else none
  | _, _ => none

/-- COMMIT (R24). -/
def commit (t : ScriptTable) : Option ScriptTable :=
  match t.state with
  | .empty => none
  | .complete => some t
  | .loading =>
    if t.nextClass = some t.codeCount ∧ t.nextLig = some t.ligCount then
      some { t with state := .complete, nextClass := none, nextLig := none }
    else none

end ScriptTable

/-! ## Commands -/

/-- ANNOUNCE (R92 to R97). -/
def execAnnounce (h : Hdr) (a : AnnounceFrame) (s : State) : Host.Outcome State Fault Refusal :=
  .next (s.receive h (!(a.first.indexOk && a.last.indexOk)) true (State.takeAnnounce a))

/-- WITHDRAW (R99). -/
def execWithdraw (h : Hdr) (rs : List KeyRange) (s : State) : Host.Outcome State Fault Refusal :=
  .next (s.receive h (!rs.all KeyRange.indexOk) false (State.takeWithdraw h.src rs))

/-- INVALIDATE (R81). -/
def execInvalidate (h : Hdr) (sp : Span) (s : State) : Host.Outcome State Fault Refusal :=
  .next (s.receive h (!sp.indexOk) true fun s => (s.takeInvalidate sp, true))

/-- STORE_POLICY (R128). -/
def execStorePolicy (h : Hdr) (f : PolicyFrame) (s : State) : Host.Outcome State Fault Refusal := .next (s.receivePolicy h f)

/-- A STORE-POLICY with no field present. -/
def noFields : PolicyFrame := { threshold := none, drip := none, sparing := none, patrol := none, thaw := none, force := none }

/-- THRESHOLD: a STORE-POLICY with the threshold alone (R129, log 6). -/
def execThreshold (h : Hdr) (v : Nat) (s : State) : Host.Outcome State Fault Refusal :=
  .next (s.receivePolicy h { noFields with threshold := some v })

/-- DRIP_INTERVAL: a STORE-POLICY with the drip interval alone (R129, log 6). -/
def execDripInterval (h : Hdr) (v : Nat) (s : State) : Host.Outcome State Fault Refusal :=
  .next (s.receivePolicy h { noFields with drip := some v })

/-- SPARING_ENABLE: a STORE-POLICY with the sparing enable alone (R130, log 6). -/
def execSparingEnable (h : Hdr) (v : Nat) (s : State) : Host.Outcome State Fault Refusal :=
  .next (s.receivePolicy h { noFields with sparing := some v })

/-- PATROL_ENABLE: a STORE-POLICY with the patrol enable alone (R130, log 6). -/
def execPatrolEnable (h : Hdr) (v : Nat) (s : State) : Host.Outcome State Fault Refusal :=
  .next (s.receivePolicy h { noFields with patrol := some v })

/-- THAW: a STORE-POLICY with THAW alone (R131, log 6). -/
def execThaw (h : Hdr) (b : Nat) (s : State) : Host.Outcome State Fault Refusal :=
  .next (s.receivePolicy h { noFields with thaw := some b })

/-- FORCE: a STORE-POLICY with FORCE alone (R132, log 6). -/
def execForce (h : Hdr) (b : Nat) (s : State) : Host.Outcome State Fault Refusal :=
  .next (s.receivePolicy h { noFields with force := some b })

/-- HEADER (R21). -/
def execHeader (h : Hdr) (n : Nat) (f : HeaderFields) (s : State) : Host.Outcome State Fault Refusal :=
  .next (s.receive h false true (State.takePiece n (ScriptTable.header f)))

/-- CLASS_BLOCK (R22, R25). -/
def execClassBlock (h : Hdr) (n first : Nat) (es : List CodeEntry) (s : State) : Host.Outcome State Fault Refusal :=
  .next (s.receive h false true (State.takePiece n (ScriptTable.classBlock first es)))

/-- LIGATURE (R23, R25). -/
def execLigature (h : Hdr) (n first : Nat) (es : List LigEntry) (s : State) : Host.Outcome State Fault Refusal :=
  .next (s.receive h false true (State.takePiece n (ScriptTable.ligature first es)))

/-- COMMIT (R24). -/
def execCommit (h : Hdr) (n : Nat) (s : State) : Host.Outcome State Fault Refusal :=
  .next (s.receive h false true (State.takePiece n ScriptTable.commit))

end Sys2Proof.Machine
end

