-- ==== Sys2Proof/Machine/Sequencer.lean ====
section
/-! DEFINITION. The Exposure Sequencer: cuts, the galley, the alarm, closing a page, and the commands of a CONTROL frame (R142 to
R165). -/

namespace Sys2Proof.Machine

/-- The advance of the galley on an EXPOSED, and whether the page is full (R152). -/
def advanceGalley (columns depth : Nat) (g : Galley) : Galley × Bool :=
  if g.line + 1 = depth then
    if g.column + 1 = columns then ({ page := (g.page + 1) % 65536, column := 0, line := 0 }, true)
    else ({ g with column := g.column + 1, line := 0 }, false)
  else ({ g with line := g.line + 1 }, false)

/-- The renumbering of a cut (R154). -/
def renumber (g : Galley) : Galley := { page := (g.page + 1) % 65536, column := 0, line := 0 }

/-- The alarm matches: its mask names a field, and every named field is equal, the page modulo 32 (R157). -/
def alarmMatches (a : Alarm) (g : Galley) : Bool :=
  (a.maskLine || a.maskCol || a.maskPage) && (!a.maskLine || g.line == a.line) && (!a.maskCol || g.column == a.column)
    && (!a.maskPage || g.page % 32 == a.page)

/-- The code of a command (11.3). -/
def commandCode : ControlCmd → Nat
  | .pageBegin _ _ _ => 1
  | .pageEnd => 2
  | .run => 3
  | .stop => 4
  | .cut => 5
  | .galleyReset => 6
  | .proofOn => 7
  | .proofOff => 8
  | .proceed => 9
  | .alarmSet _ => 10
  | .clearFlags => 11
  | .stationClear => 12

/-- The values of a command are in range (R146). -/
def commandInRange : ControlCmd → Bool
  | .pageBegin c d _ => 1 ≤ c && c ≤ 12 && 1 ≤ d && d ≤ 255
  | .alarmSet a => a.line ≤ 255 && a.column ≤ 15 && a.page ≤ 31
  | .pageEnd | .run | .stop | .cut | .galleyReset | .proofOn | .proofOff | .proceed | .clearFlags | .stationClear => true

namespace State

/-- The sequencer is EXPOSING or CUTTING. -/
def headBusy (s : State) : Bool := s.seq.state == .exposing || s.seq.state == .cutting

/-- The slot that is EXPOSING; one at most is. -/
def exposingSlot (s : State) : Option SlotId :=
  if s.slots.slot0.state = .exposing then some .zero else if s.slots.slot1.state = .exposing then some .one else none

/-! ## Cuts (R154) -/

/-- A CUT is sent; `runs` says that the state after the cut is RUNNING (R142, R153, R154). -/
def sendCut (k : CutKind) (runs : Bool) (s : State) : State :=
  ((s.mapSeq fun q => { q with
      state := .cutting, cutPending := false
      cutRecord := some { kind := k, renumbers := k != .pageFull && q.exposedSinceCut, runs := runs } }).setHead .cut).emit .cut

/-! ## Closing (R159, R160) -/

/-- The station has drained (R160). -/
def drained (s : State) : Bool :=
  s.lines.all (fun e => e.mark.isSome) && !s.slots.slot0.inOrder && !s.slots.slot1.inOrder && !s.headBusy

/-- The PAGE-END notice is offered, which ends the close (R160). -/
def endClose (s : State) : State :=
  match s.seq.closing with
  | some cause =>
    (s.notify s.ownerOrAll (.pageEnd cause s.seq.galley s.seq.acc)).mapSeq fun q =>
      { q with closing := none, closeTimer := 0, expiryHeld := false }
  | none => s

/-- The cause of a close that an expiry has reached; when a PAGE-END was already closing the page it is a free value (R160,
log 16). -/
def expiryCause : Option CloseCause → CloseCause
  | some .pageEnd => if Config.expiryNamesCause then .expiry else .pageEnd
  | some .expiry | none => .expiry

/-- Every Line Queue entry without a report mark is given an outcome (R17). -/
def reportQueued (m : ReportMark) (s : State) : State := s.reportLines fun e => if e.mark.isSome then none else some m

/-- A close expiry (R159). -/
def expireClose (s : State) : State :=
  let s := s.mapSeq fun q =>
    { q with page := .closed, closing := some (expiryCause q.closing), closeTimer := 0, expiryHeld := false
             acc := { q.acc with closed := true } }
  ((s.endBoth .closed).reportQueued .closed).settle

/-- A held expiry is taken when the sequencer is in a state other than EXPOSING and CUTTING (R158). -/
def takeHeldExpiry (s : State) : State := if s.seq.expiryHeld && !s.headBusy then s.expireClose else s

/-- The close timer runs: its count is above 0 and the page is OPEN or being closed (R158). -/
def timerRuns (s : State) : Bool :=
  0 < s.seq.closeTimer && (s.seq.page == .opened || (s.seq.page == .closed && s.seq.closing.isSome))

/-! ## After an EXPOSED (R153) -/

/-- The sequencer leaves EXPOSING by what is due. -/
def leaveExposing (full matched : Bool) (s : State) : State :=
  let stops := s.seq.stopPending || (matched && s.seq.alarm.autoCut)
  if full then s.sendCut .pageFull !stops
  else if matched && s.seq.alarm.autoCut then s.sendCut .alarm false
  else if s.seq.cutPending then s.sendCut .commanded !stops
  else if s.seq.stopPending then s.mapSeq fun q => { q with state := .stopped, stopPending := false }
  else s.mapSeq fun q => { q with state := .running }

/-- The alarm compare: the flag ALARM and the notice (R157). -/
def soundAlarm (matched : Bool) (s : State) : State :=
  if matched then (s.setAcc fun a => { a with alarm := true }).notify s.ownerOrAll (.alarm s.seq.galley) else s

/-- FILM-OUT and HEAD-FAULT (R161). -/
def faultHead (filmOut : Bool) (s : State) : State :=
  if s.seq.state = .fault then s
  else
    let ended := s.exposingSlot
    let number : Option Nat := match ended with
      | some i => (s.slot i).header.map LineHeader.number
      | none => none
    let closes : Bool := match s.seq.cutRecord with
      | some r => r.kind == .close
      | none => false
    let s := (s.setHead .none).mapSeq fun q =>
      { q with state := .fault, cutRecord := none, cutPending := false, stopPending := false }
    let s := match ended with
      | some i => s.finishLine i .cutShort (widthsOf (s.slot i)) none
      | none => s
    let s := if closes then s.endClose else s
    let s := s.notify s.ownerOrAll (.headFault filmOut number)
    let s := s.takeHeldExpiry
    (if s.drained then s.endClose else s).settle

/-! ## Commands (8.3) -/

/-- The sender may give the command (R147). -/
def maySend (src : Nat) (c : ControlCmd) (s : State) : Bool :=
  match c with
  | .pageBegin _ _ _ => true
  | .pageEnd | .run | .stop | .cut | .galleyReset | .proofOn | .proofOff | .proceed | .alarmSet _ | .clearFlags
  | .stationClear =>
    s.seq.owner == some src || s.straps.isAuthority src || (s.seq.owner.isNone && s.straps.authLimit.val == 0)

/-- R148; nothing when it is refused. -/
def takePageBegin (src columns depth closeTime : Nat) (s : State) : Option State :=
  if s.seq.page ≠ .opened ∧ s.seq.closing = none ∧ s.seq.state = .stopped ∧ s.seq.galley.line = 0 ∧ s.seq.galley.column = 0 then
    some (s.mapSeq fun q =>
      { q with page := .opened, owner := some src, columns := columns, depth := depth, closeTimer := closeTime, expiryHeld := false })
  else none

/-- R160. -/
def takePageEnd (s : State) : Option State :=
  if s.seq.page = .opened then some (s.mapSeq fun q => { q with page := .closed, closing := some .pageEnd }) else none

/-- R149. -/
def takeRun (s : State) : Option State :=
  match s.seq.state with
  | .stopped => some ((s.mapSeq fun q => { q with state := .running }).dispatch)
  | .running | .proofWait _ => some s
  | .exposing => some (s.mapSeq fun q => { q with stopPending := false })
  | .cutting =>
    some (s.mapSeq fun q =>
      { q with stopPending := false, cutRecord := q.cutRecord.map fun r => { r with runs := r.kind != .close } })
  | .fault => none

/-- R149. -/
def takeStop (s : State) : Option State :=
  match s.seq.state with
  | .running | .proofWait _ => some (s.mapSeq fun q => { q with state := .stopped })
  | .exposing => some (s.mapSeq fun q => { q with stopPending := true })
  | .cutting =>
    some (s.mapSeq fun q => { q with stopPending := true, cutRecord := q.cutRecord.map fun r => { r with runs := false } })
  | .stopped | .fault => some s

/-- R155. -/
def takeCut (s : State) : Option State :=
  match s.seq.state with
  | .stopped => some (s.sendCut .commanded false)
  | .running | .proofWait _ => some (s.sendCut .commanded true)
  | .exposing => some (s.mapSeq fun q => { q with cutPending := true })
  | .cutting | .fault => none

/-- R156. -/
def takeGalleyReset (s : State) : Option State :=
  if s.seq.state = .stopped then some (s.mapSeq fun q => { q with galley := { page := 0, column := 0, line := 0 } }) else none

/-- R151. -/
def takeProofOff (s : State) : State :=
  let s := s.mapSeq fun q => { q with proof := false }
  match s.seq.state with
  | .proofWait i => s.transfer i
  | .stopped | .running | .exposing | .cutting | .fault => s

/-- R151. -/
def takeProceed (s : State) : Option State :=
  match s.seq.state with
  | .proofWait i => some (s.transfer i)
  | .stopped | .running | .exposing | .cutting | .fault => none

/-- R157. -/
def takeAlarmSet (a : AlarmFrame) (s : State) : State :=
  s.mapSeq fun q =>
    { q with alarm := { line := a.line, column := a.column, page := a.page, maskLine := a.maskLine, maskCol := a.maskCol
                        maskPage := a.maskPage, autoCut := a.autoCut == 1 } }

/-- STATION-CLEAR: the slots and the Line Queue report, the fetch list keeps its exchanging entry, and the cache keeps what the
exposing slot refers to (R17, R60, R75, R83, R165, log 18). -/
def takeStationClear (s : State) : State :=
  let s := (s.endBoth .cleared).reportQueued .cleared
  let kept := s.fetches.filter fun f => f.state == .exchanging
  let s := if kept.length < s.fetches.length then (s.setFetches kept).roomEvent else s
  let refs : List Nat := match s.exposingSlot with
    | some i => (s.slot i).refs
    | none => []
  (s.mapCache fun c => c.keepOnly refs).settle

/-- A command's own rule; nothing when it refuses with reason STATE (R148 to R165). -/
def takeCommand (src : Nat) (c : ControlCmd) (s : State) : Option State :=
  match c with
  | .pageBegin cols d t => s.takePageBegin src cols d t
  | .pageEnd => s.takePageEnd
  | .run => s.takeRun
  | .stop => s.takeStop
  | .cut => s.takeCut
  | .galleyReset => s.takeGalleyReset
  | .proofOn => some (s.mapSeq fun q => { q with proof := true })
  | .proofOff => some s.takeProofOff
  | .proceed => s.takeProceed
  | .alarmSet a => some (s.takeAlarmSet a)
  | .clearFlags => some (s.setAcc fun _ => {})
  | .stationClear => some s.takeStationClear

/-- One command of a list, taken or refused with its notice (R146, R147). -/
def command (src position : Nat) (c : ControlCmd) (s : State) : State :=
  if s.maySend src c then
    match s.takeCommand src c with
    | some t => t
    | none => s.notify src (.commandRefused (commandCode c) position .state)
  else s.notify src (.commandRefused (commandCode c) position .sender)

/-- The commands in list order, each against the state that those before it have left (R146). -/
def commands (src : Nat) : Nat → List ControlCmd → State → State
  | _, [], s => s
  | n, c :: cs, s => commands src (n + 1) cs (s.command src n c)

/-- A CONTROL frame at its arrival: refused, or its commands taken (R146). -/
def takeControl (h : Hdr) (cs : List ControlCmd) (s : State) : State × Bool :=
  if s.straps.head && h.dst != 0 && 1 ≤ cs.length && cs.length ≤ 6 && cs.all commandInRange then (s.commands h.src 0 cs, true)
  else (s, false)

end State

end Sys2Proof.Machine
end

