-- ==== Sys2Proof/Machine/Shaping.lean ====
section
/-! DEFINITION. The Shaping Engine: from the codes of a line's runs to the placement list in visual order (R28 to R35). -/

namespace Sys2Proof.Machine

/-- The kind of a code (R28). -/
inductive CodeKind where
  | space | uncovered | covered (e : CodeEntry)
  deriving DecidableEq, Repr

/-- The first step: a code is looked up in its run's table (R20, R28). -/
def lookupCode (t : ScriptTable) (code : Nat) : CodeKind :=
  if t.state = .complete then
    if code = t.spaceCode then .space
    else if t.codeBase ≤ code then
      if code - t.codeBase < t.codeCount then
        match t.entries[code - t.codeBase]? with
        | some e => .covered e
        | none => .uncovered
      else .uncovered
    else .uncovered
  else .uncovered

/-- The joining class of a kind; SPACE and UNCOVERED are non-mark codes of class NONE (R28). -/
def CodeKind.cls : CodeKind → JoinClass
  | .space | .uncovered => .none
  | .covered e => e.cls

/-- The class of the next code: the nearest one after, marks passed over (R29). -/
def nextClass : List CodeKind → Option JoinClass
  | [] => none
  | k :: ks => if k.cls = .mark then nextClass ks else some k.cls

/-- Whether the next code joins before: its class is DUAL or RIGHT (R30). -/
def nextJoins (c : Option JoinClass) : Bool := c == some .dual || c == some .right

/-- The form of a covered non-mark code: `before` when its previous code is DUAL, `after` when its next code is DUAL or RIGHT
(R30). -/
def chosenForm (e : CodeEntry) (before after : Bool) : Nat :=
  match e.cls with
  | .none | .mark => e.isolated
  | .right => if before then e.final else e.isolated
  | .dual =>
    match before, after with
    | false, false => e.isolated
    | true, false => e.final
    | false, true => e.initial
    | true, true => e.medial

/-- A code after form choice. -/
inductive Shaped where
  | space | uncovered | glyph (index : Nat) | mark (index : Nat)
  deriving DecidableEq, Repr

/-- The second step over a run: `prevDual` when the previous code, marks passed over, is DUAL (R29, R30). -/
def chooseForms (prevDual : Bool) : List CodeKind → List Shaped
  | [] => []
  | .space :: ks => .space :: chooseForms false ks
  | .uncovered :: ks => .uncovered :: chooseForms false ks
  | .covered e :: ks =>
    if e.cls = .mark then .mark e.isolated :: chooseForms prevDual ks
    else .glyph (chosenForm e prevDual (nextJoins (nextClass ks))) :: chooseForms (e.cls == .dual) ks

/-- The lowest-numbered ligature of a pair of chosen glyphs (R31). -/
def ligatureOf (t : ScriptTable) (a b : Nat) : Option Nat :=
  (t.ligatures.find? fun l => l.first == a && l.second == b).map (·.ligature)

/-- What stands on the line after ligature forming. -/
inductive Formed where
  | space | uncovered | glyph (index : Nat) | ligature (index : Nat) | mark (index : Nat)
  deriving DecidableEq, Repr

def Shaped.formed : Shaped → Formed
  | .space => .space
  | .uncovered => .uncovered
  | .glyph i => .glyph i
  | .mark i => .mark i

/-- The third step: pairs that stand next to each other, from the first code; ligatures never overlap (R31). -/
def formLigatures (t : ScriptTable) : List Shaped → List Formed
  | [] => []
  | [x] => [x.formed]
  | x :: y :: rest =>
    match x, y with
    | .glyph a, .glyph b =>
      match ligatureOf t a b with
      | some g => .ligature g :: formLigatures t rest
      | none => .glyph a :: formLigatures t (y :: rest)
    | _, _ => x.formed :: formLigatures t (y :: rest)

/-- A cluster before numbering: its base's role and glyph index, and its marks' glyph indices (R32). -/
structure ProtoCluster where
  role  : Role
  index : Option Nat
  marks : List Nat
  deriving DecidableEq, Repr

/-- The clusters of a run, with the flags UNCOVERED and MARK-OVERFLOW. -/
structure Attached where
  clusters  : List ProtoCluster
  uncovered : Bool
  overflow  : Bool
  deriving DecidableEq, Repr

/-- The open cluster is closed and stands before those that follow. -/
def Attached.close (open_ : Option ProtoCluster) (a : Attached) : Attached :=
  match open_ with
  | some c => { a with clusters := c :: a.clusters }
  | none => a

/-- The fourth step: each mark joins the open cluster, is dropped when it holds 3, or begins a SUBSTITUTE (R32). -/
def attachMarks (cur : Option ProtoCluster) : List Formed → Attached
  | [] => Attached.close cur { clusters := [], uncovered := false, overflow := false }
  | .mark i :: rest =>
    match cur with
    | some c =>
      if c.marks.length < 3 then attachMarks (some { c with marks := c.marks ++ [i] }) rest
      else { attachMarks (some c) rest with overflow := true }
    | none => { attachMarks (some { role := .substitute, index := none, marks := [] }) rest with uncovered := true }
  | .space :: rest => Attached.close cur (attachMarks (some { role := .space, index := none, marks := [] }) rest)
  | .uncovered :: rest =>
    { Attached.close cur (attachMarks (some { role := .substitute, index := none, marks := [] }) rest) with uncovered := true }
  | .glyph i :: rest => Attached.close cur (attachMarks (some { role := .base, index := some i, marks := [] }) rest)
  | .ligature i :: rest => Attached.close cur (attachMarks (some { role := .ligature, index := some i, marks := [] }) rest)

/-- The four steps over one run (R28 to R32). -/
def shapeRun (t : ScriptTable) (codes : List Nat) : Attached :=
  attachMarks none (formLigatures t (chooseForms false (codes.map (lookupCode t))))

/-- A placement as shaping creates it (R33). -/
def newPlacement (cluster size : Nat) (role : Role) (key : Option Key) (state : PlacementState) (advance : Option Nat) : Placement :=
  { cluster := cluster, role := role, key := key, size := size, state := state, waitsRoom := false, ref := none
    advance := advance, origin := none, x := none, y := none }

/-- The base of a cluster (R33). -/
def basePlacement (t : ScriptTable) (face size cluster : Nat) (c : ProtoCluster) : Placement :=
  match c.role with
  | .space => newPlacement cluster size .space none .resolved (some (advanceAt t.spaceWidth size))
  | .base => newPlacement cluster size .base (c.index.map fun i => { face := face, index := i }) .unresolved none
  | .ligature => newPlacement cluster size .ligature (c.index.map fun i => { face := face, index := i }) .unresolved none
  | .substitute | .mark => newPlacement cluster size .substitute none .substituted (some (boxAdvance size))

/-- The placements of a cluster: its base, then its marks in the order of their attachment (R11, R33). -/
def clusterPlacements (t : ScriptTable) (face size cluster : Nat) (c : ProtoCluster) : List Placement :=
  basePlacement t face size cluster c ::
    c.marks.map fun i => newPlacement cluster size .mark (some { face := face, index := i }) .unresolved none

/-- The clusters of a run, numbered from `n` (R33). -/
def numberClusters (t : ScriptTable) (face size : Nat) : Nat → List ProtoCluster → List (List Placement)
  | _, [] => []
  | n, c :: cs => clusterPlacements t face size n c :: numberClusters t face size (n + 1) cs

/-- A run as laid out: its direction and its clusters in logical order. -/
structure LaidRun where
  dir      : Dir
  clusters : List (List Placement)
  deriving DecidableEq, Repr

/-- A shaped line: its runs in logical order and its shaping flags. -/
structure ShapedLine where
  runs  : List LaidRun
  flags : LineFlags
  deriving DecidableEq, Repr

/-- Every run by itself, in logical order, the clusters numbered over the whole line (R33). -/
def shapeRuns (tables : List ScriptTable) : Nat → List Run → ShapedLine
  | _, [] => { runs := [], flags := {} }
  | n, r :: rs =>
    let t := tables.getD r.table .blank
    let a := shapeRun t r.codes
    let following := shapeRuns tables (n + a.clusters.length) rs
    { runs := { dir := r.dir, clusters := numberClusters t r.face r.size n a.clusters } :: following.runs
      flags := following.flags.or
        { uncovered := a.uncovered, markOverflow := a.overflow
          substituted := a.clusters.any fun c => c.role == .substitute } }

/-- The longest sequences of consecutive runs of one direction (R34, step 1). -/
def groupRuns : List LaidRun → List (List LaidRun)
  | [] => []
  | r :: rs =>
    match groupRuns rs with
    | [] => [[r]]
    | [] :: gs => [r] :: gs
    | (x :: g) :: gs => if x.dir = r.dir then (r :: x :: g) :: gs else [r] :: (x :: g) :: gs

/-- A group against the base direction has its runs reversed (R34, step 2). -/
def orderGroup (base : Dir) (g : List LaidRun) : List LaidRun :=
  match g with
  | [] => []
  | r :: _ => if r.dir = base then g else g.reverse

/-- An RTL run has its clusters reversed (R34, step 3). -/
def orderRun (r : LaidRun) : List (List Placement) :=
  match r.dir with
  | .ltr => r.clusters
  | .rtl => r.clusters.reverse

/-- The visual order of a line's placements (R34). -/
def layoutLine (base : Dir) (runs : List LaidRun) : List Placement :=
  let groups := (groupRuns runs).map (orderGroup base)
  let ordered := match base with
    | .ltr => groups
    | .rtl => groups.reverse
  ((ordered.flatten.map orderRun).flatten).flatten

/-- The shaping of a line: its placement list and its shaping flags (R28 to R35); `noDirectory` while no COMPLETE has been taken
(R27). -/
def shapeLine (tables : List ScriptTable) (noDirectory : Bool) (base : Dir) (runs : List Run) : List Placement × LineFlags :=
  let l := shapeRuns tables 0 runs
  (layoutLine base l.runs, l.flags.or { noDirectory := noDirectory })

end Sys2Proof.Machine
end

