-- ==== Sys2Proof/Machine/LineFamily.lean ====
section
/-! DEFINITION. The line and page commands: LINE and LINE_TAKE, CONTROL with its twelve commands, the head's messages, and the
close of a page (R13 to R17, R37, R142 to R165). -/

namespace Sys2Proof.Machine

namespace State

/-! ## Lines -/

/-- The conditions of R14 on the station and the frame. -/
def acceptsLine (h : Hdr) (s : State) : Bool :=
  s.straps.head && s.seq.page == .opened && s.seq.owner == some h.src && s.lines.length < Config.queueCapacity && h.dst != 0

/-- The Line Queue's handling of a LINE (R13, R14). -/
def takeLine (h : Hdr) (l : LineFrame) (s : State) : State × Bool :=
  match requestOf h.src l with
  | some q =>
    if s.acceptsLine h then (s.setLines (s.lines ++ [{ header := q.1, runs := q.2, mark := none }]), true) else (s, false)
  | none => (s, false)

/-- The slot that takes a line: slot 0 when both are EMPTY (R16). -/
def emptySlot (s : State) : Option SlotId :=
  if s.slots.slot0.state = .empty then some .zero else if s.slots.slot1.state = .empty then some .one else none

/-- The head of the queue: the oldest entry without a report mark (R15). -/
def queueHead (s : State) : Option QueueEntry := s.lines.find? fun e => e.mark.isNone

/-- A table named by a run of the line is LOADING (R16). -/
def namesLoading (e : QueueEntry) (s : State) : Bool :=
  e.runs.any fun r => (s.tables.getD r.table .blank).state == .loading

/-- The slot as it takes a shaped line (R35, R37). -/
def slotWith (h : LineHeader) (list : List Placement) (flags : LineFlags) : Slot :=
  ({ Slot.vacant with header := some h, list := list, flags := flags }).beginPass

/-- The age mark at a take: it names the other slot when that one holds a line (R37). -/
def ageAtTake (i : SlotId) (x : Slots) : SlotId := if (x.get i.other).state = .empty then i else i.other

/-- The line is shaped into the slot, and its first pass begins (R16, R35, R37). -/
def slotTakes (i : SlotId) (e : QueueEntry) (s : State) : State :=
  let shaped := shapeLine s.tables (!s.dir.complete) e.header.baseDir e.runs
  let s := s.setLines (s.lines.eraseP fun e => e.mark.isNone)
  (s.setSlots { s.slots.put i (slotWith e.header shaped.1 shaped.2) with age := some (ageAtTake i s.slots) }).settle

/-! ## CONTROL -/

/-- A CONTROL frame that arrives (R146, R171, R189). -/
def receiveControl (h : Hdr) (cs : List ControlCmd) (s : State) : State :=
  s.receive h (cs.any commandBad) false (State.takeControl h cs)

/-! ## The head -/

/-- The galley after an EXPOSED, and whether the page is full (R152). -/
def galleyAfter (s : State) : Galley × Bool := advanceGalley s.seq.columns s.seq.depth s.seq.galley

/-- The alarm matches the galley after the advance (R157). -/
def alarmAfter (s : State) : Bool := alarmMatches s.seq.alarm s.galleyAfter.1

/-- The exposing slot ends its line as SET, at the place before the advance (R55, R152). -/
def endExposure (s : State) : State :=
  match s.exposingSlot with
  | some i => (s.setHead .none).finishLine i .set (widthsOf (s.slot i)) (some s.seq.galley)
  | none => s.setHead .none

/-- EXPOSED at the sequencer: the line, the galley, the alarm, what is due, and a held expiry (R152, R153, R157, R158, log 15). -/
def lineExposed (s : State) : State :=
  let after := s.galleyAfter
  let matched := s.alarmAfter
  let t := s.endExposure.mapSeq fun q => { q with galley := after.1, exposedSinceCut := true }
  (((t.soundAlarm matched).leaveExposing after.2 matched).takeHeldExpiry).settle

/-- The counters and marks of a cut that is made (R154). -/
def cutMade (r : CutRecord) (q : Sequencer) : Sequencer :=
  { q with
    galley := if r.renumbers then renumber q.galley else q.galley
    exposedSinceCut := false, stopPending := false, cutRecord := none
    state := if r.runs && r.kind != .close then .running else .stopped }

/-- CUT-DONE at the sequencer (R154, R158, R160). -/
def cutEnds (r : CutRecord) (s : State) : State :=
  let t := (s.setHead .none).mapSeq (cutMade r)
  ((if r.kind = .close then t.endClose else t).takeHeldExpiry).settle

/-! ## Closing -/

/-- A decrement of the close timer falls due (R158). -/
def timerFalls (s : State) : State :=
  if s.seq.closeTimer = 1 then
    if s.headBusy then s.mapSeq fun q => { q with expiryHeld := true } else s.expireClose
  else s.mapSeq fun q => { q with closeTimer := q.closeTimer - 1 }

/-- The close completes, by the sequencer's state (R160). -/
def completeClose (s : State) : State :=
  match s.seq.state with
  | .stopped | .running => s.sendCut .close false
  | .fault => s.endClose
  | .proofWait _ | .exposing | .cutting => s

end State

/-! ## Commands -/

/-- LINE (R13, R14). -/
def execLine (h : Hdr) (l : LineFrame) (s : State) : Host.Outcome State Fault Refusal :=
  .next (s.receive h false false (State.takeLine h l))

/-- LINE_TAKE (R16, R27, R37). -/
def execLineTake (s : State) : Host.Outcome State Fault Refusal :=
  let s := s.fresh
  match s.emptySlot, s.queueHead with
  | some i, some e => .next (if s.dir.state = .operational ∧ !s.namesLoading e then s.slotTakes i e else s)
  | _, _ => .next s

/-- CONTROL (R146). -/
def execControl (h : Hdr) (cs : List ControlCmd) (s : State) : Host.Outcome State Fault Refusal := .next (s.receiveControl h cs)

/-- PAGE_BEGIN: a CONTROL frame with this command alone (R148, log 6). -/
def execPageBegin (h : Hdr) (columns depth closeTime : Nat) (s : State) : Host.Outcome State Fault Refusal :=
  .next (s.receiveControl h [.pageBegin columns depth closeTime])

/-- PAGE_END (R160, log 6). -/
def execPageEnd (h : Hdr) (s : State) : Host.Outcome State Fault Refusal := .next (s.receiveControl h [.pageEnd])

/-- RUN (R149, log 6). -/
def execRun (h : Hdr) (s : State) : Host.Outcome State Fault Refusal := .next (s.receiveControl h [.run])

/-- STOP (R149, log 6). -/
def execStop (h : Hdr) (s : State) : Host.Outcome State Fault Refusal := .next (s.receiveControl h [.stop])

/-- CUT (R155, log 6). -/
def execCut (h : Hdr) (s : State) : Host.Outcome State Fault Refusal := .next (s.receiveControl h [.cut])

/-- GALLEY_RESET (R156, log 6). -/
def execGalleyReset (h : Hdr) (s : State) : Host.Outcome State Fault Refusal := .next (s.receiveControl h [.galleyReset])

/-- PROOF_ON (R151, log 6). -/
def execProofOn (h : Hdr) (s : State) : Host.Outcome State Fault Refusal := .next (s.receiveControl h [.proofOn])

/-- PROOF_OFF (R151, log 6). -/
def execProofOff (h : Hdr) (s : State) : Host.Outcome State Fault Refusal := .next (s.receiveControl h [.proofOff])

/-- PROCEED (R151, log 6). -/
def execProceed (h : Hdr) (s : State) : Host.Outcome State Fault Refusal := .next (s.receiveControl h [.proceed])

/-- ALARM_SET (R157, log 6). -/
def execAlarmSet (h : Hdr) (a : AlarmFrame) (s : State) : Host.Outcome State Fault Refusal :=
  .next (s.receiveControl h [.alarmSet a])

/-- CLEAR_FLAGS (R163, log 6). -/
def execClearFlags (h : Hdr) (s : State) : Host.Outcome State Fault Refusal := .next (s.receiveControl h [.clearFlags])

/-- STATION_CLEAR (R165, log 6). -/
def execStationClear (h : Hdr) (s : State) : Host.Outcome State Fault Refusal := .next (s.receiveControl h [.stationClear])

/-- EXPOSED: ignored unless a line is outstanding (R142, R152). -/
def execExposed (s : State) : Host.Outcome State Fault Refusal :=
  let s := s.fresh
  .next (if s.head = .line ∧ s.seq.state = .exposing then s.lineExposed else s)

/-- CUT_DONE: ignored unless a cut is outstanding (R142, R154). -/
def execCutDone (s : State) : Host.Outcome State Fault Refusal :=
  let s := s.fresh
  match s.head, s.seq.state, s.seq.cutRecord with
  | .cut, .cutting, some r => .next (s.cutEnds r)
  | _, _, _ => .next s

/-- READY: FAULT becomes STOPPED; ignored in every other state (R142, R161). -/
def execReady (s : State) : Host.Outcome State Fault Refusal :=
  let s := s.fresh
  .next (if s.seq.state = .fault then s.mapSeq fun q => { q with state := .stopped } else s)

/-- FILM_LOW (R162). -/
def execFilmLow (s : State) : Host.Outcome State Fault Refusal :=
  let s := s.fresh.setAcc fun a => { a with filmLow := true }
  .next (s.notify s.ownerOrAll .filmLow)

/-- FILM_OUT (R161). -/
def execFilmOut (s : State) : Host.Outcome State Fault Refusal := .next (s.fresh.faultHead true)

/-- HEAD_FAULT (R161). -/
def execHeadFault (s : State) : Host.Outcome State Fault Refusal := .next (s.fresh.faultHead false)

/-- CLOSE_TIMER_TICK (R158). -/
def execCloseTimerTick (s : State) : Host.Outcome State Fault Refusal :=
  let s := s.fresh
  .next (if s.timerRuns then s.timerFalls else s)

/-- CLOSE_EXPIRY: the count stands at 1 and the expiry is not held back (R158, R159, log 23). -/
def execCloseExpiry (s : State) : Host.Outcome State Fault Refusal :=
  let s := s.fresh
  .next (if s.timerRuns && s.seq.closeTimer == 1 && !s.headBusy then s.expireClose else s)

/-- CLOSE_COMPLETE: the station has drained while close in progress is set (R160). -/
def execCloseComplete (s : State) : Host.Outcome State Fault Refusal :=
  let s := s.fresh
  .next (if s.seq.closing.isSome && s.drained then s.completeClose else s)

end Sys2Proof.Machine
end

