-- ==== Sys2Proof/Machine/LinkFamily.lean ====
section
/-! DEFINITION. The Link Controller's own commands: FETCH and ENROL, the frames it takes for itself, frames out of form, wrong or
observed, contention, the ends of attempts and replies, disturbances, and the timers of fetches and of the enrolment. -/

namespace Sys2Proof.Machine

namespace State

/-- A FETCH addressed to this station alone is taken: this station is its holder (R171, R174). `objected` says that another station
asserts the OBJECT slot. -/
def takeFetch (h : Hdr) (k : Key) (objected : Bool) (s : State) : State × Bool :=
  if h.dst = 0 then (s, false)
  else if objected then (s, true)
  else
    ((s.mapLink fun l => { l with state := .holding, requester := some h.src }).mapStore fun st => { st with serve := some k }, true)

/-- The fields of an ENROL are in order (R186). -/
def enrolOk (src station banks records : Nat) : Bool := station == src && 1 ≤ banks && banks ≤ 8 && records ≤ 2048

/-- The twin's ENROL has reached this station (R186). -/
def twinHeard (h : Hdr) (s : State) : Bool := s.listening && s.addressed h && h.src == s.own && h.src != 0

end State

/-- FETCH: one that this station holds (R174), and one of another station's held exchange, through which it stays BUSY-OTHER (R170). -/
def execFetch (h : Hdr) (k : Key) (others : Asserted) (s : State) : Host.Outcome State Fault Refusal :=
  .next (if s.listening && !s.addressed h && others.ack && !others.object then s.fresh.tenureGoesOn.heard h.src
    else s.receive h (!k.indexOk) false (State.takeFetch h k others.object))

/-- ENROL: from this station's own number it makes the station MUTE, unanswered (R180, R186). -/
def execEnrol (h : Hdr) (station banks : Nat) (_spare _head : Bool) (records : Nat) (s : State) :
    Host.Outcome State Fault Refusal :=
  if s.twinHeard h then .next s.fresh.enterMute
  else .next (s.receive h false false fun s => (s, State.enrolOk h.src station banks records))

/-- LINE_REPORT: taken and discarded (R171), whatever its length up to 528 (R187, R188). -/
def execLineReport (h : Hdr) (payload : List Byte) (s : State) : Host.Outcome State Fault Refusal :=
  .next (s.fresh.follow payload.length fun s => s.receive h false false fun s => (s, true))

/-- NOTICE: taken and discarded (R171), whatever its length up to 528 (R187, R188), unless a key field of it is bad (R189). -/
def execNotice (h : Hdr) (payload : List Byte) (s : State) : Host.Outcome State Fault Refusal :=
  .next (s.fresh.follow payload.length fun s => s.receive h (noticeBad payload) false fun s => (s, true))

/-- FRAME_OUT_OF_FORM: a frame that fails the checks of R188 or R189 is answered with OBJECT where it arrives, and observed elsewhere
(R90, R170); one of a length above 528 is a disturbance (R187). -/
def execFrameOutOfForm (f : RawFrame) (s : State) : Host.Outcome State Fault Refusal :=
  .next (s.fresh.follow f.payload.length fun s =>
    if outOfForm f then
      let t := s.tenureOver.heard f.src
      if s.addressed { src := f.src, dst := f.dst } then t.emit (.answer false true) else t
    else s)

/-- CHECK_WORD_WRONG: no block takes the frame and no mark is cleared; it is answered with OBJECT where it is addressed, and followed to
its end elsewhere (R170, R172); one of a length above 528 is a disturbance before its check word is read (R187). -/
def execCheckWordWrong (f : RawFrame) (check : Word16) (s : State) : Host.Outcome State Fault Refusal :=
  .next (s.fresh.follow f.payload.length fun s =>
    if check ≠ checkWord (frameBits f) then
      if s.addressed { src := f.src, dst := f.dst } then s.tenureOver.emit (.answer false true) else s.tenureOver
    else s)

/-- FRAME_OBSERVED: a frame for another station clears its source's ABSENT mark, and so does a reply whatever its destination; the
station stays BUSY-OTHER from another's FETCH to the reply (R90, R170). -/
def execFrameObserved (followed : Followed) (s : State) : Host.Outcome State Fault Refusal :=
  let s := s.fresh
  .next (if s.listening then
    match followed with
    | .frame h => if s.addressed h then s else s.tenureOver.heard h.src
    | .heldFetch h => if s.addressed h then s else s.tenureGoesOn.heard h.src
    | .reply h => s.tenureOver.heard h.src
  else s)

/-- CONTEND: at the free condition an IDLE station with a frame to send begins it (R168, R178). -/
def execContend (others : List Arb) (s : State) : Host.Outcome State Fault Refusal :=
  let s := s.fresh
  if s.link.state = .idle ∧ s.link.free then
    let t := s.beginExchange
    match t.chosen with
    | some c => .next (t.contendWith others c.1 c.2)
    | none => .next s
  else .next s

/-- SEND_ATTEMPT_END: the two answer slots of the station's own frame (R173, R175). -/
def execSendAttemptEnd (ack object : Bool) (s : State) : Host.Outcome State Fault Refusal :=
  let s := s.fresh
  match s.link.state with
  | .sending | .awaitAnswer =>
    if s.link.tenure = .fetch ∧ ack ∧ !object then .next (s.mapLink fun l => { l with state := .awaitReply })
    else .next (s.endTenure .idle (State.attemptEnd s.sendsToAll ack object))
  | _ => .next s

/-- DISTURBANCE (R169, R173, R176). -/
def execDisturbance (s : State) : Host.Outcome State Fault Refusal := .next s.fresh.disturbed

/-- STALL_LIMIT: ABSENT for a requester in AWAIT-REPLY, and a disturbance for every other station (R175, R176). -/
def execStallLimit (s : State) : Host.Outcome State Fault Refusal :=
  let s := s.fresh
  match s.link.state with
  | .awaitReply => .next (s.endTenure .recovery .silent)
  | _ => .next s.disturbed

/-- FREE_CONDITION: RECOVERY and BUSY-OTHER end in IDLE, and frames may be read and begun (R167, R176, R181). -/
def execFreeCondition (s : State) : Host.Outcome State Fault Refusal :=
  let s := s.fresh
  match s.link.state with
  | .idle | .busyOther | .recovery => .next (s.mapLink fun l => { l with state := .idle, free := true, listens := true })
  | _ => .next s

/-- REPLY_SENT: the holder is IDLE, whatever the requester answered (R174). -/
def execReplySent (s : State) : Host.Outcome State Fault Refusal :=
  let s := s.fresh
  match s.link.state with
  | .replying => .next (s.mapLink fun l => { l with state := .idle, free := false, requester := none, reply := none })
  | _ => .next s

/-- REPLY: the requester reads it, answers it and takes its outcome (R175, R187, R189); a station that follows another's held exchange
observes it (R170). -/
def execReply (r : RawReply) (check : Word16) (s : State) : Host.Outcome State Fault Refusal :=
  let s := s.fresh
  match s.link.state, s.link.exchange with
  | .awaitReply, some x =>
    if Config.maxPayload < r.payload.length then .next (s.endTenure .recovery (.failed .absent))
    else if check ≠ checkWord (replyBits r) then .next s.replyRefused
    else
      let t := s.heard r.src
      if r.src = x.target ∧ r.dst = s.own then
        .next (((t.emit (.answer true false)).mapLink fun l => { l with state := .idle, free := false }).takeOutcome x
          (State.replyOutcome r))
      else .next t.replyRefused
  | _, _ => .next (s.follow r.payload.length (State.observeReply r check))

/-- DEFER_TIMER: the DEFERRED entry of the key waits for the link again (R68). -/
def execDeferTimer (k : Key) (s : State) : Host.Outcome State Fault Refusal :=
  let s := s.fresh
  .next (s.updateFetch k fun f => if f.state = .deferred then { f with state := .waitingLink } else f)

/-- ENROL_OFFER: once the free condition has been seen, the ENROL of this reset is offered (R183). -/
def execEnrolOffer (s : State) : Host.Outcome State Fault Refusal :=
  let s := s.fresh
  .next (if s.link.enrolDue && s.link.listens then (s.mapLink fun l => { l with enrolDue := false }).offerEnrol else s)

/-- ENROL_WAIT_EXPIRY (R98, R184). -/
def execEnrolWaitExpiry (s : State) : Host.Outcome State Fault Refusal :=
  let s := s.fresh
  .next (if s.dir.enrolWait then s.mapDir Directory.expireWait else s)

end Sys2Proof.Machine
end

