-- ==== Sys2Proof/Machine/ResetFamily.lean ====
section
/-! DEFINITION. POWER_ON_RESET and STATION_RESET (R18, R25, R61, R84, R103, R122, R123, R141, R166, R181 to R183). -/

namespace Sys2Proof.Machine

/-- POWER_ON_RESET: every block takes its power-on values, and the cells are undefined anew (R123, R183). -/
def execPowerOnReset (p : Straps) (tenure : Bool) (s : State) : Host.Outcome State Fault Refusal :=
  .next ((State.powerOn p tenure (s.store.epoch + 1)).setPending s.pending)

/-- The BANKS or the SPARE strap reads otherwise than before (R182). -/
def memoryChanged (before after : Straps) : Bool :=
  before.banksLessOne != after.banksLessOne || before.spare != after.spare

/-- The store after a station reset: its LOADING records, its writes and its waiting accesses are gone (R122). -/
def Store.afterStation (st : Store) : Store :=
  { st with index := st.index.filter (fun r => r.state != .loading), writes := [], serve := none, reads := [] }

/-- The Patrol and Spare Unit after a station reset: a copy is aborted, and the interval starts anew (R138, R141). -/
def Patrol.afterStation (p : Patrol) : Patrol :=
  { p.abortCopy with intervalRuns := p.enabled, stepWaits := false, copyIntervalRuns := false, copyStepWaits := false }

/-- The sequencer after a station reset: geometry, galley, exposed-since-cut, alarm values and mask, and accumulator are kept
(R166). -/
def Sequencer.afterStation (q : Sequencer) : Sequencer :=
  { Sequencer.afterPowerOn with
    columns := q.columns, depth := q.depth, galley := q.galley, exposedSinceCut := q.exposedSinceCut
    alarm := { q.alarm with autoCut := false }, acc := q.acc }

namespace State

/-! ## The access under way (R122) -/

/-- The write-backs of a read of all the cells of a record: its corrected cells, in order (R116). -/
def recordWrites (r : StoreRecord) (conds : List CellCond) (s : State) : List (Nat × Cell) :=
  ((((List.range r.cellCount).map fun k => s.store.address r.bank (r.firstCell + k)).zip (s.store.recordConds r conds)).filter
    fun x => x.2 == .corrected).map fun x => (x.1, .data (cellBytes s.store.memory s.store.epoch x.1))

/-- The write-backs of a serve or a local read of a key that the store holds (R118, R119). -/
def keyWrites (k : Key) (conds : List CellCond) (s : State) : List (Nat × Cell) :=
  match findRecord k s.store.index with
  | some r => if s.storeHolds k then s.recordWrites r conds else []
  | none => []

/-- The cells that a LOAD write reaches: its own, and the spare's when a copy of the bank has passed it (R112, R137). -/
def loadWrites (w : LoadWrite) (s : State) : List (Nat × Cell) :=
  (s.store.address w.bank w.cell, .data w.bytes) ::
    if s.patrol.copySource = some w.bank ∧ w.cell < s.patrol.copyProgress.getD 0 then
      [(cellAddress Config.spareBank w.cell, .data w.bytes)]
    else []

/-- The cells that a copy step of cell `c` of bank `b` writes (R136). -/
def copyWrites (b c : Nat) (cond : CellCond) (s : State) : List (Nat × Cell) :=
  let at_ := s.store.address b c
  let spare := cellAddress Config.spareBank c
  let bytes := cellBytes s.store.memory s.store.epoch at_
  match cellHolder s.store.index b c with
  | none => [(spare, zeroCell)]
  | some _ =>
    match readCond s.store.memory at_ cond with
    | .clean => [(spare, .data bytes)]
    | .corrected => [(at_, .data bytes), (spare, .data bytes)]
    | .uncorrectable => [(spare, .marked)]

/-- The cells that a patrol step of cell `c` of bank `b` writes (R134). -/
def patrolWrites (b c : Nat) (cond : CellCond) (s : State) : List (Nat × Cell) :=
  let at_ := s.store.address b c
  match readCond s.store.memory at_ cond, cellHolder s.store.index b c with
  | .clean, _ | .uncorrectable, some _ => []
  | .corrected, _ => [(at_, .data (cellBytes s.store.memory s.store.epoch at_))]
  | .uncorrectable, none => [(at_, zeroCell)]

/-- The cell writes of an access, in order; none when no such access is requested or its LOAD write is to be dropped (R115). -/
def cellWrites (a : StoreAccess) (s : State) : List (Nat × Cell) :=
  match a with
  | .serve conds =>
    match s.store.serve with
    | some k => s.keyWrites k conds
    | none => []
  | .loadWrite =>
    match s.store.writes with
    | w :: _ => if w.live then s.loadWrites w else []
    | [] => []
  | .localRead conds =>
    match s.store.reads with
    | q :: _ => s.keyWrites q.key conds
    | [] => []
  | .copyStep cond =>
    match s.patrol.copySource, s.patrol.copyProgress with
    | some b, some c => if s.patrol.copyStepWaits then s.copyWrites b c cond else []
    | _, _ => []
  | .patrolStep cond =>
    if s.patrol.stepWaits && !s.patrol.isWithdrawn s.patrol.posBank then
      s.patrolWrites s.patrol.posBank s.patrol.posCell cond
    else []

def writeCells (cs : List (Nat × Cell)) (s : State) : State := cs.foldl (fun s c => s.writeCell c.1 c.2) s

/-- The cell writes that the store port has begun are completed, and the rest of the access is abandoned with its reports, its
poisoning and its record's completion (R122, log 34). -/
def endBegun (begun : Option Interrupted) (s : State) : State :=
  match begun with
  | some x => writeCells ((s.cellWrites x.access).take x.writes) s
  | none => s

/-! ## The blocks -/

/-- The store and the Patrol and Spare Unit: kept, or as after a power-on reset when their straps read otherwise (R182). -/
def resetStore (p : Straps) (s : State) : State :=
  if memoryChanged s.straps p then
    (s.setStore (.afterPowerOn p (s.store.epoch + 1))).setPatrol (.afterPowerOn p)
  else (s.mapStore Store.afterStation).mapPatrol Patrol.afterStation

/-- The blocks that a station reset empties, and those it keeps in part (10.2.1). -/
def stationReset (p : Straps) (tenure : Bool) (s : State) : State :=
  let s := (s.resetStore p).mapSeq Sequencer.afterStation
  ((((((s.setStraps p).setLink (.afterReset p tenure)).setLines []).setSlots .afterReset).setCache .afterReset).setFetches
    []).setDir (.afterReset p)

/-- The Head Port sends ABORT when a line or a cut is outstanding (R142, R166). -/
def abortHead (s : State) : State :=
  match s.head with
  | .none => s
  | .line | .cut => (s.setHead .none).emit .abort

end State

/-- STATION_RESET: a begun cell write completed, working state emptied, ABORT sent, and the spare decision made when the reset ends
(R122, R141, R166, R182, R183). -/
def execStationReset (p : Straps) (found : AtReset) (s : State) : Host.Outcome State Fault Refusal :=
  .next (((s.fresh.endBegun found.begun).abortHead.stationReset p found.tenure).spareDecision)

end Sys2Proof.Machine
end

