-- ==== Sys2Proof/Machine/StoreFamily.lean ====
section
/-! DEFINITION. The Glyph Store's frames LOAD and DISCARD, and the accesses of the store arbiter with the timers that request them
(R110 to R120, R133 to R137). -/

namespace Sys2Proof.Machine

/-- The bytes that piece `n` of an image carries (R110, R112). -/
def pieceBytes (imageLength count n : Nat) : Nat := if n + 1 < count then 64 else imageLength - 64 * (count - 1)

namespace State

/-! ## Loading -/

/-- The checks of a LOAD piece 0 (R110). -/
def load0Ok (h : Hdr) (f : LoadFields) (bytes : List Byte) (s : State) : Bool :=
  h.dst != 0 && fieldsInRange f.advanceWidth f.originX f.originY f.imageLength && f.pieceCount == cellsFor f.imageLength
    && bytes.length == pieceBytes f.imageLength f.pieceCount 0 && !s.store.writesFull

/-- The record of a LOAD piece 0 (R110). -/
def newRecord (f : LoadFields) (bank first : Nat) : StoreRecord :=
  { key := f.key, bank := bank, firstCell := first, cellCount := f.pieceCount, imageLength := f.imageLength
    advanceWidth := f.advanceWidth, originX := f.originX, originY := f.originY, state := .loading, nextPiece := some 1 }

/-- The new record enters the index, and its first write joins the LOAD write queue (R110). -/
def enterRecord (r : StoreRecord) (bytes : List Byte) (st : Store) : Store :=
  { st with index := insertRecord r st.index
            writes := st.writes ++ [{ key := r.key, bank := r.bank, cell := r.firstCell, bytes := bytes, live := true }] }

/-- The Glyph Store Controller's handling of a LOAD piece 0 (R110, R111, R113). -/
def takeLoad0 (h : Hdr) (f : LoadFields) (bytes : List Byte) (s : State) : State × Bool :=
  if s.load0Ok h f bytes then
    let others := s.store.index.filter fun r => r.key != f.key
    if Config.indexCapacity ≤ others.length then (s.notify h.src (.loadRefused f.key .noIndexRoom), true)
    else
      match allocate others f.pieceCount s.patrol.openBanks with
      | none => (s.notify h.src (.loadRefused f.key .noCellRoom), true)
      | some (b, c) =>
        (s.mapStore fun st => enterRecord (newRecord f b c) bytes (st.removeWhere fun r => r.key == f.key), true)
  else (s, false)

/-- The piece fits the record (R112). -/
def pieceOk (r : StoreRecord) (n count bytes : Nat) : Bool :=
  r.state == .loading && count == r.cellCount && 1 ≤ n && n < r.cellCount
    && (match r.nextPiece with
        | some e => n ≤ e
        | none => false)
    && bytes == pieceBytes r.imageLength r.cellCount n

/-- The next expected piece after a piece numbered `n` (R112). -/
def nextAfter (n : Nat) (r : StoreRecord) : StoreRecord := if r.nextPiece = some n then { r with nextPiece := some (n + 1) } else r

/-- The Glyph Store Controller's handling of a LOAD piece 1 to 7 (R112). -/
def takeLoad (h : Hdr) (k : Key) (n count : Nat) (bytes : List Byte) (s : State) : State × Bool :=
  match findRecord k s.store.index with
  | some r =>
    if h.dst != 0 && pieceOk r n count bytes.length && !s.store.writesFull then
      (s.mapStore fun st =>
        { st with index := updateRecord k (nextAfter n) st.index
                  writes := st.writes ++ [{ key := k, bank := r.bank, cell := r.firstCell + n, bytes := bytes, live := true }] },
        true)
    else (s, false)
  | none => (s, false)

/-! ## Arbiter accesses -/

/-- The bytes of a LOAD write reach its cell, and the spare's as well when a copy of the bank has passed the cell (R112, R137). -/
def writeLoad (w : LoadWrite) (s : State) : State :=
  let s := s.writeCell (s.store.address w.bank w.cell) (.data w.bytes)
  if s.patrol.copySource = some w.bank ∧ w.cell < s.patrol.copyProgress.getD 0 then
    s.writeCell (cellAddress Config.spareBank w.cell) (.data w.bytes)
  else s

/-- A record becomes VALID when every piece has been taken and no write of it is pending (R112). -/
def completeRecord (k : Key) (st : Store) : Store :=
  if st.writes.any fun w => w.key == k && w.live then st
  else
    { st with index := updateRecord k (fun r =>
        if r.state = .loading ∧ r.nextPiece = some r.cellCount then { r with state := .valid, nextPiece := none } else r) st.index }

/-- The oldest LOAD write is taken: dropped when its record is gone, made otherwise (R112). -/
def takeWrite (w : LoadWrite) (rest : List LoadWrite) (s : State) : State :=
  let s := s.mapStore fun st => { st with writes := rest }
  if w.live then (s.writeLoad w).mapStore (completeRecord w.key) else s

/-- A serve of a key: the reply, and what the read does to the station (R119). -/
def serveKey (k : Key) (conds : List CellCond) (s : State) : Reply × State :=
  match findRecord k s.store.index with
  | none => (.notHeld, s)
  | some r =>
    if s.patrol.isWithdrawn r.bank then (.notHeld, s)
    else
      match r.state with
      | .loading => (.defer, s)
      | .poisoned => (.damaged, s)
      | .valid =>
        ((match s.imageRead r conds with
          | some i => .image i
          | none => .damaged), s.readRecord r conds)

/-- The holder begins its reply (R174). -/
def beginReply (r : Reply) (s : State) : State :=
  (s.mapLink fun l => { l with state := .replying, reply := some r }).emitReply (r.raw s.own (s.link.requester.getD 0))

/-- A local read's record enters the cache: the VALID entry for its key, held already or new (R41, R80). -/
def readEntry (i : ImageRecord) (s : State) : Nat × State :=
  match s.cache.validNumber i.key with
  | some n => (n, s)
  | none => s.insertImage i .localStore

/-- The fetch of a key is cancelled by a local read: the entry leaves, an exchange in progress is detached, the waiting placements
take the image, and the departure is a room event (R72). -/
def cancelFetch (i : ImageRecord) (n : Nat) (s : State) : State :=
  match s.fetchOf i.key with
  | none => s
  | some f =>
    let s := s.dropFetch i.key
    let s := if f.state = .exchanging then
      s.mapLink fun l => { l with exchange := l.exchange.map fun x => { x with detached := true } } else s
    (s.resolveAllAwaiting i.key n i false).roomEvent

/-- The reading placement of a slot takes what `f` gives it, and the pass moves on (R39, R41). -/
def atReading (i : SlotId) (f : Nat → State → State) (s : State) : State :=
  match (s.slot i).pass with
  | some p => if p.wait = .reading then (f p.pos s).passOn i else s
  | none => s

/-- A slot whose own read was held back by the completed one requests it (R41, log 30). -/
def requestHeld (i : SlotId) (s : State) : State :=
  match (s.slot i).pass with
  | some p =>
    if p.wait = .readHeld then
      match ((s.slot i).list[p.pos]?).bind Placement.key with
      | some k => s.queueRead i k
      | none => s
    else s
  | none => s

/-- The image that a local read gives, when its key is still held in a VALID record of a bank that is not WITHDRAWN (R118). -/
def localImage (k : Key) (conds : List CellCond) (s : State) : Option ImageRecord :=
  match findRecord k s.store.index with
  | some r => if s.storeHolds k then s.imageRead r conds else none
  | none => none

/-- The cell accesses of a local read (R118). -/
def localAccess (k : Key) (conds : List CellCond) (s : State) : State :=
  match findRecord k s.store.index with
  | some r => if s.storeHolds k then s.readRecord r conds else s
  | none => s

/-- A local read is taken: an image enters the cache and serves the reading placement, a read without an image sends it to its third
step, and a read whose line has an outcome serves nothing (R41, R72, R118). The model's choice (log 37): where the read cancels a fetch,
R72's three steps, the room event the last of them, come before the reading placement refers to the entry, so that a reading placement
that had found the list full still waits for room at that event. -/
def takeRead (q : ReadRequest) (rest : List ReadRequest) (conds : List CellCond) (s : State) : State :=
  let s := s.mapStore fun st => { st with reads := rest }
  let image := s.localImage q.key conds
  let s := s.localAccess q.key conds
  let s := match image with
    | some i =>
      let e := s.readEntry i
      let t := e.2.cancelFetch i e.1
      if q.live then t.atReading q.slot fun pos => resolveAt q.slot pos e.1 else t
    | none => if q.live then s.atReading q.slot fun pos => thirdStep q.slot pos q.key else s
  (s.requestHeld q.slot).settle

/-- A report of an error in a cell that a record holds or that is FREE (R125). -/
def reportCell (bank : Nat) (holder : Option StoreRecord) (s : State) : State :=
  s.reportError bank (match holder with
    | some r => r.state != .loading
    | none => false)

/-- A copy step on cell `c` of bank `b` (R136). -/
def copyCell (b c : Nat) (cond : CellCond) (s : State) : State :=
  let at_ := s.store.address b c
  let spare := cellAddress Config.spareBank c
  let bytes := cellBytes s.store.memory s.store.epoch at_
  match cellHolder s.store.index b c with
  | none => s.writeCell spare zeroCell
  | some r =>
    match readCond s.store.memory at_ cond with
    | .clean => s.writeCell spare (.data bytes)
    | .corrected => ((s.writeCell at_ (.data bytes)).reportCell b (some r)).writeCell spare (.data bytes)
    | .uncorrectable => (s.writeCell spare .marked).poison r.key

/-- The end of a copy step: the next cell, or the completion (R136, R139). -/
def copyEnd (b c : Nat) (s : State) : State :=
  if c + 1 < Config.cellsPerBank then s.mapPatrol (Patrol.copyOn c) else s.completeCopy b

/-- A patrol step on a cell of a bank that is not WITHDRAWN (R134). -/
def patrolCell (b c : Nat) (cond : CellCond) (s : State) : State :=
  let at_ := s.store.address b c
  let bytes := cellBytes s.store.memory s.store.epoch at_
  let holder := cellHolder s.store.index b c
  match readCond s.store.memory at_ cond with
  | .clean => s
  | .corrected => (s.writeCell at_ (.data bytes)).reportCell b holder
  | .uncorrectable =>
    match holder with
    | none => s.writeCell at_ zeroCell
    | some r => s.poison r.key

end State

/-! ## Commands -/

/-- LOAD_PIECE_0 (R110, R111, R113). -/
def execLoadPiece0 (h : Hdr) (f : LoadFields) (bytes : List Byte) (s : State) : Host.Outcome State Fault Refusal :=
  .next (s.receive h (!f.key.indexOk) true (State.takeLoad0 h f bytes))

/-- LOAD_PIECE (R112). -/
def execLoadPiece (h : Hdr) (k : Key) (n count : Nat) (bytes : List Byte) (s : State) : Host.Outcome State Fault Refusal :=
  .next (s.receive h (!k.indexOk) true (State.takeLoad h k n count bytes))

/-- DISCARD (R114). -/
def execDiscard (h : Hdr) (sp : Span) (s : State) : Host.Outcome State Fault Refusal :=
  .next (s.receive h (!sp.indexOk) true fun s => (s.mapStore fun st => st.removeWhere fun r => sp.covers r.key, true))

/-- SERVE: taken while the holder waits for it (R119, R174). -/
def execServe (conds : List CellCond) (s : State) : Host.Outcome State Fault Refusal :=
  let s := s.fresh
  match s.store.serve, s.link.state with
  | some k, .holding =>
    let r := (s.mapStore fun st => { st with serve := none }).serveKey k conds
    .next (r.2.beginReply r.1)
  | _, _ => .next s

/-- HOLD_LIMIT: the reply is DEFER; a serve not taken is withdrawn, and one taken runs to its end with its image discarded (R120). -/
def execHoldLimit (taken : Option (List CellCond)) (s : State) : Host.Outcome State Fault Refusal :=
  let s := s.fresh
  match s.link.state, s.store.serve with
  | .holding, some k =>
    let t := (s.mapStore fun st => { st with serve := none }).beginReply .defer
    .next (match taken with
      | some conds => (t.serveKey k conds).2
      | none => t)
  | _, _ => .next s

/-- LOAD_WRITE (R112, R115). -/
def execLoadWrite (s : State) : Host.Outcome State Fault Refusal :=
  let s := s.fresh
  match s.store.writes with
  | w :: rest => .next (if s.store.mayWrite then s.takeWrite w rest else s)
  | [] => .next s

/-- LOCAL_READ (R115, R118). -/
def execLocalRead (conds : List CellCond) (s : State) : Host.Outcome State Fault Refusal :=
  let s := s.fresh
  match s.store.reads with
  | q :: rest => .next (if s.store.mayRead then s.takeRead q rest conds else s)
  | [] => .next s

/-- COPY_STEP (R115, R136). -/
def execCopyStep (cond : CellCond) (s : State) : Host.Outcome State Fault Refusal :=
  let s := s.fresh
  match s.patrol.copySource, s.patrol.copyProgress with
  | some b, some c =>
    .next (if s.patrol.copyStepWaits && s.store.mayCopy then (s.copyCell b c cond).copyEnd b c else s)
  | _, _ => .next s

/-- PATROL_STEP (R115, R133, R134). -/
def execPatrolStep (cond : CellCond) (s : State) : Host.Outcome State Fault Refusal :=
  let s := s.fresh
  if s.patrol.stepWaits && s.store.mayCopy && !s.patrol.copyStepWaits then
    if s.patrol.isWithdrawn s.patrol.posBank then .next (s.mapPatrol Patrol.passedOver)
    else .next ((s.patrolCell s.patrol.posBank s.patrol.posCell cond).mapPatrol Patrol.afterStep)
  else .next s

/-- PATROL_INTERVAL (R133). -/
def execPatrolInterval (s : State) : Host.Outcome State Fault Refusal :=
  let s := s.fresh
  .next (if s.patrol.enabled && s.patrol.intervalRuns then s.mapPatrol Patrol.intervalOver else s)

/-- COPY_INTERVAL (R136). -/
def execCopyInterval (s : State) : Host.Outcome State Fault Refusal :=
  let s := s.fresh
  .next (if s.patrol.copyIntervalRuns then
    s.mapPatrol fun p => { p with copyIntervalRuns := false, copyStepWaits := true } else s)

end Sys2Proof.Machine
end

