-- ==== Sys2Proof/Machine/Dispatch.lean ====
section
/-! DEFINITION. The meaning of each command, one arm for each row of spec/opcode_table.json. -/

namespace Sys2Proof.Machine

def exec (i : Instr) (s : State) : Host.Outcome State Fault Refusal :=
  match i with
  | .powerOnReset p tenure => Sys2Proof.Machine.execPowerOnReset p tenure s
  | .stationReset p found => Sys2Proof.Machine.execStationReset p found s
  | .fetch h key others => Sys2Proof.Machine.execFetch h key others s
  | .enrol h station banks spare head records => Sys2Proof.Machine.execEnrol h station banks spare head records s
  | .announce h a => Sys2Proof.Machine.execAnnounce h a s
  | .withdraw h ranges => Sys2Proof.Machine.execWithdraw h ranges s
  | .invalidate h span => Sys2Proof.Machine.execInvalidate h span s
  | .threshold h value => Sys2Proof.Machine.execThreshold h value s
  | .dripInterval h value => Sys2Proof.Machine.execDripInterval h value s
  | .sparingEnable h value => Sys2Proof.Machine.execSparingEnable h value s
  | .patrolEnable h value => Sys2Proof.Machine.execPatrolEnable h value s
  | .thaw h bank => Sys2Proof.Machine.execThaw h bank s
  | .force h bank => Sys2Proof.Machine.execForce h bank s
  | .line h l => Sys2Proof.Machine.execLine h l s
  | .pageBegin h columns depth closeTime => Sys2Proof.Machine.execPageBegin h columns depth closeTime s
  | .pageEnd h => Sys2Proof.Machine.execPageEnd h s
  | .run h => Sys2Proof.Machine.execRun h s
  | .stop h => Sys2Proof.Machine.execStop h s
  | .cut h => Sys2Proof.Machine.execCut h s
  | .galleyReset h => Sys2Proof.Machine.execGalleyReset h s
  | .proofOn h => Sys2Proof.Machine.execProofOn h s
  | .proofOff h => Sys2Proof.Machine.execProofOff h s
  | .proceed h => Sys2Proof.Machine.execProceed h s
  | .alarmSet h a => Sys2Proof.Machine.execAlarmSet h a s
  | .clearFlags h => Sys2Proof.Machine.execClearFlags h s
  | .stationClear h => Sys2Proof.Machine.execStationClear h s
  | .header h table f => Sys2Proof.Machine.execHeader h table f s
  | .classBlock h table first entries => Sys2Proof.Machine.execClassBlock h table first entries s
  | .ligature h table first entries => Sys2Proof.Machine.execLigature h table first entries s
  | .commit h table => Sys2Proof.Machine.execCommit h table s
  | .loadPiece0 h f bytes => Sys2Proof.Machine.execLoadPiece0 h f bytes s
  | .loadPiece h key piece pieceCount bytes => Sys2Proof.Machine.execLoadPiece h key piece pieceCount bytes s
  | .discard h span => Sys2Proof.Machine.execDiscard h span s
  | .lineReport h payload => Sys2Proof.Machine.execLineReport h payload s
  | .notice h payload => Sys2Proof.Machine.execNotice h payload s
  | .frameOutOfForm f => Sys2Proof.Machine.execFrameOutOfForm f s
  | .checkWordWrong f check => Sys2Proof.Machine.execCheckWordWrong f check s
  | .frameObserved followed => Sys2Proof.Machine.execFrameObserved followed s
  | .contend others => Sys2Proof.Machine.execContend others s
  | .sendAttemptEnd ack object => Sys2Proof.Machine.execSendAttemptEnd ack object s
  | .disturbance => Sys2Proof.Machine.execDisturbance s
  | .stallLimit => Sys2Proof.Machine.execStallLimit s
  | .freeCondition => Sys2Proof.Machine.execFreeCondition s
  | .holdLimit taken => Sys2Proof.Machine.execHoldLimit taken s
  | .replySent => Sys2Proof.Machine.execReplySent s
  | .reply r check => Sys2Proof.Machine.execReply r check s
  | .serve conds => Sys2Proof.Machine.execServe conds s
  | .loadWrite => Sys2Proof.Machine.execLoadWrite s
  | .localRead conds => Sys2Proof.Machine.execLocalRead conds s
  | .copyStep cond => Sys2Proof.Machine.execCopyStep cond s
  | .patrolStep cond => Sys2Proof.Machine.execPatrolStep cond s
  | .patrolInterval => Sys2Proof.Machine.execPatrolInterval s
  | .copyInterval => Sys2Proof.Machine.execCopyInterval s
  | .deferTimer key => Sys2Proof.Machine.execDeferTimer key s
  | .lineTake => Sys2Proof.Machine.execLineTake s
  | .exposed => Sys2Proof.Machine.execExposed s
  | .cutDone => Sys2Proof.Machine.execCutDone s
  | .ready => Sys2Proof.Machine.execReady s
  | .filmLow => Sys2Proof.Machine.execFilmLow s
  | .filmOut => Sys2Proof.Machine.execFilmOut s
  | .headFault => Sys2Proof.Machine.execHeadFault s
  | .closeExpiry => Sys2Proof.Machine.execCloseExpiry s
  | .closeComplete => Sys2Proof.Machine.execCloseComplete s
  | .enrolOffer => Sys2Proof.Machine.execEnrolOffer s
  | .enrolWaitExpiry => Sys2Proof.Machine.execEnrolWaitExpiry s
  | .closeTimerTick => Sys2Proof.Machine.execCloseTimerTick s
  | .control h commands => Sys2Proof.Machine.execControl h commands s
  | .storePolicy h p => Sys2Proof.Machine.execStorePolicy h p s

end Sys2Proof.Machine
end

