-- ==== Sys2Proof/Safety.lean ====
section
/-! DEFINITION. The words that the statements use: when a frame reaches the station, the state in which its owner takes it, the state
that answers it, and the invariants that every step keeps. -/

namespace Sys2Proof.Machine

/-- The station reads frames: it has seen the free condition since the last reset, and no tenure is its own (R170, R181). -/
def Listens (s : State) : Prop := s.link.listens = true ∧ (s.link.state = .idle ∨ s.link.state = .busyOther)

/-- A frame with this header, whole and with a correct check word, arrives: it is addressed to this station or to all (R170). -/
def Arrives (h : Hdr) (s : State) : Prop := Listens s ∧ h.src ≠ 0 ∧ (h.dst = s.straps.station ∨ h.dst = 0)

/-- It arrives and is addressed to this station alone. -/
def ArrivesHere (h : Hdr) (s : State) : Prop := Listens s ∧ h.src ≠ 0 ∧ h.dst = s.straps.station ∧ h.dst ≠ 0

/-- The source is an authority, station 1 to AUTH-LIMIT (R171). -/
def FromAuthority (h : Hdr) (s : State) : Prop := 1 ≤ h.src ∧ h.src ≤ s.straps.authLimit.val

/-- A CONTROL frame whose commands this station's head takes and whose source may give them: the owner, an authority, or, with neither
an owner nor an authority, any station (R146, R147). -/
def Commanded (h : Hdr) (s : State) : Prop :=
  ArrivesHere h s ∧ s.straps.head = true ∧
    (s.seq.owner = some h.src ∨ FromAuthority h s ∨ (s.seq.owner = none ∧ s.straps.authLimit = 0))

/-- The LINE request is in form: every value lies in its range (R4, R13). -/
def LineInForm (l : LineFrame) : Prop :=
  1 ≤ l.measure ∧ l.measure ≤ 32767 ∧ 1 ≤ l.leading ∧ l.leading ≤ 4095 ∧ l.mode ≤ 3 ∧ l.baseDir ≤ 1 ∧ l.squeeze ≤ 15 ∧
    1 ≤ l.runs.length ∧ l.runs.length ≤ 8 ∧ (l.runs.map fun r => r.codes.length).sum ≤ 120 ∧
    ∀ r ∈ l.runs, r.table ≤ 15 ∧ r.dir ≤ 1 ∧ 8 ≤ r.size ∧ r.size ≤ 240 ∧ 1 ≤ r.codes.length ∧ r.codes.length ≤ 120

/-- The station as the owner of an arrived frame finds it: the tenure is over, and the source's ABSENT mark is clear (R90, R170). -/
def arrived (h : Hdr) (s : State) : State :=
  { s with
    out := []
    link := { s.link with state := .idle, free := false }
    dir := { s.dir with absent := s.dir.absent.set h.src false } }

/-- The station has followed a frame from another station's tenure, and its source's ABSENT mark is clear; source 0 has none (R90, R170,
R189). It is in `state`: IDLE when the tenure is over, BUSY-OTHER while a held exchange goes on. -/
def observed (src : Nat) (state : LinkState) (s : State) : State :=
  { s with
    out := []
    link := { s.link with state := state, free := false }
    dir := if src = 0 then s.dir else { s.dir with absent := s.dir.absent.set src false } }

/-- The station answers a frame: ACK when it is taken, OBJECT when it is refused (R172). -/
def answers (ack : Bool) (s : State) : State := { s with out := s.out ++ [.answer ack (!ack)] }

/-- A station that follows a frame sees a form disturbance: RECOVERY, with neither answer slot asserted and no mark cleared (R176,
R187). -/
def formDisturbed (s : State) : State :=
  { s with out := [], link := { s.link with state := .recovery, free := false, requester := none, reply := none } }

/-- A notice is offered by a station that is not MUTE: it joins the transmit queue by class and age, or, when 12 frames are held, it is
dropped and NOTICE-LOST is set (R164, R177). -/
def noticed (dst : Nat) (n : Notice) (s : State) : State :=
  if s.link.queue.length < 12 then
    { s with link := { s.link with
        queue := State.insertTx { frame := .notice dst n, attempts := 0, onLink := false } s.link.queue } }
  else { s with seq := { s.seq with acc := { s.seq.acc with noticeLost := true } } }

/-- A step that changes nothing but the ports' last outputs (log 10). -/
def unchanged (s : State) : State := { s with out := [] }

/-- The header of a library frame (R171), and of the frames that carry one field or piece alone (log 6). -/
def libraryHdr : Instr → Option Hdr
  | .announce h _ | .invalidate h _ | .storePolicy h _ | .threshold h _ | .dripInterval h _ | .sparingEnable h _
  | .patrolEnable h _ | .thaw h _ | .force h _ | .header h _ _ | .classBlock h _ _ _ | .ligature h _ _ _ | .commit h _
  | .loadPiece0 h _ _ | .loadPiece h _ _ _ _ | .discard h _ => some h
  | _ => none

/-- An arbitration field as one number, its first bit the most significant: class, kind, source (R168). -/
def arbValue (a : Arb) : Nat := a.cls * 256 + a.kind * 16 + a.src

/-- Neither slot holds a line that is being resolved or measured, and no line is waited on in PROOF-WAIT. -/
def SlotsRest (s : State) : Prop :=
  (∀ i, (s.slots.get i).state ≠ .resolving ∧ (s.slots.get i).state ≠ .awaiting ∧ (s.slots.get i).state ≠ .ready) ∧
    ∀ i, s.seq.state ≠ .proofWait i

/-- A slot that holds a line holds its header (R35, R36). -/
def SlotsHeaded (s : State) : Prop := ∀ i, (s.slots.get i).state ≠ .empty → (s.slots.get i).header ≠ none

/-- In PROOF-WAIT the waiting slot is READY (R150, R151). -/
def ProofWaits (s : State) : Prop := ∀ i, s.seq.state = .proofWait i → (s.slots.get i).state = .ready

/-- No owner waits for room in the transmit queue: no ENROL, no range to withdraw, no report of a slot or of the Line Queue (R179). -/
def NoOwnerWaits (s : State) : Prop :=
  s.link.enrolWaits = false ∧ s.dir.outgoing = [] ∧ (∀ i, (s.slots.get i).state ≠ .reporting) ∧ ∀ e ∈ s.lines, e.mark = none

/-- The owner of a frame that leaves the transmit queue learns its outcome, DELIVERED or not (R179, R184). -/
def told (f : TxFrame) (delivered : Bool) (s : State) : State :=
  match f with
  | .report _ _ => if delivered then s else { s with seq := { s.seq with acc := { s.seq.acc with reportLost := true } } }
  | .notice _ _ => if delivered then s else { s with seq := { s.seq with acc := { s.seq.acc with noticeLost := true } } }
  | .withdraw _ => s
  | .enrol _ => if s.dir.state = .enrolling then { s with dir := { s.dir with enrolWait := true } } else s

/-- The cells of a list written in its order. -/
def written (cs : List (Nat × Cell)) (m : Memory) : Memory := cs.foldl (fun m c => m.write c.1 c.2) m

/-- The cells of a list driven at the store port in its order. -/
def driven (cs : List (Nat × Cell)) : List Output := cs.map fun c => .cell c.1 c.2

/-- The line of a slot has no outcome and is not being exposed. -/
def InAssembly (t : Slot) : Prop := t.state = .resolving ∨ t.state = .awaiting ∨ t.state = .ready

/-- The outcome CLOSED or CLEARED that a close expiry or a STATION-CLEAR gives (R17, R59, R60). -/
def outcomeOf : ReportMark → LineOutcome
  | .closed => .closed
  | .cleared => .cleared

/-- The report of a slot's line that is given an outcome other than SET, with the widths that were measured (R56). -/
def slotReport (o : LineOutcome) (t : Slot) (hd : LineHeader) : LineReport :=
  { number := hd.number, outcome := o, natural := (State.widthsOf t).1, set := (State.widthsOf t).2, placements := t.list.length
    substituted := (t.list.filter fun p => p.state == .substituted).length, flags := t.flags, galley := none }

/-- The report that a slot owes when its line in assembly is given an outcome (R59, R60). -/
def slotOwes (m : ReportMark) (t : Slot) : List TxFrame :=
  match t.header with
  | some hd =>
    if t.state = .resolving ∨ t.state = .awaiting ∨ t.state = .ready then [.report hd.requester (slotReport (outcomeOf m) t hd)] else []
  | none => []

/-- The reports that the slots owe, the older line first (R59). -/
def slotsOwe (m : ReportMark) (s : State) : List TxFrame :=
  slotOwes m (s.slots.get s.slots.older) ++ slotOwes m (s.slots.get s.slots.older.other)

/-- The report of a Line Queue entry that is given an outcome (R17). -/
def entryReport (m : ReportMark) (e : QueueEntry) : TxFrame :=
  .report e.header.requester
    { number := e.header.number, outcome := outcomeOf m, natural := 0, set := 0, placements := 0, substituted := 0, flags := {}
      galley := none }

/-- Every report that is owed when every line without an outcome is given one: those of the slots, then those of the Line Queue entries
without a report mark, oldest first (R17, R59, R60). -/
def owed (m : ReportMark) (s : State) : List TxFrame :=
  slotsOwe m s ++ (s.lines.filter fun e => e.mark == none).map (entryReport m)

/-- The Line Queue when there is room for `room` reports: so many of its unmarked entries leave, oldest first, and the others keep their
places and are marked (R17). -/
def leftQueued (m : ReportMark) : Nat → List QueueEntry → List QueueEntry
  | _, [] => []
  | room, e :: es =>
    match e.mark, room with
    | some _, r => e :: leftQueued m r es
    | none, 0 => { e with mark := some m } :: leftQueued m 0 es
    | none, r + 1 => leftQueued m r es

/-- Frames join the transmit queue in this order, each by class and age (R177). -/
def placed (fs : List TxFrame) (q : List TxEntry) : List TxEntry :=
  fs.foldl (fun q f => State.insertTx { frame := f, attempts := 0, onLink := false } q) q

/-- The line flags that the accumulator holds once these reports have been placed (R57, R163). -/
def gathered (fs : List TxFrame) (a : LineFlags) : LineFlags :=
  fs.foldl (fun a f => match f with
    | .report _ r => a.or r.flags
    | .enrol _ | .withdraw _ | .notice _ _ => a) a

/-- A frame is offered to a MUTE station: it is placed and given up without an attempt, and its owner learns ABSENT;
a report's flags join the accumulator as it is placed (R57, R179, R180). -/
def offeredMute (f : TxFrame) (s : State) : State :=
  told f false { s with seq := { s.seq with acc := { s.seq.acc with line := gathered [f] s.seq.acc.line } } }

/-- A notice is offered, by a station in any state of the link (R164, R177, R180). -/
def offeredNotice (dst : Nat) (n : Notice) (s : State) : State :=
  if s.link.state = .mute then offeredMute (.notice dst n) s else noticed dst n s

/-- From `s` to `t`, a station that is not MUTE ends every line without an outcome. The reports are offered, the older slot's first, then
the younger's, then those of the unmarked Line Queue entries, and as many join the transmit queue as find room; a slot whose report is
placed is EMPTY and a slot whose report is not is REPORTING with it, and a Line Queue entry leaves or is marked likewise (R17, R58 to R60,
R177). -/
def LinesEnded (m : ReportMark) (s t : State) : Prop :=
  t.link.queue = placed ((owed m s).take (12 - s.link.queue.length)) s.link.queue ∧
  t.seq.acc.line = gathered ((owed m s).take (12 - s.link.queue.length)) s.seq.acc.line ∧
  (∀ (i : SlotId) (hd : LineHeader) (before : Nat), InAssembly (s.slots.get i) → (s.slots.get i).header = some hd →
    before = (if i = s.slots.older then 0 else (slotOwes m (s.slots.get s.slots.older)).length) →
    (s.link.queue.length + before < 12 → t.slots.get i = .vacant) ∧
    (12 ≤ s.link.queue.length + before → t.slots.get i = { Slot.vacant with
      state := .reporting, header := some hd, flags := (s.slots.get i).flags
      report := some (slotReport (outcomeOf m) (s.slots.get i) hd) })) ∧
  t.lines = leftQueued m (12 - (s.link.queue.length + (slotsOwe m s).length)) s.lines

/-- From `s` to `t`, a MUTE station ends every line without an outcome: each report is placed and given up, which sets REPORT-LOST (R177,
R179, R180). -/
def LinesLost (m : ReportMark) (s t : State) : Prop :=
  t.link.queue = s.link.queue ∧ (∀ i, InAssembly (s.slots.get i) → t.slots.get i = .vacant) ∧
  t.lines = s.lines.filter (fun e => e.mark != none) ∧ t.seq.acc.line = gathered (owed m s) s.seq.acc.line ∧
  t.seq.acc.reportLost = (s.seq.acc.reportLost || !(owed m s).isEmpty)

/-- From `s` to `t`, a close expiry is taken whole: the page is CLOSED and closing, with its cause (log 16 where a PAGE-END had begun the
close), the timer stands at 0 with no expiry held, every line without an outcome ends, nothing is sent to the head, and PROOF-WAIT becomes
RUNNING (R151, R158, R159). -/
def CloseExpired (s t : State) : Prop :=
  t.seq.page = .closed ∧ t.seq.closeTimer = 0 ∧ t.seq.expiryHeld = false ∧
  ((s.seq.closing = none ∨ s.seq.closing = some .expiry) → t.seq.closing = some .expiry) ∧
  (s.seq.closing = some .pageEnd →
    t.seq.closing = some (if Config.expiryNamesCause then CloseCause.expiry else CloseCause.pageEnd)) ∧
  (s.link.state ≠ .mute → LinesEnded .closed s t) ∧ (s.link.state = .mute → LinesLost .closed s t) ∧
  t.seq.acc.closed = true ∧ (∀ i, ¬InAssembly (t.slots.get i)) ∧ (∀ e ∈ t.lines, e.mark ≠ none) ∧
  t.seq.galley = s.seq.galley ∧ t.seq.owner = s.seq.owner ∧ t.head = s.head ∧ t.out = s.out ∧ t.fetches = s.fetches ∧
  t.store.index = s.store.index ∧ t.store.memory = s.store.memory ∧
  ((∀ i, s.seq.state ≠ .proofWait i) → t.seq.state = s.seq.state) ∧
  ((∃ i, s.seq.state = .proofWait i) → t.seq.state = .running)

/-- The close of a page ends: the PAGE-END notice, with the cause, the counters and the accumulator as they stand, is offered to the page
owner, or to all stations when there is none; no close is in progress, the timer is 0, and a held expiry is discarded (R158, R160,
R164). -/
def pageEnded (cause : CloseCause) (s : State) : State :=
  let t := offeredNotice (s.seq.owner.getD 0) (.pageEnd cause s.seq.galley s.seq.acc) s
  { t with seq := { t.seq with closing := none, closeTimer := 0, expiryHeld := false } }

/-- No line is left that must be reported before the close of a page completes, but for one that is being exposed (R160). -/
def NothingToDrain (s : State) : Prop := (∀ e ∈ s.lines, e.mark ≠ none) ∧ ∀ i, ¬InAssembly (s.slots.get i)

/-- The galley after the advance of an EXPOSED, and whether the page is then full (R152). -/
def GalleyAdvances (q : Sequencer) (g : Galley) (full : Bool) : Prop :=
  (q.galley.line + 1 ≠ q.depth ∧ g = { q.galley with line := q.galley.line + 1 } ∧ full = false) ∨
  (q.galley.line + 1 = q.depth ∧ q.galley.column + 1 ≠ q.columns ∧
    g = { q.galley with line := 0, column := q.galley.column + 1 } ∧ full = false) ∨
  (q.galley.line + 1 = q.depth ∧ q.galley.column + 1 = q.columns ∧
    g = { page := (q.galley.page + 1) % 65536, column := 0, line := 0 } ∧ full = true)

/-- A CUT is sent to the head with this cut record, and no cut is pending (R142, R153, R154). -/
def cutSent (r : CutRecord) (s : State) : State :=
  { s with
    out := s.out ++ [.cut]
    head := .cut
    seq := { s.seq with state := .cutting, cutPending := false, cutRecord := some r } }

/-- The sequencer sends the line of slot `i` to the head (R150). -/
def sent (i : SlotId) (s : State) : State :=
  { s with
    slots := s.slots.put i { s.slots.get i with state := .exposing }
    seq := { s.seq with state := .exposing }
    head := .line
    out := s.out ++ [.line (State.lineTransfer s.cache (s.slots.get i))] }

/-! ## Exchanges and cells -/

/-- The exchange `x` of this station is over with the outcome ABSENT or REFUSED, and its target has its ABSENT mark (R71, R91). -/
def targetMarked (x : Exchange) (s : State) : State :=
  { s with
    link := { s.link with exchange := none, tenure := .none }
    dir := { s.dir with absent := s.dir.absent.set x.target true } }

/-- From `s`, in which the exchange `x` is over and its target marked, to `t`, the fetch list takes the failed attempt: a detached exchange,
and one whose key has no entry, changes nothing; below the third failed attempt the entry waits for the link with the target that the
directory as marked gives, the failed count one higher, that target tried and no defer used; and the third failed attempt, or no target,
ends the fetch in final failure (R71, R73). -/
def GivenUp (x : Exchange) (s t : State) : Prop :=
  (x.detached = true → t = s) ∧
  (x.detached = false → (∀ f ∈ s.fetches, f.key ≠ x.key) → t = s) ∧
  ∀ f, x.detached = false → s.fetches.find? (fun e => e.key == x.key) = some f →
    (∀ u, f.failed < 2 → s.dir.chooseTarget s.straps.station f.tried x.key = some u →
      t = { s with fetches := s.fetches.map (fun e => if e.key == x.key then
        { e with state := .waitingLink, target := u.1, role := u.2, tried := f.tried ++ [u.1], failed := f.failed + 1, defers := 0 }
        else e) }) ∧
    ((2 ≤ f.failed ∨ s.dir.chooseTarget s.straps.station f.tried x.key = none) → t = State.finalFailure x.key s)

/-- The holder sends its reply, with its check word (R119, R174, R187). -/
def replying (r : Reply) (s : State) : State :=
  let raw := r.raw s.straps.station (s.link.requester.getD 0)
  { s with
    out := s.out ++ [.reply raw (checkWord (replyBits raw))]
    link := { s.link with state := .replying, reply := some r } }

/-- So many correctable errors, each from a cell that held data, are reported against bank `b`, one after the other (R125, R126). -/
def reported (b : Nat) : Nat → State → State
  | 0, s => s
  | n + 1, s => reported b n (s.reportError b true)

/-- A read of every cell of a record: each CORRECTED cell is written back as it is read, and one error is reported for each against the
bank (R116, R125). -/
def cellsRead (r : StoreRecord) (conds : List CellCond) (s : State) : State :=
  reported r.bank ((s.store.recordConds r conds).count .corrected) { s with
    out := s.out ++ driven (s.recordWrites r conds)
    store := { s.store with memory := written (s.recordWrites r conds) s.store.memory } }

/-- The VALID record of key `k` becomes POISONED, and a NOTICE POISONED goes to all stations (R117). -/
def poisoned (k : Key) (bank : Nat) (s : State) : State :=
  offeredNotice 0 (.poisoned k bank) { s with store := { s.store with
    index := s.store.index.map (fun r => if r.key = k then { r with state := .poisoned } else r) } }

/-! ## Placements and slots -/

/-- How many placements of a slot are AWAITING on a key (R43). -/
def waiting (k : Key) (t : Slot) : Nat := (t.list.filter (Slot.awaits k)).length

/-- The placements of a slot that are AWAITING on a key take the image of entry `n` (R43). -/
def imageTaken (k : Key) (n : Nat) (r : ImageRecord) (alternate : Bool) (t : Slot) : Slot :=
  if waiting k t = 0 then t
  else { t with
    list := withY (some 0) (t.list.map fun p => if Slot.awaits k p then resolveWith n r p else p)
    flags := if alternate then t.flags.or { alternateUsed := true } else t.flags }

/-- The placements of a slot that are AWAITING on a key become SUBSTITUTED (R44). -/
def fetchFailed (k : Key) (t : Slot) : Slot :=
  if waiting k t = 0 then t
  else { t with
    list := withY (some 0) (t.list.map fun p => if Slot.awaits k p then substitute p else p)
    flags := t.flags.or { substituted := true } }

/-- A slot in RESOLVING or AWAITING holds a placement that waits for room in the fetch list (R45). -/
def WaitsForRoom (t : Slot) : Prop :=
  (t.state = .resolving ∨ t.state = .awaiting) ∧ ∃ p ∈ t.list, p.state = .unresolved ∧ p.waitsRoom = true

/-- Its answer to a room event: a pass begins, or the pass under way is to be repeated (R45). -/
def roomAnswered (t : Slot) : Slot :=
  if t.state = .awaiting then { t with state := .resolving, pass := some { pos := 0, again := false, wait := .running } }
  else { t with pass := t.pass.map fun p => { p with again := true } }

/-- The younger slot, held back by `n` passes of the older one; a pass under way is to be repeated (R45, log 14). -/
def heldBack (n : Nat) (t : Slot) : Slot :=
  { t with
    held := max t.held n
    pass := if t.state = .resolving then t.pass.map fun p => { p with again := true } else t.pass }

/-- The younger slot as nothing holds it back any more: an AWAITING slot and a parked one begin a pass, and a pass under way is to be
repeated (R45, log 35). -/
def freed (t : Slot) : Slot :=
  match t.state, t.pass with
  | .awaiting, _ => { t with held := 0, state := .resolving, pass := some { pos := 0, again := false, wait := .running } }
  | .resolving, some p =>
    if p.wait = .parked then { t with held := 0, pass := some { pos := 0, again := false, wait := .running } }
    else { t with held := 0, pass := some { p with again := true } }
  | _, _ => { t with held := 0 }

/-- A placement refers to one of these cache entries. -/
def refersTo (ns : List Nat) (p : Placement) : Bool :=
  match p.ref with
  | some n => ns.contains n
  | none => false

/-- A placement that refers to one of these entries is UNRESOLVED again (R46). -/
def released (ns : List Nat) (p : Placement) : Placement :=
  if refersTo ns p then
    { p with state := .unresolved, waitsRoom := false, ref := none, advance := none, origin := none, x := none, y := none }
  else p

/-! ## Directory -/

/-- The COMPLETE flag of an ANNOUNCE that is answered with ACK (R97, R184). -/
def flagTaken (a : AnnounceFrame) (s : State) : State :=
  if a.complete then { s with dir := { s.dir with complete := true, state := .operational, enrolWait := false } } else s

/-- This station is a holder of the entry that an ANNOUNCE brings, and holds a VALID record of a WITHDRAWN bank in its range (R96). -/
def HoldsWithdrawn (a : AnnounceFrame) (s : State) : Prop :=
  (∃ w ∈ a.ways, w.primary = s.straps.station ∨ w.alternate = s.straps.station) ∧
    ∃ r ∈ s.store.index, r.state = .valid ∧ s.patrol.bankState r.bank = .withdrawn ∧
      (Directory.announceRange a).covers r.key = true

/-- The withdrawal of bank `b` strikes this station in an entry and lists its range: the entry names it unstruck, and a VALID record of
the bank has its key in the range (R100). -/
def listedFor (b : Nat) (s : State) (e : DirEntry) : Bool :=
  e.ways.any (fun w => (w.primary == s.straps.station && !w.primaryStruck) || (w.alternate == s.straps.station && !w.alternateStruck))
    && s.store.index.any fun r => r.state == .valid && r.bank == b && e.range.covers r.key

/-! ## Invariants -/

/-- The store memory is in its canonical form. -/
def MemoryCanonical (s : State) : Prop := s.store.memory.wf = true

/-- The galley counters lie within the page geometry, and the page number has 16 bits (R145). -/
def GalleyInGeometry (s : State) : Prop :=
  s.seq.galley.line < s.seq.depth ∧ s.seq.galley.column < s.seq.columns ∧ s.seq.galley.page < 65536

/-- No queue or table holds more than its capacity: transmit queue (R177), fetch list (R62), Line Queue (2.1.1), directory (R86), store
index (R107), LOAD write queue (R112). -/
def WithinCapacities (s : State) : Prop :=
  s.link.queue.length ≤ 12 ∧ s.fetches.length ≤ 8 ∧ s.lines.length ≤ 6 ∧ s.dir.entries.length ≤ 64 ∧
    s.store.index.length ≤ 2048 ∧ s.store.writes.length ≤ 4

/-- The commands by which a frame or a reply reaches the station, or passes it. -/
def bringsFrame : Instr → Bool
  | .fetch _ _ _ | .enrol _ _ _ _ _ _ | .announce _ _ | .withdraw _ _ | .invalidate _ _ | .threshold _ _ | .dripInterval _ _
  | .sparingEnable _ _ | .patrolEnable _ _ | .thaw _ _ | .force _ _ | .line _ _ | .pageBegin _ _ _ _ | .pageEnd _ | .run _ | .stop _
  | .cut _ | .galleyReset _ | .proofOn _ | .proofOff _ | .proceed _ | .alarmSet _ _ | .clearFlags _ | .stationClear _
  | .header _ _ _ | .classBlock _ _ _ _ | .ligature _ _ _ _ | .commit _ _ | .loadPiece0 _ _ _ | .loadPiece _ _ _ _ _ | .discard _ _
  | .lineReport _ _ | .notice _ _ | .frameOutOfForm _ | .checkWordWrong _ _ | .frameObserved _ | .reply _ _ | .control _ _
  | .storePolicy _ _ => true
  | _ => false

/-- A reset, by which alone MUTE is left (R180). -/
def isReset : Instr → Bool
  | .powerOnReset _ _ | .stationReset _ _ => true
  | _ => false

end Sys2Proof.Machine
end

