-- ==== Sys2Proof/WellFormed.lean ====
section
/-! DEFINITION. Well-formed commands: every field fits the bits that the layouts of chapter 11 give it, so that the command
can stand on the link. Values that fit but lie outside a rule's range are well formed; the rule refuses them. A frame whose payload is
longer than 528 bytes is never followed to the end of its fields (R187), so no command that gives a frame by its fields is one: such a
frame is spelled by its bytes, in FRAME_OUT_OF_FORM or CHECK_WORD_WRONG. -/

namespace Sys2Proof

/-- Fits `n` bits. -/
def fits (n v : Nat) : Bool := v < 2 ^ n

/-- Fits a signed 16-bit field. -/
def fitsSigned (v : Int) : Bool := -32768 ≤ v && v < 32768

namespace Hdr
def wf (h : Hdr) : Bool := fits 4 h.src && fits 4 h.dst
end Hdr

namespace Key
def wf (k : Key) : Bool := fits 8 k.face && fits 16 k.index
end Key

namespace KeyRange
def wf (r : KeyRange) : Bool := r.first.wf && r.last.wf
end KeyRange

namespace Span
def wf (s : Span) : Bool := fits 8 s.face && fits 16 s.first && fits 16 s.last
end Span

namespace Arb
def wf (a : Arb) : Bool := fits 2 a.cls && fits 4 a.kind && fits 4 a.src
end Arb

namespace RawFrame
/-- The length field has ten bits; a length above 528 is a form disturbance (R187). -/
def wf (f : RawFrame) : Bool :=
  fits 2 f.cls && fits 4 f.kind && fits 4 f.src && fits 4 f.dst && fits 10 f.payload.length
end RawFrame

namespace RawReply
/-- The length field has ten bits; a length above 528 is a form disturbance (R187). -/
def wf (r : RawReply) : Bool :=
  fits 4 r.src && fits 4 r.dst && fits 2 r.status && fits 10 r.payload.length
end RawReply

namespace CodeEntry
def wf (e : CodeEntry) : Bool := fits 12 e.isolated && fits 16 e.final && fits 16 e.initial && fits 16 e.medial
end CodeEntry

namespace LigEntry
def wf (e : LigEntry) : Bool := fits 16 e.first && fits 16 e.second && fits 16 e.ligature
end LigEntry

namespace HeaderFields
def wf (f : HeaderFields) : Bool :=
  fits 16 f.codeBase && fits 16 f.codeCount && fits 8 f.ligCount && fits 16 f.spaceCode && fits 16 f.spaceWidth
end HeaderFields

namespace RunFrame
def wf (r : RunFrame) : Bool :=
  fits 8 r.table && fits 8 r.dir && fits 8 r.face && fits 8 r.size && fits 8 r.codes.length && r.codes.all (fits 16)
end RunFrame

namespace LineFrame
/-- The payload length of the LINE frame (11.3). -/
def payloadLength (l : LineFrame) : Nat := 10 + (l.runs.map fun r => 5 + 2 * r.codes.length).sum

def wf (l : LineFrame) : Bool :=
  fits 16 l.number && fits 16 l.measure && fits 16 l.leading && fits 8 l.mode && fits 8 l.baseDir && fits 8 l.squeeze
    && fits 8 l.runs.length && l.runs.all RunFrame.wf && l.payloadLength ≤ Config.maxPayload
end LineFrame

namespace AnnounceFrame
def wf (a : AnnounceFrame) : Bool :=
  a.first.wf && a.last.wf && fits 16 a.version && fits 8 a.ways.length
    && a.ways.all (fun w => fits 8 w.primary && fits 8 w.alternate)
end AnnounceFrame

namespace LoadFields
def wf (f : LoadFields) : Bool :=
  f.key.wf && fits 8 f.pieceCount && fits 16 f.advanceWidth && fitsSigned f.originX && fitsSigned f.originY
    && fits 16 f.imageLength
end LoadFields

namespace AlarmFrame
def wf (a : AlarmFrame) : Bool := fits 8 a.line && fits 8 a.column && fits 8 a.page && fits 8 a.autoCut
end AlarmFrame

namespace ControlCmd
/-- The bytes that a command takes in a CONTROL frame: its code and its fields (11.3). -/
def length : ControlCmd → Nat
  | .pageBegin _ _ _ => 5
  | .alarmSet _ => 6
  | .pageEnd | .run | .stop | .cut | .galleyReset | .proofOn | .proofOff | .proceed | .clearFlags | .stationClear => 1

/-- The payload length of a CONTROL frame (11.3). -/
def payloadLength (cs : List ControlCmd) : Nat := 1 + (cs.map length).sum

def wf : ControlCmd → Bool
  | .pageBegin c d t => fits 8 c && fits 8 d && fits 16 t
  | .alarmSet a => a.wf
  | _ => true
end ControlCmd

namespace PolicyFrame
def fieldWf : Option Nat → Bool
  | some v => fits 8 v
  | none => true

def wf (p : PolicyFrame) : Bool :=
  fieldWf p.threshold && fieldWf p.drip && fieldWf p.sparing && fieldWf p.patrol && fieldWf p.thaw && fieldWf p.force
end PolicyFrame

namespace Instr

/-- A command that the link, the head, the store port or the straps can give. -/
def wf : Instr → Bool
  | .powerOnReset _ _ | .stationReset _ _ => true
  | .fetch h k _ => h.wf && k.wf
  | .enrol h st b _ _ n => h.wf && fits 8 st && fits 8 b && fits 16 n
  | .announce h a => h.wf && a.wf
  | .withdraw h rs => h.wf && rs.length ≤ 87 && rs.all KeyRange.wf
  | .invalidate h sp | .discard h sp => h.wf && sp.wf
  | .threshold h v | .dripInterval h v | .sparingEnable h v | .patrolEnable h v | .thaw h v | .force h v => h.wf && fits 8 v
  | .line h l => h.wf && l.wf
  | .pageBegin h c d t => h.wf && (ControlCmd.pageBegin c d t).wf
  | .alarmSet h a => h.wf && a.wf
  | .pageEnd h | .run h | .stop h | .cut h | .galleyReset h | .proofOn h | .proofOff h | .proceed h | .clearFlags h
  | .stationClear h => h.wf
  | .header h t f => h.wf && fits 8 t && f.wf
  | .classBlock h t n es => h.wf && fits 8 t && fits 16 n && es.length ≤ 65 && es.all CodeEntry.wf
  | .ligature h t n es => h.wf && fits 8 t && fits 8 n && es.length ≤ 87 && es.all LigEntry.wf
  | .commit h t => h.wf && fits 8 t
  | .loadPiece0 h f bs => h.wf && f.wf && bs.length ≤ Config.maxPayload - 13
  | .loadPiece h k n c bs => h.wf && k.wf && 1 ≤ n && fits 8 n && fits 8 c && bs.length ≤ Config.maxPayload - 5
  | .lineReport h p | .notice h p => h.wf && fits 10 p.length
  | .frameOutOfForm f | .checkWordWrong f _ => f.wf
  | .frameObserved x => x.hdr.wf
  | .contend os => os.all Arb.wf
  | .reply r _ => r.wf
  | .deferTimer k => k.wf
  | .control h cs => h.wf && fits 8 cs.length && cs.all ControlCmd.wf && ControlCmd.payloadLength cs ≤ Config.maxPayload
  | .storePolicy h p => h.wf && p.wf
  | .sendAttemptEnd _ _ | .disturbance | .stallLimit | .freeCondition | .holdLimit _ | .replySent | .serve _ | .loadWrite
  | .localRead _ | .copyStep _ | .patrolStep _ | .patrolInterval | .copyInterval | .lineTake | .exposed | .cutDone
  | .ready | .filmLow | .filmOut | .headFault | .closeExpiry | .closeComplete | .enrolOffer | .enrolWaitExpiry
  | .closeTimerTick => true

end Instr

end Sys2Proof
end

