-- ==== Sys2Proof/Certificates/Slice0/Obligations.lean ====
section
/-! DEFINITION. The statements for the provers. Each completes a command by its own effect, `exec c s = .next t`, with what `t` holds
and what it leaves as it was, or says a law of a shared operation, or an invariant that every step keeps. -/

open Sys2Proof Sys2Proof.Machine

/-! ## The block's step and its resets -/

/-- The front command runs with the queue's rest; on an empty queue the block idles, which is the model's choice (log 4). -/
def Obligations.StepRunsFrontCommand : Prop :=
  (∀ (c : Instr) (rest : List Instr) (s : State), s.pending = c :: rest → step s = exec c { s with pending := rest }) ∧
    ∀ s : State, s.pending = [] → step s = .next s

/-- No command faults or is refused, and none touches the queue of commands. The model's reading: a command that cannot apply in the
present state still answers a next state (log 2, DEDUCED), and the queue itself is the model's (log 5, DESIGN CHOICE). -/
def Obligations.EveryCommandAnswersAndKeepsTheQueue : Prop :=
  ∀ (c : Instr) (s : State), ∃ t, exec c s = .next t ∧ t.pending = s.pending

/-- What either reset leaves in every block but the store, its patrol and the sequencer's page data, and what a power-on reset gives the
script tables, the store, its patrol and the sequencer. The model's reading: log 24. -/
def Obligations.ResetsEmptyTheWorkingState : Prop :=
  (∀ (p : Straps) (tenure : Bool) (begun : Option Interrupted) (s : State) (c : Instr),
     c = .powerOnReset p tenure ∨ c = .stationReset p { tenure := tenure, begun := begun } →
     ∃ t, exec c s = .next t ∧ t.straps = p ∧ t.pending = s.pending ∧ t.lines = [] ∧ t.fetches = [] ∧
       t.cache = { entries := [], recency := [] } ∧ t.slots = { slot0 := .vacant, slot1 := .vacant, age := none } ∧
       t.head = .none ∧ t.dir.entries = [] ∧ t.dir.complete = false ∧ (∀ x ∈ t.dir.absent, x = false) ∧
       t.dir.absent.length = 16 ∧ t.dir.outgoing = [] ∧ t.dir.enrolWait = false ∧
       t.dir.state = (if p.station = 0 then .operational else .enrolling) ∧
       t.link.state = (if p.station = 0 then .mute else if tenure then .busyOther else .idle) ∧ t.link.listens = false ∧
       t.link.tenure = .none ∧ t.link.exchange = none ∧ t.link.enrolDue = decide (p.station ≠ 0) ∧
       t.link.enrolWaits = false ∧ t.seq.state = .stopped ∧ t.seq.cutPending = false ∧ t.seq.stopPending = false ∧
       t.seq.expiryHeld = false ∧ t.seq.closing = none ∧ t.seq.cutRecord = none ∧ t.seq.proof = false ∧ t.seq.page = .noPage ∧
       t.seq.owner = none ∧ t.seq.alarm.autoCut = false ∧ t.seq.closeTimer = 0) ∧
  (∀ (p : Straps) (tenure : Bool) (s : State), ∃ t, exec (.powerOnReset p tenure) s = .next t ∧ t.link.queue = [] ∧
     t.out = [] ∧ t.tables.length = 16 ∧ (∀ x ∈ t.tables, x.state = .empty) ∧
     t.store.map = List.range p.banks ∧ t.store.index = [] ∧ t.store.writes = [] ∧ t.store.serve = none ∧ t.store.reads = [] ∧
     t.patrol.banks = List.replicate p.banks { count := 0, state := .good } ∧ t.patrol.threshold = 24 ∧ t.patrol.drip = 4 ∧
     t.patrol.sparing = true ∧ t.patrol.enabled = true ∧ t.patrol.posBank = 0 ∧ t.patrol.posCell = 0 ∧ t.patrol.passes = 0 ∧
     t.patrol.spare = (if p.spare then .free else .absent) ∧ t.patrol.copySource = none ∧ t.patrol.copyProgress = none ∧
     t.patrol.intervalRuns = true ∧ t.seq.columns = 1 ∧ t.seq.depth = 255 ∧
     t.seq.galley = { page := 0, column := 0, line := 0 } ∧ t.seq.exposedSinceCut = false ∧
     t.seq.alarm = { line := 0, column := 0, page := 0, maskLine := false, maskCol := false, maskPage := false, autoCut := false } ∧
     t.seq.acc = {})

/-- What a station reset keeps when BANKS and SPARE read as before, when no bank waits AT-THRESHOLD or is being copied; the cell writes
that an access has begun are completed and the rest of it is abandoned; ABORT goes to the head when a line or a cut is outstanding. A
LOAD write under way reaches its cell while its LOADING record is removed. A copy aborted by a station reset leaves its bank AT-THRESHOLD,
and the spare decision at the reset's end starts a copy of the lowest AT-THRESHOLD bank from cell 0. With no copy in progress that
decision leaves the banks as they are when sparing is off, starts a copy when the spare is FREE, and withdraws every AT-THRESHOLD bank
when it is IN-USE or ABSENT. When BANKS or SPARE reads otherwise, the store and its patrol are as after a power-on reset. The model's
reading: log 24, log 34, log 8 for the contents of the new memory, and log 33 (DESIGN CHOICE) for a copy's first step, which is requested
at once. -/
def Obligations.StationResetKeeps : Prop :=
  (∀ (p : Straps) (tenure : Bool) (begun : Option Interrupted) (s : State) (cs : List (Nat × Cell)),
     p.banksLessOne = s.straps.banksLessOne → p.spare = s.straps.spare →
     s.patrol.copySource = none → (∀ b, s.patrol.bankState b ≠ .atThreshold) →
     cs = (match begun with
       | some x => (s.cellWrites x.access).take x.writes
       | none => []) →
     ∃ t, exec (.stationReset p { tenure := tenure, begun := begun }) s = .next t ∧ t.tables = s.tables ∧
       t.store = { s.store with
         memory := written cs s.store.memory
         index := s.store.index.filter (fun r => r.state != .loading), writes := [], serve := none, reads := [] } ∧
       t.patrol = { s.patrol with
         intervalRuns := s.patrol.enabled, stepWaits := false, copyIntervalRuns := false, copyStepWaits := false } ∧
       t.seq.columns = s.seq.columns ∧ t.seq.depth = s.seq.depth ∧ t.seq.galley = s.seq.galley ∧
       t.seq.exposedSinceCut = s.seq.exposedSinceCut ∧ t.seq.alarm = { s.seq.alarm with autoCut := false } ∧ t.seq.acc = s.seq.acc ∧
       t.link.queue = [] ∧ t.out = driven cs ++ (if s.head = .none then [] else [.abort])) ∧
  (∀ (p : Straps) (tenure : Bool) (s : State) (w : LoadWrite) (rest : List LoadWrite),
     p.banksLessOne = s.straps.banksLessOne → p.spare = s.straps.spare → s.store.writes = w :: rest → w.live = true →
     ∃ t, exec (.stationReset p { tenure := tenure, begun := some { access := .loadWrite, writes := 1 } }) s = .next t ∧
       t.store.memory = s.store.memory.write (s.store.address w.bank w.cell) (.data w.bytes) ∧ t.store.writes = [] ∧
       ∀ r ∈ t.store.index, r.state ≠ .loading) ∧
  (∀ (p : Straps) (tenure : Bool) (begun : Option Interrupted) (s : State) (b c : Nat),
     p.banksLessOne = s.straps.banksLessOne → p.spare = s.straps.spare →
     s.patrol.sparing = true → s.patrol.copySource = some b → b < s.patrol.banks.length →
     (c = b ∨ s.patrol.bankState c = .atThreshold) → c < s.patrol.banks.length →
     (∀ d, d < c → d ≠ b ∧ s.patrol.bankState d ≠ .atThreshold) →
     ∃ t, exec (.stationReset p { tenure := tenure, begun := begun }) s = .next t ∧
       t.patrol.copySource = some c ∧ t.patrol.copyProgress = some 0 ∧ t.patrol.spare = .target ∧
       t.patrol.bankState c = .copying ∧ t.patrol.copyStepWaits = true ∧ (b ≠ c → t.patrol.bankState b = .atThreshold)) ∧
  (∀ (p : Straps) (tenure : Bool) (begun : Option Interrupted) (s : State),
     p.banksLessOne = s.straps.banksLessOne → p.spare = s.straps.spare → s.patrol.copySource = none →
     ∃ t, exec (.stationReset p { tenure := tenure, begun := begun }) s = .next t ∧
       (s.patrol.sparing = false → t.patrol.banks = s.patrol.banks ∧ t.patrol.spare = s.patrol.spare ∧ t.patrol.copySource = none) ∧
       (∀ b, s.patrol.sparing = true → s.patrol.spare = .free → b < s.patrol.banks.length → s.patrol.bankState b = .atThreshold →
         (∀ c, c < b → s.patrol.bankState c ≠ .atThreshold) →
         t.patrol.copySource = some b ∧ t.patrol.copyProgress = some 0 ∧ t.patrol.spare = .target ∧ t.patrol.copyStepWaits = true ∧
           ∀ c, t.patrol.bankState c = if c = b then .copying else s.patrol.bankState c) ∧
       (s.patrol.sparing = true → (s.patrol.spare = .inUse ∨ s.patrol.spare = .absent) →
         ∀ b, t.patrol.bankState b = if s.patrol.bankState b = .atThreshold then .withdrawn else s.patrol.bankState b)) ∧
  (∀ (p : Straps) (tenure : Bool) (begun : Option Interrupted) (s : State) (cs : List (Nat × Cell)),
     (p.banksLessOne ≠ s.straps.banksLessOne ∨ p.spare ≠ s.straps.spare) →
     cs = (match begun with
       | some x => (s.cellWrites x.access).take x.writes
       | none => []) →
     ∃ t, exec (.stationReset p { tenure := tenure, begun := begun }) s = .next t ∧ t.tables = s.tables ∧
       t.store = { map := List.range p.banks, memory := [], epoch := s.store.epoch + 1, index := [], writes := [], serve := none
                   reads := [] } ∧
       t.patrol =
         { banks := List.replicate p.banks { count := 0, state := .good }
           threshold := 24, drip := 4, sparing := true, enabled := true, posBank := 0, posCell := 0, passes := 0
           spare := if p.spare then .free else .absent, copySource := none, copyProgress := none
           intervalRuns := true, stepWaits := false, copyIntervalRuns := false, copyStepWaits := false } ∧
       t.seq.columns = s.seq.columns ∧ t.seq.depth = s.seq.depth ∧ t.seq.galley = s.seq.galley ∧
       t.seq.exposedSinceCut = s.seq.exposedSinceCut ∧ t.seq.alarm = { s.seq.alarm with autoCut := false } ∧ t.seq.acc = s.seq.acc ∧
       t.link.queue = [] ∧ t.out = driven cs ++ (if s.head = .none then [] else [.abort]))

/-! ## Receiving -/

/-- A library frame from a station that is no authority is answered with OBJECT and reaches no block. The rows of the table for one field
of a STORE-POLICY are frames that carry it alone, which is the model's reading (log 6, DEDUCED). -/
def Obligations.LibraryFramesNeedAnAuthority : Prop :=
  ∀ (c : Instr) (h : Hdr) (s : State), libraryHdr c = some h → Arrives h s → ¬FromAuthority h s →
    exec c s = .next (answers false (arrived h s))

/-- A frame whose check word is wrong, one out of form and one with fields that R189 refuses are answered with OBJECT and reach no block;
only a frame with a correct check word and a source other than 0 clears its source's ABSENT mark. A frame whose payload length is above
528, whoever it is addressed to, is a form disturbance: the station is in RECOVERY, asserts neither answer slot and clears no mark. -/
def Obligations.BadFramesAreObjected : Prop :=
  (∀ (f : RawFrame) (check : Word16) (s : State), Listens s → (f.dst = s.straps.station ∨ f.dst = 0) → f.payload.length ≤ 528 →
     check ≠ checkWord (frameBits f) →
     exec (.checkWordWrong f check) s =
       .next (answers false { s with out := [], link := { s.link with state := .idle, free := false } })) ∧
  (∀ (f : RawFrame) (s : State), Listens s → (f.dst = s.straps.station ∨ f.dst = 0) → f.payload.length ≤ 528 →
     (f.src ≠ 0 → (readFrame f = none ∨ ∃ i, readFrame f = some i ∧ fieldsBad i = true) →
       exec (.frameOutOfForm f) s = .next (answers false (arrived { src := f.src, dst := f.dst } s))) ∧
     (f.src = 0 →
       exec (.frameOutOfForm f) s =
         .next (answers false { s with out := [], link := { s.link with state := .idle, free := false } }))) ∧
  ∀ (f : RawFrame) (check : Word16) (s : State), Listens s → 528 < f.payload.length →
    exec (.checkWordWrong f check) s = .next (formDisturbed s) ∧ exec (.frameOutOfForm f) s = .next (formDisturbed s)

/-- A frame between other stations is answered in neither slot and clears its source's ABSENT mark; a reply clears it whatever its
destination, and a frame whose check word is wrong clears none; each ends the tenure that was followed, so that nothing is begun before
the next free condition. From another station's FETCH that its holder has taken to the reply, the station stays BUSY-OTHER. A reply in
REPLY that is
not this station's is observed so: a wrong check word clears no mark, and a length above 528 is a form disturbance. LINE-REPORT and
NOTICE frames are taken and discarded whatever their length up to 528, but a NOTICE whose key field carries an index above 0FFFh is
refused, and either of a length above 528 is a form disturbance. The model's reading: a command brings a frame whole (log 26, log 31). -/
def Obligations.ObservedAndDiscardedFrames : Prop :=
  (∀ (h : Hdr) (s : State), Listens s →
     exec (.frameObserved (.reply h)) s = .next (observed h.src .idle s) ∧
     (h.dst ≠ s.straps.station → h.dst ≠ 0 →
       exec (.frameObserved (.frame h)) s = .next (observed h.src .idle s) ∧
       exec (.frameObserved (.heldFetch h)) s = .next (observed h.src .busyOther s) ∧
       (∀ k, exec (.fetch h k { ack := true, object := false }) s = .next (observed h.src .busyOther s)) ∧
       ∀ k acked, exec (.fetch h k { ack := acked, object := true }) s = .next (observed h.src .idle s) ∧
         exec (.fetch h k { ack := false, object := false }) s = .next (observed h.src .idle s))) ∧
  (∀ (f : RawFrame) (check : Word16) (s : State), Listens s → f.dst ≠ s.straps.station → f.dst ≠ 0 →
     f.payload.length ≤ 528 → check ≠ checkWord (frameBits f) → exec (.checkWordWrong f check) s = .next (observed 0 .idle s)) ∧
  (∀ (r : RawReply) (check : Word16) (s : State), Listens s →
     (r.payload.length ≤ 528 → check = checkWord (replyBits r) → exec (.reply r check) s = .next (observed r.src .idle s)) ∧
     (r.payload.length ≤ 528 → check ≠ checkWord (replyBits r) → exec (.reply r check) s = .next (observed 0 .idle s)) ∧
     (528 < r.payload.length → exec (.reply r check) s = exec .disturbance s)) ∧
  (∀ (h : Hdr) (payload : List Byte) (s : State), Listens s → 528 < payload.length →
     exec (.lineReport h payload) s = .next (formDisturbed s) ∧ exec (.notice h payload) s = .next (formDisturbed s)) ∧
  (∀ (h : Hdr) (payload : List Byte) (s : State), Arrives h s → payload.length ≤ 528 →
     exec (.lineReport h payload) s = .next (answers true (arrived h s)) ∧
     (noticeBad payload = false → exec (.notice h payload) s = .next (answers true (arrived h s))) ∧
     (noticeBad payload = true → exec (.notice h payload) s = .next (answers false (arrived h s)))) ∧
  ∀ (code a b c : Byte) (rest : List Byte), (code = 7 ∨ code = 8) →
    (noticeBad (code :: a :: b :: c :: rest) = true ↔ 4095 < b.toNat * 256 + c.toNat)

/-- A FETCH addressed to this station makes it HOLDING with a serve requested; another station's OBJECT leaves it IDLE without one; a
FETCH to all stations, or of an index above 0FFFh, is refused. -/
def Obligations.FetchMakesTheStationHolder : Prop :=
  ∀ (h : Hdr) (k : Key) (acked : Bool) (s : State),
    (ArrivesHere h s → k.index ≤ 4095 →
      exec (.fetch h k { ack := acked, object := false }) s = .next (answers true
        { arrived h s with
          link := { (arrived h s).link with state := .holding, requester := some h.src }
          store := { s.store with serve := some k } }) ∧
      exec (.fetch h k { ack := acked, object := true }) s = .next (answers true (arrived h s))) ∧
    (∀ o, Arrives h s → (h.dst = 0 ∨ 4095 < k.index) →
      exec (.fetch h k { ack := acked, object := o }) s = .next (answers false (arrived h s)))

/-- An ENROL from another station is checked and answered, and changes nothing else; one from this station's own number makes it MUTE,
answered in neither slot: every queued frame is given up and its owner learns ABSENT (a report sets REPORT-LOST, a notice NOTICE-LOST, an
ENROL starts the enrol wait of an ENROLLING directory), every owner that waited for room is served in the same way, a REPORTING slot and
a marked Line Queue entry included, which are empty and gone afterwards, and the exchanging entry waits for the link again. -/
def Obligations.EnrolIsAnsweredOrMutes : Prop :=
  (∀ (h : Hdr) (station banks records : Nat) (spare head : Bool) (s : State), Arrives h s → h.src ≠ s.straps.station →
     ((station = h.src ∧ 1 ≤ banks ∧ banks ≤ 8 ∧ records ≤ 2048) →
       exec (.enrol h station banks spare head records) s = .next (answers true (arrived h s))) ∧
     (¬(station = h.src ∧ 1 ≤ banks ∧ banks ≤ 8 ∧ records ≤ 2048) →
       exec (.enrol h station banks spare head records) s = .next (answers false (arrived h s)))) ∧
  (∀ (h : Hdr) (station banks records : Nat) (spare head : Bool) (s : State), Arrives h s → h.src = s.straps.station →
     ∃ t, exec (.enrol h station banks spare head records) s = .next t ∧ t.link.state = .mute ∧ t.link.queue = [] ∧
       t.link.exchange = none ∧ t.out = [] ∧
       t.fetches = s.fetches.map (fun f => if f.state = .exchanging then { f with state := .waitingLink } else f) ∧
       (∀ e ∈ s.link.queue,
         (∀ d r, e.frame = .report d r → t.seq.acc.reportLost = true) ∧
         (∀ d n, e.frame = .notice d n → t.seq.acc.noticeLost = true) ∧
         (∀ f, e.frame = .enrol f → s.dir.state = .enrolling → t.dir.enrolWait = true)) ∧
       (∀ e ∈ t.lines, e.mark = none) ∧ t.dir.outgoing = [] ∧ t.link.enrolWaits = false ∧
       (∀ e ∈ s.lines, e.mark ≠ none → t.seq.acc.reportLost = true) ∧
       (∀ i, (s.slots.get i).state = .reporting → (s.slots.get i).report ≠ none → (s.slots.get i).header ≠ none →
         t.slots.get i = .vacant ∧ t.seq.acc.reportLost = true) ∧
       ((s.link.enrolWaits = true ∧ s.dir.state = .enrolling) → t.dir.enrolWait = true))

/-! ## Sending -/

/-- At the free condition the station is IDLE, may begin a frame, and reads frames; the holder is IDLE once its reply has been sent. -/
def Obligations.TenuresEndInIdle : Prop :=
  (∀ s : State, (s.link.state = .idle ∨ s.link.state = .busyOther ∨ s.link.state = .recovery) →
     exec .freeCondition s = .next { s with out := [], link := { s.link with state := .idle, free := true, listens := true } }) ∧
  (∀ s : State, s.link.state = .replying →
     exec .replySent s = .next { s with
       out := [], link := { s.link with state := .idle, free := false, requester := none, reply := none } })

/-- Bit by bit, the lowest arbitration field is sent unbeaten, and no other is. The model's reading: log 31. -/
def Obligations.LowestArbitrationFieldWins : Prop :=
  ∀ (mine : Arb) (others : List Arb), mine.wf = true → (∀ o ∈ others, o.wf = true) →
    (State.wins mine others = true ↔ ∀ o ∈ others, arbValue mine ≤ arbValue o)

/-- At the free condition an exchange in progress, attached or detached, sends its FETCH again, to its own target; with none, the oldest
WAITING-LINK entry becomes EXCHANGING and its FETCH is sent. A FETCH goes out with its check word and counts an attempt; when its
contention is lost, its exchange stays and no attempt is counted. The model's reading: log 22. -/
def Obligations.ContendTakesTheOldestFetch : Prop :=
  (∀ (others : List Arb) (s : State) (f : Fetch), s.link.state = .idle → s.link.free = true → s.link.exchange = none →
    s.fetches.find? (fun g => g.state == .waitingLink) = some f →
    ∃ t, exec (.contend others) s = .next t ∧
      t.fetches = s.fetches.map (fun g => if g.key == f.key then { g with state := .exchanging } else g) ∧
      t.link.free = false ∧ t.link.queue = s.link.queue ∧
      (State.wins { cls := 0, kind := 1, src := s.straps.station } others = true →
        t.link.state = .sending ∧ t.link.tenure = .fetch ∧
        t.link.exchange = some { key := f.key, target := f.target, role := f.role, attempts := 1, detached := false } ∧
        t.out = [.frame { cls := 0, kind := 1, src := s.straps.station, dst := f.target, payload := keyBytes f.key }
          (checkWord (frameBits { cls := 0, kind := 1, src := s.straps.station, dst := f.target, payload := keyBytes f.key }))]) ∧
      (State.wins { cls := 0, kind := 1, src := s.straps.station } others = false →
        t.link.state = .busyOther ∧ t.link.tenure = s.link.tenure ∧
        t.link.exchange = some { key := f.key, target := f.target, role := f.role, attempts := 0, detached := false } ∧ t.out = [])) ∧
  ∀ (others : List Arb) (s : State) (x : Exchange), s.link.state = .idle → s.link.free = true → s.link.exchange = some x →
    (State.wins { cls := 0, kind := 1, src := s.straps.station } others = true →
      exec (.contend others) s = .next { s with
        out := [.frame { cls := 0, kind := 1, src := s.straps.station, dst := x.target, payload := keyBytes x.key }
          (checkWord (frameBits { cls := 0, kind := 1, src := s.straps.station, dst := x.target, payload := keyBytes x.key }))]
        link := { s.link with
          state := .sending, free := false, tenure := .fetch, exchange := some { x with attempts := x.attempts + 1 } } }) ∧
    (State.wins { cls := 0, kind := 1, src := s.straps.station } others = false →
      exec (.contend others) s = .next { s with out := [], link := { s.link with state := .busyOther, free := false } })

/-- With no exchange and no waiting fetch, the first frame of the transmit queue contends: won, its attempt is counted and it is sent with
its check word; lost, it keeps its place and its count. The order of the queue: a frame is placed behind every frame of its class or a
lower one and before every frame of a higher class, so that a queue in order stays in order. The model's reading: log 22. -/
def Obligations.ContendSendsTheFirstQueuedFrame : Prop :=
  (∀ (others : List Arb) (s : State) (e : TxEntry) (es : List TxEntry), s.link.state = .idle → s.link.free = true →
    s.link.exchange = none → (∀ g ∈ s.fetches, g.state ≠ .waitingLink) → s.link.queue = e :: es →
    (State.wins { cls := e.frame.cls, kind := e.frame.kind, src := s.straps.station } others = true →
      exec (.contend others) s = .next { s with
        out := [.frame (e.frame.raw s.straps.station) (checkWord (frameBits (e.frame.raw s.straps.station)))]
        link := { s.link with
          state := .sending, free := false, tenure := .frame
          queue := { e with attempts := e.attempts + 1, onLink := true } :: es } }) ∧
    (State.wins { cls := e.frame.cls, kind := e.frame.kind, src := s.straps.station } others = false →
      exec (.contend others) s = .next { s with out := [], link := { s.link with state := .busyOther, free := false } })) ∧
  ∀ (e : TxEntry) (q : List TxEntry),
    State.insertTx e q = q.takeWhile (fun x => decide (x.frame.cls ≤ e.frame.cls)) ++
      e :: q.dropWhile (fun x => decide (x.frame.cls ≤ e.frame.cls)) ∧
    (q.Pairwise (fun x y => x.frame.cls ≤ y.frame.cls) → (State.insertTx e q).Pairwise (fun x y => x.frame.cls ≤ y.frame.cls) ∧
      State.insertTx e q = q.filter (fun x => decide (x.frame.cls ≤ e.frame.cls)) ++
        e :: q.filter (fun x => decide (e.frame.cls < x.frame.cls)))

/-- OBJECT fails an attempt: below eight attempts the frame, or the exchange, is kept for another one, and the eighth OBJECT of a FETCH
ends its exchange as REFUSED, which sets its target's mark. A FETCH answered with ACK and no OBJECT awaits its reply; one met with
silence is ABSENT at once and sets its target's mark. REFUSED and ABSENT are a failed attempt of the fetch: below the third, its failed
count is one higher and it waits for the link with a target chosen after the mark is set; the third, or no target, is the final failure;
a detached exchange leaves the fetch list as it is. The model's reading: log 22. -/
def Obligations.ObjectRetriesAndFetchAnswers : Prop :=
  (∀ (ack : Bool) (s : State), (s.link.state = .sending ∨ s.link.state = .awaitAnswer) →
     (∀ e, s.link.tenure = .frame → s.link.queue.find? (fun x => x.onLink) = some e → e.attempts < 8 →
       exec (.sendAttemptEnd ack true) s = .next { s with
         out := []
         link := { s.link with
           state := .idle, tenure := .none, free := false, queue := s.link.queue.map (fun x => { x with onLink := false }) } }) ∧
     (∀ x, s.link.tenure = .fetch → s.link.exchange = some x → x.attempts < 8 →
       exec (.sendAttemptEnd ack true) s = .next { s with
         out := [], link := { s.link with state := .idle, tenure := .none, free := false } }) ∧
     (∀ x, s.link.tenure = .fetch → s.link.exchange = some x → 8 ≤ x.attempts →
       ∃ t, exec (.sendAttemptEnd ack true) s = .next t ∧ t.link.state = .idle ∧ t.link.tenure = .none ∧ t.link.exchange = none ∧
         t.dir.absent = s.dir.absent.set x.target true ∧
         GivenUp x (targetMarked x { s with out := [], link := { s.link with state := .idle, free := false } }) t)) ∧
  (∀ (s : State) (x : Exchange), (s.link.state = .sending ∨ s.link.state = .awaitAnswer) → s.link.tenure = .fetch →
     s.link.exchange = some x →
     exec (.sendAttemptEnd true false) s = .next { s with out := [], link := { s.link with state := .awaitReply } } ∧
     ∃ t, exec (.sendAttemptEnd false false) s = .next t ∧ t.link.state = .idle ∧ t.link.exchange = none ∧
       t.dir.absent = s.dir.absent.set x.target true ∧
       GivenUp x (targetMarked x { s with out := [], link := { s.link with state := .idle, free := false } }) t)

/-- A frame leaves the queue when its attempt gives it an outcome: ACK without OBJECT, silence, or the eighth failure. No frame of the
queue is left as the one being attempted, and when no owner waits for room the queue is what it was without that frame. A report that is
REFUSED or ABSENT sets REPORT-LOST, a notice NOTICE-LOST, and an ENROL that leaves starts the enrol wait of an ENROLLING directory. The
room is then offered: to a waiting ENROL, to the outgoing withdrawal list, to the reports of the older and of the younger REPORTING slot,
and to the marked Line Queue entries, oldest first; each offer takes room while there is room and waits otherwise, and a report's flags
join the accumulator as it is placed. The model's reading: log 21 and log 22. -/
def Obligations.AnsweredFrameLeavesTheQueue : Prop :=
  (∀ (ack object : Bool) (s : State) (e : TxEntry), (s.link.state = .sending ∨ s.link.state = .awaitAnswer) →
    s.link.tenure = .frame → s.link.queue.find? (fun x => x.onLink) = some e → (object = true → 8 ≤ e.attempts) →
    ∃ t, exec (.sendAttemptEnd ack object) s = .next t ∧ t.link.state = .idle ∧ t.link.tenure = .none ∧
      (∀ x ∈ t.link.queue, x.onLink = false) ∧
      (NoOwnerWaits s → SlotsRest s → t.link.queue = s.link.queue.filter (fun x => !x.onLink)) ∧
      (∀ d r, e.frame = .report d r → (object = true ∨ (ack = false ∧ d ≠ 0)) → t.seq.acc.reportLost = true) ∧
      (∀ d n, e.frame = .notice d n → (object = true ∨ (ack = false ∧ d ≠ 0)) → t.seq.acc.noticeLost = true) ∧
      (∀ f, e.frame = .enrol f → s.dir.state = .enrolling → t.dir.enrolWait = true) ∧
      t = State.settle (State.gainRoom (told e.frame (!object && (ack || e.frame.dst == 0)) { s with
        out := []
        link := { s.link with
          state := .idle, tenure := .none, free := false, queue := s.link.queue.filter (fun x => !x.onLink) } }))) ∧
  (∀ s u : State, u = (if s.link.enrolWaits = true then s.offerEnrol else s).offerOutgoing →
    s.gainRoom = ((u.offerSlot u.slots.older).offerSlot u.slots.older.other).reportLines QueueEntry.mark) ∧
  (∀ s : State, s.link.state ≠ .mute →
    (s.link.queue.length < 12 → s.offerEnrol = { s with
      link := { s.link with
        enrolWaits := false
        queue := State.insertTx
          { frame := .enrol
              { station := s.straps.station, banks := s.straps.banks, spare := s.patrol.spare != .absent, head := s.straps.head
                records := (s.store.index.filter fun r => r.state == .valid && !s.patrol.isWithdrawn r.bank).length }
            attempts := 0, onLink := false } s.link.queue } }) ∧
    (12 ≤ s.link.queue.length → s.offerEnrol = { s with link := { s.link with enrolWaits := true } }) ∧
    (∀ i, (s.slots.get i).state ≠ .reporting → s.offerSlot i = s) ∧
    (∀ i rep hd, (s.slots.get i).state = .reporting → (s.slots.get i).report = some rep → (s.slots.get i).header = some hd →
      (s.link.queue.length < 12 → s.offerSlot i = { s with
        link := { s.link with
          queue := State.insertTx { frame := .report hd.requester rep, attempts := 0, onLink := false } s.link.queue }
        slots := { s.slots.put i .vacant with age := if (s.slots.get i.other).state = .empty then none else some i.other }
        seq := { s.seq with acc := { s.seq.acc with line := s.seq.acc.line.or rep.flags } } }) ∧
      (12 ≤ s.link.queue.length → s.offerSlot i = s)) ∧
    ∀ (which : QueueEntry → Option ReportMark) (e : QueueEntry) (es : List QueueEntry),
      s.reportLines which =
        { (State.reportEntries which s.lines s).2 with lines := (State.reportEntries which s.lines s).1 } ∧
      State.reportEntries which [] s = ([], s) ∧
      (which e = none → State.reportEntries which (e :: es) s =
        (e :: (State.reportEntries which es s).1, (State.reportEntries which es s).2)) ∧
      ∀ m, which e = some m →
        (s.link.queue.length < 12 → State.reportEntries which (e :: es) s = State.reportEntries which es { s with
          link := { s.link with
            queue := State.insertTx
              { frame := .report e.header.requester
                  { number := e.header.number, outcome := (match m with
                      | .closed => .closed
                      | .cleared => .cleared)
                    natural := 0, set := 0, placements := 0, substituted := 0, flags := {}, galley := none }
                attempts := 0, onLink := false } s.link.queue } }) ∧
        (12 ≤ s.link.queue.length → State.reportEntries which (e :: es) s =
          ({ e with mark := some m } :: (State.reportEntries which es s).1, (State.reportEntries which es s).2)))

/-- A disturbance ends in RECOVERY; a failed attempt below the eighth keeps its frame or exchange, and the eighth gives ABSENT: the
exchange's target is marked, and the queue frame leaves with REPORT-LOST or NOTICE-LOST set for a report or a notice. The stall limit in
AWAIT-REPLY gives ABSENT at once, whatever the attempt count; a station that only follows a tenure goes to RECOVERY. ABSENT is a failed
attempt of the fetch: below the third, its failed count is one higher and it waits for the link with a target chosen after the mark is
set; the third, or no target, is the final failure; a detached exchange leaves the fetch list as it is. The model's reading: log 20, log
22, and, for a DISTURBANCE in IDLE, log 26 and log 31, by which a frame is one whole command. -/
def Obligations.DisturbanceAndStall : Prop :=
  (∀ s : State,
     ((s.link.state = .idle ∧ s.link.listens = true ∨ s.link.state = .busyOther ∨ s.link.state = .replying) →
       exec .disturbance s = .next { s with
         out := [], link := { s.link with state := .recovery, free := false, requester := none, reply := none } }) ∧
     (∀ e, (s.link.state = .sending ∨ s.link.state = .awaitAnswer) → s.link.tenure = .frame →
       s.link.queue.find? (fun x => x.onLink) = some e → e.attempts < 8 →
       exec .disturbance s = .next { s with
         out := []
         link := { s.link with
           state := .recovery, tenure := .none, free := false
           queue := s.link.queue.map (fun x => { x with onLink := false }) } }) ∧
     (∀ e, (s.link.state = .sending ∨ s.link.state = .awaitAnswer) → s.link.tenure = .frame →
       s.link.queue.find? (fun x => x.onLink) = some e → 8 ≤ e.attempts →
       ∃ t, exec .disturbance s = .next t ∧ t.link.state = .recovery ∧ t.link.tenure = .none ∧
         (∀ x ∈ t.link.queue, x.onLink = false) ∧
         (NoOwnerWaits s → SlotsRest s → t.link.queue = s.link.queue.filter (fun x => !x.onLink)) ∧
         (∀ d r, e.frame = .report d r → t.seq.acc.reportLost = true) ∧
         (∀ d n, e.frame = .notice d n → t.seq.acc.noticeLost = true)) ∧
     (∀ x, (s.link.state = .sending ∨ s.link.state = .awaitAnswer ∨ s.link.state = .awaitReply) → s.link.tenure = .fetch →
       s.link.exchange = some x → x.attempts < 8 →
       exec .disturbance s = .next { s with
         out := [], link := { s.link with state := .recovery, tenure := .none, free := false } }) ∧
     (∀ x, (s.link.state = .sending ∨ s.link.state = .awaitAnswer ∨ s.link.state = .awaitReply) → s.link.tenure = .fetch →
       s.link.exchange = some x → 8 ≤ x.attempts →
       ∃ t, exec .disturbance s = .next t ∧ t.link.state = .recovery ∧ t.link.exchange = none ∧
         t.dir.absent = s.dir.absent.set x.target true ∧
         GivenUp x (targetMarked x { s with out := [], link := { s.link with state := .recovery, free := false } }) t)) ∧
  ((∀ (s : State) (x : Exchange), s.link.state = .awaitReply → s.link.tenure = .fetch → s.link.exchange = some x →
     ∃ t, exec .stallLimit s = .next t ∧ t.link.state = .recovery ∧ t.link.exchange = none ∧
       t.dir.absent = s.dir.absent.set x.target true ∧
       GivenUp x (targetMarked x { s with out := [], link := { s.link with state := .recovery, free := false } }) t) ∧
   ∀ s : State, s.link.state = .busyOther →
     exec .stallLimit s = .next { s with
       out := [], link := { s.link with state := .recovery, free := false, requester := none, reply := none } })

/-! ## Held exchanges -/

/-- The serve's reply, by the record that stands when the serve is taken, sent with its check word. Each CORRECTED cell is written back,
and one error is reported for each against the bank, which counts them while it is GOOD, and makes the spare decision at the threshold;
the image is as corrected. With an UNCORRECTABLE cell the reply is DAMAGED, the CORRECTED cells beside it are written back and reported
all the same, and the record becomes POISONED with its notice. At the hold limit the reply is DEFER, and a serve not taken is withdrawn;
one that has been taken runs to its end with its image discarded: it writes back, reports and poisons as it would have done. The model's
reading: log 7. -/
def Obligations.ServeAndHoldLimit : Prop :=
  (∀ (conds : List CellCond) (s : State) (k : Key), s.link.state = .holding → s.store.serve = some k →
     (∀ (r : Reply) (raw : RawReply),
       ((findRecord k s.store.index = none ∧ r = .notHeld) ∨
         (∃ x, findRecord k s.store.index = some x ∧
           ((s.patrol.bankState x.bank = .withdrawn ∧ r = .notHeld) ∨
             (s.patrol.bankState x.bank ≠ .withdrawn ∧ x.state = .loading ∧ r = .defer) ∨
             (s.patrol.bankState x.bank ≠ .withdrawn ∧ x.state = .poisoned ∧ r = .damaged)))) →
       raw = r.raw s.straps.station (s.link.requester.getD 0) →
       exec (.serve conds) s = .next { s with
         out := [.reply raw (checkWord (replyBits raw))]
         link := { s.link with state := .replying, reply := some r }
         store := { s.store with serve := none } }) ∧
     (∀ x raw, findRecord k s.store.index = some x → s.patrol.bankState x.bank ≠ .withdrawn → x.state = .valid →
       raw = (Reply.image (s.store.imageOf x)).raw s.straps.station (s.link.requester.getD 0) →
       ((∀ c ∈ s.store.recordConds x conds, c = .clean) →
         exec (.serve conds) s = .next { s with
           out := [.reply raw (checkWord (replyBits raw))]
           link := { s.link with state := .replying, reply := some (.image (s.store.imageOf x)) }
           store := { s.store with serve := none } }) ∧
       (.uncorrectable ∉ s.store.recordConds x conds →
         (∀ b, s.patrol.banks[x.bank]? = some b → b.state = .good →
           b.count + (s.store.recordConds x conds).count .corrected < s.patrol.threshold →
           exec (.serve conds) s = .next { s with
             out := driven (s.recordWrites x conds) ++ [.reply raw (checkWord (replyBits raw))]
             link := { s.link with state := .replying, reply := some (.image (s.store.imageOf x)) }
             store := { s.store with serve := none, memory := written (s.recordWrites x conds) s.store.memory }
             patrol := { s.patrol with
               banks := s.patrol.banks.set x.bank
                 { b with count := b.count + (s.store.recordConds x conds).count .corrected } } }) ∧
         (s.patrol.bankState x.bank ≠ .good →
           exec (.serve conds) s = .next { s with
             out := driven (s.recordWrites x conds) ++ [.reply raw (checkWord (replyBits raw))]
             link := { s.link with state := .replying, reply := some (.image (s.store.imageOf x)) }
             store := { s.store with serve := none, memory := written (s.recordWrites x conds) s.store.memory } }))) ∧
     (∀ x u, findRecord k s.store.index = some x → s.patrol.bankState x.bank ≠ .withdrawn → x.state = .valid →
       u = cellsRead x conds { s with out := [], store := { s.store with serve := none } } →
       (.uncorrectable ∉ s.store.recordConds x conds →
         exec (.serve conds) s = .next (replying (.image (s.store.imageOf x)) u)) ∧
       (.uncorrectable ∈ s.store.recordConds x conds →
         exec (.serve conds) s = .next (replying .damaged (poisoned k x.bank u)))) ∧
     (∀ x b, findRecord k s.store.index = some x → x.state = .valid → s.patrol.banks[x.bank]? = some b → b.state = .good →
       b.count + (s.store.recordConds x conds).count .corrected < s.patrol.threshold →
       .uncorrectable ∈ s.store.recordConds x conds →
       exec (.serve conds) s = .next (replying .damaged (poisoned k x.bank { s with
         out := driven (s.recordWrites x conds)
         store := { s.store with serve := none, memory := written (s.recordWrites x conds) s.store.memory }
         patrol := { s.patrol with
           banks := s.patrol.banks.set x.bank
             { b with count := b.count + (s.store.recordConds x conds).count .corrected } } })))) ∧
  (∀ (s : State) (k : Key) (raw : RawReply), s.link.state = .holding → s.store.serve = some k →
     raw = Reply.defer.raw s.straps.station (s.link.requester.getD 0) →
     exec (.holdLimit none) s = .next { s with
       out := [.reply raw (checkWord (replyBits raw))]
       link := { s.link with state := .replying, reply := some .defer }
       store := { s.store with serve := none } } ∧
     ∀ conds u, u = replying .defer { s with out := [], store := { s.store with serve := none } } →
       (∃ t, exec (.holdLimit (some conds)) s = .next t ∧ t.link.state = .replying ∧ t.link.reply = some .defer ∧
         t.store.serve = none ∧ t.slots = s.slots ∧ t.cache = s.cache ∧ t.fetches = s.fetches) ∧
       ((∀ x, findRecord k s.store.index = some x → x.state ≠ .valid ∨ s.patrol.bankState x.bank = .withdrawn) →
         exec (.holdLimit (some conds)) s = .next u) ∧
       ∀ x, findRecord k s.store.index = some x → s.patrol.bankState x.bank ≠ .withdrawn → x.state = .valid →
         (.uncorrectable ∉ s.store.recordConds x conds → exec (.holdLimit (some conds)) s = .next (cellsRead x conds u)) ∧
         (.uncorrectable ∈ s.store.recordConds x conds →
           exec (.holdLimit (some conds)) s = .next (poisoned k x.bank (cellsRead x conds u))))

/-- A reply whose check word is wrong, or whose source or destination is, is answered with OBJECT and leaves the exchange for another
attempt, below the eighth; after the eighth the outcome is REFUSED and the target is marked, which is a failed attempt of the fetch: below
the third, its failed count is one higher and it waits for the link with a target chosen after the mark is set; the third, or no target, is
the final failure; a detached exchange leaves the fetch list as it is. A reply of a length above 528 is a disturbance. A DEFER makes the
entry DEFERRED, one defer more used, while fewer than four have been. The reply of a detached exchange: a well-formed IMAGE of its key
enters the cache unpinned when the cache holds no VALID entry and the fetch list no entry for it, and is discarded otherwise; NOT-HELD
strikes its sender; DEFER, DAMAGED and a malformed IMAGE do nothing. -/
def Obligations.BadAndDeferReplies : Prop :=
  (∀ (r : RawReply) (check : Word16) (s : State) (x : Exchange), s.link.state = .awaitReply → s.link.tenure = .fetch →
     s.link.exchange = some x → r.payload.length ≤ 528 →
     (x.attempts < 8 → check ≠ checkWord (replyBits r) →
       exec (.reply r check) s = .next { s with
         out := [.answer false true], link := { s.link with state := .idle, tenure := .none, free := false } }) ∧
     (x.attempts < 8 → check = checkWord (replyBits r) → (r.src ≠ x.target ∨ r.dst ≠ s.straps.station) →
       exec (.reply r check) s = .next { s with
         out := [.answer false true], link := { s.link with state := .idle, tenure := .none, free := false }
         dir := if r.src = 0 then s.dir else { s.dir with absent := s.dir.absent.set r.src false } }) ∧
     (8 ≤ x.attempts → check ≠ checkWord (replyBits r) →
       ∃ t, exec (.reply r check) s = .next t ∧ .answer false true ∈ t.out ∧ t.link.state = .idle ∧ t.link.exchange = none ∧
         t.dir.absent = s.dir.absent.set x.target true ∧
         GivenUp x (targetMarked x { s with
           out := [.answer false true], link := { s.link with state := .idle, free := false } }) t) ∧
     (8 ≤ x.attempts → check = checkWord (replyBits r) → (r.src ≠ x.target ∨ r.dst ≠ s.straps.station) →
       ∃ t, exec (.reply r check) s = .next t ∧ .answer false true ∈ t.out ∧ t.link.state = .idle ∧ t.link.exchange = none ∧
         GivenUp x (targetMarked x { s with
           out := [.answer false true], link := { s.link with state := .idle, free := false }
           dir := if r.src = 0 then s.dir else { s.dir with absent := s.dir.absent.set r.src false } }) t)) ∧
  (∀ (r : RawReply) (check : Word16) (s : State) (x : Exchange), s.link.state = .awaitReply → s.link.exchange = some x →
     528 < r.payload.length → exec (.reply r check) s = exec .disturbance s) ∧
  (∀ (r : RawReply) (s : State) (x : Exchange) (f : Fetch), s.link.state = .awaitReply → s.link.exchange = some x →
     x.detached = false → s.fetches.find? (fun e => e.key == x.key) = some f → f.defers < 4 → r.payload.length ≤ 528 →
     r.src = x.target → r.src ≠ 0 → r.dst = s.straps.station → r.status = 1 →
     exec (.reply r (checkWord (replyBits r))) s = .next { s with
       out := [.answer true false]
       link := { s.link with state := .idle, free := false, tenure := .none, exchange := none }
       dir := { s.dir with absent := s.dir.absent.set r.src false }
       fetches := s.fetches.map (fun e => if e.key == x.key then { e with state := .deferred, defers := f.defers + 1 } else e) }) ∧
  ∀ (r : RawReply) (s u : State) (x : Exchange), s.link.state = .awaitReply → s.link.exchange = some x → x.detached = true →
    r.payload.length ≤ 528 → r.src = x.target → r.src ≠ 0 → r.dst = s.straps.station →
    u = { s with
      out := [.answer true false]
      link := { s.link with state := .idle, free := false, tenure := .none, exchange := none }
      dir := { s.dir with absent := s.dir.absent.set r.src false } } →
    ((r.status = 1 ∨ r.status = 2 ∨
        (r.status = 0 ∧ ∀ i, readImage r.payload = some i → i.wellFormed = false ∨ i.key ≠ x.key)) →
      exec (.reply r (checkWord (replyBits r))) s = .next u) ∧
    (∀ i, r.status = 0 → readImage r.payload = some i → i.wellFormed = true → i.key = x.key →
      (s.cache.validNumber x.key = none → (∀ f ∈ s.fetches, f.key ≠ x.key) →
        exec (.reply r (checkWord (replyBits r))) s = .next { u with cache := (s.cache.insert i (originOf x.role)).2 }) ∧
      ((s.cache.validNumber x.key ≠ none ∨ ∃ f ∈ s.fetches, f.key = x.key) →
        exec (.reply r (checkWord (replyBits r))) s = .next u)) ∧
    (r.status = 3 →
      exec (.reply r (checkWord (replyBits r))) s = .next { u with dir := Directory.strikeNotHeld x.key x.target u.dir })

/-- An IMAGE ends the fetch: its entry leaves, the record enters the cache, every AWAITING placement of its key takes it, and the slots
answer the room event. A placement that takes an image refers to its entry with its advance, or, for a MARK, its origin; one pin is added
for each, and an image from an alternate sets ALTERNATE-USED. At a room event a slot that waits for room and is AWAITING begins a pass,
and a RESOLVING one marks its pass to be repeated; when both wait, the younger slot is held back until the older has ended the pass that
answers. A record that enters the cache takes the lowest free number, or at 256 entries that of the least recently used, as an unpinned
VALID entry that is most recently used; a pin adds one to the count and takes the entry from the recency order. The model's reading: log
14, log 21, and log 32 (DESIGN CHOICE), by which a placement that found the list full waits for room also while its own local read is
outstanding. -/
def Obligations.ImageReplyEndsTheFetch : Prop :=
  (∀ (r : RawReply) (s : State) (x : Exchange) (f : Fetch) (i : ImageRecord), s.link.state = .awaitReply →
     s.link.exchange = some x → x.detached = false → s.fetches.find? (fun e => e.key == x.key) = some f →
     r.payload.length ≤ 528 → r.src = x.target → r.src ≠ 0 → r.dst = s.straps.station → r.status = 0 →
     readImage r.payload = some i → i.wellFormed = true → i.key = x.key →
     exec (.reply r (checkWord (replyBits r))) s = .next (State.settle (State.roomEvent (State.resolveAllAwaiting x.key
       (s.cache.insert i (originOf f.role)).1 i (f.role == .alternate)
       { s with
         out := [.answer true false]
         link := { s.link with state := .idle, free := false, tenure := .none, exchange := none }
         dir := { s.dir with absent := s.dir.absent.set r.src false }
         fetches := s.fetches.filter (fun e => e.key != x.key)
         cache := (s.cache.insert i (originOf f.role)).2 })))) ∧
  (∀ (k : Key) (n : Nat) (r : ImageRecord) (alternate : Bool) (s : State),
     State.resolveAllAwaiting k n r alternate s = { s with
       cache := (List.replicate (waiting k s.slots.slot0 + waiting k s.slots.slot1) n).foldl (fun c m => c.pin m) s.cache
       slots := { s.slots with
         slot0 := imageTaken k n r alternate s.slots.slot0, slot1 := imageTaken k n r alternate s.slots.slot1 } }) ∧
  (∀ (n : Nat) (r : ImageRecord) (p : Placement),
     (resolveWith n r p).state = .resolved ∧ (resolveWith n r p).ref = some n ∧
     (p.role ≠ .mark → (resolveWith n r p).advance = some (advanceAt r.advanceWidth p.size)) ∧
     (p.role = .mark → (resolveWith n r p).advance = some 0 ∧
       (resolveWith n r p).origin = some (offsetAt r.originX p.size, offsetAt r.originY p.size))) ∧
  (∀ (c d : Cache) (r : ImageRecord) (o : Origin) (n : Nat), c.insert r o = (n, d) →
     (c.entries.length < 256 → c.entries.Pairwise (fun a b => a.1 < b.1) →
       (∀ e ∈ c.entries, e.1 ≠ n) ∧ ∀ m, m < n → ∃ e ∈ c.entries, e.1 = m) ∧
     (∀ m rest, 256 ≤ c.entries.length → c.recency = m :: rest → n = m) ∧
     (c.entries.Pairwise (fun a b => a.1 < b.1) → d.entries.Pairwise (fun a b => a.1 < b.1)) ∧
     d.entry n = some { key := r.key, record := r, state := .valid, pins := 0, origin := o } ∧
     (∀ m, m ≠ n → d.entry m = c.entry m) ∧ d.recency = c.recency.filter (fun m => m != n) ++ [n]) ∧
  (∀ (c : Cache) (n : Nat) (e : CacheEntry), c.entry n = some e →
     (c.pin n).entry n = some { e with pins := e.pins + 1 } ∧ (∀ m, m ≠ n → (c.pin n).entry m = c.entry m) ∧
     (c.pin n).recency = c.recency.filter (fun m => m != n)) ∧
  ∀ (s : State) (o : SlotId), o = s.slots.older →
    (¬WaitsForRoom (s.slots.get o) → ¬WaitsForRoom (s.slots.get o.other) → s.roomEvent = s) ∧
    (∀ i : SlotId, WaitsForRoom (s.slots.get i) → ¬WaitsForRoom (s.slots.get i.other) →
      s.roomEvent = { s with slots := s.slots.put i (roomAnswered (s.slots.get i)) }) ∧
    (WaitsForRoom (s.slots.get o) → WaitsForRoom (s.slots.get o.other) →
      s.roomEvent = { s with
        slots := (s.slots.put o (roomAnswered (s.slots.get o))).put o.other
          (heldBack (if (s.slots.get o).state = .resolving then 2 else 1) (s.slots.get o.other)) })

/-- A DAMAGED reply is a failed attempt that sets no mark, and so are an IMAGE without a well-formed record of the key and a fifth DEFER;
a NOT-HELD reply strikes its sender in the way of the key first. Below the third failed attempt the new target is chosen from the
directory as it then stands, and otherwise the fetch ends in final failure: its entry leaves, every AWAITING placement of its key becomes
SUBSTITUTED, and the slots answer the room event. The strike sets the sender's mark where it is the primary or the alternate of the one
way of the key, and nothing else. The model's reading: log 14 and log 21. -/
def Obligations.FailedAttempts : Prop :=
  (∀ (r : RawReply) (s : State) (x : Exchange) (f : Fetch) (d : Directory), s.link.state = .awaitReply →
     s.link.exchange = some x → x.detached = false → s.fetches.find? (fun e => e.key == x.key) = some f →
     r.payload.length ≤ 528 → r.src = x.target → r.src ≠ 0 → r.dst = s.straps.station →
     (((r.status = 2 ∨ (r.status = 1 ∧ 4 ≤ f.defers) ∨
         (r.status = 0 ∧ ∀ i, readImage r.payload = some i → i.wellFormed = false ∨ i.key ≠ x.key)) ∧
         d = { s.dir with absent := s.dir.absent.set r.src false }) ∨
       (r.status = 3 ∧ d = Directory.strikeNotHeld x.key x.target { s.dir with absent := s.dir.absent.set r.src false })) →
     (∀ u, f.failed < 2 → d.chooseTarget s.straps.station f.tried x.key = some u →
       exec (.reply r (checkWord (replyBits r))) s = .next { s with
         out := [.answer true false]
         link := { s.link with state := .idle, free := false, tenure := .none, exchange := none }
         dir := d
         fetches := s.fetches.map (fun e => if e.key == x.key then
           { e with state := .waitingLink, target := u.1, role := u.2, tried := f.tried ++ [u.1], failed := f.failed + 1, defers := 0 }
           else e) }) ∧
     ((2 ≤ f.failed ∨ d.chooseTarget s.straps.station f.tried x.key = none) →
       exec (.reply r (checkWord (replyBits r))) s = .next (State.finalFailure x.key { s with
         out := [.answer true false]
         link := { s.link with state := .idle, free := false, tenure := .none, exchange := none }
         dir := d }))) ∧
  (∀ (k : Key) (s : State), State.finalFailure k s = State.settle (State.roomEvent { s with
     fetches := s.fetches.filter (fun e => e.key != k)
     slots := { s.slots with slot0 := fetchFailed k s.slots.slot0, slot1 := fetchFailed k s.slots.slot1 } })) ∧
  (∀ (k : Key) (n : Nat) (d : Directory), Directory.strikeNotHeld k n d = { d with
     entries := d.entries.map (fun e => if e.range.covers k then
       { e with ways := e.ways.modify (e.wayNumber k) (fun w =>
         { w with
           primaryStruck := w.primaryStruck || (w.primary == n)
           alternateStruck := w.alternateStruck || (w.alternate == n && w.alternate != 0) }) }
       else e) }) ∧
  ∀ p : Placement, (substitute p).state = .substituted ∧ (substitute p).key = p.key ∧ (substitute p).ref = none ∧
    (p.role ≠ .mark → (substitute p).advance = some (5 * p.size)) ∧
    (p.role = .mark → (substitute p).advance = some 0 ∧ (substitute p).origin = some (0, 0))

/-- The timers of a deferred fetch, of the enrolment, and of the patrol's and the copy's intervals. The ENROL is offered once, after the
free condition has been seen: with room it is placed whole, with its fields taken then; in a full queue it waits. -/
def Obligations.TimersAndTheEnrolOffer : Prop :=
  (∀ s : State,
     (∀ k, exec (.deferTimer k) s = .next { s with
       out := []
       fetches := s.fetches.map (fun f =>
         if f.key == k then if f.state = .deferred then { f with state := .waitingLink } else f else f) }) ∧
     (s.dir.enrolWait = true →
       exec .enrolWaitExpiry s = .next { s with out := [], dir := { s.dir with state := .operational, enrolWait := false } }) ∧
     (s.patrol.copyIntervalRuns = true →
       exec .copyInterval s = .next { s with
         out := [], patrol := { s.patrol with copyIntervalRuns := false, copyStepWaits := true } }) ∧
     (s.patrol.enabled = true → s.patrol.intervalRuns = true → s.patrol.bankState s.patrol.posBank ≠ .withdrawn →
       s.patrol.posBank < s.patrol.banks.length →
       exec .patrolInterval s = .next { s with
         out := [], patrol := { s.patrol with intervalRuns := false, stepWaits := true } })) ∧
  (∀ s : State, s.link.enrolDue = true → s.link.listens = true → s.link.state ≠ .mute →
     (s.link.queue.length < 12 →
       exec .enrolOffer s = .next { s with
         out := []
         link := { s.link with
           enrolDue := false, enrolWaits := false
           queue := State.insertTx
             { frame := .enrol
                 { station := s.straps.station, banks := s.straps.banks, spare := s.patrol.spare != .absent
                   head := s.straps.head
                   records := (s.store.index.filter fun r => r.state == .valid && !s.patrol.isWithdrawn r.bank).length }
               attempts := 0, onLink := false } s.link.queue } }) ∧
     (12 ≤ s.link.queue.length →
       exec .enrolOffer s = .next { s with out := [], link := { s.link with enrolDue := false, enrolWaits := true } }))

/-! ## Directory and cache -/

/-- An invalid ANNOUNCE, and one that the table has no room for, are answered with OBJECT; one with an overlapped entry of an equal or
higher version is ignored as to its range, and its COMPLETE flag is taken. -/
def Obligations.AnnounceRefusedOrIgnored : Prop :=
  ∀ (h : Hdr) (a : AnnounceFrame) (s : State), Arrives h s → FromAuthority h s → a.first.index ≤ 4095 → a.last.index ≤ 4095 →
    (Directory.announceValid a = false → exec (.announce h a) s = .next (answers false (arrived h s))) ∧
    (Directory.announceValid a = true →
      (∃ e ∈ s.dir.entries, e.range.overlaps (Directory.announceRange a) = true ∧ a.version ≤ e.version) →
      exec (.announce h a) s = .next (answers true
        (if a.complete then
          { arrived h s with
            dir := { (arrived h s).dir with complete := true, state := .operational, enrolWait := false } }
        else arrived h s))) ∧
    (Directory.announceValid a = true →
      (∀ e ∈ s.dir.entries, e.range.overlaps (Directory.announceRange a) = true → e.version < a.version) → a.ways ≠ [] →
      64 < s.dir.entries.length - (s.dir.entries.filter fun e => e.range.overlaps (Directory.announceRange a)).length + 1 →
      exec (.announce h a) s = .next (answers false (arrived h s)))

/-- An ANNOUNCE that is newer than every entry it overlaps, and that the table has room for, is answered with ACK: those entries leave,
and with them the items of the outgoing withdrawal list that were listed from them; with ways a new entry enters with clear marks, and
when this station is a holder of it and holds a VALID record of a WITHDRAWN bank in its range, the entry is struck for this station and
its range joins the list, which is offered at once. Nothing else changes but by the COMPLETE flag. The new entry stands where it keeps the
directory in ascending order of first key. The list is offered as WITHDRAW frames of up to 16 ranges, as far as the transmit queue has
room. -/
def Obligations.AnnounceReplacesTheOverlapped : Prop :=
  (∀ (h : Hdr) (a : AnnounceFrame) (s : State) (kept : List DirEntry) (listed : List KeyRange), Arrives h s → FromAuthority h s →
     a.first.index ≤ 4095 → a.last.index ≤ 4095 → Directory.announceValid a = true →
     (∀ e ∈ s.dir.entries, e.range.overlaps (Directory.announceRange a) = true → e.version < a.version) →
     kept = s.dir.entries.filter (fun e => !e.range.overlaps (Directory.announceRange a)) →
     listed = s.dir.outgoing.filter (fun r =>
       s.dir.entries.all fun e => !e.range.overlaps (Directory.announceRange a) || e.range != r) →
     (a.ways = [] ∨ kept.length < 64) →
     (a.ways = [] →
       exec (.announce h a) s = .next (answers true (flagTaken a { arrived h s with
         dir := { (arrived h s).dir with entries := kept, outgoing := listed } }))) ∧
     (a.ways ≠ [] → ¬HoldsWithdrawn a s →
       exec (.announce h a) s = .next (answers true (flagTaken a (State.offerOutgoing { arrived h s with
         dir := { (arrived h s).dir with
           entries := Directory.insertEntry (Directory.newEntry a) kept, outgoing := listed } })))) ∧
     (a.ways ≠ [] → HoldsWithdrawn a s →
       exec (.announce h a) s = .next (answers true (flagTaken a (State.offerOutgoing { arrived h s with
         dir := { (arrived h s).dir with
           entries := Directory.insertEntry ((Directory.newEntry a).strike s.straps.station) kept
           outgoing := listed ++ [Directory.announceRange a] } }))))) ∧
  (∀ (e : DirEntry) (es : List DirEntry),
    Directory.insertEntry e es = es.takeWhile (fun x => decide (x.first.ordinal ≤ e.first.ordinal)) ++
      e :: es.dropWhile (fun x => decide (x.first.ordinal ≤ e.first.ordinal)) ∧
    (es.Pairwise (fun x y => x.first.ordinal < y.first.ordinal) → (∀ x ∈ es, x.first.ordinal ≠ e.first.ordinal) →
      (Directory.insertEntry e es).Pairwise (fun x y => x.first.ordinal < y.first.ordinal))) ∧
  ∀ s : State,
    (s.dir.outgoing = [] → s.offerOutgoing = s) ∧
    (s.link.state ≠ .mute → 12 ≤ s.link.queue.length → s.offerOutgoing = s) ∧
    (s.link.state ≠ .mute → s.link.queue.length < 12 → s.dir.outgoing ≠ [] →
      s.offerOutgoing = State.offerOutgoing { s with
        dir := { s.dir with outgoing := s.dir.outgoing.drop 16 }
        link := { s.link with
          queue := State.insertTx { frame := .withdraw (s.dir.outgoing.take 16), attempts := 0, onLink := false } s.link.queue } })

/-- A WITHDRAW strikes its sender in every way of every overlapped entry in which the sender is a holder. -/
def Obligations.WithdrawStrikesItsSender : Prop :=
  ∀ (h : Hdr) (rs : List KeyRange) (s : State), Arrives h s → (∀ r ∈ rs, r.first.index ≤ 4095 ∧ r.last.index ≤ 4095) →
    ((1 ≤ rs.length ∧ rs.length ≤ 16 ∧ ∀ r ∈ rs, r.first.ordinal ≤ r.last.ordinal) →
      exec (.withdraw h rs) s = .next (answers true { arrived h s with
        dir := { (arrived h s).dir with
          entries := s.dir.entries.map (fun e => if rs.any (fun r => r.overlaps e.range) then
            { e with ways := e.ways.map (fun w =>
              { w with
                primaryStruck := w.primaryStruck || (w.primary == h.src)
                alternateStruck := w.alternateStruck || (w.alternate == h.src && w.alternate != 0) }) }
            else e) } })) ∧
    (¬(1 ≤ rs.length ∧ rs.length ≤ 16 ∧ ∀ r ∈ rs, r.first.ordinal ≤ r.last.ordinal) →
      exec (.withdraw h rs) s = .next (answers false (arrived h s)))

/-- The target of a key: no holder that is 0, struck, this station or tried; the first without an ABSENT mark, and the first when every
candidate carries one. -/
def Obligations.TargetIsTheFirstUnmarkedCandidate : Prop :=
  ∀ (own : Nat) (tried : List Nat) (d : Directory) (k : Key) (w : Way), d.wayOf k = some w →
    (∀ u, d.chooseTarget own tried k = some u →
      u.1 ≠ 0 ∧ u.1 ≠ own ∧ u.1 ∉ tried ∧
      ((u.1 = w.primary ∧ u.2 = .primary ∧ w.primaryStruck = false) ∨
        (u.1 = w.alternate ∧ u.2 = .alternate ∧ w.alternateStruck = false))) ∧
    (Directory.mayAsk own tried w.primary w.primaryStruck = true → d.isAbsent w.primary = false →
      d.chooseTarget own tried k = some (w.primary, .primary)) ∧
    (Directory.mayAsk own tried w.primary w.primaryStruck = true → d.isAbsent w.primary = true →
      Directory.mayAsk own tried w.alternate w.alternateStruck = true → d.isAbsent w.alternate = false →
      d.chooseTarget own tried k = some (w.alternate, .alternate)) ∧
    (Directory.mayAsk own tried w.primary w.primaryStruck = true → d.isAbsent w.primary = true →
      (Directory.mayAsk own tried w.alternate w.alternateStruck = false ∨ d.isAbsent w.alternate = true) →
      d.chooseTarget own tried k = some (w.primary, .primary)) ∧
    (Directory.mayAsk own tried w.primary w.primaryStruck = false →
      Directory.mayAsk own tried w.alternate w.alternateStruck = true →
      d.chooseTarget own tried k = some (w.alternate, .alternate)) ∧
    (Directory.mayAsk own tried w.primary w.primaryStruck = false →
      Directory.mayAsk own tried w.alternate w.alternateStruck = false → d.chooseTarget own tried k = none)

/-- The way of a key is the remainder of its distance from the first key divided by the way count. -/
def Obligations.WayOfAKeyIsTheRemainder : Prop :=
  ∀ (e : DirEntry) (k : Key), e.ways ≠ [] →
    e.wayNumber k < e.ways.length ∧ e.wayNumber k = (k.ordinal - e.first.ordinal) % e.ways.length ∧
      ∀ d : Directory, d.entries = [e] → e.first.ordinal ≤ k.ordinal → k.ordinal ≤ e.last.ordinal →
        d.wayOf k = e.ways[(k.ordinal - e.first.ordinal) % e.ways.length]?

/-- An INVALIDATE is answered with ACK, and afterwards no VALID entry of its span is held; fetches, store and directory stand. The
unpinned VALID entries of the span leave and the pinned ones become STALE; a slot whose placements refer to none of those is as before.
An EXPOSING one keeps its placements and sets STALE-IMAGE. In RESOLVING, AWAITING and READY the placements that refer to them are
unpinned and UNRESOLVED again: a pass under way is marked to be repeated, and the slot otherwise begins a pass, a READY one without its
measurement, its positions and the flags SQUEEZED and UNJUSTIFIED. An unpin lowers the count; at 0 a VALID entry joins the recency order
as most recently used and a STALE one leaves the cache; a list unpins in its order. The model's reading: log 21 and log 25. -/
def Obligations.InvalidateLeavesNoValidEntry : Prop :=
  (∀ (h : Hdr) (sp : Span) (s : State), Arrives h s → FromAuthority h s → sp.first ≤ 4095 → sp.last ≤ 4095 →
     (∃ t, exec (.invalidate h sp) s = .next t ∧ .answer true false ∈ t.out ∧
       (∀ e ∈ t.cache.entries, sp.covers e.2.key = true → e.2.state = .stale) ∧
       t.store.index = s.store.index ∧ t.store.memory = s.store.memory ∧ t.dir.entries = s.dir.entries ∧
       (∀ f ∈ s.fetches, f ∈ t.fetches)) ∧
     exec (.invalidate h sp) s = .next (answers true (State.settle
       (State.staleSlot (s.cache.madeStale sp) s.slots.older.other (State.staleSlot (s.cache.madeStale sp) s.slots.older
         { arrived h s with cache := s.cache.invalidate sp }))))) ∧
  (∀ (sp : Span) (c : Cache),
     (c.invalidate sp).entries = (c.entries.filter fun e => !(sp.covers e.2.key && e.2.state == .valid && e.2.pins == 0)).map
       (fun e => if sp.covers e.2.key then (e.1, { e.2 with state := .stale }) else e) ∧
     ∀ n, n ∈ c.madeStale sp ↔ ∃ e, (n, e) ∈ c.entries ∧ sp.covers e.key = true ∧ e.state = .valid ∧ 0 < e.pins) ∧
  (∀ (c : Cache) (n : Nat) (ns : List Nat),
     c.unpinAll [] = c ∧ c.unpinAll (n :: ns) = (c.unpin n).unpinAll ns ∧ (c.entry n = none → c.unpin n = c) ∧
     ∀ e, c.entry n = some e →
       (∀ m, m ≠ n → (c.unpin n).entry m = c.entry m) ∧
       (1 < e.pins → (c.unpin n).entry n = some { e with pins := e.pins - 1 } ∧ (c.unpin n).recency = c.recency) ∧
       (e.pins ≤ 1 → e.state = .valid →
         (c.unpin n).entry n = some { e with pins := 0 } ∧ (c.unpin n).recency = c.recency.filter (fun m => m != n) ++ [n]) ∧
       (e.pins ≤ 1 → e.state = .stale →
         (c.unpin n).entry n = none ∧ (c.unpin n).recency = c.recency.filter (fun m => m != n))) ∧
  ∀ (ns : List Nat) (i : SlotId) (s : State) (t : Slot), t = s.slots.get i →
    ((∀ p ∈ t.list, refersTo ns p = false) → s.staleSlot ns i = s) ∧
    ((t.state = .empty ∨ t.state = .reporting) → s.staleSlot ns i = s) ∧
    ((∃ p ∈ t.list, refersTo ns p = true) →
      (t.state = .exposing → s.staleSlot ns i = { s with
        slots := s.slots.put i { t with flags := t.flags.or { staleImage := true } } }) ∧
      (t.state = .resolving → s.staleSlot ns i = { s with
        cache := s.cache.unpinAll ((t.list.filter (refersTo ns)).filterMap Placement.ref)
        slots := s.slots.put i { t with
          list := withY (some 0) (t.list.map (released ns)), pass := t.pass.map (fun p => { p with again := true }) } }) ∧
      (t.state = .awaiting → s.staleSlot ns i = { s with
        cache := s.cache.unpinAll ((t.list.filter (refersTo ns)).filterMap Placement.ref)
        slots := s.slots.put i { t with
          state := .resolving, list := withY (some 0) (t.list.map (released ns))
          pass := some { pos := 0, again := false, wait := .running } } }) ∧
      (t.state = .ready → s.staleSlot ns i = { s with
        cache := s.cache.unpinAll ((t.list.filter (refersTo ns)).filterMap Placement.ref)
        slots := s.slots.put i { t with
          state := .resolving, list := withY (some 0) (t.list.map (fun p => { released ns p with x := none }))
          pass := some { pos := 0, again := false, wait := .running }, measured := none
          flags := { t.flags with squeezed := false, unjustified := false } } }))

/-! ## Store policy -/

/-- The drip interval, the patrol enable and THAW, each field alone, and what each refuses. The model's reading: log 6. -/
def Obligations.DripPatrolAndThawFields : Prop :=
  ∀ (h : Hdr) (s : State), ArrivesHere h s → FromAuthority h s →
    (∀ v, 1 ≤ v → v ≤ 15 → exec (.dripInterval h v) s = .next (answers true
      { arrived h s with patrol := { s.patrol with drip := v } })) ∧
    (∀ v, v = 0 ∨ 15 < v → exec (.dripInterval h v) s = .next (answers false (arrived h s))) ∧
    (exec (.patrolEnable h 0) s = .next (answers true { arrived h s with
      patrol := if s.patrol.enabled then { s.patrol with enabled := false, intervalRuns := false, stepWaits := false }
        else s.patrol })) ∧
    (s.patrol.enabled = true → exec (.patrolEnable h 1) s = .next (answers true (arrived h s))) ∧
    (s.patrol.enabled = false → s.patrol.bankState s.patrol.posBank ≠ .withdrawn → s.patrol.banks ≠ [] →
      exec (.patrolEnable h 1) s = .next (answers true { arrived h s with
        patrol := { s.patrol with enabled := true, intervalRuns := true } })) ∧
    (∀ v, 1 < v → exec (.patrolEnable h v) s = .next (answers false (arrived h s))) ∧
    (∀ b, b < s.patrol.banks.length →
      (s.patrol.bankState b = .good ∨ s.patrol.bankState b = .atThreshold ∨ s.patrol.bankState b = .spared) →
      exec (.thaw h b) s = .next (answers true { arrived h s with
        patrol := { s.patrol with banks := s.patrol.banks.modify b (fun _ => { count := 0, state := .good }) } })) ∧
    (∀ b, s.patrol.banks.length ≤ b ∨ s.patrol.bankState b = .copying ∨ s.patrol.bankState b = .withdrawn →
      exec (.thaw h b) s = .next (answers false (arrived h s)))

/-- A threshold field freezes every GOOD bank at or above it, and a threshold outside 1 to 255 is refused. FORCE puts a GOOD or SPARED
bank AT-THRESHOLD with its count kept and leaves an AT-THRESHOLD or WITHDRAWN one; a COPYING bank, and one that does not exist, refuse it.
Either field is followed by the spare decision, which does nothing while sparing is off. The model's reading: log 6. -/
def Obligations.ThresholdAndForce : Prop :=
  (∀ (h : Hdr) (v : Nat) (s : State), ArrivesHere h s → FromAuthority h s → 1 ≤ v → v ≤ 255 →
     (s.patrol.sparing = false →
       exec (.threshold h v) s = .next (answers true { arrived h s with
         patrol := { s.patrol with
           threshold := v
           banks := s.patrol.banks.map (fun k => if k.state == .good && v ≤ k.count then { k with state := .atThreshold } else k) } })) ∧
     (exec (.threshold h v) s = .next (answers true (State.spareDecision { arrived h s with
       patrol := { s.patrol with
         threshold := v
         banks := s.patrol.banks.map (fun k =>
           if k.state == .good && v ≤ k.count then { k with state := .atThreshold } else k) } }))) ∧
     ∃ t, exec (.threshold h v) s = .next t ∧ t.out = [.answer true false] ∧ t.patrol.threshold = v ∧
       t.store.memory = s.store.memory ∧ t.slots = s.slots ∧ t.cache = s.cache ∧ t.lines = s.lines) ∧
  (∀ (h : Hdr) (v : Nat) (s : State), ArrivesHere h s → FromAuthority h s → v = 0 ∨ 255 < v →
     exec (.threshold h v) s = .next (answers false (arrived h s))) ∧
  (∀ (h : Hdr) (b : Nat) (s : State), ArrivesHere h s → FromAuthority h s → b < s.patrol.banks.length →
     (s.patrol.sparing = false → (s.patrol.bankState b = .good ∨ s.patrol.bankState b = .spared) →
       exec (.force h b) s = .next (answers true { arrived h s with
         patrol := { s.patrol with banks := s.patrol.banks.modify b (fun k => { k with state := .atThreshold }) } })) ∧
     ((s.patrol.bankState b = .good ∨ s.patrol.bankState b = .spared) →
       exec (.force h b) s = .next (answers true (State.spareDecision { arrived h s with
         patrol := { s.patrol with banks := s.patrol.banks.modify b (fun k => { k with state := .atThreshold }) } }))) ∧
     (s.patrol.sparing = false → (s.patrol.bankState b = .atThreshold ∨ s.patrol.bankState b = .withdrawn) →
       exec (.force h b) s = .next (answers true (arrived h s))) ∧
     ((s.patrol.bankState b = .atThreshold ∨ s.patrol.bankState b = .withdrawn) →
       exec (.force h b) s = .next (answers true (State.spareDecision (arrived h s)))) ∧
     (s.patrol.bankState b = .copying → exec (.force h b) s = .next (answers false (arrived h s)))) ∧
  ∀ (h : Hdr) (b : Nat) (s : State), ArrivesHere h s → FromAuthority h s → s.patrol.banks.length ≤ b →
    exec (.force h b) s = .next (answers false (arrived h s))

/-- Sparing off aborts a copy, and with none in progress the setting alone changes; sparing on makes the spare decision; an equal setting
changes nothing; a value that is neither is refused. The model's reading: log 6, and log 33 (DESIGN CHOICE) for a copy's first step, which
is requested at once. -/
def Obligations.SparingField : Prop :=
  ∀ (h : Hdr) (s : State), ArrivesHere h s → FromAuthority h s →
    (∀ b, s.patrol.sparing = true → s.patrol.copySource = some b →
      exec (.sparingEnable h 0) s = .next (answers true { arrived h s with
        patrol := { s.patrol with
          sparing := false, spare := .free, copySource := none, copyProgress := none, copyStepWaits := false
          copyIntervalRuns := false
          banks := s.patrol.banks.modify b (fun k => { k with state := .atThreshold }) } })) ∧
    (s.patrol.sparing = true → s.patrol.copySource = none →
      exec (.sparingEnable h 0) s = .next (answers true { arrived h s with patrol := { s.patrol with sparing := false } })) ∧
    (s.patrol.sparing = true → exec (.sparingEnable h 1) s = .next (answers true (arrived h s))) ∧
    (s.patrol.sparing = false → exec (.sparingEnable h 0) s = .next (answers true (arrived h s))) ∧
    (∀ v, 1 < v → exec (.sparingEnable h v) s = .next (answers false (arrived h s))) ∧
    (s.patrol.sparing = false →
      exec (.sparingEnable h 1) s = .next (answers true (State.spareDecision
        { arrived h s with patrol := { s.patrol with sparing := true } }))) ∧
    (s.patrol.sparing = false → (∀ b, s.patrol.bankState b ≠ .atThreshold) →
      exec (.sparingEnable h 1) s = .next (answers true { arrived h s with patrol := { s.patrol with sparing := true } })) ∧
    ∀ b, s.patrol.sparing = false → s.patrol.spare = .free → b < s.patrol.banks.length → s.patrol.bankState b = .atThreshold →
      (∀ c, c < b → s.patrol.bankState c ≠ .atThreshold) →
      exec (.sparingEnable h 1) s = .next (answers true { arrived h s with
        patrol := { s.patrol with
          sparing := true, spare := .target, copySource := some b, copyProgress := some 0, copyStepWaits := true
          copyIntervalRuns := false
          banks := s.patrol.banks.modify b (fun k => { k with state := .copying }) } })

/-- A STORE-POLICY of any fields: refused whole when it is addressed to all stations, an enable is neither 0 nor 1, or one of its fields is
refused; taken whole otherwise, its fields applied in the order threshold, drip interval, sparing, patrol, THAW, FORCE, each to the unit as
the fields before it leave it, and the spare decision made once after the last one, when a field can call for it. What each field does to
the unit, and when it is refused: a threshold freezes the GOOD banks at or above it, sparing off aborts a copy, patrol on resumes the walk,
THAW and FORCE go by the bank's state. So a frame that turns sparing off and thaws the bank being copied is taken, one that thaws and
forces a bank leaves it AT-THRESHOLD with a count of 0, and one whose THAW finds a COPYING or WITHDRAWN bank, or whose FORCE finds a
COPYING one, is refused whole. The model's reading: log 29 for a walk that resumes on a WITHDRAWN bank. -/
def Obligations.StorePolicyIsTakenWhole : Prop :=
  (∀ (h : Hdr) (s : State), FromAuthority h s →
    (∀ f, Arrives h s → policyBad f = false → h.dst = 0 → exec (.storePolicy h f) s = .next (answers false (arrived h s))) ∧
    (∀ f v, Arrives h s → (f.sparing = some v ∨ f.patrol = some v) → 1 < v →
      exec (.storePolicy h f) s = .next (answers false (arrived h s))) ∧
    (∀ f, ArrivesHere h s → policyBad f = false → s.patrol.applyPolicy f = none →
      exec (.storePolicy h f) s = .next (answers false (arrived h s))) ∧
    (∀ f p, ArrivesHere h s → policyBad f = false → s.patrol.applyPolicy f = some p →
      ((f.threshold ≠ none ∨ f.force ≠ none ∨ (f.sparing = some 1 ∧ s.patrol.sparing = false)) →
        exec (.storePolicy h f) s = .next (answers true (State.spareDecision { arrived h s with patrol := p }))) ∧
      (f.threshold = none → f.force = none → (f.sparing ≠ some 1 ∨ s.patrol.sparing = true) →
        exec (.storePolicy h f) s = .next (answers true { arrived h s with patrol := p }))) ∧
    (∀ f b, ArrivesHere h s → policyBad f = false → (f.thaw = some b ∨ f.force = some b) → s.patrol.banks.length ≤ b →
      exec (.storePolicy h f) s = .next (answers false (arrived h s))) ∧
    (∀ f v, ArrivesHere h s → (f.threshold = some v ∧ (v = 0 ∨ 255 < v)) ∨ (f.drip = some v ∧ (v = 0 ∨ 15 < v)) →
      exec (.storePolicy h f) s = .next (answers false (arrived h s))) ∧
    (∀ f b, ArrivesHere h s → policyBad f = false → f.sparing ≠ some 0 →
      (f.thaw = some b ∧ (s.patrol.bankState b = .copying ∨ s.patrol.bankState b = .withdrawn)) ∨
        (f.force = some b ∧ s.patrol.bankState b = .copying) →
      exec (.storePolicy h f) s = .next (answers false (arrived h s))) ∧
    (∀ b, ArrivesHere h s → s.patrol.sparing = true → s.patrol.copySource = some b → b < s.patrol.banks.length →
      exec (.storePolicy h { noFields with sparing := some 0, thaw := some b }) s = .next (answers true { arrived h s with
        patrol := { s.patrol with
          sparing := false, spare := .free, copySource := none, copyProgress := none, copyStepWaits := false
          copyIntervalRuns := false
          banks := s.patrol.banks.modify b (fun _ => { count := 0, state := .good }) } })) ∧
    (∀ b, ArrivesHere h s → b < s.patrol.banks.length →
      (s.patrol.bankState b = .good ∨ s.patrol.bankState b = .atThreshold ∨ s.patrol.bankState b = .spared) →
      exec (.storePolicy h { noFields with thaw := some b, force := some b }) s =
        .next (answers true (State.spareDecision { arrived h s with
          patrol := { s.patrol with banks := s.patrol.banks.modify b (fun _ => { count := 0, state := .atThreshold }) } }))) ∧
    (ArrivesHere h s → exec (.storePolicy h noFields) s = .next (answers true (arrived h s)))) ∧
  (∀ (f : PolicyFrame) (p : Patrol), p.applyPolicy f =
    (p.applyPolicy { noFields with threshold := f.threshold }).bind fun p =>
      (p.applyPolicy { noFields with drip := f.drip }).bind fun p =>
        (p.applyPolicy { noFields with sparing := f.sparing }).bind fun p =>
          (p.applyPolicy { noFields with patrol := f.patrol }).bind fun p =>
            (p.applyPolicy { noFields with thaw := f.thaw }).bind fun p => p.applyPolicy { noFields with force := f.force }) ∧
  ∀ p : Patrol,
    p.applyPolicy noFields = some p ∧
    (∀ v, 1 ≤ v → v ≤ 255 → p.applyPolicy { noFields with threshold := some v } = some { p with
      threshold := v
      banks := p.banks.map (fun k => if k.state = .good ∧ v ≤ k.count then { k with state := .atThreshold } else k) }) ∧
    (∀ v, v = 0 ∨ 255 < v → p.applyPolicy { noFields with threshold := some v } = none) ∧
    (∀ v, 1 ≤ v → v ≤ 15 → p.applyPolicy { noFields with drip := some v } = some { p with drip := v }) ∧
    (∀ v, v = 0 ∨ 15 < v → p.applyPolicy { noFields with drip := some v } = none) ∧
    p.applyPolicy { noFields with sparing := some 1 } = some { p with sparing := true } ∧
    ((p.sparing = false ∨ p.copySource = none) →
      p.applyPolicy { noFields with sparing := some 0 } = some { p with sparing := false }) ∧
    (∀ b, p.sparing = true → p.copySource = some b → p.applyPolicy { noFields with sparing := some 0 } = some { p with
      sparing := false, spare := .free, copySource := none, copyProgress := none, copyStepWaits := false, copyIntervalRuns := false
      banks := p.banks.modify b (fun k => { k with state := .atThreshold }) }) ∧
    (p.enabled = true → p.applyPolicy { noFields with patrol := some 1 } = some p ∧
      p.applyPolicy { noFields with patrol := some 0 } = some { p with enabled := false, intervalRuns := false, stepWaits := false }) ∧
    (p.enabled = false → p.applyPolicy { noFields with patrol := some 0 } = some p ∧
      p.applyPolicy { noFields with patrol := some 1 } = some (Patrol.settlePosition { p with enabled := true, intervalRuns := true })) ∧
    (p.bankState p.posBank ≠ .withdrawn → p.settlePosition = p) ∧
    (p.bankState p.posBank = .withdrawn → p.posBank + 1 < p.banks.length → p.bankState (p.posBank + 1) ≠ .withdrawn →
      p.settlePosition = { p with posBank := p.posBank + 1, posCell := 0 }) ∧
    (∀ b, b < p.banks.length → (p.bankState b = .good ∨ p.bankState b = .atThreshold ∨ p.bankState b = .spared) →
      p.applyPolicy { noFields with thaw := some b } =
        some { p with banks := p.banks.modify b (fun _ => { count := 0, state := .good }) }) ∧
    (∀ b, p.banks.length ≤ b ∨ p.bankState b = .copying ∨ p.bankState b = .withdrawn →
      p.applyPolicy { noFields with thaw := some b } = none) ∧
    (∀ b, b < p.banks.length → (p.bankState b = .good ∨ p.bankState b = .spared) →
      p.applyPolicy { noFields with force := some b } =
        some { p with banks := p.banks.modify b (fun k => { k with state := .atThreshold }) }) ∧
    (∀ b, b < p.banks.length → (p.bankState b = .atThreshold ∨ p.bankState b = .withdrawn) →
      p.applyPolicy { noFields with force := some b } = some p) ∧
    ∀ b, p.banks.length ≤ b ∨ p.bankState b = .copying → p.applyPolicy { noFields with force := some b } = none

/-- The spare decision: off, nothing; TARGET, every bank waits; FREE, the lowest AT-THRESHOLD bank begins a copy; none AT-THRESHOLD,
nothing; IN-USE or ABSENT, no bank stays AT-THRESHOLD, and they are withdrawn one after the other, the lowest first. A withdrawal: the
bank is WITHDRAWN, its LOADING records leave with their pending writes dead, this station is struck in every entry that names it unstruck
and covers a VALID record of the bank, those ranges join the outgoing withdrawal list, which is offered, and a NOTICE WITHDRAWN goes to
each authority with the VALID records left and the ranges listed; the patrol's walk then leaves the bank. The model's reading: log 29 for
a walk that is stopped or whose step waits, and log 33 (DESIGN CHOICE) for a copy's first step, which is requested at once. -/
def Obligations.SpareDecisionByTheTable : Prop :=
  (∀ s : State,
    (s.patrol.sparing = false → s.spareDecision = s) ∧
    (s.patrol.spare = .target → s.spareDecision = s) ∧
    ((∀ b, s.patrol.bankState b ≠ .atThreshold) → s.spareDecision = s) ∧
    (∀ b, s.patrol.sparing = true → s.patrol.spare = .free → b < s.patrol.banks.length → s.patrol.bankState b = .atThreshold →
      (∀ c, c < b → s.patrol.bankState c ≠ .atThreshold) →
      s.spareDecision = { s with patrol := { s.patrol with
        spare := .target, copySource := some b, copyProgress := some 0, copyStepWaits := true, copyIntervalRuns := false
        banks := s.patrol.banks.modify b (fun k => { k with state := .copying }) } }) ∧
    (s.patrol.sparing = true → (s.patrol.spare = .inUse ∨ s.patrol.spare = .absent) →
      (∀ b, s.spareDecision.patrol.bankState b ≠ .atThreshold ∧
        (s.patrol.bankState b = .atThreshold → s.spareDecision.patrol.bankState b = .withdrawn)) ∧
      ∀ b, b < s.patrol.banks.length → s.patrol.bankState b = .atThreshold →
        (∀ c, c < b → s.patrol.bankState c ≠ .atThreshold) → s.spareDecision = (s.withdrawBank b).spareDecision)) ∧
  (∀ (b : Nat) (s : State) (struck : List DirEntry), s.link.state ≠ .mute →
    struck = s.dir.entries.filter (fun e => listedFor b s e) →
    s.withdrawBank b = State.leaveWithdrawn ((List.range s.straps.authLimit.val).foldl
      (fun t k => noticed (k + 1) (.withdrawn b
        (s.store.index.filter fun r => r.state == .valid && r.bank == b).length struck.length) t)
      (State.offerOutgoing { s with
        patrol := { s.patrol with banks := s.patrol.banks.modify b (fun k => { k with state := .withdrawn }) }
        store := { s.store with
          index := s.store.index.filter (fun r => !(r.bank == b && r.state == .loading))
          writes := s.store.writes.map (fun w =>
            if ∃ r ∈ s.store.index, r.bank = b ∧ r.state = .loading ∧ r.key = w.key then { w with live := false } else w) }
        dir := { s.dir with
          entries := s.dir.entries.map (fun e => if listedFor b s e then e.strike s.straps.station else e)
          outgoing := s.dir.outgoing ++ struck.map DirEntry.range } }))) ∧
  ∀ s : State,
    (s.patrol.bankState s.patrol.posBank ≠ .withdrawn → s.leaveWithdrawn = s) ∧
    ((s.patrol.enabled = false ∨ s.patrol.stepWaits = true) → s.leaveWithdrawn = s) ∧
    (s.patrol.enabled = true → s.patrol.stepWaits = false → s.patrol.bankState s.patrol.posBank = .withdrawn →
      s.patrol.posBank + 1 < s.patrol.banks.length → s.patrol.bankState (s.patrol.posBank + 1) ≠ .withdrawn →
      s.leaveWithdrawn = { s with patrol := { s.patrol with posBank := s.patrol.posBank + 1, posCell := 0 } })

/-- A correctable error is counted only from a cell that held data, in a GOOD bank; at the threshold the count is frozen and the spare
decision is made. A drip lowers the counts of the GOOD banks alone. -/
def Obligations.ErrorBuckets : Prop :=
  ∀ (b : Nat) (s : State),
    s.reportError b false = s ∧
    (s.patrol.bankState b ≠ .good → s.reportError b true = s) ∧
    (∀ k, s.patrol.banks[b]? = some k → k.state = .good → k.count + 1 < s.patrol.threshold →
      s.reportError b true = { s with patrol := { s.patrol with banks := s.patrol.banks.set b { k with count := k.count + 1 } } }) ∧
    (∀ k, s.patrol.banks[b]? = some k → k.state = .good → s.patrol.threshold ≤ k.count + 1 → s.patrol.sparing = false →
      s.reportError b true =
        { s with patrol := { s.patrol with banks := s.patrol.banks.set b { count := k.count + 1, state := .atThreshold } } }) ∧
    (∀ k, s.patrol.banks[b]? = some k → k.state = .good → s.patrol.threshold ≤ k.count + 1 →
      s.reportError b true = State.spareDecision
        { s with patrol := { s.patrol with banks := s.patrol.banks.set b { count := k.count + 1, state := .atThreshold } } }) ∧
    (∀ p : Patrol, p.passes + 1 < p.drip → p.completePass = { p with passes := p.passes + 1 }) ∧
    (∀ p : Patrol, p.drip ≤ p.passes + 1 → p.completePass = { p with
      passes := 0, banks := p.banks.map (fun k => if k.state == .good then { k with count := k.count - 1 } else k) })

/-! ## Script tables -/

/-- HEADER: code count 0 empties the table, 1 to 256 begins a load, and a value out of range is refused. COMMIT: a finished load becomes
COMPLETE, an unfinished one and an EMPTY table refuse, and a COMPLETE table is unchanged. The
contents of the emptied table are the model's choice (log 28, DESIGN CHOICE). -/
def Obligations.HeaderAndCommit : Prop :=
  (∀ (h : Hdr) (n : Nat) (f : HeaderFields) (s : State), Arrives h s → FromAuthority h s → n < 16 →
     ((f.codeCount = 0 ∧ f.ligCount ≤ 64 ∧ f.spaceWidth ≤ 2000) →
       exec (.header h n f) s = .next (answers true { arrived h s with tables := s.tables.set n .blank })) ∧
     ((1 ≤ f.codeCount ∧ f.codeCount ≤ 256 ∧ f.ligCount ≤ 64 ∧ f.spaceWidth ≤ 2000) →
       exec (.header h n f) s = .next (answers true { arrived h s with
         tables := s.tables.set n
           { state := .loading, codeBase := f.codeBase, codeCount := f.codeCount, spaceCode := f.spaceCode
             spaceWidth := f.spaceWidth, entries := [], ligCount := f.ligCount, ligatures := [], nextClass := some 0
             nextLig := some 0 } })) ∧
     ((256 < f.codeCount ∨ 64 < f.ligCount ∨ 2000 < f.spaceWidth) →
       exec (.header h n f) s = .next (answers false (arrived h s)))) ∧
  (∀ (h : Hdr) (n : Nat) (s : State) (t : ScriptTable), Arrives h s → FromAuthority h s → n < 16 → s.tables[n]? = some t →
     (t.state = .loading → t.nextClass = some t.codeCount → t.nextLig = some t.ligCount →
       exec (.commit h n) s = .next (answers true { arrived h s with
         tables := s.tables.set n { t with state := .complete, nextClass := none, nextLig := none } })) ∧
     (t.state = .loading → (t.nextClass ≠ some t.codeCount ∨ t.nextLig ≠ some t.ligCount) →
       exec (.commit h n) s = .next (answers false (arrived h s))) ∧
     (t.state = .complete → exec (.commit h n) s = .next (answers true (arrived h s))) ∧
     (t.state = .empty → exec (.commit h n) s = .next (answers false (arrived h s))))

/-- CLASS-BLOCK and LIGATURE: taken when the table is LOADING and the piece leaves no gap and stays within its count, a ligature only once
every code entry has been received; refused otherwise. -/
def Obligations.PiecesOfATableAreWritten : Prop :=
  (∀ (h : Hdr) (n first : Nat) (es : List CodeEntry) (s : State) (t : ScriptTable), Arrives h s → FromAuthority h s → n < 16 →
     s.tables[n]? = some t →
     (∀ m, t.state = .loading → t.nextClass = some m → 1 ≤ es.length → es.length ≤ 64 → first ≤ m →
       first + es.length ≤ t.codeCount →
       (∀ e ∈ es, e.isolated ≤ 4095 ∧ e.final ≤ 4095 ∧ e.initial ≤ 4095 ∧ e.medial ≤ 4095) →
       exec (.classBlock h n first es) s = .next (answers true { arrived h s with
         tables := s.tables.set n { t with
           entries := t.entries.take first ++ es ++ t.entries.drop (first + es.length)
           nextClass := some (max m (first + es.length)) } })) ∧
     ((t.state ≠ .loading ∨ t.codeCount < first + es.length ∨ es = [] ∨ 64 < es.length ∨ (∃ m, t.nextClass = some m ∧ m < first) ∨
         ∃ e ∈ es, 4095 < e.isolated ∨ 4095 < e.final ∨ 4095 < e.initial ∨ 4095 < e.medial) →
       exec (.classBlock h n first es) s = .next (answers false (arrived h s)))) ∧
  (∀ (h : Hdr) (n first : Nat) (es : List LigEntry) (s : State) (t : ScriptTable), Arrives h s → FromAuthority h s → n < 16 →
     s.tables[n]? = some t →
     (∀ m, t.state = .loading → t.nextLig = some m → t.nextClass = some t.codeCount → 1 ≤ es.length → es.length ≤ 64 →
       first ≤ m → first + es.length ≤ t.ligCount → (∀ e ∈ es, e.first ≤ 4095 ∧ e.second ≤ 4095 ∧ e.ligature ≤ 4095) →
       exec (.ligature h n first es) s = .next (answers true { arrived h s with
         tables := s.tables.set n { t with
           ligatures := t.ligatures.take first ++ es ++ t.ligatures.drop (first + es.length)
           nextLig := some (max m (first + es.length)) } })) ∧
     ((t.state ≠ .loading ∨ t.nextClass ≠ some t.codeCount ∨ t.ligCount < first + es.length ∨ es = [] ∨ 64 < es.length ∨
         (∃ m, t.nextLig = some m ∧ m < first) ∨ ∃ e ∈ es, 4095 < e.first ∨ 4095 < e.second ∨ 4095 < e.ligature) →
       exec (.ligature h n first es) s = .next (answers false (arrived h s))))

/-! ## Glyph Store -/

/-- LOAD piece 0. In order and with room, the lowest run of FREE cells of the lowest bank becomes a LOADING record and its first write is
queued; a record of the key held before is removed and its pending writes are dead; without room nothing changes and a LOAD-REFUSED
goes to the source; out of order it is answered with OBJECT. A WITHDRAWN bank is not searched. -/
def Obligations.LoadPieceZeroBeginsARecord : Prop :=
  (∀ (h : Hdr) (f : LoadFields) (bytes : List Byte) (s : State), Arrives h s → FromAuthority h s → f.key.index ≤ 4095 →
     ((h.dst ≠ 0 ∧ f.advanceWidth ≤ 2000 ∧ -1000 ≤ f.originX ∧ f.originX ≤ 1000 ∧ -1000 ≤ f.originY ∧ f.originY ≤ 1000 ∧
         8 ≤ f.imageLength ∧ f.imageLength ≤ 512 ∧ f.pieceCount = (f.imageLength + 63) / 64 ∧
         bytes.length = (if 1 < f.pieceCount then 64 else f.imageLength) ∧ s.store.writes.length < 4) →
       (∀ b c, (∀ r ∈ s.store.index, r.key ≠ f.key) → s.store.index.length < 2048 →
         allocate s.store.index f.pieceCount s.patrol.openBanks = some (b, c) →
         exec (.loadPiece0 h f bytes) s = .next (answers true { arrived h s with
           store := { s.store with
             index := insertRecord
               { key := f.key, bank := b, firstCell := c, cellCount := f.pieceCount, imageLength := f.imageLength
                 advanceWidth := f.advanceWidth, originX := f.originX, originY := f.originY, state := .loading
                 nextPiece := some 1 } s.store.index
             writes := s.store.writes ++ [{ key := f.key, bank := b, cell := c, bytes := bytes, live := true }] } })) ∧
       (∀ b c, (∃ r ∈ s.store.index, r.key = f.key) → (s.store.index.filter fun r => r.key != f.key).length < 2048 →
         allocate (s.store.index.filter fun r => r.key != f.key) f.pieceCount s.patrol.openBanks = some (b, c) →
         exec (.loadPiece0 h f bytes) s = .next (answers true { arrived h s with
           store := { s.store with
             index := insertRecord
               { key := f.key, bank := b, firstCell := c, cellCount := f.pieceCount, imageLength := f.imageLength
                 advanceWidth := f.advanceWidth, originX := f.originX, originY := f.originY, state := .loading
                 nextPiece := some 1 } (s.store.index.filter fun r => r.key != f.key)
             writes := s.store.writes.map (fun w => if w.key = f.key then { w with live := false } else w) ++
               [{ key := f.key, bank := b, cell := c, bytes := bytes, live := true }] } })) ∧
       (2048 ≤ (s.store.index.filter fun r => r.key != f.key).length →
         exec (.loadPiece0 h f bytes) s =
           .next (answers true (noticed h.src (.loadRefused f.key .noIndexRoom) (arrived h s)))) ∧
       ((s.store.index.filter fun r => r.key != f.key).length < 2048 →
         allocate (s.store.index.filter fun r => r.key != f.key) f.pieceCount s.patrol.openBanks = none →
         exec (.loadPiece0 h f bytes) s =
           .next (answers true (noticed h.src (.loadRefused f.key .noCellRoom) (arrived h s))))) ∧
     (¬(h.dst ≠ 0 ∧ f.advanceWidth ≤ 2000 ∧ -1000 ≤ f.originX ∧ f.originX ≤ 1000 ∧ -1000 ≤ f.originY ∧ f.originY ≤ 1000 ∧
         8 ≤ f.imageLength ∧ f.imageLength ≤ 512 ∧ f.pieceCount = (f.imageLength + 63) / 64 ∧
         bytes.length = (if 1 < f.pieceCount then 64 else f.imageLength) ∧ s.store.writes.length < 4) →
       exec (.loadPiece0 h f bytes) s = .next (answers false (arrived h s)))) ∧
  (∀ (ix : List StoreRecord) (n : Nat) (p : Patrol), 1 ≤ n →
     (∀ b c, allocate ix n p.openBanks = some (b, c) →
       b < p.banks.length ∧ p.bankState b ≠ .withdrawn ∧ c + n ≤ 1024 ∧
       (∀ r ∈ ix, ∀ k, k < n → r.holdsCell b (c + k) = false) ∧
       (∀ c', c' < c → runFree ix b n c' = false) ∧
       ∀ b', b' < b → p.bankState b' ≠ .withdrawn → ∀ c', runFree ix b' n c' = false) ∧
     (allocate ix n p.openBanks = none →
       ∀ b, b < p.banks.length → p.bankState b ≠ .withdrawn → ∀ c, runFree ix b n c = false))

/-- LOAD pieces 1 to 7 in order are queued as writes of their cells; one that fails a condition is refused. A DISCARD removes every record
of its span and leaves their pending writes dead; the cells and the cache stand. -/
def Obligations.LoadPiecesAndDiscard : Prop :=
  (∀ (h : Hdr) (k : Key) (n count : Nat) (bytes : List Byte) (s : State), Arrives h s → FromAuthority h s → k.index ≤ 4095 →
    (∀ (r : StoreRecord) (e : Nat), findRecord k s.store.index = some r → h.dst ≠ 0 → r.state = .loading →
      count = r.cellCount → 1 ≤ n → n < r.cellCount → r.nextPiece = some e → n ≤ e →
      bytes.length = (if n + 1 < r.cellCount then 64 else r.imageLength - 64 * (r.cellCount - 1)) → s.store.writes.length < 4 →
      exec (.loadPiece h k n count bytes) s = .next (answers true { arrived h s with
        store := { s.store with
          index := s.store.index.map (fun x =>
            if x.key = k ∧ x.nextPiece = some n then { x with nextPiece := some (n + 1) } else x)
          writes := s.store.writes ++ [{ key := k, bank := r.bank, cell := r.firstCell + n, bytes := bytes, live := true }] } })) ∧
    ((h.dst = 0 ∨ findRecord k s.store.index = none ∨ 4 ≤ s.store.writes.length ∨
        ∃ r, findRecord k s.store.index = some r ∧ (r.state ≠ .loading ∨ count ≠ r.cellCount ∨ n = 0 ∨ r.cellCount ≤ n ∨
          (∃ e, r.nextPiece = some e ∧ e < n) ∨
          bytes.length ≠ (if n + 1 < r.cellCount then 64 else r.imageLength - 64 * (r.cellCount - 1)))) →
      exec (.loadPiece h k n count bytes) s = .next (answers false (arrived h s)))) ∧
  ∀ (h : Hdr) (sp : Span) (s : State), Arrives h s → FromAuthority h s → sp.first ≤ 4095 → sp.last ≤ 4095 →
    exec (.discard h sp) s = .next (answers true { arrived h s with
      store := { s.store with
        index := s.store.index.filter (fun r => !sp.covers r.key)
        writes := s.store.writes.map (fun w =>
          if sp.covers w.key = true ∧ ∃ r ∈ s.store.index, r.key = w.key then { w with live := false } else w) } })

/-- The oldest LOAD write: dropped when its record is gone; otherwise its bytes reach the cell, and the spare's cell too when a copy of
the bank has passed it; no other cell changes. With the last pending write of a fully received record, the record becomes VALID. The
model's reading: log 12 and log 27. -/
def Obligations.LoadWriteReachesItsCell : Prop :=
  ∀ (s : State) (w : LoadWrite) (rest : List LoadWrite), s.store.writes = w :: rest → s.store.serve = none →
    (w.live = false → exec .loadWrite s = .next { s with out := [], store := { s.store with writes := rest } }) ∧
    (w.live = true → ∃ m out, exec .loadWrite s = .next { s with
        out := out
        store := { s.store with
          writes := rest, memory := m
          index := if ∃ x ∈ rest, x.key = w.key ∧ x.live = true then s.store.index
            else s.store.index.map (fun r => if r.key = w.key ∧ r.state = .loading ∧ r.nextPiece = some r.cellCount then
              { r with state := .valid, nextPiece := none } else r) } } ∧
      m.read (s.store.address w.bank w.cell) = some (.data w.bytes) ∧
      ((s.patrol.copySource = some w.bank ∧ w.cell < s.patrol.copyProgress.getD 0) →
        m.read (cellAddress Config.spareBank w.cell) = some (.data w.bytes) ∧
        ∀ a, a ≠ s.store.address w.bank w.cell → a ≠ cellAddress Config.spareBank w.cell → m.read a = s.store.memory.read a) ∧
      (¬(s.patrol.copySource = some w.bank ∧ w.cell < s.patrol.copyProgress.getD 0) →
        ∀ a, a ≠ s.store.address w.bank w.cell → m.read a = s.store.memory.read a))

/-- A local read whose key is held VALID: each CORRECTED cell is written back and reported against the bank, whose count may reach the
threshold. With every cell CLEAN or CORRECTED the image enters the cache, or, where the cache holds a VALID entry of the key, that entry is
used and none is made; the fetch of the key, if there is one, is cancelled, the reading placement refers to the entry and the pass goes on;
a line that is gone takes nothing. With an UNCORRECTABLE cell the record becomes POISONED with its notice, and with no such record no cell
is read: the placement goes to its third step. A slot whose own read the earlier one held back then requests it. That step finds the fetch
present, no target, room in the list or a full list; where it would create a fetch of a key that has a VALID entry, it takes that entry. The
first step takes a VALID entry of the cache, and the second requests a read, or waits for the slot's earlier one. A cancelled fetch leaves
the list, an exchange of it in progress is detached, the AWAITING placements take the image, and the slots answer the room event. The slots
then do what is due at once. The model's reading: log 7, log 12, log 13, log 21, log 30, log 32 (DESIGN CHOICE), by which a placement whose
read is requested keeps waiting for room, and log 37 (DESIGN CHOICE), by which the cancellation, its room event included, comes before the
reading placement refers to the entry. -/
def Obligations.LocalReadServesItsPlacement : Prop :=
  (∀ (conds : List CellCond) (s : State) (q : ReadRequest) (rest : List ReadRequest), s.store.reads = q :: rest →
    s.store.serve = none → s.store.writes = [] →
    (∀ r, findRecord q.key s.store.index = some r → r.state = .valid → s.patrol.bankState r.bank ≠ .withdrawn →
      (∀ c ∈ s.store.recordConds r conds, c = .clean) → s.cache.validNumber q.key = none →
      (∀ f ∈ s.fetches, f.key ≠ q.key) →
      (q.live = false → SlotsRest s → (s.slots.get q.slot).pass = none →
        exec (.localRead conds) s = .next { s with
          out := [], store := { s.store with reads := rest }
          cache := (s.cache.insert (s.store.imageOf r) .localStore).2 }) ∧
      (∀ p, q.live = true → (s.slots.get q.slot).pass = some p → p.wait = .reading →
        exec (.localRead conds) s = .next (State.settle { s with
          out := [], store := { s.store with reads := rest }
          cache := (s.cache.insert (s.store.imageOf r) .localStore).2.pin (s.cache.insert (s.store.imageOf r) .localStore).1
          slots := s.slots.put q.slot { s.slots.get q.slot with
            list := withY (some 0) ((s.slots.get q.slot).list.modify p.pos
              (resolveWith (s.cache.insert (s.store.imageOf r) .localStore).1 (s.store.imageOf r)))
            pass := some { p with pos := p.pos + 1, wait := .running } } }))) ∧
    (∀ p, (findRecord q.key s.store.index = none ∨ ∃ r, findRecord q.key s.store.index = some r ∧
        (r.state ≠ .valid ∨ s.patrol.bankState r.bank = .withdrawn)) →
      q.live = true → (s.slots.get q.slot).pass = some p → p.wait = .reading →
      s.dir.chooseTarget s.straps.station [] q.key = none → (∀ f ∈ s.fetches, f.key ≠ q.key) →
      exec (.localRead conds) s = .next (State.settle { s with
        out := [], store := { s.store with reads := rest }
        slots := s.slots.put q.slot { s.slots.get q.slot with
          list := withY (some 0) ((s.slots.get q.slot).list.modify p.pos substitute)
          flags := (s.slots.get q.slot).flags.or { substituted := true }
          pass := some { p with pos := p.pos + 1, wait := .running } } })) ∧
    (∀ r p, findRecord q.key s.store.index = some r → r.state = .valid → s.patrol.bankState r.bank ≠ .withdrawn →
      q.live = true → (s.slots.get q.slot).state = .resolving → (s.slots.get q.slot).pass = some p → p.wait = .reading →
      (.uncorrectable ∉ s.store.recordConds r conds → s.cache.validNumber q.key = none →
        (∀ b, s.patrol.banks[r.bank]? = some b → b.state = .good →
          b.count + (s.store.recordConds r conds).count .corrected < s.patrol.threshold) →
        exec (.localRead conds) s = .next (State.settle (State.passOn q.slot (State.resolveAt q.slot p.pos
          (s.cache.insert (s.store.imageOf r) .localStore).1
          (State.cancelFetch (s.store.imageOf r) (s.cache.insert (s.store.imageOf r) .localStore).1 { s with
            out := driven (s.recordWrites r conds)
            store := { s.store with reads := rest, memory := written (s.recordWrites r conds) s.store.memory }
            patrol := { s.patrol with
              banks := s.patrol.banks.modify r.bank (fun b =>
                if b.state = .good then { b with count := b.count + (s.store.recordConds r conds).count .corrected } else b) }
            cache := (s.cache.insert (s.store.imageOf r) .localStore).2 }))))) ∧
      (.uncorrectable ∈ s.store.recordConds r conds → .corrected ∉ s.store.recordConds r conds → s.link.state ≠ .mute →
        exec (.localRead conds) s = .next (State.settle (State.passOn q.slot (State.thirdStep q.slot p.pos q.key
          (noticed 0 (.poisoned q.key r.bank) { s with
            out := []
            store := { s.store with
              reads := rest
              index := s.store.index.map (fun x => if x.key = q.key then { x with state := .poisoned } else x) } })))))) ∧
    (∀ r image u, findRecord q.key s.store.index = some r → r.state = .valid → s.patrol.bankState r.bank ≠ .withdrawn →
      image = s.store.imageOf r → u = cellsRead r conds { s with out := [], store := { s.store with reads := rest } } →
      (∀ p, q.live = true → (s.slots.get q.slot).state = .resolving → (s.slots.get q.slot).pass = some p → p.wait = .reading →
        (.uncorrectable ∉ s.store.recordConds r conds →
          (∀ n, s.cache.validNumber q.key = some n →
            exec (.localRead conds) s = .next (State.settle (State.passOn q.slot (State.resolveAt q.slot p.pos n
              (State.cancelFetch image n u))))) ∧
          (∀ n c, s.cache.validNumber q.key = none → s.cache.insert image .localStore = (n, c) →
            exec (.localRead conds) s = .next (State.settle (State.passOn q.slot (State.resolveAt q.slot p.pos n
              (State.cancelFetch image n { u with cache := c })))))) ∧
        (.uncorrectable ∈ s.store.recordConds r conds →
          exec (.localRead conds) s = .next (State.settle (State.passOn q.slot (State.thirdStep q.slot p.pos q.key
            (poisoned q.key r.bank u)))))) ∧
      (q.live = false →
        (.uncorrectable ∉ s.store.recordConds r conds →
          (∀ n, s.cache.validNumber q.key = some n →
            exec (.localRead conds) s = .next (State.settle (State.requestHeld q.slot (State.cancelFetch image n u)))) ∧
          (∀ n c, s.cache.validNumber q.key = none → s.cache.insert image .localStore = (n, c) →
            exec (.localRead conds) s = .next (State.settle (State.requestHeld q.slot
              (State.cancelFetch image n { u with cache := c }))))) ∧
        (.uncorrectable ∈ s.store.recordConds r conds →
          exec (.localRead conds) s = .next (State.settle (State.requestHeld q.slot (poisoned q.key r.bank u)))))) ∧
    ((findRecord q.key s.store.index = none ∨ ∃ r, findRecord q.key s.store.index = some r ∧
        (r.state ≠ .valid ∨ s.patrol.bankState r.bank = .withdrawn)) →
      (q.live = false → exec (.localRead conds) s = .next (State.settle (State.requestHeld q.slot
        { s with out := [], store := { s.store with reads := rest } }))) ∧
      (∀ p, q.live = true → (s.slots.get q.slot).pass = some p → p.wait = .reading →
        exec (.localRead conds) s = .next (State.settle (State.passOn q.slot (State.thirdStep q.slot p.pos q.key
          { s with out := [], store := { s.store with reads := rest } })))) ∧
      (∀ p pl k, q.live = false → (s.slots.get q.slot).pass = some p → p.wait = .readHeld →
        (s.slots.get q.slot).list[p.pos]? = some pl → pl.key = some k →
        exec (.localRead conds) s = .next (State.settle { s with
          out := [], store := { s.store with reads := rest ++ [{ slot := q.slot, key := k, live := true }] }
          slots := s.slots.put q.slot { s.slots.get q.slot with pass := some { p with wait := .reading } } })))) ∧
  (∀ (i : SlotId) (pos : Nat) (k : Key) (s : State) (t : Slot), t = s.slots.get i →
    ((∃ f ∈ s.fetches, f.key = k) → s.thirdStep i pos k = { s with
      slots := s.slots.put i { t with
        list := withY (some 0) (t.list.modify pos (fun p => { p with state := .awaiting, waitsRoom := false })) } }) ∧
    ((∀ f ∈ s.fetches, f.key ≠ k) →
      (s.dir.chooseTarget s.straps.station [] k = none → s.thirdStep i pos k = { s with
        slots := s.slots.put i { t with
          list := withY (some 0) (t.list.modify pos substitute), flags := t.flags.or { substituted := true } } }) ∧
      (∀ u, s.dir.chooseTarget s.straps.station [] k = some u →
        (8 ≤ s.fetches.length → s.thirdStep i pos k = { s with
          slots := s.slots.put i { t with
            list := withY (some 0) (t.list.modify pos (fun p => { p with waitsRoom := true })) } }) ∧
        (s.fetches.length < 8 → s.cache.validNumber k = none → s.thirdStep i pos k = { s with
          fetches := s.fetches ++
            [{ key := k, state := .waitingLink, target := u.1, role := u.2, tried := [u.1], failed := 0, defers := 0 }]
          slots := s.slots.put i { t with
            list := withY (some 0) (t.list.modify pos (fun p => { p with state := .awaiting, waitsRoom := false })) } }) ∧
        (∀ n, s.fetches.length < 8 → s.cache.validNumber k = some n → s.thirdStep i pos k = s.resolveAt i pos n))) ∧
    (∀ n e, s.cache.entry n = some e → s.resolveAt i pos n = { s with
      cache := s.cache.pin n
      slots := s.slots.put i { t with list := withY (some 0) (t.list.modify pos (resolveWith n e.record)) } }) ∧
    (∀ n, s.cache.validNumber k = some n → s.visit i pos k = s.resolveAt i pos n) ∧
    (s.cache.validNumber k = none →
      ((∃ r, findRecord k s.store.index = some r ∧ r.state = .valid ∧ s.patrol.bankState r.bank ≠ .withdrawn) →
        ((∀ r ∈ s.store.reads, r.slot ≠ i) → s.visit i pos k = { s with
          store := { s.store with reads := s.store.reads ++ [{ slot := i, key := k, live := true }] }
          slots := s.slots.put i { t with pass := t.pass.map (fun p => { p with wait := .reading }) } }) ∧
        ((∃ r ∈ s.store.reads, r.slot = i) → s.visit i pos k = { s with
          slots := s.slots.put i { t with pass := t.pass.map (fun p => { p with wait := .readHeld }) } })) ∧
      ((∀ r, findRecord k s.store.index = some r → r.state ≠ .valid ∨ s.patrol.bankState r.bank = .withdrawn) →
        s.visit i pos k = s.thirdStep i pos k)) ∧
    ((∀ p, t.pass = some p → p.wait ≠ .readHeld) → s.requestHeld i = s) ∧
    ∀ p pl, t.pass = some p → p.wait = .readHeld → t.list[p.pos]? = some pl → pl.key = some k → s.requestHeld i = { s with
      store := { s.store with reads := s.store.reads ++ [{ slot := i, key := k, live := true }] }
      slots := s.slots.put i { t with pass := some { p with wait := .reading } } }) ∧
  ∀ (i : ImageRecord) (n : Nat) (s : State),
    ((∀ f ∈ s.fetches, f.key ≠ i.key) → s.cancelFetch i n = s) ∧
    ∀ f, s.fetches.find? (fun e => e.key == i.key) = some f →
      s.cancelFetch i n = State.roomEvent (State.resolveAllAwaiting i.key n i false { s with
        fetches := s.fetches.filter (fun e => e.key != i.key)
        link := if f.state = .exchanging then
          { s.link with exchange := s.link.exchange.map (fun x => { x with detached := true }) } else s.link })

/-- A copy step that is not the last: a FREE cell gives zeros, a CLEAN one its bytes, a CORRECTED one its bytes to the spare and back to
the source, uncounted in a bank that is not GOOD, an UNCORRECTABLE one the uncorrectable mark, and a VALID record of that cell is
POISONED with its notice; one cell more has been copied. The copy step for cell 1023, whatever it finds, completes the copy: the bank map
names the spare bank, the bank is SPARED with its count, the spare is IN-USE, a NOTICE SPARED goes to all stations, and the spare decision
is made for the banks that wait AT-THRESHOLD. The model's reading: log 7 and log 12. -/
def Obligations.CopyStepsCopyTheBank : Prop :=
  (∀ (cond : CellCond) (s : State) (b c : Nat), s.patrol.copySource = some b → s.patrol.copyProgress = some c →
     s.patrol.copyStepWaits = true → s.store.serve = none → s.store.writes = [] → s.store.reads = [] → c < 1023 →
     ((∀ r ∈ s.store.index, r.holdsCell b c = false) →
       exec (.copyStep cond) s = .next { s with
         out := [.cell (cellAddress Config.spareBank c) zeroCell]
         store := { s.store with memory := s.store.memory.write (cellAddress Config.spareBank c) zeroCell }
         patrol := { s.patrol with copyProgress := some (c + 1), copyStepWaits := false, copyIntervalRuns := true } }) ∧
     (∀ r, cellHolder s.store.index b c = some r → readCond s.store.memory (s.store.address b c) cond = .clean →
       exec (.copyStep cond) s = .next { s with
         out := [.cell (cellAddress Config.spareBank c)
           (.data (cellBytes s.store.memory s.store.epoch (s.store.address b c)))]
         store := { s.store with
           memory := s.store.memory.write (cellAddress Config.spareBank c)
             (.data (cellBytes s.store.memory s.store.epoch (s.store.address b c))) }
         patrol := { s.patrol with copyProgress := some (c + 1), copyStepWaits := false, copyIntervalRuns := true } }) ∧
     (∀ r, cellHolder s.store.index b c = some r → s.patrol.bankState b ≠ .good →
       readCond s.store.memory (s.store.address b c) cond = .corrected →
       exec (.copyStep cond) s = .next { s with
         out := [.cell (s.store.address b c) (.data (cellBytes s.store.memory s.store.epoch (s.store.address b c))),
           .cell (cellAddress Config.spareBank c) (.data (cellBytes s.store.memory s.store.epoch (s.store.address b c)))]
         store := { s.store with
           memory := (s.store.memory.write (s.store.address b c)
             (.data (cellBytes s.store.memory s.store.epoch (s.store.address b c)))).write (cellAddress Config.spareBank c)
             (.data (cellBytes s.store.memory s.store.epoch (s.store.address b c))) }
         patrol := { s.patrol with copyProgress := some (c + 1), copyStepWaits := false, copyIntervalRuns := true } }) ∧
     (∀ r, cellHolder s.store.index b c = some r → findRecord r.key s.store.index = some r →
       readCond s.store.memory (s.store.address b c) cond = .uncorrectable →
       ∃ t, exec (.copyStep cond) s = .next t ∧ t.store.memory = s.store.memory.write (cellAddress Config.spareBank c) .marked ∧
         t.patrol = { s.patrol with copyProgress := some (c + 1), copyStepWaits := false, copyIntervalRuns := true } ∧
         t.store.index = s.store.index.map (fun x =>
           if r.state = .valid ∧ x.key = r.key then { x with state := .poisoned } else x) ∧
         t.cache = s.cache ∧ t.dir = s.dir ∧ t.slots = s.slots)) ∧
  (∀ (cond : CellCond) (s : State) (b : Nat), s.patrol.copySource = some b → s.patrol.copyProgress = some 1023 →
     s.patrol.copyStepWaits = true → s.store.serve = none → s.store.writes = [] → s.store.reads = [] → s.link.state ≠ .mute →
     (∀ r ∈ s.store.index, r.holdsCell b 1023 = false) → (∀ x, s.patrol.bankState x ≠ .atThreshold) →
     exec (.copyStep cond) s = .next (noticed 0 (.spared b) { s with
       out := [.cell (cellAddress Config.spareBank 1023) zeroCell]
       store := { s.store with
         memory := s.store.memory.write (cellAddress Config.spareBank 1023) zeroCell
         map := s.store.map.set b Config.spareBank }
       patrol := { s.patrol with
         banks := s.patrol.banks.modify b (fun k => { k with state := .spared })
         spare := .inUse, copySource := none, copyProgress := none, copyStepWaits := false, copyIntervalRuns := false } })) ∧
  ∀ (cond : CellCond) (s u : State) (b c a z : Nat) (bytes : List Byte), s.patrol.copySource = some b →
    s.patrol.copyProgress = some c → s.patrol.copyStepWaits = true → s.store.serve = none → s.store.writes = [] → s.store.reads = [] →
    a = s.store.address b c → z = cellAddress Config.spareBank c → bytes = cellBytes s.store.memory s.store.epoch a →
    (((∀ r ∈ s.store.index, r.holdsCell b c = false) ∧
        u = { s with out := [.cell z zeroCell], store := { s.store with memory := s.store.memory.write z zeroCell } }) ∨
      ∃ r, cellHolder s.store.index b c = some r ∧
        ((readCond s.store.memory a cond = .clean ∧
            u = { s with out := [.cell z (.data bytes)], store := { s.store with memory := s.store.memory.write z (.data bytes) } }) ∨
          (readCond s.store.memory a cond = .corrected ∧ s.patrol.bankState b ≠ .good ∧
            u = { s with
              out := [.cell a (.data bytes), .cell z (.data bytes)]
              store := { s.store with memory := (s.store.memory.write a (.data bytes)).write z (.data bytes) } }) ∨
          (readCond s.store.memory a cond = .uncorrectable ∧ findRecord r.key s.store.index = some r ∧ r.state ≠ .valid ∧
            u = { s with out := [.cell z .marked], store := { s.store with memory := s.store.memory.write z .marked } }) ∨
          (readCond s.store.memory a cond = .uncorrectable ∧ findRecord r.key s.store.index = some r ∧ r.state = .valid ∧
            s.link.state ≠ .mute ∧
            u = noticed 0 (.poisoned r.key r.bank) { s with
              out := [.cell z .marked]
              store := { s.store with
                memory := s.store.memory.write z .marked
                index := s.store.index.map (fun x => if x.key = r.key then { x with state := .poisoned } else x) } }))) →
    (c < 1023 → exec (.copyStep cond) s = .next { u with
      patrol := { u.patrol with copyProgress := some (c + 1), copyStepWaits := false, copyIntervalRuns := true } }) ∧
    (c = 1023 → s.link.state ≠ .mute → exec (.copyStep cond) s = .next (State.spareDecision (noticed 0 (.spared b) { u with
      store := { u.store with map := u.store.map.set b Config.spareBank }
      patrol := { u.patrol with
        banks := u.patrol.banks.modify b (fun k => { k with state := .spared })
        spare := .inUse, copySource := none, copyProgress := none, copyStepWaits := false, copyIntervalRuns := false } })))

/-- A patrol step: a CLEAN cell is left as it is; a CORRECTED one is written back, and counted in a GOOD bank when a VALID or POISONED
record holds it; an UNCORRECTABLE FREE cell is written with zeros; an UNCORRECTABLE cell of a VALID record poisons it, and one of another
record is left; the position moves on, and from the last cell of the last bank it wraps to bank 0 and a pass is complete. At every cell
the step is what the cell gives, then the move: to the next cell, or, from cell 1023 and from a bank that has become WITHDRAWN, to cell 0
of the next bank that is not WITHDRAWN, with a pass complete where it goes past the last bank. The model's reading: log 7 and log 12. -/
def Obligations.PatrolStepWalksTheCells : Prop :=
  (∀ (cond : CellCond) (s : State), s.patrol.stepWaits = true → s.patrol.copyStepWaits = false → s.store.serve = none →
    s.store.writes = [] → s.store.reads = [] → s.patrol.bankState s.patrol.posBank ≠ .withdrawn →
    (readCond s.store.memory (s.store.address s.patrol.posBank s.patrol.posCell) cond = .clean →
      (s.patrol.posCell < 1023 →
        exec (.patrolStep cond) s = .next { s with
          out := [], patrol := { s.patrol with posCell := s.patrol.posCell + 1, stepWaits := false, intervalRuns := true } }) ∧
      (s.patrol.posCell = 1023 → s.patrol.posBank + 1 < s.patrol.banks.length →
        s.patrol.bankState (s.patrol.posBank + 1) ≠ .withdrawn →
        exec (.patrolStep cond) s = .next { s with
          out := []
          patrol := { s.patrol with
            posBank := s.patrol.posBank + 1, posCell := 0, stepWaits := false, intervalRuns := true } }) ∧
      (s.patrol.posCell = 1023 → s.patrol.posBank + 1 = s.patrol.banks.length → s.patrol.bankState 0 ≠ .withdrawn →
        s.patrol.passes + 1 < s.patrol.drip →
        exec (.patrolStep cond) s = .next { s with
          out := []
          patrol := { s.patrol with
            posBank := 0, posCell := 0, passes := s.patrol.passes + 1, stepWaits := false, intervalRuns := true } })) ∧
    (readCond s.store.memory (s.store.address s.patrol.posBank s.patrol.posCell) cond = .corrected → s.patrol.posCell < 1023 →
      ∀ (m : Memory) (o : List Output),
        m = s.store.memory.write (s.store.address s.patrol.posBank s.patrol.posCell)
          (.data (cellBytes s.store.memory s.store.epoch (s.store.address s.patrol.posBank s.patrol.posCell))) →
        o = [.cell (s.store.address s.patrol.posBank s.patrol.posCell)
          (.data (cellBytes s.store.memory s.store.epoch (s.store.address s.patrol.posBank s.patrol.posCell)))] →
        (((∀ r ∈ s.store.index, r.holdsCell s.patrol.posBank s.patrol.posCell = false) ∨
            (∃ r, cellHolder s.store.index s.patrol.posBank s.patrol.posCell = some r ∧ r.state = .loading) ∨
            s.patrol.bankState s.patrol.posBank ≠ .good) →
          exec (.patrolStep cond) s = .next { s with
            out := o, store := { s.store with memory := m }
            patrol := { s.patrol with posCell := s.patrol.posCell + 1, stepWaits := false, intervalRuns := true } }) ∧
        (∀ r k, cellHolder s.store.index s.patrol.posBank s.patrol.posCell = some r → r.state ≠ .loading →
          s.patrol.banks[s.patrol.posBank]? = some k → k.state = .good → k.count + 1 < s.patrol.threshold →
          exec (.patrolStep cond) s = .next { s with
            out := o, store := { s.store with memory := m }
            patrol := { s.patrol with
              posCell := s.patrol.posCell + 1, stepWaits := false, intervalRuns := true
              banks := s.patrol.banks.set s.patrol.posBank { k with count := k.count + 1 } } })) ∧
    (readCond s.store.memory (s.store.address s.patrol.posBank s.patrol.posCell) cond = .uncorrectable → s.patrol.posCell < 1023 →
      ((∀ r ∈ s.store.index, r.holdsCell s.patrol.posBank s.patrol.posCell = false) →
        exec (.patrolStep cond) s = .next { s with
          out := [.cell (s.store.address s.patrol.posBank s.patrol.posCell) zeroCell]
          store := { s.store with
            memory := s.store.memory.write (s.store.address s.patrol.posBank s.patrol.posCell) zeroCell }
          patrol := { s.patrol with posCell := s.patrol.posCell + 1, stepWaits := false, intervalRuns := true } }) ∧
      (∀ r, cellHolder s.store.index s.patrol.posBank s.patrol.posCell = some r → findRecord r.key s.store.index = some r →
        r.state ≠ .valid →
        exec (.patrolStep cond) s = .next { s with
          out := [], patrol := { s.patrol with posCell := s.patrol.posCell + 1, stepWaits := false, intervalRuns := true } }) ∧
      (∀ r, cellHolder s.store.index s.patrol.posBank s.patrol.posCell = some r → findRecord r.key s.store.index = some r →
        r.state = .valid → s.link.state ≠ .mute →
        exec (.patrolStep cond) s = .next (noticed 0 (.poisoned r.key r.bank) { s with
          out := []
          store := { s.store with
            index := s.store.index.map (fun x => if x.key = r.key then { x with state := .poisoned } else x) }
          patrol := { s.patrol with posCell := s.patrol.posCell + 1, stepWaits := false, intervalRuns := true } })))) ∧
  (∀ (cond : CellCond) (s u : State) (b c a : Nat) (bytes : List Byte), s.patrol.stepWaits = true → s.patrol.copyStepWaits = false →
    s.store.serve = none → s.store.writes = [] → s.store.reads = [] → b = s.patrol.posBank → c = s.patrol.posCell →
    s.patrol.bankState b ≠ .withdrawn → a = s.store.address b c → bytes = cellBytes s.store.memory s.store.epoch a →
    ((readCond s.store.memory a cond = .clean ∧ u = { s with out := [] }) ∨
      (readCond s.store.memory a cond = .corrected ∧
        ((∀ r ∈ s.store.index, r.holdsCell b c = false) ∨ ∃ r, cellHolder s.store.index b c = some r ∧ r.state = .loading) ∧
        u = { s with
          out := [.cell a (.data bytes)], store := { s.store with memory := s.store.memory.write a (.data bytes) } }) ∨
      (readCond s.store.memory a cond = .corrected ∧ (∃ r, cellHolder s.store.index b c = some r ∧ r.state ≠ .loading) ∧
        u = State.reportError b true { s with
          out := [.cell a (.data bytes)], store := { s.store with memory := s.store.memory.write a (.data bytes) } }) ∨
      (readCond s.store.memory a cond = .uncorrectable ∧ (∀ r ∈ s.store.index, r.holdsCell b c = false) ∧
        u = { s with out := [.cell a zeroCell], store := { s.store with memory := s.store.memory.write a zeroCell } }) ∨
      ∃ r, readCond s.store.memory a cond = .uncorrectable ∧ cellHolder s.store.index b c = some r ∧
        findRecord r.key s.store.index = some r ∧
        ((r.state ≠ .valid ∧ u = { s with out := [] }) ∨
          (r.state = .valid ∧ s.link.state ≠ .mute ∧
            u = noticed 0 (.poisoned r.key r.bank) { s with
              out := []
              store := { s.store with
                index := s.store.index.map (fun x => if x.key = r.key then { x with state := .poisoned } else x) } }))) →
    exec (.patrolStep cond) s = .next { u with patrol := u.patrol.afterStep }) ∧
  ∀ p : Patrol, p.posBank < p.banks.length →
    (p.posCell < 1023 → p.bankState p.posBank ≠ .withdrawn →
      p.afterStep = { p with posCell := p.posCell + 1, stepWaits := false, intervalRuns := true }) ∧
    (p.posCell = 1023 ∨ (p.posCell < 1023 ∧ p.bankState p.posBank = .withdrawn) →
      (∀ b, p.posBank < b → b < p.banks.length → p.bankState b ≠ .withdrawn →
        (∀ c, p.posBank < c → c < b → p.bankState c = .withdrawn) →
        p.afterStep = { p with posBank := b, posCell := 0, stepWaits := false, intervalRuns := true }) ∧
      ∀ b, b ≤ p.posBank → p.bankState b ≠ .withdrawn → (∀ c, c < b → p.bankState c = .withdrawn) →
        (∀ c, p.posBank < c → c < p.banks.length → p.bankState c = .withdrawn) →
        p.afterStep = { p.completePass with posBank := b, posCell := 0, stepWaits := false, intervalRuns := true })

/-! ## Lines -/

/-- A LINE in form joins the Line Queue as its newest entry, whole, when the head is present, the page OPEN, its source the owner, the
queue has room and it is addressed to this station alone; otherwise, and when it is malformed, it is answered with OBJECT. -/
def Obligations.LineIsAcceptedByTheOwnersPage : Prop :=
  ∀ (h : Hdr) (l : LineFrame) (s : State), Arrives h s →
    ((LineInForm l ∧ s.straps.head = true ∧ s.seq.page = .opened ∧ s.seq.owner = some h.src ∧ s.lines.length < 6 ∧ h.dst ≠ 0) →
      ∃ e : QueueEntry, exec (.line h l) s = .next (answers true { arrived h s with lines := s.lines ++ [e] }) ∧ e.mark = none ∧
        e.header.number = l.number ∧ e.header.requester = h.src ∧ e.header.measure = l.measure ∧ e.header.leading = l.leading ∧
        e.header.squeeze = l.squeeze ∧ modeOf l.mode = some e.header.mode ∧ dirOf l.baseDir = some e.header.baseDir ∧
        e.runs.map (fun r => (r.table, some r.dir, r.face, r.size, r.codes)) =
          l.runs.map (fun r => (r.table, dirOf r.dir, r.face, r.size, r.codes))) ∧
    (¬(LineInForm l ∧ s.straps.head = true ∧ s.seq.page = .opened ∧ s.seq.owner = some h.src ∧ s.lines.length < 6 ∧ h.dst ≠ 0) →
      exec (.line h l) s = .next (answers false (arrived h s)))

/-- The head of the queue is shaped into the EMPTY slot, slot 0 first, and begins its resolution pass; the slots then do what is due at
once. While the directory is enrolling or a table the line names is LOADING, nothing is taken. Shaping, step by step: the kind of a code;
the form of a letter by its nearest neighbours that are no marks; pairs that form the lowest-numbered ligature; marks on the base before
them, three at most, and on a SUBSTITUTE at a run's start; the placements of a cluster, numbered over the line; and the visual order by
groups of runs of one direction. The model's reading: log 21 and log 23. -/
def Obligations.LineTakeShapesTheHeadOfTheQueue : Prop :=
  (∀ (s : State) (e : QueueEntry), s.lines.find? (fun x => x.mark.isNone) = some e →
    (∀ i : SlotId, s.dir.state = .operational → (∀ r ∈ e.runs, (s.tables.getD r.table .blank).state ≠ .loading) →
      (i = .zero ∧ s.slots.slot0.state = .empty ∨ i = .one ∧ s.slots.slot0.state ≠ .empty ∧ s.slots.slot1.state = .empty) →
      exec .lineTake s = .next (State.settle { s with
        out := []
        lines := s.lines.eraseP (fun x => x.mark.isNone)
        slots := { s.slots.put i
          { state := .resolving, header := some e.header
            list := (shapeLine s.tables (!s.dir.complete) e.header.baseDir e.runs).1
            flags := (shapeLine s.tables (!s.dir.complete) e.header.baseDir e.runs).2
            pass := some { pos := 0, again := false, wait := .running }, held := 0, measured := none, report := none } with
          age := some (if (s.slots.get i.other).state = .empty then i else i.other) } })) ∧
    ((s.dir.state ≠ .operational ∨ ∃ r ∈ e.runs, (s.tables.getD r.table .blank).state = .loading) →
      exec .lineTake s = .next (unchanged s))) ∧
  (∀ (t : ScriptTable) (code : Nat),
    (t.state = .complete → code = t.spaceCode → lookupCode t code = .space) ∧
    (∀ e, t.state = .complete → code ≠ t.spaceCode → t.codeBase ≤ code → code < t.codeBase + t.codeCount →
      t.entries[code - t.codeBase]? = some e → lookupCode t code = .covered e) ∧
    (t.state ≠ .complete ∨ (code ≠ t.spaceCode ∧ (code < t.codeBase ∨ t.codeBase + t.codeCount ≤ code)) →
      lookupCode t code = .uncovered)) ∧
  (∀ (ks : List CodeKind) (j : Nat) (k : CodeKind) (before after : Bool), ks[j]? = some k →
    before = (((ks.take j).reverse.find? fun x => x.cls != .mark).any fun x => x.cls == .dual) →
    after = (((ks.drop (j + 1)).find? fun x => x.cls != .mark).any fun x => x.cls == .dual || x.cls == .right) →
    (chooseForms false ks)[j]? = some (match k with
      | .space => .space
      | .uncovered => .uncovered
      | .covered e =>
        match e.cls, before, after with
        | .mark, _, _ => .mark e.isolated
        | .none, _, _ | .right, false, _ | .dual, false, false => .glyph e.isolated
        | .right, true, _ | .dual, true, false => .glyph e.final
        | .dual, false, true => .glyph e.initial
        | .dual, true, true => .glyph e.medial)) ∧
  (∀ (t : ScriptTable) (a b : Nat) (x y : Shaped) (rest : List Shaped),
    (∀ (n : Nat) (l : LigEntry), t.ligatures[n]? = some l → l.first = a → l.second = b →
      (∀ (m : Nat) (l' : LigEntry), m < n → t.ligatures[m]? = some l' → l'.first ≠ a ∨ l'.second ≠ b) →
      formLigatures t (.glyph a :: .glyph b :: rest) = .ligature l.ligature :: formLigatures t rest) ∧
    ((∀ l ∈ t.ligatures, l.first ≠ a ∨ l.second ≠ b) →
      formLigatures t (.glyph a :: .glyph b :: rest) = .glyph a :: formLigatures t (.glyph b :: rest)) ∧
    ((∀ g, x ≠ .glyph g) ∨ (∀ g, y ≠ .glyph g) →
      formLigatures t (x :: y :: rest) = x.formed :: formLigatures t (y :: rest)) ∧
    formLigatures t [x] = [x.formed] ∧ formLigatures t [] = []) ∧
  (∀ (f : Formed) (ms : List Nat) (rest : List Formed), (∀ i, f ≠ .mark i) → (∀ i r, rest ≠ .mark i :: r) →
    attachMarks none (f :: (ms.map Formed.mark ++ rest)) =
      { clusters := { (match f with
            | .glyph i => { role := .base, index := some i, marks := [] }
            | .ligature i => { role := .ligature, index := some i, marks := [] }
            | .space => { role := .space, index := none, marks := [] }
            | .uncovered | .mark _ => { role := .substitute, index := none, marks := [] } : ProtoCluster) with
          marks := ms.take 3 } :: (attachMarks none rest).clusters
        uncovered := f == .uncovered || (attachMarks none rest).uncovered
        overflow := decide (3 < ms.length) || (attachMarks none rest).overflow } ∧
    ∀ i, attachMarks none (.mark i :: (ms.map Formed.mark ++ rest)) =
      { clusters := { role := .substitute, index := none, marks := ms.take 3 } :: (attachMarks none rest).clusters
        uncovered := true, overflow := decide (3 < ms.length) || (attachMarks none rest).overflow }) ∧
  (∀ (tables : List ScriptTable) (t : ScriptTable) (n face size : Nat) (r : Run) (rs : List Run) (c : ProtoCluster),
    t = tables.getD r.table .blank →
    (shapeRuns tables n (r :: rs)).runs =
      { dir := r.dir
        clusters := (shapeRun t r.codes).clusters.mapIdx fun j x => clusterPlacements t r.face r.size (n + j) x } ::
      (shapeRuns tables (n + (shapeRun t r.codes).clusters.length) rs).runs ∧
    (shapeRuns tables n (r :: rs)).flags = LineFlags.or (shapeRuns tables (n + (shapeRun t r.codes).clusters.length) rs).flags
      { uncovered := (shapeRun t r.codes).uncovered, markOverflow := (shapeRun t r.codes).overflow
        substituted := (shapeRun t r.codes).clusters.any fun x => x.role == .substitute } ∧
    shapeRun t r.codes = attachMarks none (formLigatures t (chooseForms false (r.codes.map (lookupCode t)))) ∧
    clusterPlacements t face size n c =
      (match c.role with
        | .space => newPlacement n size .space none .resolved (some (advanceAt t.spaceWidth size))
        | .base => newPlacement n size .base (c.index.map fun i => { face := face, index := i }) .unresolved none
        | .ligature => newPlacement n size .ligature (c.index.map fun i => { face := face, index := i }) .unresolved none
        | .substitute | .mark => newPlacement n size .substitute none .substituted (some (5 * size))) ::
      c.marks.map fun i => newPlacement n size .mark (some { face := face, index := i }) .unresolved none) ∧
  (∀ (tables : List ScriptTable) (noDirectory : Bool) (base : Dir) (runs : List Run),
    shapeLine tables noDirectory base runs =
      (layoutLine base (shapeRuns tables 0 runs).runs, (shapeRuns tables 0 runs).flags.or { noDirectory := noDirectory })) ∧
  ∀ (base : Dir) (runs : List LaidRun),
    (groupRuns runs).flatten = runs ∧ (∀ g ∈ groupRuns runs, g ≠ [] ∧ ∀ a ∈ g, ∀ b ∈ g, a.dir = b.dir) ∧
    (∀ (j : Nat) (g g' : List LaidRun), (groupRuns runs)[j]? = some g → (groupRuns runs)[j + 1]? = some g' →
      ∀ a ∈ g, ∀ b ∈ g', a.dir ≠ b.dir) ∧
    ∀ gs : List (List LaidRun),
      gs = (groupRuns runs).map (fun g => if ∀ r ∈ g, r.dir = base then g else g.reverse) →
      layoutLine base runs = (((if base = .rtl then gs.reverse else gs).flatten.map fun r =>
        if r.dir = .rtl then r.clusters.reverse else r.clusters).flatten).flatten

/-- The advance at a size is rounded half up, and an offset half away from zero. A squeezed line takes its excess from the gaps, no gap by
more than its limit; a justified one spreads its extra width over the SPACE clusters, none by more than one unit more than another, and
with no SPACE cluster is UNJUSTIFIED, at the left or, with base direction RTL, at the right. A line that fits stands at the left, at the
right or in the middle by its mode. Each base stands after the one before it by its advance and addition less its gap's reduction, each
mark at its base by its origin, and nothing else of a placement changes. The squeeze goes in rounds from gap 0 rightward, each gap below
its limit taking one unit, until the excess is spent, and the leftmost SPACE clusters take the units that the division leaves. A pass
walks the list from position to position, through the resolution steps at each UNRESOLVED placement, and stays where a local read is
made. At its end a repeat mark runs it again from position 0; otherwise the line is measured when every placement is done, and the slot
is AWAITING when not. A measured line that fits is READY with its positions, and one that is overset gives up its list and offers its
report. When the older slot ends its passes, nothing holds the younger one back. The model's reading: log 14, log 25, and log 35 (DESIGN
CHOICE) for a repeat of a slot that is held back. -/
def Obligations.MeasureArithmetic : Prop :=
  ((∀ w size : Nat, 100 * advanceAt w size ≤ w * size + 50 ∧ w * size + 50 < 100 * (advanceAt w size + 1)) ∧
     (∀ (v : Int) (size : Nat), 0 ≤ v → 100 * offsetAt v size ≤ v * size + 50 ∧ v * size + 50 < 100 * (offsetAt v size + 1)) ∧
     ∀ (v : Int) (size : Nat), v < 0 → offsetAt v size = -offsetAt (-v) size) ∧
  ((∀ (h : LineHeader) (ps : List Placement), h.measure < naturalWidth ps →
     naturalWidth ps - h.measure ≤ capacity h.squeeze ps →
     ∃ m, measureLine h ps = .fits m true false ∧ m.natural = naturalWidth ps ∧ m.set = h.measure ∧ m.start = 0 ∧
       m.additions = [] ∧ m.gaps.sum = naturalWidth ps - h.measure ∧ m.gaps.length = (gapLimits h.squeeze ps).length ∧
       (∀ k, m.gaps.getD k 0 ≤ (gapLimits h.squeeze ps).getD k 0) ∧
       ∃ rounds j, ∀ k, m.gaps.getD k 0 = min ((gapLimits h.squeeze ps).getD k 0) (if k < j then rounds + 1 else rounds)) ∧
   (∀ (h : LineHeader) (ps : List Placement), h.measure < naturalWidth ps →
     capacity h.squeeze ps < naturalWidth ps - h.measure →
     measureLine h ps = .overset (naturalWidth ps) (naturalWidth ps - capacity h.squeeze ps)) ∧
   (∀ (h : LineHeader) (ps : List Placement), h.mode = .justify → naturalWidth ps ≤ h.measure → 1 ≤ spaceCount ps →
     ∃ m, measureLine h ps = .fits m false false ∧ m.natural = naturalWidth ps ∧ m.set = h.measure ∧ m.start = 0 ∧ m.gaps = [] ∧
       m.additions.sum = h.measure - naturalWidth ps ∧ m.additions.length = (bases ps).length ∧
       ∀ k p, (bases ps)[k]? = some p →
         (p.role ≠ .space → m.additions.getD k 0 = 0) ∧
         (p.role = .space → m.additions.getD k 0 = (h.measure - naturalWidth ps) / spaceCount ps +
           if (((bases ps).take k).filter fun q => q.role == .space).length < (h.measure - naturalWidth ps) % spaceCount ps
           then 1 else 0)) ∧
   (∀ (h : LineHeader) (ps : List Placement) (x : Nat), naturalWidth ps ≤ h.measure → x = h.measure - naturalWidth ps →
     (h.mode = .left → measureLine h ps =
       .fits { natural := naturalWidth ps, set := naturalWidth ps, start := 0, gaps := [], additions := [] } false false) ∧
     (h.mode = .right → measureLine h ps =
       .fits { natural := naturalWidth ps, set := naturalWidth ps, start := x, gaps := [], additions := [] } false false) ∧
     (h.mode = .centre → measureLine h ps =
       .fits { natural := naturalWidth ps, set := naturalWidth ps, start := x / 2, gaps := [], additions := [] } false false) ∧
     (h.mode = .justify → spaceCount ps = 0 → measureLine h ps =
       .fits { natural := naturalWidth ps, set := naturalWidth ps, start := if h.baseDir = .rtl then x else 0
               gaps := [], additions := [] } false true))) ∧
  (∀ (m : Measurement) (ps qs : List Placement), qs = positioned m ps →
    qs.map (fun q => { q with x := none }) = ps.map (fun p => { p with x := none }) ∧
    (∀ q, (bases qs)[0]? = some q → q.x = some (m.start : Int)) ∧
    (∀ (j : Nat) (p q : Placement) (x : Int), (bases qs)[j]? = some p → (bases qs)[j + 1]? = some q → p.x = some x →
      q.x = some (x + p.width + m.additions.getD j 0 - m.gaps.getD j 0)) ∧
    ∀ (j n : Nat) (b q : Placement) (x : Int), qs[j]? = some b → b.role ≠ .mark → b.x = some x →
      (∀ k, k < n → ∃ p, qs[j + 1 + k]? = some p ∧ p.role = .mark) → qs[j + 1 + n]? = some q → q.role = .mark →
      q.x = some (x + (q.origin.getD (0, 0)).1)) ∧
  (∀ (i : SlotId) (s : State) (t : Slot), t = s.slots.get i →
    (∀ h m sq un, t.header = some h → measureLine h t.list = .fits m sq un → s.measureSlot i = { s with
      slots := s.slots.put i { t with
        state := .ready, pass := none, list := positioned m t.list, measured := some m
        flags := t.flags.or { squeezed := sq, unjustified := un } } }) ∧
    (∀ h n w, t.header = some h → measureLine h t.list = .overset n w → s.measureSlot i = s.finishLine i .overset (n, w) none) ∧
    (∀ h o w g, t.header = some h → s.finishLine i o w g = State.passesOver i (State.offerSlot i { s with
      cache := s.cache.unpinAll (t.list.filterMap Placement.ref)
      store := { s.store with reads := s.store.reads.map (fun r => if r.slot = i then { r with live := false } else r) }
      slots := s.slots.put i { Slot.vacant with
        state := .reporting, header := some h, flags := t.flags
        report := some
          { number := h.number, outcome := o, natural := w.1, set := w.2, placements := t.list.length
            substituted := (t.list.filter fun p => p.state == .substituted).length, flags := t.flags, galley := g } } })) ∧
    (t.list.all Placement.done = true → s.endPass i = State.measureSlot i (s.passesOver i)) ∧
    (t.list.all Placement.done = false → s.endPass i = { s.passesOver i with
      slots := (s.passesOver i).slots.put i { t with state := .awaiting, pass := none } }) ∧
    ((s.slots.get i.other).held = 0 → s.passesOver i = s ∧ s.passEnded i = s) ∧
    (0 < (s.slots.get i.other).held →
      s.passesOver i = { s with slots := s.slots.put i.other (freed (s.slots.get i.other)) }) ∧
    ((s.slots.get i.other).held = 1 →
      s.passEnded i = { s with slots := s.slots.put i.other (freed (s.slots.get i.other)) }) ∧
    (∀ n, (s.slots.get i.other).held = n + 2 → s.passEnded i = { s with
      slots := s.slots.put i.other { s.slots.get i.other with held := n + 1 } })) ∧
  ∀ (i : SlotId) (s : State) (t : Slot) (fuel : Nat), t = s.slots.get i →
    ((t.state ≠ .resolving → t.state ≠ .awaiting → s.runSlot i = s) ∧
      (t.state = .awaiting → t.list.all Placement.done = true → s.runSlot i = s.measureSlot i) ∧
      (t.state = .awaiting → t.list.all Placement.done = false → s.runSlot i = s) ∧
      ∀ p, t.state = .resolving → t.pass = some p →
        (p.wait ≠ .running → s.runSlot i = s) ∧ (p.wait = .running → s.runSlot i = State.passes 2 i s)) ∧
    (∀ (p : Pass) (u : State), t.pass = some p → u = State.walk (t.list.length - p.pos) i s →
      ((∀ q, (u.slots.get i).pass = some q → q.wait ≠ .running) → State.passes (fuel + 1) i s = u) ∧
      ∀ q, (u.slots.get i).pass = some q → q.wait = .running →
        (q.again = false → State.passes (fuel + 1) i s = u.endPass i) ∧
        (q.again = true → 0 < (u.slots.get i).held → State.passes (fuel + 1) i s = { u with
          slots := u.slots.put i { u.slots.get i with pass := some { q with wait := .parked } } }) ∧
        (q.again = true → (u.slots.get i).held = 0 → State.passes (fuel + 1) i s = State.passes fuel i (State.passEnded i { u with
          slots := u.slots.put i { u.slots.get i with
            state := .resolving, pass := some { pos := 0, again := false, wait := .running } } }))) ∧
    ∀ p, t.pass = some p →
      (t.list[p.pos]? = none → State.walk fuel i s = s) ∧
      ∀ pl, t.list[p.pos]? = some pl →
        (∀ k, pl.state = .unresolved → pl.key = some k →
          ((((s.visit i p.pos k).slots.get i).pass.map Pass.wait) = some .running →
            State.walk (fuel + 1) i s = State.walk fuel i (State.passOn i (s.visit i p.pos k))) ∧
          ((((s.visit i p.pos k).slots.get i).pass.map Pass.wait) ≠ some .running →
            State.walk (fuel + 1) i s = s.visit i p.pos k)) ∧
        (pl.state ≠ .unresolved ∨ pl.key = none → State.walk (fuel + 1) i s = State.walk fuel i { s with
          slots := s.slots.put i { t with pass := some { p with pos := p.pos + 1, wait := .running } } })

/-! ## CONTROL -/

/-- The commands of a CONTROL frame are taken in list order, each against the state that those before it have left; a frame that one
condition of R146 or R189 fails is answered with OBJECT; a command is in range when a PAGE-BEGIN has 1 to 12 columns and a depth of 1 to
255 and an ALARM-SET has a line up to 255, a column up to 15 and a page up to 31, and bad when an ALARM-SET carries an AUTO-CUT above 1. A
command may be given as PAGE-BEGIN by any station, and otherwise by the page owner, by an authority, or by any station when there is
neither an owner nor an authority; from another station it is refused with its notice SENDER and changes nothing else, and one that its own
rule refuses with its notice STATE. A frame of one command is its row of the table, which is the model's reading (log 6). -/
def Obligations.ControlTakesItsListInOrder : Prop :=
  (∀ (h : Hdr) (cs : List ControlCmd) (s : State), Arrives h s →
    ((s.straps.head = true ∧ h.dst ≠ 0 ∧ 1 ≤ cs.length ∧ cs.length ≤ 6 ∧ (∀ c ∈ cs, commandInRange c = true ∧ commandBad c = false)) →
      exec (.control h cs) s = .next (answers true (State.commands h.src 0 cs (arrived h s)))) ∧
    ((s.straps.head = false ∨ h.dst = 0 ∨ cs = [] ∨ 6 < cs.length ∨ ∃ c ∈ cs, commandInRange c = false ∨ commandBad c = true) →
      exec (.control h cs) s = .next (answers false (arrived h s)))) ∧
  (∀ (src n : Nat) (c : ControlCmd) (cs : List ControlCmd) (s : State),
    State.commands src n [] s = s ∧ State.commands src n (c :: cs) s = State.commands src (n + 1) cs (State.command src n c s) ∧
    (s.link.state ≠ .mute → State.maySend src c s = false →
      State.command src n c s = noticed src (.commandRefused (commandCode c) n .sender) s) ∧
    (s.link.state ≠ .mute → State.maySend src c s = true → s.takeCommand src c = none →
      State.command src n c s = noticed src (.commandRefused (commandCode c) n .state) s) ∧
    (∀ t, State.maySend src c s = true → s.takeCommand src c = some t → State.command src n c s = t)) ∧
  (∀ (src : Nat) (c : ControlCmd) (s : State), State.maySend src c s = true ↔
    ((∃ columns depth closeTime, c = .pageBegin columns depth closeTime) ∨ s.seq.owner = some src ∨
      (1 ≤ src ∧ src ≤ s.straps.authLimit.val) ∨ (s.seq.owner = none ∧ s.straps.authLimit = 0))) ∧
  (∀ (h : Hdr) (c : ControlCmd) (s : State), ArrivesHere h s → s.straps.head = true → commandInRange c = true →
    commandBad c = false → (∀ columns depth closeTime, c ≠ .pageBegin columns depth closeTime) → s.seq.owner ≠ some h.src →
    ¬FromAuthority h s → (s.seq.owner ≠ none ∨ s.straps.authLimit ≠ 0) →
    exec (.control h [c]) s = .next (answers true (noticed h.src (.commandRefused (commandCode c) 0 .sender) (arrived h s)))) ∧
  (∀ c d t, commandInRange (.pageBegin c d t) = true ↔ 1 ≤ c ∧ c ≤ 12 ∧ 1 ≤ d ∧ d ≤ 255) ∧
  (∀ a, commandInRange (.alarmSet a) = true ↔ a.line ≤ 255 ∧ a.column ≤ 15 ∧ a.page ≤ 31) ∧
  (∀ c, (∀ columns depth closeTime, c ≠ .pageBegin columns depth closeTime) → (∀ a, c ≠ .alarmSet a) → commandInRange c = true) ∧
  (∀ c, commandBad c = true ↔ ∃ a, c = .alarmSet a ∧ 1 < a.autoCut) ∧
  ∀ (h : Hdr) (s : State),
    (∀ c d t, exec (.pageBegin h c d t) s = exec (.control h [.pageBegin c d t]) s) ∧
    exec (.pageEnd h) s = exec (.control h [.pageEnd]) s ∧ exec (.run h) s = exec (.control h [.run]) s ∧
    exec (.stop h) s = exec (.control h [.stop]) s ∧ exec (.cut h) s = exec (.control h [.cut]) s ∧
    exec (.galleyReset h) s = exec (.control h [.galleyReset]) s ∧ exec (.proofOn h) s = exec (.control h [.proofOn]) s ∧
    exec (.proofOff h) s = exec (.control h [.proofOff]) s ∧ exec (.proceed h) s = exec (.control h [.proceed]) s ∧
    (∀ a, exec (.alarmSet h a) s = exec (.control h [.alarmSet a]) s) ∧
    exec (.clearFlags h) s = exec (.control h [.clearFlags]) s ∧ exec (.stationClear h) s = exec (.control h [.stationClear]) s

/-- PAGE-BEGIN opens a page for its sender when no page is OPEN or closing, the sequencer is STOPPED and the line and column counters
are 0; PAGE-END begins the close of an OPEN page; either is refused with reason STATE otherwise. The model's reading: log 6. -/
def Obligations.PagesBeginAndEnd : Prop :=
  (∀ (h : Hdr) (c d t : Nat) (s : State), ArrivesHere h s → s.straps.head = true → 1 ≤ c → c ≤ 12 → 1 ≤ d → d ≤ 255 →
    ((s.seq.page ≠ .opened ∧ s.seq.closing = none ∧ s.seq.state = .stopped ∧ s.seq.galley.line = 0 ∧ s.seq.galley.column = 0) →
      exec (.pageBegin h c d t) s = .next (answers true { arrived h s with
        seq := { s.seq with
          page := .opened, owner := some h.src, columns := c, depth := d, closeTimer := t, expiryHeld := false } })) ∧
    (¬(s.seq.page ≠ .opened ∧ s.seq.closing = none ∧ s.seq.state = .stopped ∧ s.seq.galley.line = 0 ∧ s.seq.galley.column = 0) →
      exec (.pageBegin h c d t) s = .next (answers true (noticed h.src (.commandRefused 1 0 .state) (arrived h s))))) ∧
  ∀ (h : Hdr) (s : State), Commanded h s →
    (s.seq.page = .opened →
      exec (.pageEnd h) s = .next (answers true { arrived h s with
        seq := { s.seq with page := .closed, closing := some .pageEnd } })) ∧
    (s.seq.page ≠ .opened →
      exec (.pageEnd h) s = .next (answers true (noticed h.src (.commandRefused 2 0 .state) (arrived h s))))

/-- RUN and STOP, by the sequencer's state. RUN in STOPPED takes the head of the slots when it is READY: with proof mode off its line is
sent, and with proof mode on the sequencer waits for a PROCEED and offers a NOTICE PROOF-READY to the owner; a READY line behind an older
one waits. The head of the slots is the slot of the older line that has no outcome. What the head is sent: the leading, and for each
placement its role, whether it is a box, its x position and size, a mark's y offset, and the record of the entry it refers to. After an
event the older slot runs, then the younger, and each time the head of the slots is taken in RUNNING when it is READY; PROOF-WAIT becomes
RUNNING when its slot has left READY. The model's reading: log 6 and log 21. -/
def Obligations.RunAndStop : Prop :=
  (∀ (h : Hdr) (s : State), Commanded h s →
    (s.seq.state = .stopped → (∀ i, (s.slots.get i).state ≠ .ready) →
      exec (.run h) s = .next (answers true { arrived h s with seq := { s.seq with state := .running } })) ∧
    (∀ i, s.seq.state = .stopped → s.headSlot = some i → (s.slots.get i).state ≠ .ready →
      exec (.run h) s = .next (answers true { arrived h s with seq := { s.seq with state := .running } })) ∧
    (∀ i, s.seq.state = .stopped → s.headSlot = some i → (s.slots.get i).state = .ready → s.seq.proof = false →
      exec (.run h) s = .next (answers true (sent i (arrived h s)))) ∧
    (∀ i hd, s.seq.state = .stopped → s.headSlot = some i → (s.slots.get i).state = .ready → s.seq.proof = true →
      (s.slots.get i).header = some hd →
      exec (.run h) s = .next (answers true (noticed (s.seq.owner.getD 0) (.proofReady hd.number)
        { arrived h s with seq := { s.seq with state := .proofWait i } }))) ∧
    ((s.seq.state = .running ∨ ∃ i, s.seq.state = .proofWait i) → exec (.run h) s = .next (answers true (arrived h s))) ∧
    (s.seq.state = .exposing →
      exec (.run h) s = .next (answers true { arrived h s with seq := { s.seq with stopPending := false } })) ∧
    (∀ r, s.seq.state = .cutting → s.seq.cutRecord = some r →
      exec (.run h) s = .next (answers true { arrived h s with
        seq := { s.seq with stopPending := false, cutRecord := some { r with runs := decide (r.kind ≠ .close) } } })) ∧
    (s.seq.state = .fault →
      exec (.run h) s = .next (answers true (noticed h.src (.commandRefused 3 0 .state) (arrived h s)))) ∧
    ((s.seq.state = .running ∨ ∃ i, s.seq.state = .proofWait i) →
      exec (.stop h) s = .next (answers true { arrived h s with seq := { s.seq with state := .stopped } })) ∧
    (s.seq.state = .exposing →
      exec (.stop h) s = .next (answers true { arrived h s with seq := { s.seq with stopPending := true } })) ∧
    (∀ r, s.seq.state = .cutting → s.seq.cutRecord = some r →
      exec (.stop h) s = .next (answers true { arrived h s with
        seq := { s.seq with stopPending := true, cutRecord := some { r with runs := false } } })) ∧
    ((s.seq.state = .stopped ∨ s.seq.state = .fault) → exec (.stop h) s = .next (answers true (arrived h s)))) ∧
  (∀ (c : Cache) (t : Slot) (hd : LineHeader), t.header = some hd → State.lineTransfer c t =
    { leading := hd.leading
      placements := t.list.map (fun p =>
        { role := p.role, box := p.state == .substituted, x := p.x.getD 0, size := p.size
          y := if p.role = .mark then some (p.y.getD 0) else none
          record := p.ref.bind (fun n => (c.entry n).map CacheEntry.record) }) }) ∧
  (∀ s u : State, u = s.leaveProof → s.settle = (((u.runSlot u.slots.older).dispatch).runSlot u.slots.older.other).dispatch) ∧
  (∀ s : State,
    ((∀ i, s.seq.state ≠ .proofWait i) → s.leaveProof = s) ∧
    (∀ i, s.seq.state = .proofWait i →
      ((s.slots.get i).state = .ready → s.leaveProof = s) ∧
      ((s.slots.get i).state ≠ .ready → s.leaveProof = { s with seq := { s.seq with state := .running } })) ∧
    (s.seq.state ≠ .running → s.dispatch = s) ∧
    ((∀ i, s.headSlot = some i → (s.slots.get i).state ≠ .ready) → s.dispatch = s) ∧
    ∀ i hd, s.seq.state = .running → s.headSlot = some i → (s.slots.get i).state = .ready → (s.slots.get i).header = some hd →
      (s.seq.proof = false → s.dispatch = sent i s) ∧
      (s.seq.proof = true → s.link.state ≠ .mute → s.dispatch =
        noticed (s.seq.owner.getD 0) (.proofReady hd.number) { s with seq := { s.seq with state := .proofWait i } })) ∧
  ∀ s : State,
    (InAssembly (s.slots.get s.slots.older) ∨ (s.slots.get s.slots.older).state = .exposing →
      s.headSlot = some s.slots.older) ∧
    (¬(InAssembly (s.slots.get s.slots.older) ∨ (s.slots.get s.slots.older).state = .exposing) →
      (InAssembly (s.slots.get s.slots.younger) ∨ (s.slots.get s.slots.younger).state = .exposing →
        s.headSlot = some s.slots.younger) ∧
      (¬(InAssembly (s.slots.get s.slots.younger) ∨ (s.slots.get s.slots.younger).state = .exposing) → s.headSlot = none))

/-- CUT, by the sequencer's state; GALLEY-RESET in STOPPED sets the three counters to 0 and leaves exposed-since-cut, and is refused in
every other state. The model's reading: log 6. -/
def Obligations.CutAndGalleyReset : Prop :=
  ∀ (h : Hdr) (s : State), Commanded h s →
    ((s.seq.state = .stopped ∨ s.seq.state = .running ∨ ∃ i, s.seq.state = .proofWait i) →
      exec (.cut h) s = .next (answers true { arrived h s with
        out := [.cut], head := .cut
        seq := { s.seq with
          state := .cutting, cutPending := false
          cutRecord := some { kind := .commanded, renumbers := s.seq.exposedSinceCut, runs := decide (s.seq.state ≠ .stopped) } } })) ∧
    (s.seq.state = .exposing →
      exec (.cut h) s = .next (answers true { arrived h s with seq := { s.seq with cutPending := true } })) ∧
    ((s.seq.state = .cutting ∨ s.seq.state = .fault) →
      exec (.cut h) s = .next (answers true (noticed h.src (.commandRefused 5 0 .state) (arrived h s)))) ∧
    (s.seq.state = .stopped →
      exec (.galleyReset h) s = .next (answers true { arrived h s with
        seq := { s.seq with galley := { page := 0, column := 0, line := 0 } } })) ∧
    (s.seq.state ≠ .stopped →
      exec (.galleyReset h) s = .next (answers true (noticed h.src (.commandRefused 6 0 .state) (arrived h s))))

/-- PROOF-ON, PROOF-OFF and PROCEED; ALARM-SET replaces all five settings; CLEAR-FLAGS clears all thirteen flags. The model's reading:
log 6. -/
def Obligations.ProofAlarmAndFlags : Prop :=
  ∀ (h : Hdr) (s : State), Commanded h s →
    exec (.proofOn h) s = .next (answers true { arrived h s with seq := { s.seq with proof := true } }) ∧
    ((∀ i, s.seq.state ≠ .proofWait i) →
      exec (.proofOff h) s = .next (answers true { arrived h s with seq := { s.seq with proof := false } }) ∧
      exec (.proceed h) s = .next (answers true (noticed h.src (.commandRefused 9 0 .state) (arrived h s)))) ∧
    (∀ i, s.seq.state = .proofWait i →
      exec (.proofOff h) s = .next (answers true (sent i { arrived h s with seq := { s.seq with proof := false } })) ∧
      exec (.proceed h) s = .next (answers true (sent i (arrived h s)))) ∧
    (∀ a : AlarmFrame, a.line ≤ 255 → a.column ≤ 15 → a.page ≤ 31 → a.autoCut ≤ 1 →
      exec (.alarmSet h a) s = .next (answers true { arrived h s with
        seq := { s.seq with alarm :=
          { line := a.line, column := a.column, page := a.page, maskLine := a.maskLine, maskCol := a.maskCol
            maskPage := a.maskPage, autoCut := decide (a.autoCut = 1) } } })) ∧
    exec (.clearFlags h) s = .next (answers true { arrived h s with seq := { s.seq with acc :=
      { line :=
          { substituted := false, markOverflow := false, uncovered := false, squeezed := false, unjustified := false
            staleImage := false, alternateUsed := false, noDirectory := false }
        alarm := false, closed := false, filmLow := false, reportLost := false, noticeLost := false } } })

/-- STATION-CLEAR: every line in assembly is given the outcome CLEARED, and so is every Line Queue entry without a report mark. Their
reports are offered, the older slot's first and the oldest entry's next, and as many join the transmit queue as find room; the slot is
then EMPTY and the entry gone, and without room the slot is REPORTING with its report and the entry is marked. Only an exchanging fetch
stays, and the cache keeps only what an exposing slot refers to, each entry pinned once for each of its placements; PROOF-WAIT becomes
RUNNING; page, galley, store, tables and directory stand. The model's reading: log 6 and log 18. -/
def Obligations.StationClearEndsTheWork : Prop :=
  ∀ (h : Hdr) (s : State), Commanded h s → SlotsHeaded s →
    ∃ t, exec (.stationClear h) s = .next t ∧ (.answer true false) ∈ t.out ∧ LinesEnded .cleared s t ∧
      (∀ i, ¬InAssembly (t.slots.get i)) ∧ (∀ e ∈ t.lines, e.mark ≠ none) ∧
      t.fetches = s.fetches.filter (fun f => f.state == .exchanging) ∧
      ((∀ i, (s.slots.get i).state ≠ .exposing) → t.cache = { entries := [], recency := [] }) ∧
      (∀ i refs, (s.slots.get i).state = .exposing → (s.slots.get i.other).state ≠ .exposing →
        refs = (s.slots.get i).list.filterMap Placement.ref →
        t.cache.recency = [] ∧ (∀ e ∈ t.cache.entries, e.1 ∈ refs ∧ e.2.pins = refs.count e.1) ∧
        (¬InAssembly (s.slots.get i.other) → t.cache.entries =
          (s.cache.entries.filter fun e => refs.contains e.1).map fun e => (e.1, { e.2 with pins := refs.count e.1 }))) ∧
      (∀ i, (s.slots.get i).state = .exposing →
        (t.slots.get i).state = .exposing ∧ (t.slots.get i).list = (s.slots.get i).list) ∧
      t.tables = s.tables ∧ t.patrol = s.patrol ∧ t.store.index = s.store.index ∧ t.store.memory = s.store.memory ∧
      t.dir.entries = s.dir.entries ∧ t.dir.state = s.dir.state ∧ t.head = s.head ∧ t.seq.page = s.seq.page ∧
      t.seq.owner = s.seq.owner ∧ t.seq.columns = s.seq.columns ∧ t.seq.depth = s.seq.depth ∧ t.seq.galley = s.seq.galley ∧
      t.seq.exposedSinceCut = s.seq.exposedSinceCut ∧ t.seq.cutPending = s.seq.cutPending ∧
      t.seq.stopPending = s.seq.stopPending ∧ t.seq.proof = s.seq.proof ∧ t.seq.alarm = s.seq.alarm ∧
      t.seq.closeTimer = s.seq.closeTimer ∧ ((∀ i, s.seq.state ≠ .proofWait i) → t.seq.state = s.seq.state) ∧
      ((∃ i, s.seq.state = .proofWait i) → t.seq.state = .running)

/-! ## The head -/

/-- EXPOSED: exposed-since-cut is set and the galley advances; at the depth the line counter becomes 0 and the column counter one
higher, at the column count that becomes 0, the page counter one higher, and a page-full cut is sent. An alarm that matches the galley as
advanced sets ALARM and offers its notice, and with AUTO-CUT on sends an alarm cut; a cut that is pending is sent as a commanded one, and
with only a stop pending the sequencer is STOPPED; one cut at most is sent, and after it the sequencer stops when a stop was pending or
AUTO-CUT matched. An alarm matches when its mask names a field and every named field is equal, the page modulo 32. The line is reported
SET with the place before the advance, and its slot becomes EMPTY with its entries unpinned in list order; with nothing due the sequencer
is RUNNING, and a READY head of the slots is taken at once. An expiry that was held is taken when the sequencer becomes STOPPED or RUNNING,
and stays held while a cut is made. The model's reading: log 15, by which a held expiry comes before the READY head of the slots, log 16
for the cause of its close, and log 25 for the order of the unpinning. -/
def Obligations.ExposedAdvancesTheGalley : Prop :=
  (∀ s : State, s.head = .line → s.seq.state = .exposing →
     ∃ t, exec .exposed s = .next t ∧ t.seq.exposedSinceCut = true ∧
       (s.seq.galley.line + 1 ≠ s.seq.depth → t.seq.galley = { s.seq.galley with line := s.seq.galley.line + 1 }) ∧
       (s.seq.galley.line + 1 = s.seq.depth → s.seq.galley.column + 1 ≠ s.seq.columns →
         t.seq.galley = { s.seq.galley with line := 0, column := s.seq.galley.column + 1 }) ∧
       (s.seq.galley.line + 1 = s.seq.depth → s.seq.galley.column + 1 = s.seq.columns →
         t.seq.galley = { page := (s.seq.galley.page + 1) % 65536, column := 0, line := 0 } ∧
         t.seq.state = .cutting ∧ t.head = .cut ∧ t.seq.cutPending = false ∧ .cut ∈ t.out ∧
         t.seq.cutRecord = some
           { kind := .pageFull, renumbers := false
             runs := !(s.seq.stopPending || (alarmMatches s.seq.alarm t.seq.galley && s.seq.alarm.autoCut)) }) ∧
       (¬(s.seq.galley.line + 1 = s.seq.depth ∧ s.seq.galley.column + 1 = s.seq.columns) →
         (alarmMatches s.seq.alarm t.seq.galley = true → s.seq.alarm.autoCut = true →
           t.seq.state = .cutting ∧ t.head = .cut ∧ t.seq.cutPending = false ∧ .cut ∈ t.out ∧
           t.seq.cutRecord = some { kind := .alarm, renumbers := true, runs := false }) ∧
         ((alarmMatches s.seq.alarm t.seq.galley = false ∨ s.seq.alarm.autoCut = false) →
           (s.seq.cutPending = true →
             t.seq.state = .cutting ∧ t.head = .cut ∧ t.seq.cutPending = false ∧ .cut ∈ t.out ∧
             t.seq.cutRecord = some { kind := .commanded, renumbers := true, runs := !s.seq.stopPending }) ∧
           (s.seq.cutPending = false → s.seq.stopPending = true →
             t.seq.state = .stopped ∧ t.head = .none ∧ t.seq.stopPending = false))) ∧
       (alarmMatches s.seq.alarm t.seq.galley = true → t.seq.acc.alarm = true ∧
         (s.link.state ≠ .mute → s.link.queue.length < 11 →
           { frame := .notice (s.seq.owner.getD 0) (.alarm t.seq.galley), attempts := 0, onLink := false } ∈ t.link.queue)) ∧
       (s.seq.expiryHeld = false → t.seq.page = s.seq.page) ∧ t.seq.owner = s.seq.owner ∧ t.seq.columns = s.seq.columns ∧
       t.seq.depth = s.seq.depth ∧ t.seq.alarm = s.seq.alarm ∧ t.seq.proof = s.seq.proof ∧ t.tables = s.tables ∧
       t.patrol = s.patrol ∧ t.store.memory = s.store.memory ∧ t.store.index = s.store.index) ∧
  (∀ (s : State) (i : SlotId) (hd : LineHeader), s.head = .line → s.seq.state = .exposing → (s.slots.get i).state = .exposing →
     (s.slots.get i).header = some hd → s.slots.get i.other = .vacant → s.link.state ≠ .mute → s.link.queue.length < 12 →
     s.seq.galley.line + 1 < s.seq.depth →
     alarmMatches s.seq.alarm { s.seq.galley with line := s.seq.galley.line + 1 } = false → s.seq.cutPending = false →
     s.seq.stopPending = false → s.seq.expiryHeld = false →
     exec .exposed s = .next { s with
       out := [], head := .none
       slots := { slot0 := .vacant, slot1 := .vacant, age := none }
       cache := s.cache.unpinAll ((s.slots.get i).list.filterMap Placement.ref)
       store := { s.store with
         reads := s.store.reads.map (fun r => if r.slot = i then { r with live := false } else r) }
       link := { s.link with
         queue := State.insertTx
           { frame := .report hd.requester
               { number := hd.number, outcome := .set, natural := (State.widthsOf (s.slots.get i)).1
                 set := (State.widthsOf (s.slots.get i)).2, placements := (s.slots.get i).list.length
                 substituted := ((s.slots.get i).list.filter fun p => p.state == .substituted).length
                 flags := (s.slots.get i).flags, galley := some s.seq.galley }
             attempts := 0, onLink := false } s.link.queue }
       seq := { s.seq with
         state := .running, exposedSinceCut := true
         galley := { s.seq.galley with line := s.seq.galley.line + 1 }
         acc := { s.seq.acc with line := s.seq.acc.line.or (s.slots.get i).flags } } }) ∧
  (∀ (s v w : State) (i : SlotId) (g : Galley) (full matched cuts : Bool), s.head = .line → s.seq.state = .exposing →
     (s.slots.get i).state = .exposing → (s.slots.get i.other).state ≠ .exposing → GalleyAdvances s.seq g full →
     matched = alarmMatches s.seq.alarm g → cuts = (matched && s.seq.alarm.autoCut) →
     v = State.finishLine i .set (State.widthsOf (s.slots.get i)) (some s.seq.galley) { s with out := [], head := .none } →
     w = (if matched then
         offeredNotice (s.seq.owner.getD 0) (.alarm g)
           { v with seq := { v.seq with galley := g, exposedSinceCut := true, acc := { v.seq.acc with alarm := true } } }
       else { v with seq := { v.seq with galley := g, exposedSinceCut := true } }) →
     (full = true → exec .exposed s = .next (State.settle
       (cutSent { kind := .pageFull, renumbers := false, runs := !(s.seq.stopPending || cuts) } w))) ∧
     (full = false → cuts = true → exec .exposed s = .next (State.settle
       (cutSent { kind := .alarm, renumbers := true, runs := false } w))) ∧
     (full = false → cuts = false → s.seq.cutPending = true → exec .exposed s = .next (State.settle
       (cutSent { kind := .commanded, renumbers := true, runs := !s.seq.stopPending } w))) ∧
     (full = false → cuts = false → s.seq.cutPending = false → ∀ u : State,
       u = (if s.seq.stopPending then { w with seq := { w.seq with state := .stopped, stopPending := false } }
         else { w with seq := { w.seq with state := .running } }) →
       (s.seq.expiryHeld = false → exec .exposed s = .next u.settle) ∧
       (s.seq.expiryHeld = true → SlotsHeaded s → ∃ t, exec .exposed s = .next t ∧ CloseExpired u t))) ∧
  ∀ (a : Alarm) (g : Galley), alarmMatches a g = true ↔
    ((a.maskLine = true ∨ a.maskCol = true ∨ a.maskPage = true) ∧ (a.maskLine = true → g.line = a.line) ∧
      (a.maskCol = true → g.column = a.column) ∧ (a.maskPage = true → g.page % 32 = a.page))

/-- CUT-DONE: a cut that renumbers gives page one higher with column and line 0; exposed-since-cut and stop pending are clear, and the
sequencer is STOPPED, or RUNNING as the cut record says, when a READY head of the slots is taken at once; an expiry that was held is taken
first. A CLOSE cut leaves the sequencer STOPPED, offers the PAGE-END notice and ends the close, which discards a held expiry. The model's
reading: log 15 for a held expiry before the READY head of the slots, and log 16 for the cause of its close. -/
def Obligations.CutDoneMakesTheCut : Prop :=
  ∀ (s u : State) (r : CutRecord), s.head = .cut → s.seq.state = .cutting → s.seq.cutRecord = some r →
    u = { s with
      out := [], head := .none
      seq := { s.seq with
        state := if r.runs = true ∧ r.kind ≠ .close then .running else .stopped
        galley := if r.renumbers = true then { page := (s.seq.galley.page + 1) % 65536, column := 0, line := 0 } else s.seq.galley
        exposedSinceCut := false, stopPending := false, cutRecord := none } } →
    (r.kind ≠ .close → s.seq.expiryHeld = false →
      exec .cutDone s = .next u.settle ∧ (SlotsRest s → exec .cutDone s = .next u)) ∧
    (r.kind ≠ .close → s.seq.expiryHeld = true → SlotsHeaded s → ∃ t, exec .cutDone s = .next t ∧ CloseExpired u t) ∧
    (∀ cause, r.kind = .close → s.seq.closing = some cause →
      exec .cutDone s = .next (State.settle (pageEnded cause u)) ∧
      (SlotsRest s → s.link.state ≠ .mute →
        ∃ t, exec .cutDone s = .next t ∧ t.head = .none ∧ t.seq.state = .stopped ∧ t.seq.closing = none ∧ t.seq.closeTimer = 0 ∧
          t.seq.expiryHeld = false ∧ t.seq.exposedSinceCut = false ∧ t.seq.page = s.seq.page ∧
          t.seq.galley = (if r.renumbers = true then { page := (s.seq.galley.page + 1) % 65536, column := 0, line := 0 }
            else s.seq.galley) ∧
          (s.link.queue.length < 12 → t.link.queue = State.insertTx
            { frame := .notice (s.seq.owner.getD 0) (.pageEnd cause t.seq.galley s.seq.acc), attempts := 0, onLink := false }
            s.link.queue)))

/-- FILM-LOW sets its flag and gives a notice in any state; FILM-OUT and HEAD-FAULT make the sequencer FAULT with no head message
outstanding, the galley not advanced, a line that was being exposed in either slot ended as CUT-SHORT with its report, and a NOTICE
HEAD-FAULT that says which message it was and names that line; in FAULT they are ignored; READY makes FAULT STOPPED. During a CLOSE cut
the PAGE-END notice is offered and the close ends, without the cut; a FAULT that is reached with a close in progress and nothing left to
drain ends the close likewise; and an expiry that was held is taken, its close completing without a cut. The model's reading: log 19 for the
order of the offers, and log 16 for the cause of the close of a held expiry. -/
def Obligations.FilmAndHeadFaults : Prop :=
  ∀ s : State,
    (s.link.state ≠ .mute →
      exec .filmLow s = .next (noticed (s.seq.owner.getD 0) .filmLow { s with
        out := [], seq := { s.seq with acc := { s.seq.acc with filmLow := true } } })) ∧
    (s.seq.state ≠ .fault → SlotsHeaded s → ∀ c : Instr, c = .filmOut ∨ c = .headFault →
      ∃ t, exec c s = .next t ∧ t.seq.state = .fault ∧ t.head = .none ∧ t.seq.galley = s.seq.galley ∧
        t.seq.exposedSinceCut = s.seq.exposedSinceCut ∧ t.seq.cutRecord = none ∧ t.seq.cutPending = false ∧
        t.seq.stopPending = false ∧ t.seq.owner = s.seq.owner ∧ t.dir.entries = s.dir.entries ∧ t.tables = s.tables ∧
        (s.slots.slot0.state = .exposing → t.slots.slot0.state = .reporting ∨ t.slots.slot0.state = .empty) ∧
        (s.slots.slot0.state ≠ .exposing → s.slots.slot1.state = .exposing →
          t.slots.slot1.state = .reporting ∨ t.slots.slot1.state = .empty) ∧
        (∀ (i : SlotId) (hd : LineHeader) (rep : LineReport), (s.slots.get i).state = .exposing →
          (s.slots.get i.other).state ≠ .exposing → (s.slots.get i).header = some hd → s.link.state ≠ .mute →
          rep = { number := hd.number, outcome := .cutShort, natural := (State.widthsOf (s.slots.get i)).1
                  set := (State.widthsOf (s.slots.get i)).2, placements := (s.slots.get i).list.length
                  substituted := ((s.slots.get i).list.filter fun p => p.state == .substituted).length
                  flags := (s.slots.get i).flags, galley := none } →
          (s.link.queue.length < 12 → (t.slots.get i).state = .empty ∧
            { frame := .report hd.requester rep, attempts := 0, onLink := false } ∈ t.link.queue) ∧
          (12 ≤ s.link.queue.length → (t.slots.get i).state = .reporting ∧ (t.slots.get i).report = some rep) ∧
          (s.link.queue.length < 10 →
            { frame := .notice (s.seq.owner.getD 0) (.headFault (decide (c = .filmOut)) (some hd.number))
              attempts := 0, onLink := false } ∈ t.link.queue))) ∧
    (s.seq.state ≠ .fault → ∀ (c : Instr) (f v : State) (number : Option Nat) (n : Notice), c = .filmOut ∨ c = .headFault →
      f = { s with
        out := [], head := .none
        seq := { s.seq with state := .fault, cutRecord := none, cutPending := false, stopPending := false } } →
      (((∀ i, (s.slots.get i).state ≠ .exposing) ∧ v = f ∧ number = none) ∨
        ∃ i hd, (s.slots.get i).state = .exposing ∧ (s.slots.get i.other).state ≠ .exposing ∧ (s.slots.get i).header = some hd ∧
          v = State.finishLine i .cutShort (State.widthsOf (s.slots.get i)) none f ∧ number = some hd.number) →
      n = .headFault (decide (c = .filmOut)) number →
      (∀ r cause, s.seq.cutRecord = some r → r.kind = .close → s.seq.closing = some cause →
        exec c s = .next (State.settle (offeredNotice (s.seq.owner.getD 0) n (pageEnded cause v)))) ∧
      ((∀ r, s.seq.cutRecord = some r → r.kind ≠ .close) →
        (s.seq.expiryHeld = false → (s.seq.closing = none ∨ ¬NothingToDrain s) →
          exec c s = .next (State.settle (offeredNotice (s.seq.owner.getD 0) n v))) ∧
        (∀ cause, s.seq.expiryHeld = false → s.seq.closing = some cause → NothingToDrain s →
          exec c s = .next (State.settle (pageEnded cause (offeredNotice (s.seq.owner.getD 0) n v)))) ∧
        (s.seq.expiryHeld = true → SlotsHeaded s →
          ∃ u cause, CloseExpired (offeredNotice (s.seq.owner.getD 0) n v) u ∧ u.seq.closing = some cause ∧
            exec c s = .next (pageEnded cause u)))) ∧
    (s.seq.state ≠ .fault → SlotsRest s → (∀ i, (s.slots.get i).state ≠ .exposing) → s.seq.closing = none →
      s.seq.expiryHeld = false → s.link.state ≠ .mute → ∀ c : Instr, c = .filmOut ∨ c = .headFault →
      exec c s = .next (noticed (s.seq.owner.getD 0) (.headFault (decide (c = .filmOut)) none) { s with
        out := [], head := .none
        seq := { s.seq with state := .fault, cutRecord := none, cutPending := false, stopPending := false } })) ∧
    (s.seq.state = .fault →
      exec .filmOut s = .next (unchanged s) ∧ exec .headFault s = .next (unchanged s) ∧
      exec .ready s = .next { s with out := [], seq := { s.seq with state := .stopped } }) ∧
    (s.seq.state ≠ .fault → exec .ready s = .next (unchanged s)) ∧
    (s.head ≠ .line → exec .exposed s = .next (unchanged s)) ∧
    (s.head ≠ .cut → exec .cutDone s = .next (unchanged s))

/-- The close timer: a decrement above 1 lowers it; at 1 it is held while the sequencer is EXPOSING or CUTTING, and otherwise the close
expiry is taken: the page is CLOSED and closing, every line in assembly is given the outcome CLOSED, and so is every Line Queue entry
without a report mark. Their reports are offered, the older slot's first and the oldest entry's next, and as many join the transmit queue
as find room; the slot is then EMPTY and the entry gone, and without room the slot is REPORTING with its report and the entry is marked; in
MUTE every report is given up, and REPORT-LOST is set. The cause of the close is EXPIRY when the page was not closing; when a PAGE-END had
begun the close, the cause is a free value, the model's choice (log 16), that is one of EXPIRY and PAGE-END. With the station drained, a
close sends a CLOSE cut from STOPPED or RUNNING, and in FAULT offers at once the PAGE-END notice, which carries that cause. The model's
reading: log 23. -/
def Obligations.CloseTimerExpiryAndEnd : Prop :=
  (∀ s : State, (s.seq.page = .opened ∨ (s.seq.page = .closed ∧ s.seq.closing ≠ none)) →
     (1 < s.seq.closeTimer →
       exec .closeTimerTick s = .next { s with out := [], seq := { s.seq with closeTimer := s.seq.closeTimer - 1 } }) ∧
     (s.seq.closeTimer = 1 → (s.seq.state = .exposing ∨ s.seq.state = .cutting) →
       exec .closeTimerTick s = .next { s with out := [], seq := { s.seq with expiryHeld := true } } ∧
       exec .closeExpiry s = .next (unchanged s)) ∧
     (s.seq.closeTimer = 1 → s.seq.state ≠ .exposing → s.seq.state ≠ .cutting → SlotsHeaded s → ∀ c : Instr,
       c = .closeTimerTick ∨ c = .closeExpiry → ∃ t, exec c s = .next t ∧ CloseExpired (unchanged s) t)) ∧
  (∀ (s : State) (cause : CloseCause), s.seq.closing = some cause → (∀ e ∈ s.lines, e.mark ≠ none) →
     (∀ i, ¬InAssembly (s.slots.get i) ∧ (s.slots.get i).state ≠ .exposing) →
     ((s.seq.state = .stopped ∨ s.seq.state = .running) →
       exec .closeComplete s = .next { s with
         out := [.cut], head := .cut
         seq := { s.seq with
           state := .cutting, cutPending := false
           cutRecord := some { kind := .close, renumbers := s.seq.exposedSinceCut, runs := false } } }) ∧
     (s.seq.state = .fault → exec .closeComplete s = .next (pageEnded cause (unchanged s))) ∧
     (s.seq.state = .fault → s.link.state ≠ .mute → s.link.queue.length < 12 →
       exec .closeComplete s = .next { s with
         out := []
         link := { s.link with
           queue := State.insertTx
             { frame := .notice (s.seq.owner.getD 0) (.pageEnd cause s.seq.galley s.seq.acc), attempts := 0, onLink := false }
             s.link.queue }
         seq := { s.seq with closing := none, closeTimer := 0, expiryHeld := false } }))

/-! ## Layouts and invariants -/

/-- What this station sends is what a station reads: an ENROL, a WITHDRAW, a FETCH and the record of an IMAGE reply. -/
def Obligations.FramesReadBackAsSent : Prop :=
  (∀ (src : Nat) (e : EnrolFields), e.station < 256 → e.banks < 256 → e.records < 65536 →
    readFrame ((TxFrame.enrol e).raw src) = some (.enrol { src := src, dst := 0 } e.station e.banks e.spare e.head e.records)) ∧
  (∀ (src : Nat) (rs : List KeyRange), rs.length < 256 → (∀ r ∈ rs, r.wf = true) →
    readFrame ((TxFrame.withdraw rs).raw src) = some (.withdraw { src := src, dst := 0 } rs)) ∧
  (∀ (src target : Nat) (k : Key), k.wf = true →
    readFrame (fetchFrame src target k) = some (.fetch { src := src, dst := target } k { ack := false, object := false })) ∧
  ∀ r : ImageRecord, r.wellFormed = true → r.key.wf = true → readImage (Reply.image r).payload = some r

/-- Every step keeps the store memory in its canonical form. -/
def Obligations.StepKeepsMemoryCanonical : Prop :=
  ∀ s t : State, MemoryCanonical s → step s = .next t → MemoryCanonical t

/-- Every step keeps the galley counters within the geometry. -/
def Obligations.StepKeepsGalleyInGeometry : Prop :=
  ∀ s t : State, GalleyInGeometry s → step s = .next t → GalleyInGeometry t

/-- Every step keeps six queues and tables within their capacities: the transmit queue, the fetch list, the Line Queue, the directory, the
store index and the LOAD write queue. -/
def Obligations.StepKeepsCapacities : Prop :=
  ∀ s t : State, WithinCapacities s → step s = .next t → WithinCapacities t

/-- The invariants hold at reset, on the board that the model names (log 3, DESIGN CHOICE), whose queue of commands is empty (log 5, DESIGN
CHOICE); and every step keeps the invariant of the slots: a slot that holds a line holds its header, and the slot that is waited on in
PROOF-WAIT is READY. -/
def Obligations.ResetHasTheInvariants : Prop :=
  (MemoryCanonical State.reset ∧ GalleyInGeometry State.reset ∧ WithinCapacities State.reset ∧ SlotsHeaded State.reset ∧
    ProofWaits State.reset ∧ State.reset.pending = []) ∧
  ∀ s t : State, SlotsHeaded s → ProofWaits s → step s = .next t → SlotsHeaded t ∧ ProofWaits t

/-- In MUTE no frame that reaches the station is answered, taken or observed, none is begun, and no free condition ends it; a frame that is
offered is given up without an attempt, its owner learning ABSENT: a report, a slot's or a Line Queue entry's, leaves with REPORT-LOST set,
a notice sets NOTICE-LOST, ranges to withdraw leave the outgoing list, and an ENROL starts the enrol wait of an ENROLLING directory. MUTE
is left only by a reset. -/
def Obligations.OnlyAResetLeavesMute : Prop :=
  (∀ (c : Instr) (s : State), s.link.state = .mute → isReset c = false → ∃ t, exec c s = .next t ∧ t.link.state = .mute) ∧
  (∀ (c : Instr) (s : State), s.link.state = .mute →
    (bringsFrame c = true ∨ c = .freeCondition ∨ ∃ others, c = .contend others) → exec c s = .next (unchanged s)) ∧
  ∀ s : State, s.link.state = .mute →
    (∀ f, s.offer f = (offeredMute f s, true)) ∧
    (∀ d n, s.notify d n = offeredMute (.notice d n) s) ∧
    (∀ i rep hd, (s.slots.get i).state = .reporting → (s.slots.get i).report = some rep → (s.slots.get i).header = some hd →
      s.offerSlot i = { offeredMute (.report hd.requester rep) s with
        slots := { s.slots.put i .vacant with age := if (s.slots.get i.other).state = .empty then none else some i.other } }) ∧
    (∀ (which : QueueEntry → Option ReportMark) (m : ReportMark) (e : QueueEntry) (es : List QueueEntry), which e = some m →
      State.reportEntries which (e :: es) s = State.reportEntries which es (offeredMute (entryReport m e) s)) ∧
    s.offerOutgoing = { s with dir := { s.dir with outgoing := [] } } ∧
    s.offerEnrol = { s with
      dir := if s.dir.state = .enrolling then { s.dir with enrolWait := true } else s.dir
      link := { s.link with enrolWaits := false } }
end

