-- ==== Sys2Proof/Laws/Cache.lean ====
section
/-! SUPPORT. The Image Cache by its entries' numbers: what an update, a removal and an insertion leave under each number, and the order
of the numbers. -/

namespace Sys2Proof.Machine.Cache

/-- An update changes the entry of its number alone. -/
theorem entry_update (c : Cache) (n m : Nat) (f : CacheEntry → CacheEntry) :
    (c.update n f).entry m = if m = n then (c.entry m).map f else c.entry m := by
  unfold update entry
  simp only
  generalize c.entries = l
  induction l with
  | nil => simp
  | cons a l ih =>
    simp only [List.map_cons, List.find?_cons]
    have hs : (if a.1 == n then (a.1, f a.2) else a).1 = a.1 := by split <;> rfl
    by_cases ha : a.1 = m
    · rw [show ((if a.1 == n then (a.1, f a.2) else a).1 == m) = true by rw [hs]; simpa using ha,
        show (a.1 == m) = true by simpa using ha]
      by_cases hn : m = n
      · simp [hn, show a.1 = n by omega]
      · simp [hn, show ¬a.1 = n by omega]
    · rw [show ((if a.1 == n then (a.1, f a.2) else a).1 == m) = false by rw [hs]; simpa using ha,
        show (a.1 == m) = false by simpa using ha]
      exact ih

/-- A removal takes the entry of its number alone. -/
theorem entry_drop (c : Cache) (n m : Nat) : (c.drop n).entry m = if m = n then none else c.entry m := by
  unfold drop entry
  simp only
  generalize c.entries = l
  induction l with
  | nil => simp
  | cons a l ih =>
    by_cases hn : a.1 = n
    · rw [List.filter_cons_of_neg (by simp [hn]), ih]
      split
      · rfl
      · rw [List.find?_cons_of_neg]
        simp [hn]
        omega
    · rw [List.filter_cons_of_pos (by simp [hn])]
      by_cases ha : a.1 = m
      · simp [ha, show ¬m = n by omega]
      · simp only [List.find?_cons]
        rw [show (a.1 == m) = false by simpa using ha]
        exact ih

/-- An insertion of a number that is not held adds its entry alone. -/
theorem find_insertSorted (n m : Nat) (e : CacheEntry) (l : List (Nat × CacheEntry)) (h : ∀ x ∈ l, x.1 ≠ n) :
    ((insertSorted n e l).find? fun x => x.1 == m) = if m = n then some (n, e) else l.find? fun x => x.1 == m := by
  induction l with
  | nil =>
    by_cases hm : m = n
    · simp [insertSorted, hm]
    · simp [insertSorted, hm]
      omega
  | cons a l ih =>
    have ih := ih fun x hx => h x (by simp [hx])
    unfold insertSorted
    split
    · by_cases hm : m = n
      · simp [hm]
      · simp [hm, show ¬n = m by omega]
    · simp only [List.find?_cons]
      by_cases ha : a.1 = m
      · have := h a (by simp)
        simp [ha, show ¬m = n by omega]
      · rw [show (a.1 == m) = false by simpa using ha]
        simp only
        rw [ih]

theorem mem_insertSorted (n : Nat) (e : CacheEntry) (l : List (Nat × CacheEntry)) :
    ∀ x ∈ insertSorted n e l, x = (n, e) ∨ x ∈ l := by
  induction l with
  | nil => simp [insertSorted]
  | cons a l ih =>
    intro x hx
    unfold insertSorted at hx
    split at hx
    · simpa using hx
    · rcases List.mem_cons.1 hx with rfl | hx
      · simp
      · rcases ih x hx with h | h <;> simp [h]

/-- An insertion keeps the numbers ascending. -/
theorem pairwise_insertSorted (n : Nat) (e : CacheEntry) (l : List (Nat × CacheEntry)) (h : l.Pairwise fun a b => a.1 < b.1)
    (hn : ∀ x ∈ l, x.1 ≠ n) : (insertSorted n e l).Pairwise fun a b => a.1 < b.1 := by
  induction l with
  | nil => simp [insertSorted]
  | cons a l ih =>
    rw [List.pairwise_cons] at h
    unfold insertSorted
    split
    · rename_i hlt
      refine List.pairwise_cons.2 ⟨?_, List.pairwise_cons.2 h⟩
      intro x hx
      rcases List.mem_cons.1 hx with rfl | hx
      · exact hlt
      · exact Nat.lt_trans hlt (h.1 x hx)
    · rename_i hlt
      refine List.pairwise_cons.2 ⟨?_, ih h.2 fun x hx => hn x (by simp [hx])⟩
      intro x hx
      rcases mem_insertSorted n e l x hx with rfl | hx
      · exact Nat.lt_of_le_of_ne (Nat.le_of_not_lt hlt) (hn a (by simp))
      · exact h.1 x hx

/-- Among ascending numbers from `k`, `firstFree` is the lowest that is not held. -/
theorem firstFree_least (k : Nat) (l : List (Nat × CacheEntry)) (h : l.Pairwise fun a b => a.1 < b.1) (hk : ∀ x ∈ l, k ≤ x.1) :
    (∀ e ∈ l, e.1 ≠ firstFree k l) ∧ k ≤ firstFree k l ∧ ∀ m, k ≤ m → m < firstFree k l → ∃ e ∈ l, e.1 = m := by
  induction l generalizing k with
  | nil => exact ⟨by simp, Nat.le_refl _, fun m h1 h2 => absurd h2 (Nat.not_lt.2 h1)⟩
  | cons a l ih =>
    rw [List.pairwise_cons] at h
    have hka := hk a (by simp)
    unfold firstFree
    by_cases ha : a.1 = k
    · rw [if_pos (by simpa using ha)]
      obtain ⟨i1, i2, i3⟩ := ih (k + 1) h.2 fun x hx => by
        have := h.1 x hx
        omega
      refine ⟨?_, by omega, ?_⟩
      · intro e he
        rcases List.mem_cons.1 he with rfl | he
        · omega
        · exact i1 e he
      · intro m h1 h2
        by_cases hm : m = k
        · exact ⟨a, by simp, by omega⟩
        · obtain ⟨e, he, hq⟩ := i3 m (by omega) h2
          exact ⟨e, by simp [he], hq⟩
    · rw [if_neg (by simpa using ha)]
      refine ⟨?_, Nat.le_refl _, fun m h1 h2 => by omega⟩
      intro e he
      rcases List.mem_cons.1 he with rfl | he
      · exact ha
      · have := h.1 e he
        omega

end Sys2Proof.Machine.Cache
end

