-- ==== Sys2Proof/Laws/State.lean ====
section
/-! SUPPORT. One lemma for each field under each update of State, all true by rfl, and the updates that the shared operations are
written with, as the setters they stand for. -/

namespace Sys2Proof.Machine.State

@[simp] theorem straps_setStraps (x) (s : State) : (s.setStraps x).straps = x := rfl
@[simp] theorem link_setStraps (x) (s : State) : (s.setStraps x).link = s.link := rfl
@[simp] theorem lines_setStraps (x) (s : State) : (s.setStraps x).lines = s.lines := rfl
@[simp] theorem tables_setStraps (x) (s : State) : (s.setStraps x).tables = s.tables := rfl
@[simp] theorem slots_setStraps (x) (s : State) : (s.setStraps x).slots = s.slots := rfl
@[simp] theorem cache_setStraps (x) (s : State) : (s.setStraps x).cache = s.cache := rfl
@[simp] theorem fetches_setStraps (x) (s : State) : (s.setStraps x).fetches = s.fetches := rfl
@[simp] theorem dir_setStraps (x) (s : State) : (s.setStraps x).dir = s.dir := rfl
@[simp] theorem store_setStraps (x) (s : State) : (s.setStraps x).store = s.store := rfl
@[simp] theorem patrol_setStraps (x) (s : State) : (s.setStraps x).patrol = s.patrol := rfl
@[simp] theorem seq_setStraps (x) (s : State) : (s.setStraps x).seq = s.seq := rfl
@[simp] theorem head_setStraps (x) (s : State) : (s.setStraps x).head = s.head := rfl
@[simp] theorem out_setStraps (x) (s : State) : (s.setStraps x).out = s.out := rfl
@[simp] theorem pending_setStraps (x) (s : State) : (s.setStraps x).pending = s.pending := rfl

@[simp] theorem straps_setLink (x) (s : State) : (s.setLink x).straps = s.straps := rfl
@[simp] theorem link_setLink (x) (s : State) : (s.setLink x).link = x := rfl
@[simp] theorem lines_setLink (x) (s : State) : (s.setLink x).lines = s.lines := rfl
@[simp] theorem tables_setLink (x) (s : State) : (s.setLink x).tables = s.tables := rfl
@[simp] theorem slots_setLink (x) (s : State) : (s.setLink x).slots = s.slots := rfl
@[simp] theorem cache_setLink (x) (s : State) : (s.setLink x).cache = s.cache := rfl
@[simp] theorem fetches_setLink (x) (s : State) : (s.setLink x).fetches = s.fetches := rfl
@[simp] theorem dir_setLink (x) (s : State) : (s.setLink x).dir = s.dir := rfl
@[simp] theorem store_setLink (x) (s : State) : (s.setLink x).store = s.store := rfl
@[simp] theorem patrol_setLink (x) (s : State) : (s.setLink x).patrol = s.patrol := rfl
@[simp] theorem seq_setLink (x) (s : State) : (s.setLink x).seq = s.seq := rfl
@[simp] theorem head_setLink (x) (s : State) : (s.setLink x).head = s.head := rfl
@[simp] theorem out_setLink (x) (s : State) : (s.setLink x).out = s.out := rfl
@[simp] theorem pending_setLink (x) (s : State) : (s.setLink x).pending = s.pending := rfl

@[simp] theorem straps_setLines (x) (s : State) : (s.setLines x).straps = s.straps := rfl
@[simp] theorem link_setLines (x) (s : State) : (s.setLines x).link = s.link := rfl
@[simp] theorem lines_setLines (x) (s : State) : (s.setLines x).lines = x := rfl
@[simp] theorem tables_setLines (x) (s : State) : (s.setLines x).tables = s.tables := rfl
@[simp] theorem slots_setLines (x) (s : State) : (s.setLines x).slots = s.slots := rfl
@[simp] theorem cache_setLines (x) (s : State) : (s.setLines x).cache = s.cache := rfl
@[simp] theorem fetches_setLines (x) (s : State) : (s.setLines x).fetches = s.fetches := rfl
@[simp] theorem dir_setLines (x) (s : State) : (s.setLines x).dir = s.dir := rfl
@[simp] theorem store_setLines (x) (s : State) : (s.setLines x).store = s.store := rfl
@[simp] theorem patrol_setLines (x) (s : State) : (s.setLines x).patrol = s.patrol := rfl
@[simp] theorem seq_setLines (x) (s : State) : (s.setLines x).seq = s.seq := rfl
@[simp] theorem head_setLines (x) (s : State) : (s.setLines x).head = s.head := rfl
@[simp] theorem out_setLines (x) (s : State) : (s.setLines x).out = s.out := rfl
@[simp] theorem pending_setLines (x) (s : State) : (s.setLines x).pending = s.pending := rfl

@[simp] theorem straps_setTables (x) (s : State) : (s.setTables x).straps = s.straps := rfl
@[simp] theorem link_setTables (x) (s : State) : (s.setTables x).link = s.link := rfl
@[simp] theorem lines_setTables (x) (s : State) : (s.setTables x).lines = s.lines := rfl
@[simp] theorem tables_setTables (x) (s : State) : (s.setTables x).tables = x := rfl
@[simp] theorem slots_setTables (x) (s : State) : (s.setTables x).slots = s.slots := rfl
@[simp] theorem cache_setTables (x) (s : State) : (s.setTables x).cache = s.cache := rfl
@[simp] theorem fetches_setTables (x) (s : State) : (s.setTables x).fetches = s.fetches := rfl
@[simp] theorem dir_setTables (x) (s : State) : (s.setTables x).dir = s.dir := rfl
@[simp] theorem store_setTables (x) (s : State) : (s.setTables x).store = s.store := rfl
@[simp] theorem patrol_setTables (x) (s : State) : (s.setTables x).patrol = s.patrol := rfl
@[simp] theorem seq_setTables (x) (s : State) : (s.setTables x).seq = s.seq := rfl
@[simp] theorem head_setTables (x) (s : State) : (s.setTables x).head = s.head := rfl
@[simp] theorem out_setTables (x) (s : State) : (s.setTables x).out = s.out := rfl
@[simp] theorem pending_setTables (x) (s : State) : (s.setTables x).pending = s.pending := rfl

@[simp] theorem straps_setSlots (x) (s : State) : (s.setSlots x).straps = s.straps := rfl
@[simp] theorem link_setSlots (x) (s : State) : (s.setSlots x).link = s.link := rfl
@[simp] theorem lines_setSlots (x) (s : State) : (s.setSlots x).lines = s.lines := rfl
@[simp] theorem tables_setSlots (x) (s : State) : (s.setSlots x).tables = s.tables := rfl
@[simp] theorem slots_setSlots (x) (s : State) : (s.setSlots x).slots = x := rfl
@[simp] theorem cache_setSlots (x) (s : State) : (s.setSlots x).cache = s.cache := rfl
@[simp] theorem fetches_setSlots (x) (s : State) : (s.setSlots x).fetches = s.fetches := rfl
@[simp] theorem dir_setSlots (x) (s : State) : (s.setSlots x).dir = s.dir := rfl
@[simp] theorem store_setSlots (x) (s : State) : (s.setSlots x).store = s.store := rfl
@[simp] theorem patrol_setSlots (x) (s : State) : (s.setSlots x).patrol = s.patrol := rfl
@[simp] theorem seq_setSlots (x) (s : State) : (s.setSlots x).seq = s.seq := rfl
@[simp] theorem head_setSlots (x) (s : State) : (s.setSlots x).head = s.head := rfl
@[simp] theorem out_setSlots (x) (s : State) : (s.setSlots x).out = s.out := rfl
@[simp] theorem pending_setSlots (x) (s : State) : (s.setSlots x).pending = s.pending := rfl

@[simp] theorem straps_setCache (x) (s : State) : (s.setCache x).straps = s.straps := rfl
@[simp] theorem link_setCache (x) (s : State) : (s.setCache x).link = s.link := rfl
@[simp] theorem lines_setCache (x) (s : State) : (s.setCache x).lines = s.lines := rfl
@[simp] theorem tables_setCache (x) (s : State) : (s.setCache x).tables = s.tables := rfl
@[simp] theorem slots_setCache (x) (s : State) : (s.setCache x).slots = s.slots := rfl
@[simp] theorem cache_setCache (x) (s : State) : (s.setCache x).cache = x := rfl
@[simp] theorem fetches_setCache (x) (s : State) : (s.setCache x).fetches = s.fetches := rfl
@[simp] theorem dir_setCache (x) (s : State) : (s.setCache x).dir = s.dir := rfl
@[simp] theorem store_setCache (x) (s : State) : (s.setCache x).store = s.store := rfl
@[simp] theorem patrol_setCache (x) (s : State) : (s.setCache x).patrol = s.patrol := rfl
@[simp] theorem seq_setCache (x) (s : State) : (s.setCache x).seq = s.seq := rfl
@[simp] theorem head_setCache (x) (s : State) : (s.setCache x).head = s.head := rfl
@[simp] theorem out_setCache (x) (s : State) : (s.setCache x).out = s.out := rfl
@[simp] theorem pending_setCache (x) (s : State) : (s.setCache x).pending = s.pending := rfl

@[simp] theorem straps_setFetches (x) (s : State) : (s.setFetches x).straps = s.straps := rfl
@[simp] theorem link_setFetches (x) (s : State) : (s.setFetches x).link = s.link := rfl
@[simp] theorem lines_setFetches (x) (s : State) : (s.setFetches x).lines = s.lines := rfl
@[simp] theorem tables_setFetches (x) (s : State) : (s.setFetches x).tables = s.tables := rfl
@[simp] theorem slots_setFetches (x) (s : State) : (s.setFetches x).slots = s.slots := rfl
@[simp] theorem cache_setFetches (x) (s : State) : (s.setFetches x).cache = s.cache := rfl
@[simp] theorem fetches_setFetches (x) (s : State) : (s.setFetches x).fetches = x := rfl
@[simp] theorem dir_setFetches (x) (s : State) : (s.setFetches x).dir = s.dir := rfl
@[simp] theorem store_setFetches (x) (s : State) : (s.setFetches x).store = s.store := rfl
@[simp] theorem patrol_setFetches (x) (s : State) : (s.setFetches x).patrol = s.patrol := rfl
@[simp] theorem seq_setFetches (x) (s : State) : (s.setFetches x).seq = s.seq := rfl
@[simp] theorem head_setFetches (x) (s : State) : (s.setFetches x).head = s.head := rfl
@[simp] theorem out_setFetches (x) (s : State) : (s.setFetches x).out = s.out := rfl
@[simp] theorem pending_setFetches (x) (s : State) : (s.setFetches x).pending = s.pending := rfl

@[simp] theorem straps_setDir (x) (s : State) : (s.setDir x).straps = s.straps := rfl
@[simp] theorem link_setDir (x) (s : State) : (s.setDir x).link = s.link := rfl
@[simp] theorem lines_setDir (x) (s : State) : (s.setDir x).lines = s.lines := rfl
@[simp] theorem tables_setDir (x) (s : State) : (s.setDir x).tables = s.tables := rfl
@[simp] theorem slots_setDir (x) (s : State) : (s.setDir x).slots = s.slots := rfl
@[simp] theorem cache_setDir (x) (s : State) : (s.setDir x).cache = s.cache := rfl
@[simp] theorem fetches_setDir (x) (s : State) : (s.setDir x).fetches = s.fetches := rfl
@[simp] theorem dir_setDir (x) (s : State) : (s.setDir x).dir = x := rfl
@[simp] theorem store_setDir (x) (s : State) : (s.setDir x).store = s.store := rfl
@[simp] theorem patrol_setDir (x) (s : State) : (s.setDir x).patrol = s.patrol := rfl
@[simp] theorem seq_setDir (x) (s : State) : (s.setDir x).seq = s.seq := rfl
@[simp] theorem head_setDir (x) (s : State) : (s.setDir x).head = s.head := rfl
@[simp] theorem out_setDir (x) (s : State) : (s.setDir x).out = s.out := rfl
@[simp] theorem pending_setDir (x) (s : State) : (s.setDir x).pending = s.pending := rfl

@[simp] theorem straps_setStore (x) (s : State) : (s.setStore x).straps = s.straps := rfl
@[simp] theorem link_setStore (x) (s : State) : (s.setStore x).link = s.link := rfl
@[simp] theorem lines_setStore (x) (s : State) : (s.setStore x).lines = s.lines := rfl
@[simp] theorem tables_setStore (x) (s : State) : (s.setStore x).tables = s.tables := rfl
@[simp] theorem slots_setStore (x) (s : State) : (s.setStore x).slots = s.slots := rfl
@[simp] theorem cache_setStore (x) (s : State) : (s.setStore x).cache = s.cache := rfl
@[simp] theorem fetches_setStore (x) (s : State) : (s.setStore x).fetches = s.fetches := rfl
@[simp] theorem dir_setStore (x) (s : State) : (s.setStore x).dir = s.dir := rfl
@[simp] theorem store_setStore (x) (s : State) : (s.setStore x).store = x := rfl
@[simp] theorem patrol_setStore (x) (s : State) : (s.setStore x).patrol = s.patrol := rfl
@[simp] theorem seq_setStore (x) (s : State) : (s.setStore x).seq = s.seq := rfl
@[simp] theorem head_setStore (x) (s : State) : (s.setStore x).head = s.head := rfl
@[simp] theorem out_setStore (x) (s : State) : (s.setStore x).out = s.out := rfl
@[simp] theorem pending_setStore (x) (s : State) : (s.setStore x).pending = s.pending := rfl

@[simp] theorem straps_setPatrol (x) (s : State) : (s.setPatrol x).straps = s.straps := rfl
@[simp] theorem link_setPatrol (x) (s : State) : (s.setPatrol x).link = s.link := rfl
@[simp] theorem lines_setPatrol (x) (s : State) : (s.setPatrol x).lines = s.lines := rfl
@[simp] theorem tables_setPatrol (x) (s : State) : (s.setPatrol x).tables = s.tables := rfl
@[simp] theorem slots_setPatrol (x) (s : State) : (s.setPatrol x).slots = s.slots := rfl
@[simp] theorem cache_setPatrol (x) (s : State) : (s.setPatrol x).cache = s.cache := rfl
@[simp] theorem fetches_setPatrol (x) (s : State) : (s.setPatrol x).fetches = s.fetches := rfl
@[simp] theorem dir_setPatrol (x) (s : State) : (s.setPatrol x).dir = s.dir := rfl
@[simp] theorem store_setPatrol (x) (s : State) : (s.setPatrol x).store = s.store := rfl
@[simp] theorem patrol_setPatrol (x) (s : State) : (s.setPatrol x).patrol = x := rfl
@[simp] theorem seq_setPatrol (x) (s : State) : (s.setPatrol x).seq = s.seq := rfl
@[simp] theorem head_setPatrol (x) (s : State) : (s.setPatrol x).head = s.head := rfl
@[simp] theorem out_setPatrol (x) (s : State) : (s.setPatrol x).out = s.out := rfl
@[simp] theorem pending_setPatrol (x) (s : State) : (s.setPatrol x).pending = s.pending := rfl

@[simp] theorem straps_setSeq (x) (s : State) : (s.setSeq x).straps = s.straps := rfl
@[simp] theorem link_setSeq (x) (s : State) : (s.setSeq x).link = s.link := rfl
@[simp] theorem lines_setSeq (x) (s : State) : (s.setSeq x).lines = s.lines := rfl
@[simp] theorem tables_setSeq (x) (s : State) : (s.setSeq x).tables = s.tables := rfl
@[simp] theorem slots_setSeq (x) (s : State) : (s.setSeq x).slots = s.slots := rfl
@[simp] theorem cache_setSeq (x) (s : State) : (s.setSeq x).cache = s.cache := rfl
@[simp] theorem fetches_setSeq (x) (s : State) : (s.setSeq x).fetches = s.fetches := rfl
@[simp] theorem dir_setSeq (x) (s : State) : (s.setSeq x).dir = s.dir := rfl
@[simp] theorem store_setSeq (x) (s : State) : (s.setSeq x).store = s.store := rfl
@[simp] theorem patrol_setSeq (x) (s : State) : (s.setSeq x).patrol = s.patrol := rfl
@[simp] theorem seq_setSeq (x) (s : State) : (s.setSeq x).seq = x := rfl
@[simp] theorem head_setSeq (x) (s : State) : (s.setSeq x).head = s.head := rfl
@[simp] theorem out_setSeq (x) (s : State) : (s.setSeq x).out = s.out := rfl
@[simp] theorem pending_setSeq (x) (s : State) : (s.setSeq x).pending = s.pending := rfl

@[simp] theorem straps_setHead (x) (s : State) : (s.setHead x).straps = s.straps := rfl
@[simp] theorem link_setHead (x) (s : State) : (s.setHead x).link = s.link := rfl
@[simp] theorem lines_setHead (x) (s : State) : (s.setHead x).lines = s.lines := rfl
@[simp] theorem tables_setHead (x) (s : State) : (s.setHead x).tables = s.tables := rfl
@[simp] theorem slots_setHead (x) (s : State) : (s.setHead x).slots = s.slots := rfl
@[simp] theorem cache_setHead (x) (s : State) : (s.setHead x).cache = s.cache := rfl
@[simp] theorem fetches_setHead (x) (s : State) : (s.setHead x).fetches = s.fetches := rfl
@[simp] theorem dir_setHead (x) (s : State) : (s.setHead x).dir = s.dir := rfl
@[simp] theorem store_setHead (x) (s : State) : (s.setHead x).store = s.store := rfl
@[simp] theorem patrol_setHead (x) (s : State) : (s.setHead x).patrol = s.patrol := rfl
@[simp] theorem seq_setHead (x) (s : State) : (s.setHead x).seq = s.seq := rfl
@[simp] theorem head_setHead (x) (s : State) : (s.setHead x).head = x := rfl
@[simp] theorem out_setHead (x) (s : State) : (s.setHead x).out = s.out := rfl
@[simp] theorem pending_setHead (x) (s : State) : (s.setHead x).pending = s.pending := rfl

@[simp] theorem straps_setOut (x) (s : State) : (s.setOut x).straps = s.straps := rfl
@[simp] theorem link_setOut (x) (s : State) : (s.setOut x).link = s.link := rfl
@[simp] theorem lines_setOut (x) (s : State) : (s.setOut x).lines = s.lines := rfl
@[simp] theorem tables_setOut (x) (s : State) : (s.setOut x).tables = s.tables := rfl
@[simp] theorem slots_setOut (x) (s : State) : (s.setOut x).slots = s.slots := rfl
@[simp] theorem cache_setOut (x) (s : State) : (s.setOut x).cache = s.cache := rfl
@[simp] theorem fetches_setOut (x) (s : State) : (s.setOut x).fetches = s.fetches := rfl
@[simp] theorem dir_setOut (x) (s : State) : (s.setOut x).dir = s.dir := rfl
@[simp] theorem store_setOut (x) (s : State) : (s.setOut x).store = s.store := rfl
@[simp] theorem patrol_setOut (x) (s : State) : (s.setOut x).patrol = s.patrol := rfl
@[simp] theorem seq_setOut (x) (s : State) : (s.setOut x).seq = s.seq := rfl
@[simp] theorem head_setOut (x) (s : State) : (s.setOut x).head = s.head := rfl
@[simp] theorem out_setOut (x) (s : State) : (s.setOut x).out = x := rfl
@[simp] theorem pending_setOut (x) (s : State) : (s.setOut x).pending = s.pending := rfl

@[simp] theorem straps_setPending (x) (s : State) : (s.setPending x).straps = s.straps := rfl
@[simp] theorem link_setPending (x) (s : State) : (s.setPending x).link = s.link := rfl
@[simp] theorem lines_setPending (x) (s : State) : (s.setPending x).lines = s.lines := rfl
@[simp] theorem tables_setPending (x) (s : State) : (s.setPending x).tables = s.tables := rfl
@[simp] theorem slots_setPending (x) (s : State) : (s.setPending x).slots = s.slots := rfl
@[simp] theorem cache_setPending (x) (s : State) : (s.setPending x).cache = s.cache := rfl
@[simp] theorem fetches_setPending (x) (s : State) : (s.setPending x).fetches = s.fetches := rfl
@[simp] theorem dir_setPending (x) (s : State) : (s.setPending x).dir = s.dir := rfl
@[simp] theorem store_setPending (x) (s : State) : (s.setPending x).store = s.store := rfl
@[simp] theorem patrol_setPending (x) (s : State) : (s.setPending x).patrol = s.patrol := rfl
@[simp] theorem seq_setPending (x) (s : State) : (s.setPending x).seq = s.seq := rfl
@[simp] theorem head_setPending (x) (s : State) : (s.setPending x).head = s.head := rfl
@[simp] theorem out_setPending (x) (s : State) : (s.setPending x).out = s.out := rfl
@[simp] theorem pending_setPending (x) (s : State) : (s.setPending x).pending = x := rfl

@[simp] theorem mapLink_eq (f) (s : State) : s.mapLink f = s.setLink (f s.link) := rfl
@[simp] theorem mapCache_eq (f) (s : State) : s.mapCache f = s.setCache (f s.cache) := rfl
@[simp] theorem mapDir_eq (f) (s : State) : s.mapDir f = s.setDir (f s.dir) := rfl
@[simp] theorem mapStore_eq (f) (s : State) : s.mapStore f = s.setStore (f s.store) := rfl
@[simp] theorem mapPatrol_eq (f) (s : State) : s.mapPatrol f = s.setPatrol (f s.patrol) := rfl
@[simp] theorem mapSeq_eq (f) (s : State) : s.mapSeq f = s.setSeq (f s.seq) := rfl
@[simp] theorem setAcc_eq (f) (s : State) : s.setAcc f = s.setSeq { s.seq with acc := f s.seq.acc } := rfl
@[simp] theorem fresh_eq (s : State) : s.fresh = s.setOut [] := rfl
@[simp] theorem emit_eq (o) (s : State) : s.emit o = s.setOut (s.out ++ [o]) := rfl
@[simp] theorem putSlot_eq (i v) (s : State) : s.putSlot i v = s.setSlots (s.slots.put i v) := rfl
@[simp] theorem slot_eq (s : State) (i) : s.slot i = s.slots.get i := rfl
theorem own_eq (s : State) : s.own = s.straps.station := rfl

end Sys2Proof.Machine.State
end

