-- ==== Sys2Proof/Laws/Quiet.lean ====
section
/-! SUPPORT. Everything that the slots, the fetch list and the transmit queue can change by acting on their own: `Quiet s t` says what
stays the same, and each shared operation of Ops, Slots and Fetch is Quiet. -/

namespace Sys2Proof.Machine

/-- No flag of the accumulator is cleared, and only line flags and the loss flags become set. -/
structure Accumulator.Kept (a b : Accumulator) : Prop where
  alarm   : b.alarm = a.alarm
  closed  : b.closed = a.closed
  filmLow : b.filmLow = a.filmLow
  reportLost : a.reportLost = true → b.reportLost = true
  noticeLost : a.noticeLost = true → b.noticeLost = true

theorem Accumulator.Kept.refl (a : Accumulator) : Accumulator.Kept a a := ⟨rfl, rfl, rfl, id, id⟩

theorem Accumulator.Kept.trans {a b c : Accumulator} (h : Accumulator.Kept a b) (k : Accumulator.Kept b c) :
    Accumulator.Kept a c :=
  ⟨k.alarm.trans h.alarm, k.closed.trans h.closed, k.filmLow.trans h.filmLow, fun x => k.reportLost (h.reportLost x),
    fun x => k.noticeLost (h.noticeLost x)⟩

/-- From `s` to `t` only the transmit queue, the waiting ENROL, the Line Queue, the slots, the cache, the fetch list, the enrol wait and
the outgoing list, the waiting reads, the sequencer's state and accumulator, the outstanding message and the outputs may differ, and no
queue passes its capacity, no frame becomes the one being attempted, and neither the loss flags nor the enrol wait are cleared. -/
structure Quiet (s t : State) : Prop where
  straps  : t.straps = s.straps
  tables  : t.tables = s.tables
  pending : t.pending = s.pending
  patrol  : t.patrol = s.patrol
  link    : { t.link with queue := s.link.queue, enrolWaits := s.link.enrolWaits } = s.link
  store   : { t.store with reads := s.store.reads } = s.store
  dir     : { t.dir with outgoing := s.dir.outgoing, enrolWait := s.dir.enrolWait } = s.dir
  seq     : { t.seq with state := s.seq.state, acc := s.seq.acc } = s.seq
  queueCap : s.link.queue.length ≤ Config.txCapacity → t.link.queue.length ≤ Config.txCapacity
  fetchCap : s.fetches.length ≤ Config.fetchCapacity → t.fetches.length ≤ Config.fetchCapacity
  lines   : t.lines.length ≤ s.lines.length
  onLink  : ∀ x ∈ t.link.queue, x.onLink = true → x ∈ s.link.queue
  acc     : Accumulator.Kept s.seq.acc t.seq.acc
  wait    : s.dir.enrolWait = true → t.dir.enrolWait = true

namespace Quiet

theorem refl (s : State) : Quiet s s := by
  constructor <;>
    first | rfl | exact Accumulator.Kept.refl _ | exact Nat.le_refl _ | exact id | exact fun _ h _ => h

theorem trans {s t u : State} (h : Quiet s t) (k : Quiet t u) : Quiet s u where
  straps := k.straps.trans h.straps
  tables := k.tables.trans h.tables
  pending := k.pending.trans h.pending
  patrol := k.patrol.trans h.patrol
  link := (congrArg (fun l : Link => { l with queue := s.link.queue, enrolWaits := s.link.enrolWaits }) k.link).trans h.link
  store := (congrArg (fun x : Store => { x with reads := s.store.reads }) k.store).trans h.store
  dir := (congrArg (fun d : Directory => { d with outgoing := s.dir.outgoing, enrolWait := s.dir.enrolWait }) k.dir).trans h.dir
  seq := (congrArg (fun q : Sequencer => { q with state := s.seq.state, acc := s.seq.acc }) k.seq).trans h.seq
  queueCap := fun a => k.queueCap (h.queueCap a)
  fetchCap := fun a => k.fetchCap (h.fetchCap a)
  lines := Nat.le_trans k.lines h.lines
  onLink := fun x hx ho => h.onLink x (k.onLink x hx ho) ho
  acc := h.acc.trans k.acc
  wait := fun a => k.wait (h.wait a)

variable {s t : State} (h : Quiet s t)
include h

theorem linkState : t.link.state = s.link.state := (congrArg Link.state h.link :)
theorem linkExchange : t.link.exchange = s.link.exchange := (congrArg Link.exchange h.link :)
theorem linkTenure : t.link.tenure = s.link.tenure := (congrArg Link.tenure h.link :)
theorem memory : t.store.memory = s.store.memory := (congrArg Store.memory h.store :)
theorem index : t.store.index = s.store.index := (congrArg Store.index h.store :)
theorem writes : t.store.writes = s.store.writes := (congrArg Store.writes h.store :)
theorem dirEntries : t.dir.entries = s.dir.entries := (congrArg Directory.entries h.dir :)
theorem dirAbsent : t.dir.absent = s.dir.absent := (congrArg Directory.absent h.dir :)
theorem galley : t.seq.galley = s.seq.galley := (congrArg Sequencer.galley h.seq :)
theorem columns : t.seq.columns = s.seq.columns := (congrArg Sequencer.columns h.seq :)
theorem depth : t.seq.depth = s.seq.depth := (congrArg Sequencer.depth h.seq :)

end Quiet

/-! ## The setters that are Quiet by themselves -/

theorem quiet_setSlots (x) (s : State) : Quiet s (s.setSlots x) := by
  constructor <;>
    first | rfl | exact Accumulator.Kept.refl _ | exact Nat.le_refl _ | exact id | exact fun _ h _ => h
theorem quiet_setCache (x) (s : State) : Quiet s (s.setCache x) := by
  constructor <;>
    first | rfl | exact Accumulator.Kept.refl _ | exact Nat.le_refl _ | exact id | exact fun _ h _ => h
theorem quiet_setHead (x) (s : State) : Quiet s (s.setHead x) := by
  constructor <;>
    first | rfl | exact Accumulator.Kept.refl _ | exact Nat.le_refl _ | exact id | exact fun _ h _ => h
theorem quiet_setOut (x) (s : State) : Quiet s (s.setOut x) := by
  constructor <;>
    first | rfl | exact Accumulator.Kept.refl _ | exact Nat.le_refl _ | exact id | exact fun _ h _ => h

theorem quiet_setAcc (f) (s : State) (h : Accumulator.Kept s.seq.acc (f s.seq.acc)) : Quiet s (s.setAcc f) := by
  constructor <;> first | rfl | exact h | exact Nat.le_refl _ | exact id | exact fun _ h _ => h

theorem quiet_takeReport (x : LineFlags) (s : State) : Quiet s (s.setAcc fun a => a.takeReport x) :=
  quiet_setAcc _ s ⟨rfl, rfl, rfl, id, id⟩
theorem quiet_reportLost (s : State) : Quiet s s.reportLost := quiet_setAcc _ s ⟨rfl, rfl, rfl, fun _ => rfl, id⟩
theorem quiet_noticeLost (s : State) : Quiet s s.noticeLost := quiet_setAcc _ s ⟨rfl, rfl, rfl, id, fun _ => rfl⟩

theorem quiet_setFetches (x) (s : State)
    (h : s.fetches.length ≤ Config.fetchCapacity → x.length ≤ Config.fetchCapacity) : Quiet s (s.setFetches x) := by
  constructor <;>
    first | rfl | exact Accumulator.Kept.refl _ | exact Nat.le_refl _ | exact h | exact id | exact fun _ h _ => h

theorem quiet_seqState (x) (s : State) : Quiet s (s.mapSeq fun q => { q with state := x }) := by
  constructor <;>
    first | rfl | exact Accumulator.Kept.refl _ | exact Nat.le_refl _ | exact id | exact fun _ h _ => h

theorem quiet_reads (f : List ReadRequest → List ReadRequest) (s : State) :
    Quiet s (s.mapStore fun st => { st with reads := f st.reads }) := by
  constructor <;>
    first | rfl | exact Accumulator.Kept.refl _ | exact Nat.le_refl _ | exact id | exact fun _ h _ => h

theorem quiet_enrolWaits (b) (s : State) : Quiet s (s.mapLink fun l => { l with enrolWaits := b }) := by
  constructor <;>
    first | rfl | exact Accumulator.Kept.refl _ | exact Nat.le_refl _ | exact id | exact fun _ h _ => h

theorem quiet_outgoing (f : List KeyRange → List KeyRange) (s : State) :
    Quiet s (s.mapDir fun d => { d with outgoing := f d.outgoing }) := by
  constructor <;>
    first | rfl | exact Accumulator.Kept.refl _ | exact Nat.le_refl _ | exact id | exact fun _ h _ => h

theorem quiet_startWait (s : State) : Quiet s (s.mapDir Directory.startWait) := by
  constructor <;> simp only [State.mapDir_eq, Directory.startWait] <;> split <;>
    first | rfl | exact Accumulator.Kept.refl _ | exact Nat.le_refl _ | exact id | exact fun _ h _ => h | exact fun _ => rfl

/-! ## The transmit queue -/

namespace State

theorem insertTx_length (e : TxEntry) (q : List TxEntry) : (insertTx e q).length = q.length + 1 := by
  induction q with
  | nil => rfl
  | cons x xs ih => simp only [insertTx]; split <;> simp [ih]

theorem mem_insertTx (x e : TxEntry) (q : List TxEntry) : x ∈ insertTx e q ↔ x = e ∨ x ∈ q := by
  induction q with
  | nil => simp [insertTx]
  | cons y ys ih =>
    simp only [insertTx]
    split
    · simp
    · rw [List.mem_cons, ih, List.mem_cons]
      exact or_left_comm

theorem atPlacing_quiet (f) (s : State) : Quiet s (s.atPlacing f) := by
  cases f <;> simp only [atPlacing]
  case report => exact quiet_takeReport _ s
  all_goals exact .refl s

theorem giveUp_quiet (f) (s : State) : Quiet s (s.giveUp f) := by
  cases f <;> simp only [giveUp]
  case report => exact quiet_reportLost s
  case notice => exact quiet_noticeLost s
  case withdraw => exact .refl s
  case enrol => exact quiet_startWait s

theorem delivered_quiet (f) (s : State) : Quiet s (s.delivered f) := by
  cases f <;> simp only [delivered]
  case enrol => exact quiet_startWait s
  all_goals exact .refl s

theorem atPlacing_queue (f) (s : State) : (s.atPlacing f).link = s.link := by cases f <;> simp [atPlacing]

/-- An offer places the frame, gives it up in MUTE, or leaves the station as it is. -/
theorem offer_quiet (f) (s : State) : Quiet s (s.offer f).1 := by
  unfold offer
  split
  · exact (atPlacing_quiet f s).trans (giveUp_quiet f _)
  · split
    · next hq =>
      refine (atPlacing_quiet f s).trans ?_
      constructor <;>
        first
          | rfl
          | exact Accumulator.Kept.refl _
          | exact Nat.le_refl _
          | exact id
          | (intro _; simp only [State.mapLink_eq, State.link_setLink, insertTx_length, atPlacing_queue]; exact hq)
          | (intro x hx ho
             simp only [State.mapLink_eq, State.link_setLink, mem_insertTx] at hx
             rcases hx with hx | hx
             · subst hx; exact absurd ho (by simp)
             · exact hx)
    · exact .refl s

theorem notify_quiet (d n) (s : State) : Quiet s (s.notify d n) := by
  unfold notify
  have h := offer_quiet (.notice d n) s
  dsimp only
  split
  · exact h
  · exact h.trans (quiet_noticeLost _)

theorem offerEnrol_quiet (s : State) : Quiet s s.offerEnrol :=
  (offer_quiet (.enrol s.enrolFields) s).trans (quiet_enrolWaits _ _)

theorem offerWithdraws_quiet (n) (s : State) : Quiet s (offerWithdraws n s) := by
  induction n generalizing s with
  | zero => exact .refl s
  | succ n ih =>
    simp only [offerWithdraws]
    split
    · exact .refl s
    · split
      · exact ((offer_quiet _ s).trans (quiet_outgoing (List.drop Config.withdrawRanges) _)).trans (ih _)
      · exact .refl s

theorem offerOutgoing_quiet (s : State) : Quiet s s.offerOutgoing := offerWithdraws_quiet _ s

theorem offerSlot_quiet (i) (s : State) : Quiet s (s.offerSlot i) := by
  unfold offerSlot
  split
  · dsimp only
    split
    · exact (offer_quiet _ s).trans (quiet_setSlots _ _)
    · exact .refl s
  · exact .refl s

theorem reportEntries_quiet (which es) (s : State) : Quiet s (reportEntries which es s).2 := by
  induction es generalizing s with
  | nil => exact .refl s
  | cons e es ih =>
    simp only [reportEntries]
    split
    · exact ih s
    · split
      · exact (offer_quiet _ s).trans (ih _)
      · exact (offer_quiet _ s).trans (ih _)

theorem reportEntries_length (which es) (s : State) : (reportEntries which es s).1.length ≤ es.length := by
  induction es generalizing s with
  | nil => simp [reportEntries]
  | cons e es ih =>
    simp only [reportEntries]
    split
    · simpa using ih s
    · split
      · exact Nat.le_trans (ih _) (by simp)
      · simpa using ih _

theorem reportLines_quiet (which) (s : State) : Quiet s (s.reportLines which) := by
  have h := reportEntries_quiet which s.lines s
  have k := reportEntries_length which s.lines s
  exact { straps := h.straps, tables := h.tables, pending := h.pending, patrol := h.patrol, link := h.link, store := h.store
          dir := h.dir, seq := h.seq, queueCap := h.queueCap, fetchCap := h.fetchCap, lines := k, onLink := h.onLink, acc := h.acc
          wait := h.wait }

/-- The owners that wait for room are offered it. -/
theorem gainRoom_quiet (s : State) : Quiet s s.gainRoom := by
  unfold gainRoom
  have h : Quiet s (if s.link.enrolWaits then s.offerEnrol else s) := by
    split
    · exact offerEnrol_quiet s
    · exact .refl s
  exact (((h.trans (offerOutgoing_quiet _)).trans (offerSlot_quiet _ _)).trans (offerSlot_quiet _ _)).trans
    (reportLines_quiet _ _)

/-! ## Slots -/

theorem putSlot_quiet (i v) (s : State) : Quiet s (s.putSlot i v) := quiet_setSlots _ s
theorem mapCache_quiet (f) (s : State) : Quiet s (s.mapCache f) := quiet_setCache _ s
theorem setPass_quiet (i f) (s : State) : Quiet s (s.setPass i f) := quiet_setSlots _ s
theorem setPlacement_quiet (i p f) (s : State) : Quiet s (s.setPlacement i p f) := quiet_setSlots _ s
theorem setFlags_quiet (i f) (s : State) : Quiet s (s.setFlags i f) := quiet_setSlots _ s
theorem passOn_quiet (i) (s : State) : Quiet s (s.passOn i) := setPass_quiet _ _ s

theorem resolveAt_quiet (i p n) (s : State) : Quiet s (s.resolveAt i p n) := by
  unfold resolveAt
  split
  · exact (mapCache_quiet _ s).trans (setPlacement_quiet _ _ _ _)
  · exact .refl s

theorem queueRead_quiet (i k) (s : State) : Quiet s (s.queueRead i k) :=
  (quiet_reads (· ++ [{ slot := i, key := k, live := true }]) s).trans (setPass_quiet _ _ _)

theorem secondStep_quiet (i k) (s : State) : Quiet s (s.secondStep i k) := by
  unfold secondStep
  split
  · exact setPass_quiet _ _ s
  · exact queueRead_quiet i k s

theorem fetchFor_quiet (i p k t) (s : State) (h : s.fetches.length < Config.fetchCapacity) : Quiet s (s.fetchFor i p k t) := by
  unfold fetchFor
  split
  · exact resolveAt_quiet _ _ _ s
  · refine Quiet.trans (quiet_setFetches _ s ?_) (setPlacement_quiet _ _ _ _)
    intro _
    simp
    omega

theorem thirdStep_quiet (i p k) (s : State) : Quiet s (s.thirdStep i p k) := by
  unfold thirdStep
  split
  · exact setPlacement_quiet _ _ _ s
  · split
    · exact (setPlacement_quiet _ _ _ s).trans (setFlags_quiet _ _ _)
    · split
      · next h => exact fetchFor_quiet _ _ _ _ s h
      · exact setPlacement_quiet _ _ _ s

theorem visit_quiet (i p k) (s : State) : Quiet s (s.visit i p k) := by
  unfold visit
  split
  · exact resolveAt_quiet _ _ _ s
  · split
    · exact secondStep_quiet _ _ s
    · exact thirdStep_quiet _ _ _ s

theorem walk_quiet (n i) (s : State) : Quiet s (walk n i s) := by
  induction n generalizing s with
  | zero => exact .refl s
  | succ n ih =>
    simp only [walk]
    split
    · exact .refl s
    · split
      · exact .refl s
      · split
        · split
          · exact ((visit_quiet _ _ _ s).trans (passOn_quiet _ _)).trans (ih _)
          · exact visit_quiet _ _ _ s
        · exact (passOn_quiet _ s).trans (ih _)

theorem releaseHeld_quiet (j) (s : State) : Quiet s (s.releaseHeld j) := by
  unfold releaseHeld
  dsimp only
  split
  · exact putSlot_quiet _ _ s
  · split <;> exact putSlot_quiet _ _ s
  · exact putSlot_quiet _ _ s

theorem passEnded_quiet (i) (s : State) : Quiet s (s.passEnded i) := by
  unfold passEnded
  split
  · exact .refl s
  · exact releaseHeld_quiet _ s
  · exact putSlot_quiet _ _ s

theorem passesOver_quiet (i) (s : State) : Quiet s (s.passesOver i) := by
  unfold passesOver
  split
  · exact .refl s
  · exact releaseHeld_quiet _ s

theorem answerRoom_quiet (i) (s : State) : Quiet s (s.answerRoom i) := by
  unfold answerRoom
  split
  · exact putSlot_quiet _ _ s
  · exact putSlot_quiet _ _ s
  all_goals exact .refl s

theorem roomEvent_quiet (s : State) : Quiet s s.roomEvent := by
  unfold roomEvent
  dsimp only
  split
  · exact (answerRoom_quiet _ s).trans (putSlot_quiet _ _ _)
  · split
    · exact answerRoom_quiet _ s
    · split
      · exact answerRoom_quiet _ s
      · exact .refl s

/-- A line is given its outcome: its list is released and its report offered. -/
theorem finishLine_quiet (i o w g) (s : State) : Quiet s (s.finishLine i o w g) := by
  unfold finishLine
  dsimp only
  split
  · exact .refl s
  · exact ((((mapCache_quiet _ s).trans (quiet_reads (List.map _) _)).trans (putSlot_quiet _ _ _)).trans
      (offerSlot_quiet _ _)).trans (passesOver_quiet _ _)

theorem endAssembly_quiet (o i) (s : State) : Quiet s (s.endAssembly o i) := by
  unfold endAssembly
  split
  · exact finishLine_quiet _ _ _ _ s
  · exact .refl s

theorem endBoth_quiet (o) (s : State) : Quiet s (s.endBoth o) := (endAssembly_quiet _ _ s).trans (endAssembly_quiet _ _ _)

theorem measureSlot_quiet (i) (s : State) : Quiet s (s.measureSlot i) := by
  unfold measureSlot
  dsimp only
  split
  · exact .refl s
  · split
    · exact putSlot_quiet _ _ s
    · exact finishLine_quiet _ _ _ _ s

theorem endPass_quiet (i) (s : State) : Quiet s (s.endPass i) := by
  unfold endPass
  dsimp only
  split
  · exact (passesOver_quiet _ s).trans (measureSlot_quiet _ _)
  · exact (passesOver_quiet _ s).trans (putSlot_quiet _ _ _)

theorem passes_quiet (n i) (s : State) : Quiet s (passes n i s) := by
  induction n generalizing s with
  | zero => exact .refl s
  | succ n ih =>
    simp only [passes]
    have hw := walk_quiet ((s.slot i).list.length - ((s.slot i).pass.map Pass.pos).getD 0) i s
    split
    · exact hw
    · split
      · split
        · split
          · exact hw.trans (setPass_quiet _ _ _)
          · exact ((hw.trans (putSlot_quiet _ _ _)).trans (passEnded_quiet _ _)).trans (ih _)
        · exact hw.trans (endPass_quiet _ _)
      · exact hw

theorem runSlot_quiet (i) (s : State) : Quiet s (s.runSlot i) := by
  unfold runSlot
  split
  · split
    · exact passes_quiet _ _ s
    · exact .refl s
  · split
    · exact measureSlot_quiet _ s
    · exact .refl s
  all_goals exact .refl s

/-! ## Hand-over -/

theorem transfer_quiet (i) (s : State) : Quiet s (s.transfer i) :=
  (((putSlot_quiet _ _ s).trans (quiet_seqState _ _)).trans (quiet_setHead _ _)).trans (quiet_setOut _ _)

theorem takeReady_quiet (i) (s : State) : Quiet s (s.takeReady i) := by
  unfold takeReady
  split
  · exact (quiet_seqState _ s).trans (notify_quiet _ _ _)
  · exact transfer_quiet i s

theorem dispatch_quiet (s : State) : Quiet s s.dispatch := by
  unfold dispatch
  split
  · split
    · split
      · exact takeReady_quiet _ s
      · exact .refl s
    · exact .refl s
  · exact .refl s

theorem leaveProof_quiet (s : State) : Quiet s s.leaveProof := by
  unfold leaveProof
  split
  · split
    · exact .refl s
    · exact quiet_seqState _ s
  all_goals exact .refl s

/-- What follows at once from an event on the slots. -/
theorem settle_quiet (s : State) : Quiet s s.settle :=
  ((((leaveProof_quiet s).trans (runSlot_quiet _ _)).trans (dispatch_quiet _)).trans (runSlot_quiet _ _)).trans (dispatch_quiet _)

/-! ## Ends of fetches and invalidation -/

theorem resolveAwaiting_quiet (k n r a i) (s : State) : Quiet s (s.resolveAwaiting k n r a i) := by
  unfold resolveAwaiting
  dsimp only
  split
  · exact .refl s
  · have h := (mapCache_quiet (fun c => (List.replicate ((s.slot i).list.filter (Slot.awaits k)).length n).foldl
      (fun c m => c.pin m) c) s).trans (putSlot_quiet i ((s.slot i).withList ((s.slot i).list.map fun p =>
        if Slot.awaits k p then resolveWith n r p else p)) _)
    split
    · exact h.trans (setFlags_quiet _ _ _)
    · exact h

theorem resolveAllAwaiting_quiet (k n r a) (s : State) : Quiet s (s.resolveAllAwaiting k n r a) :=
  (resolveAwaiting_quiet _ _ _ _ _ s).trans (resolveAwaiting_quiet _ _ _ _ _ _)

theorem substituteAwaiting_quiet (k i) (s : State) : Quiet s (s.substituteAwaiting k i) := by
  unfold substituteAwaiting
  dsimp only
  split
  · exact (putSlot_quiet _ _ s).trans (setFlags_quiet _ _ _)
  · exact .refl s

theorem dropFetch_quiet (k) (s : State) : Quiet s (s.dropFetch k) :=
  quiet_setFetches _ s fun h => Nat.le_trans (List.length_filter_le _ _) h

theorem updateFetch_quiet (k f) (s : State) : Quiet s (s.updateFetch k f) :=
  quiet_setFetches _ s fun h => by simpa using h

theorem staleSlot_quiet (ns i) (s : State) : Quiet s (s.staleSlot ns i) := by
  unfold staleSlot
  dsimp only
  split
  · split
    · exact setFlags_quiet _ _ s
    · split
      · split <;> exact (mapCache_quiet _ s).trans (putSlot_quiet _ _ _)
      · exact .refl s
  · exact .refl s

theorem insertImage_quiet (r o) (s : State) : Quiet s (s.insertImage r o).2 := quiet_setCache _ s

/-- A fetch ends with an image. -/
theorem endWithImage_quiet (f r) (s : State) : Quiet s (s.endWithImage f r) :=
  ((((dropFetch_quiet _ s).trans (insertImage_quiet _ _ _)).trans (resolveAllAwaiting_quiet _ _ _ _ _)).trans
    (roomEvent_quiet _)).trans (settle_quiet _)

/-- A fetch ends in final failure. -/
theorem finalFailure_quiet (k) (s : State) : Quiet s (s.finalFailure k) :=
  ((((dropFetch_quiet _ s).trans (substituteAwaiting_quiet _ _ _)).trans (substituteAwaiting_quiet _ _ _)).trans
    (roomEvent_quiet _)).trans (settle_quiet _)

/-- A failed attempt ends the fetch or gives it a new target. -/
theorem failedAttempt_quiet (f) (s : State) : Quiet s (s.failedAttempt f) := by
  unfold failedAttempt
  split
  · exact finalFailure_quiet _ s
  · split
    · exact updateFetch_quiet _ _ s
    · exact finalFailure_quiet _ s

theorem takeDetached_quiet (x o) (s : State) : Quiet s (s.takeDetached x o) := by
  unfold takeDetached
  split
  · split
    · exact insertImage_quiet _ _ s
    · exact .refl s
  all_goals exact .refl s

theorem takeAttached_quiet (f o) (s : State) : Quiet s (s.takeAttached f o) := by
  unfold takeAttached
  split
  · split
    · exact endWithImage_quiet _ _ s
    · exact failedAttempt_quiet _ s
  · split
    · exact updateFetch_quiet _ _ s
    · exact failedAttempt_quiet _ s
  all_goals exact failedAttempt_quiet _ s

end State

end Sys2Proof.Machine
end

