-- ==== Sys2Proof/Laws/Spared.lean ====
section
/-! SUPPORT. Everything that error reports, poisoning, the spare decision and withdrawals can change: `Spared s t` says what stays the
same, and each operation of Spare is Spared, or, when it reads and writes cells, Accessed. -/

namespace Sys2Proof.Machine

/-- From `s` to `t` only the transmit queue, the index and the liveness of pending writes, the directory's struck marks with the outgoing
list and the enrol wait, the accumulator, and the bank records with the walk and the copy may differ. -/
structure Spared (s t : State) : Prop where
  straps  : t.straps = s.straps
  tables  : t.tables = s.tables
  pending : t.pending = s.pending
  lines   : t.lines = s.lines
  slots   : t.slots = s.slots
  cache   : t.cache = s.cache
  fetches : t.fetches = s.fetches
  head    : t.head = s.head
  out     : t.out = s.out
  link    : { t.link with queue := s.link.queue } = s.link
  store   : { t.store with index := s.store.index, writes := s.store.writes } = s.store
  index   : t.store.index.length ≤ s.store.index.length
  writes  : t.store.writes.length = s.store.writes.length
  dir     : { t.dir with entries := s.dir.entries, outgoing := s.dir.outgoing, enrolWait := s.dir.enrolWait } = s.dir
  entries : t.dir.entries.length = s.dir.entries.length
  seq     : { t.seq with acc := s.seq.acc } = s.seq
  policy  : t.patrol.threshold = s.patrol.threshold ∧ t.patrol.drip = s.patrol.drip ∧ t.patrol.sparing = s.patrol.sparing ∧
    t.patrol.enabled = s.patrol.enabled
  banks   : t.patrol.banks.length = s.patrol.banks.length
  queueCap : s.link.queue.length ≤ Config.txCapacity → t.link.queue.length ≤ Config.txCapacity

namespace Spared

theorem refl (s : State) : Spared s s := by constructor <;> simp

theorem trans {s t u : State} (h : Spared s t) (k : Spared t u) : Spared s u where
  straps := k.straps.trans h.straps
  tables := k.tables.trans h.tables
  pending := k.pending.trans h.pending
  lines := k.lines.trans h.lines
  slots := k.slots.trans h.slots
  cache := k.cache.trans h.cache
  fetches := k.fetches.trans h.fetches
  head := k.head.trans h.head
  out := k.out.trans h.out
  link := (congrArg (fun l : Link => { l with queue := s.link.queue }) k.link).trans h.link
  store := (congrArg (fun x : Store => { x with index := s.store.index, writes := s.store.writes }) k.store).trans h.store
  index := Nat.le_trans k.index h.index
  writes := k.writes.trans h.writes
  dir := (congrArg (fun d : Directory =>
    { d with entries := s.dir.entries, outgoing := s.dir.outgoing, enrolWait := s.dir.enrolWait }) k.dir).trans h.dir
  entries := k.entries.trans h.entries
  seq := (congrArg (fun q : Sequencer => { q with acc := s.seq.acc }) k.seq).trans h.seq
  policy := ⟨k.policy.1.trans h.policy.1, k.policy.2.1.trans h.policy.2.1, k.policy.2.2.1.trans h.policy.2.2.1,
    k.policy.2.2.2.trans h.policy.2.2.2⟩
  banks := k.banks.trans h.banks
  queueCap := fun a => k.queueCap (h.queueCap a)

end Spared

theorem spared_setAcc (f) (s : State) : Spared s (s.setAcc f) := by constructor <;> simp

theorem spared_outgoing (f : List KeyRange → List KeyRange) (s : State) :
    Spared s (s.mapDir fun d => { d with outgoing := f d.outgoing }) := by constructor <;> simp

theorem spared_startWait (s : State) : Spared s (s.mapDir Directory.startWait) := by
  constructor <;> simp [Directory.startWait] <;> split <;> simp

/-- A change of the unit that keeps its settings and the number of its banks. -/
theorem spared_patrol (f : Patrol → Patrol) (s : State)
    (h : (f s.patrol).threshold = s.patrol.threshold ∧ (f s.patrol).drip = s.patrol.drip ∧
      (f s.patrol).sparing = s.patrol.sparing ∧ (f s.patrol).enabled = s.patrol.enabled)
    (hb : (f s.patrol).banks.length = s.patrol.banks.length) : Spared s (s.mapPatrol f) := by
  constructor <;> simp [h, hb]

namespace Patrol

/-- The walk's moves keep the settings, the number of banks, and the spare. -/
structure Walked (p q : Patrol) : Prop where
  policy : q.threshold = p.threshold ∧ q.drip = p.drip ∧ q.sparing = p.sparing ∧ q.enabled = p.enabled
  banks  : q.banks.length = p.banks.length
  spare  : q.spare = p.spare ∧ q.copySource = p.copySource ∧ q.copyProgress = p.copyProgress ∧
    q.copyStepWaits = p.copyStepWaits ∧ q.copyIntervalRuns = p.copyIntervalRuns
  steps  : q.intervalRuns = p.intervalRuns ∧ q.stepWaits = p.stepWaits

theorem Walked.refl (p : Patrol) : Walked p p := by constructor <;> simp

theorem Walked.trans {p q r : Patrol} (h : Walked p q) (k : Walked q r) : Walked p r := by
  obtain ⟨⟨h1, h2, h3, h4⟩, h5, ⟨h6, h7, h8, h9, ha⟩, hb, hc⟩ := h
  obtain ⟨⟨k1, k2, k3, k4⟩, k5, ⟨k6, k7, k8, k9, ka⟩, kb, kc⟩ := k
  constructor <;> simp [*]

theorem completePass_walked (p : Patrol) : Walked p p.completePass := by
  unfold completePass dripBanks
  split <;> constructor <;> simp

theorem nextBank_walked (p : Patrol) : Walked p p.nextBank := by
  unfold nextBank
  dsimp only
  split
  · constructor <;> simp
  · split
    · constructor <;> simp
    · exact Walked.trans (by constructor <;> simp) (completePass_walked { p with posBank := 0, posCell := 0 })

theorem skipWithdrawn_walked (n) (p : Patrol) : Walked p (skipWithdrawn n p) := by
  induction n generalizing p with
  | zero => exact .refl p
  | succ n ih =>
    simp only [skipWithdrawn]
    split
    · exact (nextBank_walked p).trans (ih _)
    · exact .refl p

theorem settlePosition_walked (p : Patrol) : Walked p p.settlePosition := skipWithdrawn_walked _ p

theorem advance_walked (p : Patrol) : Walked p p.advance := by
  unfold advance
  split
  · constructor <;> simp
  · exact (nextBank_walked p).trans (settlePosition_walked _)

end Patrol

namespace State

theorem atPlacing_spared (f) (s : State) : Spared s (s.atPlacing f) := by
  cases f <;> simp only [atPlacing]
  case report => exact spared_setAcc _ s
  all_goals exact .refl s

theorem giveUp_spared (f) (s : State) : Spared s (s.giveUp f) := by
  cases f <;> simp only [giveUp]
  case report => exact spared_setAcc _ s
  case notice => exact spared_setAcc _ s
  case withdraw => exact .refl s
  case enrol => exact spared_startWait s

theorem offer_spared (f) (s : State) : Spared s (s.offer f).1 := by
  unfold offer
  split
  · exact (atPlacing_spared f s).trans (giveUp_spared f _)
  · split
    · refine (atPlacing_spared f s).trans ?_
      constructor <;> simp [insertTx_length, atPlacing_queue]
      omega
    · exact .refl s

theorem notify_spared (d n) (s : State) : Spared s (s.notify d n) := by
  unfold notify
  have h := offer_spared (.notice d n) s
  dsimp only
  split
  · exact h
  · exact h.trans (spared_setAcc _ _)

theorem offerWithdraws_spared (n) (s : State) : Spared s (offerWithdraws n s) := by
  induction n generalizing s with
  | zero => exact .refl s
  | succ n ih =>
    simp only [offerWithdraws]
    split
    · exact .refl s
    · split
      · exact ((offer_spared _ s).trans (spared_outgoing (List.drop Config.withdrawRanges) _)).trans (ih _)
      · exact .refl s

theorem offerOutgoing_spared (s : State) : Spared s s.offerOutgoing := offerWithdraws_spared _ s

theorem notifyAuthorities_spared (n) (s : State) : Spared s (s.notifyAuthorities n) := by
  unfold notifyAuthorities
  generalize List.range s.straps.authLimit.val = ks
  induction ks generalizing s with
  | nil => exact .refl s
  | cons k ks ih => exact (notify_spared _ _ s).trans (ih _)

theorem leaveWithdrawn_spared (s : State) : Spared s s.leaveWithdrawn := by
  unfold leaveWithdrawn
  split
  · have h := Patrol.settlePosition_walked s.patrol
    exact spared_patrol _ s h.policy h.banks
  · exact .refl s

theorem removeWhere_spared (p) (s : State) : Spared s (s.mapStore fun st => st.removeWhere p) := by
  constructor <;> simp [Store.removeWhere]
  exact List.length_filter_le _ _

theorem withdrawOwn_spared (own inBank) (s : State) : Spared s (s.mapDir fun d => d.withdrawOwn own inBank) := by
  constructor <;> simp [Directory.withdrawOwn]

theorem setBank_spared (b f) (s : State) : Spared s (s.mapPatrol fun p => p.setBank b f) :=
  spared_patrol _ s (by simp [Patrol.setBank]) (by simp [Patrol.setBank])

/-- A bank's withdrawal. -/
theorem withdrawBank_spared (b) (s : State) : Spared s (s.withdrawBank b) :=
  (((((setBank_spared b _ s).trans (removeWhere_spared _ _)).trans (withdrawOwn_spared _ _ _)).trans
    (offerOutgoing_spared _)).trans (notifyAuthorities_spared _ _)).trans (leaveWithdrawn_spared _)

theorem withdrawWaiting_spared (bs) (s : State) : Spared s (withdrawWaiting bs s) := by
  induction bs generalizing s with
  | nil => exact .refl s
  | cons b bs ih =>
    simp only [withdrawWaiting]
    split
    · exact (withdrawBank_spared b s).trans (ih _)
    · exact ih s

/-- The spare decision. -/
theorem spareDecision_spared (s : State) : Spared s s.spareDecision := by
  unfold spareDecision
  split
  · split
    · split
      · exact spared_patrol _ s (by simp [Patrol.beginCopy, Patrol.setBank]) (by simp [Patrol.beginCopy, Patrol.setBank])
      · exact .refl s
    · exact .refl s
    · exact withdrawWaiting_spared _ s
    · exact withdrawWaiting_spared _ s
  · exact .refl s

/-- One correctable error report. -/
theorem reportError_spared (b h) (s : State) : Spared s (s.reportError b h) := by
  unfold reportError
  split
  · have k : Spared s (s.mapPatrol (Patrol.countReport b)) :=
      spared_patrol _ s (by simp [Patrol.countReport, Patrol.setBank]) (by simp [Patrol.countReport, Patrol.setBank])
    dsimp only
    split
    · exact k.trans (spareDecision_spared _)
    · exact k
  · exact .refl s

theorem reportAll_spared (b h cs) (s : State) : Spared s (reportAll b h cs s) := by
  induction cs generalizing s with
  | nil => exact .refl s
  | cons c cs ih =>
    cases c <;> simp only [reportAll]
    · exact ih s
    · exact (reportError_spared b h s).trans (ih _)
    · exact ih s

/-- A record's poisoning. -/
theorem poison_spared (k) (s : State) : Spared s (s.poison k) := by
  unfold poison
  split
  · split
    · refine Spared.trans ?_ (notify_spared _ _ _)
      constructor <;> simp [updateRecord]
    · exact .refl s
  · exact .refl s

end State

/-! ## Accesses -/

/-- As Spared, but cells may have been written, in canonical form, and driven at the store port. -/
structure Accessed (s t : State) : Prop where
  spared : Spared ((s.setStore { s.store with memory := t.store.memory }).setOut t.out) t
  memory : s.store.memory.wf = true → t.store.memory.wf = true
  out    : ∃ cs : List (Nat × Cell), t.out = s.out ++ cs.map fun c => .cell c.1 c.2

/-! ### The canonical form of a memory -/

theorem Memory.wf_tail {x : Nat × Cell} {m : Memory} (h : Memory.wf (x :: m) = true) : Memory.wf m = true := by
  cases m with
  | nil => rfl
  | cons y m => simp only [Memory.wf, Bool.and_eq_true] at h; exact h.2

theorem Memory.wf_cons {x : Nat × Cell} {m : Memory} (h : Memory.wf m = true) (hx : ∀ y ∈ m.head?, x.1 < y.1) :
    Memory.wf (x :: m) = true := by
  cases m with
  | nil => rfl
  | cons y m => simp only [Memory.wf, Bool.and_eq_true]; exact ⟨by simpa using hx y (by simp), h⟩

theorem Memory.wf_head {x : Nat × Cell} {m : Memory} (h : Memory.wf (x :: m) = true) : ∀ y ∈ m.head?, x.1 < y.1 := by
  cases m with
  | nil => simp
  | cons y m =>
    simp only [Memory.wf, Bool.and_eq_true, decide_eq_true_eq] at h
    intro z hz
    simp at hz
    subst hz
    exact h.1

theorem Memory.write_head (a : Nat) (c : Cell) (m : Memory) (b : Nat) (hb : b < a) (hm : ∀ y ∈ m.head?, b < y.1) :
    ∀ y ∈ (m.write a c).head?, b < y.1 := by
  cases m with
  | nil => simp [Memory.write, hb]
  | cons x m =>
    simp only [Memory.write]
    have := hm x (by simp)
    split
    · simp [hb]
    · split <;> simp [hb, this]

/-- A write keeps the canonical form. -/
theorem Memory.write_wf (a : Nat) (c : Cell) (m : Memory) (h : m.wf = true) : (m.write a c).wf = true := by
  induction m with
  | nil => rfl
  | cons x m ih =>
    simp only [Memory.write]
    split
    · next hlt => exact Memory.wf_cons h (by simpa using hlt)
    · split
      · next hge heq =>
        have : x.1 = a := by simpa using heq
        exact Memory.wf_cons (Memory.wf_tail h) (by intro y hy; have := Memory.wf_head h y hy; simp; omega)
      · next hge hne =>
        have hxa : x.1 < a := by simp at hne; omega
        exact Memory.wf_cons (ih (Memory.wf_tail h)) (Memory.write_head a c m x.1 hxa (Memory.wf_head h))

/-- A written cell reads as written. -/
theorem Memory.read_write_same (a : Nat) (c : Cell) (m : Memory) : (m.write a c).read a = some c := by
  induction m with
  | nil => simp [Memory.write, Memory.read]
  | cons x m ih =>
    simp only [Memory.write]
    split
    · simp [Memory.read]
    · split
      · simp [Memory.read]
      · next hne =>
        simp only [Memory.read] at ih ⊢
        simp only [List.find?_cons]
        rw [show (x.1 == a) = false by simpa using hne]
        exact ih

/-- Every other cell reads as before. -/
theorem Memory.read_write_other (a b : Nat) (c : Cell) (m : Memory) (h : b ≠ a) : (m.write a c).read b = m.read b := by
  have hab : (a == b) = false := by simp; omega
  induction m with
  | nil => simp [Memory.write, Memory.read, hab]
  | cons x m ih =>
    simp only [Memory.write]
    split
    · simp [Memory.read, hab]
    · split
      · next heq =>
        have hx : x.1 = a := by simpa using heq
        have hxb : (x.1 == b) = false := by simp; omega
        simp [Memory.read, hab, hxb]
      · simp only [Memory.read] at ih ⊢
        simp only [List.find?_cons]
        split
        · rfl
        · exact ih

namespace Accessed

theorem refl (s : State) : Accessed s s := ⟨.refl s, id, [], by simp⟩

theorem of {s t : State} (h : Spared s t) : Accessed s t := by
  have hm : t.store.memory = s.store.memory := (congrArg Store.memory h.store :)
  refine ⟨?_, fun w => hm ▸ w, [], by simp [h.out]⟩
  have e : (s.setStore { s.store with memory := t.store.memory }).setOut t.out = s := by rw [hm, h.out]; rfl
  rw [e]
  exact h

theorem trans {s t u : State} (h : Accessed s t) (k : Accessed t u) : Accessed s u := by
  refine ⟨?_, fun w => k.memory (h.memory w), ?_⟩
  · have hs := h.spared
    have ks := k.spared
    refine Spared.trans ?_ ks
    refine { straps := hs.straps, tables := hs.tables, pending := hs.pending, lines := hs.lines, slots := hs.slots
             cache := hs.cache, fetches := hs.fetches, head := hs.head, out := by simp, link := hs.link, store := ?_
             index := hs.index, writes := hs.writes, dir := hs.dir, entries := hs.entries, seq := hs.seq
             policy := hs.policy, banks := hs.banks, queueCap := hs.queueCap }
    have := congrArg (fun x : Store => { x with memory := u.store.memory }) hs.store
    simpa using this
  · obtain ⟨a, ha⟩ := h.out
    obtain ⟨b, hb⟩ := k.out
    exact ⟨a ++ b, by rw [hb, ha]; simp⟩

end Accessed

namespace State

/-- One cell is written. -/
theorem writeCell_accessed (a c) (s : State) : Accessed s (s.writeCell a c) := by
  refine ⟨?_, ?_, [(a, c)], ?_⟩
  · constructor <;> simp [writeCell]
  · intro h
    simpa [writeCell] using Memory.write_wf a c _ h
  · simp [writeCell]

theorem writeBack_accessed (cs) (s : State) : Accessed s (writeBack cs s) := by
  induction cs generalizing s with
  | nil => exact .refl s
  | cons c cs ih =>
    obtain ⟨a, k⟩ := c
    cases k <;> simp only [writeBack]
    · exact ih s
    · exact (writeCell_accessed _ _ s).trans (ih _)
    · exact ih s

/-- A read of a record's cells. -/
theorem readRecord_accessed (r cs) (s : State) : Accessed s (s.readRecord r cs) := by
  unfold readRecord
  dsimp only
  have h := (writeBack_accessed (((List.range r.cellCount).map fun k => s.store.address r.bank (r.firstCell + k)).zip
    (s.store.recordConds r cs)) s).trans (.of (reportAll_spared r.bank true (s.store.recordConds r cs) _))
  split
  · exact h.trans (.of (poison_spared _ _))
  · exact h

/-- A copy's completion: the bank map and the unit, besides what a spare decision can change. -/
theorem completeCopy_spared (b) (s : State) :
    Spared ((s.setStore { s.store with map := s.store.map.set b Config.spareBank })) (s.completeCopy b) := by
  unfold completeCopy
  dsimp only
  refine Spared.trans (Spared.trans ?_ (notify_spared _ _ _)) (spareDecision_spared _)
  exact spared_patrol _ _ (by simp [Patrol.setBank]) (by simp [Patrol.setBank])

end State

end Sys2Proof.Machine
end

