-- ==== Sys2Proof/Laws/Receive.lean ====
section
/-! SUPPORT. What `receive` does to a frame that arrives, is observed, or is not read, and what every operation leaves of the
invariants: `Tame s t`. -/

namespace Sys2Proof.Machine

namespace State

theorem listening_iff (s : State) : s.listening = true ↔ Listens s := by
  simp [listening, Listens]

theorem addressed_iff (h : Hdr) (s : State) : s.addressed h = true ↔ h.dst = s.straps.station ∨ h.dst = 0 := by
  simp [addressed, own_eq]

theorem isAuthority_iff (h : Hdr) (s : State) : s.straps.isAuthority h.src = true ↔ FromAuthority h s := by
  simp [Straps.isAuthority, FromAuthority]

/-- The state in which a frame's owner finds the station. -/
theorem tenureOver_heard (h : Hdr) (s : State) (hs : h.src ≠ 0) : s.fresh.tenureOver.heard h.src = arrived h s := by
  simp [tenureOver, heard, hs, arrived, Directory.clearAbsent, setOut, setLink, setDir]

theorem answered_eq (s : State) (b : Bool) : answered (s, b) = answers b s := rfl

/-- An arrived frame that is not turned away is its owner's, who takes it or refuses it. -/
theorem receive_arrives {h : Hdr} {s : State} (ha : Arrives h s) {bad library : Bool} (hb : bad = false)
    (hl : library = true → FromAuthority h s) (owner : State → State × Bool) :
    s.receive h bad library owner = answers (owner (arrived h s)).2 (owner (arrived h s)).1 := by
  obtain ⟨h1, h2, h3⟩ := ha
  have e1 : s.fresh.listening = true := (listening_iff s).2 h1
  have e2 : s.fresh.addressed h = true := (addressed_iff h s).2 h3
  have e3 : s.fresh.turnedAway h bad library = false := by
    have : library = true → s.straps.isAuthority h.src = true := fun x => (isAuthority_iff h s).2 (hl x)
    cases library
    · simp [turnedAway, hb, h2]
    · simp [turnedAway, hb, h2, this rfl]
  simp only [receive, e1, e2, e3, if_true, Bool.false_eq_true, if_false, tenureOver_heard h s h2]
  rfl

/-- An arrived library frame from a station that is no authority, or one with bad fields, is refused. -/
theorem receive_refused {h : Hdr} {s : State} (ha : Arrives h s) {bad library : Bool}
    (hr : bad = true ∨ (library = true ∧ ¬FromAuthority h s)) (owner : State → State × Bool) :
    s.receive h bad library owner = answers false (arrived h s) := by
  obtain ⟨h1, h2, h3⟩ := ha
  have e1 : s.fresh.listening = true := (listening_iff s).2 h1
  have e2 : s.fresh.addressed h = true := (addressed_iff h s).2 h3
  have e3 : s.fresh.turnedAway h bad library = true := by
    rcases hr with hr | ⟨hr, hn⟩
    · simp [turnedAway, hr]
    · have : s.straps.isAuthority h.src = false := by
        have := mt (isAuthority_iff h s).1 hn
        simpa using this
      simp [turnedAway, hr, this]
  simp only [receive, e1, e2, e3, if_true, tenureOver_heard h s h2]
  rfl

/-- A frame that the station does not read changes nothing. -/
theorem receive_unread {h : Hdr} {s : State} (hn : ¬Listens s) (bad library : Bool) (owner : State → State × Bool) :
    s.receive h bad library owner = unchanged s := by
  have e1 : s.fresh.listening = false := by
    have : s.listening = false := by simpa using mt (listening_iff s).1 hn
    exact this
  simp only [receive, e1, Bool.false_eq_true, if_false]
  rfl

/-- A frame of a length above 528 is a form disturbance to a station that follows it (R187). -/
theorem follow_overlong {n : Nat} {s : State} (hl : Listens s) (hn : 528 < n) (f : State → State) :
    s.fresh.follow n f = formDisturbed s := by
  have e : s.fresh.listening = true := (listening_iff s).2 hl
  have e2 : s.fresh.disturbed = formDisturbed s := by
    rcases hl.2 with h | h <;> simp [disturbed, h, hl.1, breakOff, formDisturbed, setOut, setLink]
  simp only [follow, e, Config.maxPayload, hn, if_true, e2]

/-- A frame of up to 528 bytes is followed to its end. -/
theorem follow_listens {n : Nat} {s : State} (hl : Listens s) (hn : n ≤ 528) (f : State → State) : s.fresh.follow n f = f s.fresh := by
  have e : s.fresh.listening = true := (listening_iff s).2 hl
  simp only [follow, e, Config.maxPayload, Nat.not_lt.2 hn, if_true, if_false]

/-- All that following a frame can do. -/
theorem follow_cases (n : Nat) (f : State → State) (s : State) : s.follow n f = s ∨ s.follow n f = s.disturbed ∨ s.follow n f = f s := by
  unfold follow
  split
  · split
    · exact .inr (.inl rfl)
    · exact .inr (.inr rfl)
  · exact .inl rfl

/-- A station that reads no frames follows none. -/
theorem follow_unread {s : State} (hn : ¬Listens s) (n : Nat) (f : State → State) : s.follow n f = s := by
  have e : s.listening = false := by simpa using mt (listening_iff s).1 hn
  simp only [follow, e, Bool.false_eq_true, if_false]

end State

/-! ## What every operation leaves of the invariants -/

/-- `t` keeps what the invariants of Safety speak of, as far as `s` has it. -/
structure Tame (s t : State) : Prop where
  pending : t.pending = s.pending
  memory  : s.store.memory.wf = true → t.store.memory.wf = true
  place   : t.seq.galley = s.seq.galley ∧ t.seq.columns = s.seq.columns ∧ t.seq.depth = s.seq.depth
  queue   : s.link.queue.length ≤ 12 → t.link.queue.length ≤ 12
  fetches : s.fetches.length ≤ 8 → t.fetches.length ≤ 8
  lines   : s.lines.length ≤ 6 → t.lines.length ≤ 6
  entries : s.dir.entries.length ≤ 64 → t.dir.entries.length ≤ 64
  index   : s.store.index.length ≤ 2048 → t.store.index.length ≤ 2048
  writes  : s.store.writes.length ≤ 4 → t.store.writes.length ≤ 4

namespace Tame

theorem refl (s : State) : Tame s s := ⟨rfl, id, ⟨rfl, rfl, rfl⟩, id, id, id, id, id, id⟩

theorem trans {s t u : State} (h : Tame s t) (k : Tame t u) : Tame s u :=
  ⟨k.pending.trans h.pending, k.memory ∘ h.memory,
    ⟨k.place.1.trans h.place.1, k.place.2.1.trans h.place.2.1, k.place.2.2.trans h.place.2.2⟩, k.queue ∘ h.queue,
    k.fetches ∘ h.fetches, k.lines ∘ h.lines, k.entries ∘ h.entries, k.index ∘ h.index, k.writes ∘ h.writes⟩

/-- A Tame step keeps the invariants. -/
theorem keeps {s t : State} (h : Tame s t) :
    (MemoryCanonical s → MemoryCanonical t) ∧ (GalleyInGeometry s → GalleyInGeometry t) ∧
      (WithinCapacities s → WithinCapacities t) := by
  refine ⟨h.memory, ?_, ?_⟩
  · obtain ⟨a, b, c⟩ := h.place
    simp only [GalleyInGeometry, a, b, c]
    exact id
  · rintro ⟨a, b, c, d, e, f⟩
    exact ⟨h.queue a, h.fetches b, h.lines c, h.entries d, h.index e, h.writes f⟩

end Tame

theorem Quiet.tame {s t : State} (h : Quiet s t) : Tame s t where
  pending := h.pending
  memory := fun w => by rw [h.memory]; exact w
  place := ⟨h.galley, h.columns, h.depth⟩
  queue := h.queueCap
  fetches := h.fetchCap
  lines := fun a => Nat.le_trans h.lines a
  entries := fun a => by rw [h.dirEntries]; exact a
  index := fun a => by rw [h.index]; exact a
  writes := fun a => by rw [h.writes]; exact a

theorem Spared.tame {s t : State} (h : Spared s t) : Tame s t where
  pending := h.pending
  memory := fun w => by
    have : t.store.memory = s.store.memory := (congrArg Store.memory h.store :)
    rw [this]; exact w
  place := ⟨(congrArg Sequencer.galley h.seq :), (congrArg Sequencer.columns h.seq :), (congrArg Sequencer.depth h.seq :)⟩
  queue := h.queueCap
  fetches := fun a => by rw [h.fetches]; exact a
  lines := fun a => by rw [h.lines]; exact a
  entries := fun a => by rw [h.entries]; exact a
  index := fun a => Nat.le_trans h.index a
  writes := fun a => by rw [h.writes]; exact a

theorem Accessed.tame {s t : State} (h : Accessed s t) : Tame s t where
  pending := h.spared.tame.pending
  memory := h.memory
  place := h.spared.tame.place
  queue := h.spared.tame.queue
  fetches := h.spared.tame.fetches
  lines := h.spared.tame.lines
  entries := h.spared.tame.entries
  index := h.spared.tame.index
  writes := h.spared.tame.writes

namespace State

/-- A frame that is received leaves what its owner leaves. -/
theorem receive_tame (h : Hdr) (bad library : Bool) (owner : State → State × Bool) (s : State)
    (ho : ∀ u, Tame u (owner u).1) : Tame s (s.receive h bad library owner) := by
  have k : ∀ u : State, Tame u (u.tenureOver.heard h.src) := by
    intro u
    unfold heard
    split <;> constructor <;> simp [tenureOver, Directory.clearAbsent]
  have e : ∀ (u : State) (o), Tame u (u.emit o) := fun u o => (quiet_setOut _ u).tame
  have f : Tame s s.fresh := (quiet_setOut [] s).tame
  unfold receive answered
  dsimp only
  split
  · split
    · split
      · exact (f.trans (k _)).trans (e _ _)
      · exact ((f.trans (k _)).trans (ho _)).trans (e _ _)
    · exact f.trans (k _)
  · exact f

theorem link_tame (g : Link → Link) (s : State) (hq : (g s.link).queue.length ≤ s.link.queue.length) :
    Tame s (s.mapLink g) where
  pending := rfl
  memory := id
  place := ⟨rfl, rfl, rfl⟩
  queue := fun a => Nat.le_trans hq a
  fetches := id
  lines := id
  entries := id
  index := id
  writes := id

theorem giveUpAll_tame (q : List TxEntry) (s : State) : Tame s (q.foldl (fun s e => s.giveUp e.frame) s) := by
  induction q generalizing s with
  | nil => exact .refl s
  | cons e q ih => exact ((giveUp_quiet e.frame s).tame).trans (ih _)

/-- MUTE is entered. -/
theorem enterMute_tame (s : State) : Tame s s.enterMute := by
  have h : Tame s (s.setFetches (s.fetches.map fun f => if f.state = .exchanging then { f with state := .waitingLink } else f)) :=
    (quiet_setFetches _ s (by simp)).tame
  have k := link_tame (fun l => { l with
    state := .mute, free := false, tenure := .none, queue := [], exchange := none, requester := none, reply := none })
    (s.setFetches (s.fetches.map fun f => if f.state = .exchanging then { f with state := .waitingLink } else f)) (by simp)
  exact ((h.trans k).trans (giveUpAll_tame _ _)).trans (gainRoom_quiet _).tame

theorem frameLeaves_tame (e g) (s : State) : Tame s (s.frameLeaves e g) := by
  have k := link_tame (fun l => { l with queue := l.queue.filter fun e => !e.onLink }) s (List.length_filter_le _ _)
  cases g
  · exact ((k.trans (giveUp_quiet e.frame _).tame).trans (gainRoom_quiet _).tame).trans (settle_quiet _).tame
  · exact ((k.trans (delivered_quiet e.frame _).tame).trans (gainRoom_quiet _).tame).trans (settle_quiet _).tame

theorem frameAttempt_tame (a) (s : State) : Tame s (s.frameAttempt a) := by
  unfold frameAttempt
  split
  · split
    · exact frameLeaves_tame _ _ s
    · exact frameLeaves_tame _ _ s
    · split
      · exact frameLeaves_tame _ _ s
      · exact link_tame _ s (by simp)
  · exact .refl s

theorem markOutcome_tame (x o) (s : State) : Tame s (s.markOutcome x o) := by
  unfold markOutcome
  split <;> first
    | exact .refl s
    | (constructor <;> simp [Directory.strikeNotHeld, Directory.setAbsent])

/-- An exchange ends with its outcome. -/
theorem takeOutcome_tame (x o) (s : State) : Tame s (s.takeOutcome x o) := by
  unfold takeOutcome
  have h : Tame s ((s.mapLink fun l => { l with exchange := none, tenure := .none }).markOutcome x o) :=
    (link_tame _ s (by simp)).trans (markOutcome_tame _ _ _)
  dsimp only
  split
  · exact h.trans (takeDetached_quiet _ _ _).tame
  · split
    · exact h.trans (takeAttached_quiet _ _ _).tame
    · exact h

theorem exchangeAttempt_tame (a) (s : State) : Tame s (s.exchangeAttempt a) := by
  unfold exchangeAttempt
  split
  · split
    · exact .refl s
    · exact takeOutcome_tame _ _ s
    · split
      · exact takeOutcome_tame _ _ s
      · exact .refl s
  · exact .refl s

/-- The station's own tenure ends. -/
theorem endTenure_tame (n a) (s : State) : Tame s (s.endTenure n a) := by
  unfold endTenure
  dsimp only
  split
  · exact link_tame _ s (by simp)
  · exact (link_tame _ s (by simp)).trans (exchangeAttempt_tame _ _)
  · exact (link_tame _ s (by simp)).trans (frameAttempt_tame _ _)

/-- A disturbance. -/
theorem disturbed_tame (s : State) : Tame s s.disturbed := by
  unfold disturbed
  have b : Tame s s.breakOff := link_tame _ s (by simp)
  split <;> first
    | exact endTenure_tame _ _ s
    | exact b
    | exact .refl s
    | (split
       · exact b
       · exact .refl s)

end State

end Sys2Proof.Machine
end

