-- ==== Sys2Proof/Laws/Sequencer.lean ====
section
/-! SUPPORT. What the operations of the Exposure Sequencer and of the store's arbiter leave of the invariants. An operation that moves
the galley or sets its geometry keeps it within the geometry: `Sound s t`. -/

namespace Sys2Proof.Machine

/-- `t` has the invariants of Safety that `s` has, and the same queue of commands. -/
structure Sound (s t : State) : Prop where
  pending    : t.pending = s.pending
  memory     : MemoryCanonical s → MemoryCanonical t
  place      : GalleyInGeometry s → GalleyInGeometry t
  capacities : WithinCapacities s → WithinCapacities t

namespace Sound

theorem trans {s t u : State} (h : Sound s t) (k : Sound t u) : Sound s u :=
  ⟨k.pending.trans h.pending, k.memory ∘ h.memory, k.place ∘ h.place, k.capacities ∘ h.capacities⟩

end Sound

theorem Tame.sound {s t : State} (h : Tame s t) : Sound s t := ⟨h.pending, h.keeps.1, h.keeps.2.1, h.keeps.2.2⟩

namespace State

/-! ## Changes of one block -/

theorem seq_tame (f : Sequencer → Sequencer) (s : State)
    (h : (f s.seq).galley = s.seq.galley ∧ (f s.seq).columns = s.seq.columns ∧ (f s.seq).depth = s.seq.depth) :
    Tame s (s.mapSeq f) := by
  constructor <;> simp [h]

/-- The galley moves within its geometry, or a page begins with its counters at 0. -/
theorem seq_sound (f : Sequencer → Sequencer) (s : State)
    (h : GalleyInGeometry s → (f s.seq).galley.line < (f s.seq).depth ∧ (f s.seq).galley.column < (f s.seq).columns ∧
      (f s.seq).galley.page < 65536) : Sound s (s.mapSeq f) := by
  constructor
  · rfl
  · exact id
  · exact h
  · exact id

theorem head_tame (x) (s : State) : Tame s (s.setHead x) := (quiet_setHead x s).tame
theorem emit_tame (o) (s : State) : Tame s (s.emit o) := (quiet_setOut _ s).tame
theorem fresh_tame (s : State) : Tame s s.fresh := (quiet_setOut _ s).tame

theorem patrol_tame (f : Patrol → Patrol) (s : State) : Tame s (s.mapPatrol f) := by
  constructor <;> simp

theorem dir_tame (f : Directory → Directory) (s : State) (h : (f s.dir).entries.length ≤ s.dir.entries.length) :
    Tame s (s.mapDir f) := by
  constructor <;> simp
  omega

theorem tables_tame (x) (s : State) : Tame s (s.setTables x) := by
  constructor <;> simp

/-! ## The sequencer -/

theorem sendCut_tame (k r) (s : State) : Tame s (s.sendCut k r) :=
  ((seq_tame _ s ⟨rfl, rfl, rfl⟩).trans (head_tame _ _)).trans (emit_tame _ _)

theorem endClose_tame (s : State) : Tame s s.endClose := by
  unfold endClose
  split
  · exact (notify_quiet _ _ s).tame.trans (seq_tame _ _ ⟨rfl, rfl, rfl⟩)
  · exact .refl s

theorem reportQueued_quiet (m) (s : State) : Quiet s (s.reportQueued m) := reportLines_quiet _ s

/-- A close expiry. -/
theorem expireClose_tame (s : State) : Tame s s.expireClose :=
  ((((seq_tame _ s ⟨rfl, rfl, rfl⟩).trans (endBoth_quiet _ _).tame).trans (reportQueued_quiet _ _).tame)).trans (settle_quiet _).tame

theorem takeHeldExpiry_tame (s : State) : Tame s s.takeHeldExpiry := by
  unfold takeHeldExpiry
  split
  · exact expireClose_tame s
  · exact .refl s

theorem leaveExposing_tame (f m) (s : State) : Tame s (s.leaveExposing f m) := by
  unfold leaveExposing
  dsimp only
  split
  · exact sendCut_tame _ _ s
  · split
    · exact sendCut_tame _ _ s
    · split
      · exact sendCut_tame _ _ s
      · split <;> exact seq_tame _ s ⟨rfl, rfl, rfl⟩

theorem soundAlarm_tame (m) (s : State) : Tame s (s.soundAlarm m) := by
  unfold soundAlarm
  split
  · have h : Tame s (s.setAcc fun a => { a with alarm := true }) := by constructor <;> simp
    exact h.trans (notify_quiet _ _ _).tame
  · exact .refl s

/-- FILM-OUT and HEAD-FAULT. -/
theorem faultHead_tame (o) (s : State) : Tame s (s.faultHead o) := by
  unfold faultHead
  split
  · exact .refl s
  · dsimp only
    have h1 := (head_tame .none s).trans (seq_tame (fun q =>
      { q with state := .fault, cutRecord := none, cutPending := false, stopPending := false }) _ ⟨rfl, rfl, rfl⟩)
    refine (Tame.trans ?_ (settle_quiet _).tame)
    have fin : ∀ u : State, Tame u (if u.drained then u.endClose else u) := by
      intro u
      split
      · exact endClose_tame u
      · exact .refl u
    refine Tame.trans ?_ (fin _)
    refine Tame.trans ?_ (takeHeldExpiry_tame _)
    refine Tame.trans ?_ (notify_quiet _ _ _).tame
    have fin2 : ∀ (o : Option SlotId) (u : State),
        Tame u (match o with
          | some i => u.finishLine i .cutShort (widthsOf (u.slot i)) none
          | none => u) := by
      intro o u
      cases o
      · exact .refl u
      · exact (finishLine_quiet _ _ _ _ u).tame
    have fin3 : ∀ (b : Bool) (u : State), Tame u (if b = true then u.endClose else u) := by
      intro b u
      split
      · exact endClose_tame u
      · exact .refl u
    exact (h1.trans (fin2 _ _)).trans (fin3 _ _)

theorem endExposure_tame (s : State) : Tame s s.endExposure := by
  unfold endExposure
  split
  · exact (head_tame _ s).trans (finishLine_quiet _ _ _ _ _).tame
  · exact head_tame _ s

theorem finishLine_place (s : State) (i o w g) :
    (s.finishLine i o w g).seq.galley = s.seq.galley ∧ (s.finishLine i o w g).seq.columns = s.seq.columns ∧
      (s.finishLine i o w g).seq.depth = s.seq.depth := (finishLine_quiet i o w g s).tame.place

/-- The advance keeps the galley within the geometry (R145, R152). -/
theorem advanceGalley_within (c d : Nat) (g : Galley) (hl : g.line < d) (hc : g.column < c) (hp : g.page < 65536) :
    (advanceGalley c d g).1.line < d ∧ (advanceGalley c d g).1.column < c ∧ (advanceGalley c d g).1.page < 65536 := by
  unfold advanceGalley
  split
  · split
    · exact ⟨by simpa using Nat.zero_lt_of_lt hl, by simpa using Nat.zero_lt_of_lt hc, Nat.mod_lt _ (by decide)⟩
    · exact ⟨by simpa using Nat.zero_lt_of_lt hl, by simp; omega, hp⟩
  · exact ⟨by simp; omega, hc, hp⟩

/-- EXPOSED. -/
theorem lineExposed_sound (s : State) : Sound s s.lineExposed := by
  unfold lineExposed
  dsimp only
  have p := (endExposure_tame s).place
  have h : Sound s (s.endExposure.mapSeq fun q => { q with galley := s.galleyAfter.1, exposedSinceCut := true }) := by
    refine (endExposure_tame s).sound.trans (seq_sound _ _ ?_)
    rintro ⟨hl, hc, hp⟩
    rw [p.1] at hl hc hp
    rw [p.2.2] at hl
    rw [p.2.1] at hc
    have := advanceGalley_within s.seq.columns s.seq.depth s.seq.galley hl hc hp
    simp only [galleyAfter]
    rw [p.2.1, p.2.2]
    exact this
  exact (((h.trans (soundAlarm_tame _ _).sound).trans (leaveExposing_tame _ _ _).sound).trans (takeHeldExpiry_tame _).sound).trans
    (settle_quiet _).tame.sound

/-- CUT-DONE. -/
theorem cutEnds_sound (r) (s : State) : Sound s (s.cutEnds r) := by
  unfold cutEnds
  dsimp only
  have h : Sound s ((s.setHead .none).mapSeq (cutMade r)) := by
    refine (head_tame _ s).sound.trans (seq_sound _ _ ?_)
    rintro ⟨hl, hc, hp⟩
    simp only [cutMade]
    split
    · exact ⟨by simpa [renumber] using Nat.zero_lt_of_lt hl, by simpa [renumber] using Nat.zero_lt_of_lt hc,
        Nat.mod_lt _ (by decide)⟩
    · exact ⟨hl, hc, hp⟩
  refine Sound.trans (Sound.trans ?_ (takeHeldExpiry_tame _).sound) (settle_quiet _).tame.sound
  split
  · exact h.trans (endClose_tame _).sound
  · exact h

theorem timerFalls_tame (s : State) : Tame s s.timerFalls := by
  unfold timerFalls
  split
  · split
    · exact seq_tame _ s ⟨rfl, rfl, rfl⟩
    · exact expireClose_tame s
  · exact seq_tame _ s ⟨rfl, rfl, rfl⟩

theorem completeClose_tame (s : State) : Tame s s.completeClose := by
  unfold completeClose
  split <;> first
    | exact sendCut_tame _ _ s
    | exact endClose_tame s
    | exact .refl s

/-! ## Commands of a CONTROL frame -/

theorem takeStationClear_tame (s : State) : Tame s s.takeStationClear := by
  unfold takeStationClear
  dsimp only
  have h := ((endBoth_quiet .cleared s).trans (reportQueued_quiet .cleared _)).tame
  refine Tame.trans (Tame.trans ?_ (mapCache_quiet _ _).tame) (settle_quiet _).tame
  split
  · exact (h.trans (quiet_setFetches _ _ fun a => Nat.le_trans (List.length_filter_le _ _) a).tame).trans (roomEvent_quiet _).tame
  · exact h

/-- A command that is taken. -/
theorem takeCommand_sound (src c) (s t : State) (hr : commandInRange c = true) (h : s.takeCommand src c = some t) : Sound s t := by
  cases c <;> simp only [takeCommand, takePageBegin, takePageEnd, takeRun, takeStop, takeCut, takeGalleyReset, takeProceed] at h
  case pageBegin c d n =>
    split at h
    · rename_i hh
      cases h
      refine seq_sound _ s ?_
      rintro ⟨_, _, hp⟩
      simp only [commandInRange, Bool.and_eq_true, decide_eq_true_eq] at hr
      simp only
      omega
    · cases h
  case pageEnd => split at h <;> cases h; exact (seq_tame _ s ⟨rfl, rfl, rfl⟩).sound
  case run =>
    split at h <;> cases h <;> first
      | exact ((seq_tame _ s ⟨rfl, rfl, rfl⟩).trans (dispatch_quiet _).tame).sound
      | exact (seq_tame _ s ⟨rfl, rfl, rfl⟩).sound
      | exact (Tame.refl s).sound
  case stop =>
    split at h <;> cases h <;> first
      | exact (seq_tame _ s ⟨rfl, rfl, rfl⟩).sound
      | exact (Tame.refl s).sound
  case cut =>
    split at h <;> cases h <;> first
      | exact (sendCut_tame _ _ s).sound
      | exact (seq_tame _ s ⟨rfl, rfl, rfl⟩).sound
  case galleyReset =>
    split at h <;> cases h
    refine seq_sound _ s ?_
    rintro ⟨hl, hc, hp⟩
    exact ⟨Nat.zero_lt_of_lt hl, Nat.zero_lt_of_lt hc, Nat.zero_lt_succ _⟩
  case proofOn => cases h; exact (seq_tame _ s ⟨rfl, rfl, rfl⟩).sound
  case proofOff =>
    cases h
    unfold takeProofOff
    dsimp only
    split <;> first
      | exact ((seq_tame _ s ⟨rfl, rfl, rfl⟩).trans (transfer_quiet _ _).tame).sound
      | exact (seq_tame _ s ⟨rfl, rfl, rfl⟩).sound
  case proceed => split at h <;> cases h; exact (transfer_quiet _ s).tame.sound
  case alarmSet a => cases h; exact (seq_tame _ s ⟨rfl, rfl, rfl⟩).sound
  case clearFlags =>
    cases h
    have t : Tame s (s.setAcc fun _ => {}) := by constructor <;> simp
    exact t.sound
  case stationClear => cases h; exact (takeStationClear_tame s).sound

theorem command_sound (src n c) (s : State) (hr : commandInRange c = true) : Sound s (s.command src n c) := by
  unfold command
  split
  · split
    · rename_i t h
      exact takeCommand_sound src c s t hr h
    · exact (notify_quiet _ _ s).tame.sound
  · exact (notify_quiet _ _ s).tame.sound

theorem commands_sound (src n cs) (s : State) (hr : cs.all commandInRange = true) : Sound s (commands src n cs s) := by
  induction cs generalizing n s with
  | nil => exact (Tame.refl s).sound
  | cons c cs ih =>
    simp only [List.all_cons, Bool.and_eq_true] at hr
    exact (command_sound src n c s hr.1).trans (ih _ _ hr.2)

theorem takeControl_sound (h cs) (s : State) : Sound s (s.takeControl h cs).1 := by
  unfold takeControl
  split
  · rename_i hh
    simp only [Bool.and_eq_true] at hh
    exact commands_sound _ _ _ s hh.2
  · exact (Tame.refl s).sound

/-! ## The store -/

theorem removeWhere_tame (p) (s : State) : Tame s (s.mapStore fun st => st.removeWhere p) := (removeWhere_spared p s).tame

theorem insertRecord_length (r : StoreRecord) (ix : List StoreRecord) : (insertRecord r ix).length = ix.length + 1 := by
  induction ix with
  | nil => rfl
  | cons x xs ih =>
    simp only [insertRecord]
    split <;> simp [ih]

theorem takeLoad0_sound (h f bs) (s : State) : Sound s (s.takeLoad0 h f bs).1 := by
  unfold takeLoad0
  split
  · rename_i hok
    simp only [load0Ok, Bool.and_eq_true, Bool.not_eq_true', Store.writesFull, Config.writeCapacity] at hok
    have hw := of_decide_eq_false hok.2
    dsimp only
    split
    · exact (notify_quiet _ _ s).tame.sound
    · rename_i hroom
      split
      · exact (notify_quiet _ _ s).tame.sound
      · constructor
        · rfl
        · exact id
        · exact id
        · rintro ⟨a, b, c, d, e, g⟩
          refine ⟨a, b, c, d, ?_, ?_⟩
          · simp only [Config.indexCapacity] at hroom
            simp only [enterRecord, mapStore_eq, store_setStore, insertRecord_length, Store.removeWhere]
            simp only [bne] at hroom
            omega
          · simp [enterRecord, Store.removeWhere]
            omega
  · exact (Tame.refl s).sound

theorem takeLoad_sound (h k n c bs) (s : State) : Sound s (s.takeLoad h k n c bs).1 := by
  unfold takeLoad
  split
  · split
    · rename_i hok
      simp only [Bool.and_eq_true, Bool.not_eq_true', Store.writesFull, Config.writeCapacity] at hok
      have hw := of_decide_eq_false hok.2
      constructor
      · rfl
      · exact id
      · exact id
      · rintro ⟨a, b, c, d, e, g⟩
        refine ⟨a, b, c, d, ?_, ?_⟩
        · simpa [updateRecord] using e
        · simp
          omega
    · exact (Tame.refl s).sound
  · exact (Tame.refl s).sound

theorem writeLoad_accessed (w) (s : State) : Accessed s (s.writeLoad w) := by
  unfold writeLoad
  dsimp only
  split
  · exact (writeCell_accessed _ _ s).trans (writeCell_accessed _ _ _)
  · exact writeCell_accessed _ _ s

/-- A LOAD write that is taken. -/
theorem takeWrite_tame (w rest) (s : State) (h : rest.length ≤ s.store.writes.length) : Tame s (s.takeWrite w rest) := by
  unfold takeWrite
  dsimp only
  have h1 : Tame s (s.mapStore fun st => { st with writes := rest }) := by
    constructor <;> simp
    omega
  split
  · refine (h1.trans (writeLoad_accessed w _).tame).trans ?_
    constructor <;> simp [completeRecord] <;> split <;> simp [updateRecord]
  · exact h1

theorem serveKey_accessed (k cs) (s : State) : Accessed s (serveKey k cs s).2 := by
  unfold serveKey
  split
  · exact .refl s
  · split
    · exact .refl s
    · split <;> first
        | exact readRecord_accessed _ _ s
        | exact .refl s

theorem beginReply_tame (r) (s : State) : Tame s (s.beginReply r) := (link_tame _ s (by simp)).trans (emit_tame _ _)

theorem cancelFetch_tame (i n) (s : State) : Tame s (s.cancelFetch i n) := by
  unfold cancelFetch
  split
  · exact .refl s
  · dsimp only
    refine Tame.trans (Tame.trans ?_ (resolveAllAwaiting_quiet _ _ _ _ _).tame) (roomEvent_quiet _).tame
    split
    · exact (dropFetch_quiet _ s).tame.trans (link_tame _ _ (by simp))
    · exact (dropFetch_quiet _ s).tame

theorem atReading_tame (i f) (s : State) (h : ∀ p u, Tame u (f p u)) : Tame s (s.atReading i f) := by
  unfold atReading
  split
  · split
    · exact (h _ s).trans (passOn_quiet _ _).tame
    · exact .refl s
  · exact .refl s

theorem requestHeld_tame (i) (s : State) : Tame s (s.requestHeld i) := by
  unfold requestHeld
  split
  · split
    · split
      · exact (queueRead_quiet _ _ s).tame
      · exact .refl s
    · exact .refl s
  · exact .refl s

theorem readEntry_tame (i) (s : State) : Tame s (s.readEntry i).2 := by
  unfold readEntry
  split
  · exact .refl s
  · exact (insertImage_quiet _ _ s).tame

/-- A local read that is taken. -/
theorem takeRead_tame (q rest cs) (s : State) : Tame s (s.takeRead q rest cs) := by
  unfold takeRead
  dsimp only
  refine Tame.trans (Tame.trans ?_ (requestHeld_tame _ _)) (settle_quiet _).tame
  have h1 : Tame s (s.mapStore fun st => { st with reads := rest }) := (quiet_reads (fun _ => rest) s).tame
  have h2 : ∀ u : State, Tame u (u.localAccess q.key cs) := by
    intro u
    unfold localAccess
    split
    · split
      · exact (readRecord_accessed _ _ u).tame
      · exact .refl u
    · exact .refl u
  split
  · rename_i i _
    have h3 := fun u : State => readEntry_tame i u
    split
    · exact (((h1.trans (h2 _)).trans (h3 _)).trans (cancelFetch_tame _ _ _)).trans
        (atReading_tame _ _ _ fun _ _ => (resolveAt_quiet _ _ _ _).tame)
    · exact ((h1.trans (h2 _)).trans (h3 _)).trans (cancelFetch_tame _ _ _)
  · split
    · exact (h1.trans (h2 _)).trans (atReading_tame _ _ _ fun _ _ => (thirdStep_quiet _ _ _ _).tame)
    · exact h1.trans (h2 _)

theorem copyCell_accessed (b c cond) (s : State) : Accessed s (s.copyCell b c cond) := by
  unfold copyCell
  dsimp only
  split
  · exact writeCell_accessed _ _ s
  · split
    · exact writeCell_accessed _ _ s
    · exact ((writeCell_accessed _ _ s).trans (.of (reportError_spared _ _ _))).trans (writeCell_accessed _ _ _)
    · exact (writeCell_accessed _ _ s).trans (.of (poison_spared _ _))

theorem copyEnd_tame (b c) (s : State) : Tame s (s.copyEnd b c) := by
  unfold copyEnd
  split
  · exact patrol_tame _ s
  · have h : Tame s (s.setStore { s.store with map := s.store.map.set b Config.spareBank }) := by constructor <;> simp
    exact h.trans (completeCopy_spared b s).tame

theorem patrolCell_accessed (b c cond) (s : State) : Accessed s (s.patrolCell b c cond) := by
  unfold patrolCell
  dsimp only
  split
  · exact .refl s
  · exact (writeCell_accessed _ _ s).trans (.of (reportError_spared _ _ _))
  · split
    · exact writeCell_accessed _ _ s
    · exact .of (poison_spared _ s)

end State

end Sys2Proof.Machine
end

