-- ==== Sys2Proof/Laws/Rest.lean ====
section
/-! SUPPORT. The shared operations where they are simple: a frame that its owner takes or refuses, a notice, the end of a close, an
exchange given up, a command that may be given, slots that are at rest, and a spare decision with no bank waiting. -/

namespace Sys2Proof.Machine.State

/-! ## Arrived frames -/

/-- An arrived frame of no library kind is its owner's. -/
theorem receive_plain {h : Hdr} {s : State} (ha : Arrives h s) {bad : Bool} (hb : bad = false)
    (owner : State → State × Bool) :
    s.receive h bad false owner = answers (owner (arrived h s)).2 (owner (arrived h s)).1 :=
  receive_arrives ha hb (fun x => by cases x) owner

/-- An arrived library frame of an authority is its owner's. -/
theorem receive_library {h : Hdr} {s : State} (ha : Arrives h s) (hf : FromAuthority h s) {bad : Bool} (hb : bad = false)
    (owner : State → State × Bool) :
    s.receive h bad true owner = answers (owner (arrived h s)).2 (owner (arrived h s)).1 :=
  receive_arrives ha hb (fun _ => hf) owner

/-- A frame addressed to this station alone arrives. -/
theorem arrives_of_here {h : Hdr} {s : State} (ha : ArrivesHere h s) : Arrives h s := ⟨ha.1, ha.2.1, Or.inl ha.2.2.1⟩

theorem listens_notMute {s : State} (h : Listens s) : s.link.state ≠ .mute := by
  rcases h.2 with h | h <;> simp [h]

theorem arrived_notMute (h : Hdr) (s : State) : (arrived h s).link.state ≠ .mute := by simp [arrived]

/-- A notice of a station that is not MUTE. -/
theorem notify_noticed {s : State} (h : s.link.state ≠ .mute) (d : Nat) (n : Notice) : s.notify d n = noticed d n s := by
  simp only [notify, offer, h, if_false, Config.txCapacity, noticed]
  by_cases hq : s.link.queue.length < 12
  · simp [hq, atPlacing, setLink]
  · simp [hq, noticeLost, setAcc, setSeq]

/-- A notice of a station that is MUTE: it is given up, and its owner learns it. -/
theorem notify_mute {s : State} (h : s.link.state = .mute) (d : Nat) (n : Notice) : s.notify d n = offeredMute (.notice d n) s := by
  simp [notify, offer, h, atPlacing, giveUp, noticeLost, offeredMute, told, gathered, setAcc, setSeq]

/-- A notice, in any state of the link. -/
theorem notify_offered (d : Nat) (n : Notice) (s : State) : s.notify d n = offeredNotice d n s := by
  unfold offeredNotice
  split
  · rename_i h
    exact notify_mute h d n
  · rename_i h
    exact notify_noticed h d n

/-- The end of a close that is in progress. -/
theorem endClose_pageEnded {s : State} {cause : CloseCause} (h : s.seq.closing = some cause) : s.endClose = pageEnded cause s := by
  simp only [endClose, h, notify_offered]
  rfl

/-- An exchange that ends as ABSENT or REFUSED: the target is marked, and the fetch list takes the failed attempt. -/
theorem takeOutcome_givenUp (x : Exchange) (o : ExchangeOutcome) (s : State) (ho : o = .absent ∨ o = .refused) :
    GivenUp x (targetMarked x s) (takeOutcome x o s) := by
  have e : (s.mapLink fun l => { l with exchange := none, tenure := .none }).markOutcome x o = targetMarked x s := by
    rcases ho with rfl | rfl <;> rfl
  have a : ∀ f, (targetMarked x s).takeAttached f o = (targetMarked x s).failedAttempt f := by
    intro f
    rcases ho with rfl | rfl <;> rfl
  simp only [takeOutcome, e]
  refine ⟨?_, ?_, ?_⟩
  · intro h
    simp only [h, if_true]
    rcases ho with rfl | rfl <;> rfl
  · intro h hn
    have hf : (targetMarked x s).fetchOf x.key = none := by
      simp only [fetchOf, List.find?_eq_none]
      intro f hf
      simpa using hn f hf
    simp [h, hf]
  · intro f h hf
    have hk : f.key = x.key := by simpa using List.find?_some hf
    have hf : (targetMarked x s).fetchOf x.key = some f := hf
    simp only [h, hf, a, failedAttempt, hk]
    constructor
    · intro u h1 h2
      have h3 : ¬3 ≤ f.failed + 1 := by omega
      have h4 : (targetMarked x s).dir.chooseTarget (targetMarked x s).own f.tried x.key = some u := h2
      simp only [h3, h4]
      rfl
    · intro h1
      by_cases h2 : 2 ≤ f.failed
      · have h3 : 3 ≤ f.failed + 1 := by omega
        simp [h3]
      · have h3 : ¬3 ≤ f.failed + 1 := by omega
        have h4 : (targetMarked x s).dir.chooseTarget (targetMarked x s).own f.tried x.key = none := h1.resolve_left h2
        simp only [h3, h4]
        rfl

/-- A STORE-POLICY of an authority, addressed to this station alone. -/
theorem receivePolicy_here {h : Hdr} {f : PolicyFrame} {s : State} (ha : ArrivesHere h s) (hf : FromAuthority h s)
    (hb : policyBad f = false) :
    s.receivePolicy h f = answers (takePolicy h f (arrived h s)).2 (takePolicy h f (arrived h s)).1 :=
  receive_library (arrives_of_here ha) hf hb _

/-- A CONTROL frame of one command whose values are in range. -/
theorem receiveControl_one {h : Hdr} {s : State} (ha : Arrives h s) (hh : s.straps.head = true) (hd : h.dst ≠ 0) (c : ControlCmd)
    (h1 : commandInRange c = true) (h2 : commandBad c = false) :
    s.receiveControl h [c] = answers true ((arrived h s).command h.src 0 c) := by
  simp only [receiveControl]
  rw [receive_plain ha (by simp [h2])]
  have : (arrived h s).straps.head = true := hh
  simp [takeControl, this, hd, h1, commands]

theorem maySend_commanded {h : Hdr} {s : State} (hc : Commanded h s) (c : ControlCmd) :
    (arrived h s).maySend h.src c = true := by
  have h3 := hc.2.2
  have e1 : (arrived h s).seq.owner = s.seq.owner := rfl
  have e2 : (arrived h s).straps = s.straps := rfl
  cases c <;> simp [maySend, e1, e2] <;>
    (rcases h3 with h3 | h3 | h3
     · simp [h3]
     · have := (isAuthority_iff h s).2 h3
       simp [this]
     · simp [h3.1, h3.2])

/-- A command that its sender may give is taken by its own rule, or refused with reason STATE. -/
theorem receiveControl_commanded {h : Hdr} {s : State} (hc : Commanded h s) (c : ControlCmd) (h1 : commandInRange c = true)
    (h2 : commandBad c = false) :
    s.receiveControl h [c] = answers true
      (match (arrived h s).takeCommand h.src c with
        | some t => t
        | none => noticed h.src (.commandRefused (commandCode c) 0 .state) (arrived h s)) := by
  rw [receiveControl_one (arrives_of_here hc.1) hc.2.1 hc.1.2.2.2 c h1 h2]
  simp only [command, maySend_commanded hc c, if_true]
  cases (arrived h s).takeCommand h.src c
  · exact congrArg (answers true) (notify_noticed (arrived_notMute h s) _ _)
  · rfl

/-! ## Slots at rest -/

theorem dispatch_notReady {s : State} (h : ∀ i, (s.slots.get i).state ≠ .ready) : s.dispatch = s := by
  unfold dispatch
  split
  · split
    · rename_i i _
      rw [if_neg (by exact h i)]
    · rfl
  · rfl

/-- With both slots at rest, nothing is due at once. -/
theorem settle_rest {s : State} (h : SlotsRest s) : s.settle = s := by
  have h1 : s.leaveProof = s := by
    unfold leaveProof
    cases hq : s.seq.state <;> simp
    exact absurd hq (h.2 _)
  have hr : ∀ i, s.runSlot i = s := by
    intro i
    have := h.1 i
    unfold runSlot
    cases hq : (s.slot i).state <;> simp
    · exact absurd hq this.1
    · exact absurd hq this.2.1
  have hd : s.dispatch = s := dispatch_notReady fun i => (h.1 i).2.2
  simp only [settle, h1, hr, hd]

/-! ## Banks -/

theorem lowestAtThreshold_eq {p : Patrol} {b : Nat} (h1 : b < p.banks.length) (h2 : p.bankState b = .atThreshold)
    (h3 : ∀ c, c < b → p.bankState c ≠ .atThreshold) : p.lowestAtThreshold = some b := by
  unfold Patrol.lowestAtThreshold
  rw [List.find?_range_eq_some]
  simp [h1, h2]
  intro j hj
  exact h3 j hj

theorem lowestAtThreshold_none {p : Patrol} (h : ∀ c, p.bankState c ≠ .atThreshold) : p.lowestAtThreshold = none := by
  unfold Patrol.lowestAtThreshold
  simp [h]

theorem withdrawWaiting_none (bs : List Nat) (s : State) (h : ∀ c, s.patrol.bankState c ≠ .atThreshold) :
    withdrawWaiting bs s = s := by
  induction bs with
  | nil => rfl
  | cons b bs ih => simp [withdrawWaiting, h b, ih]

/-- With no bank waiting AT-THRESHOLD the spare decision changes nothing. -/
theorem spareDecision_none (s : State) (h : ∀ c, s.patrol.bankState c ≠ .atThreshold) : s.spareDecision = s := by
  unfold spareDecision
  cases s.patrol.sparing <;> cases hs : s.patrol.spare <;> simp [lowestAtThreshold_none h, withdrawWaiting_none _ _ h]

/-- The walk rests on a bank that is not WITHDRAWN. -/
theorem settlePosition_rests {p : Patrol} (h : p.isWithdrawn p.posBank = false) : p.settlePosition = p := by
  unfold Patrol.settlePosition
  generalize p.banks.length = n
  cases n <;> simp [Patrol.skipWithdrawn, h]

/-! ## A transmit queue for which no owner waits -/

theorem reportEntries_unmarked (es : List QueueEntry) (s : State) (h : ∀ e ∈ es, e.mark = none) :
    reportEntries QueueEntry.mark es s = (es, s) := by
  induction es with
  | nil => rfl
  | cons e es ih =>
    have h1 := h e (by simp)
    simp only [reportEntries, h1, ih fun x hx => h x (by simp [hx])]

theorem offerSlot_notReporting {i : SlotId} {s : State} (h : (s.slots.get i).state ≠ .reporting) : s.offerSlot i = s := by
  unfold offerSlot
  split
  · rename_i h1 _ _
    exact absurd h1 h
  · rfl

/-- With no owner waiting, a gain of room changes nothing. -/
theorem gainRoom_noOwner {s : State} (h : NoOwnerWaits s) : s.gainRoom = s := by
  obtain ⟨h1, h2, h3, h4⟩ := h
  have e : s.offerOutgoing = s := by simp [offerOutgoing, h2, offerWithdraws]
  simp only [gainRoom, h1, Bool.false_eq_true, if_false, e, offerSlot_notReporting (h3 _), reportLines,
    reportEntries_unmarked _ _ h4, setLines]

/-! ## Reads that find every cell CLEAN -/

theorem writeBack_clean (as : List Nat) (l : List CellCond) (s : State) (h : ∀ c ∈ l, c = .clean) :
    writeBack (as.zip l) s = s := by
  induction as generalizing l with
  | nil => rfl
  | cons a as ih =>
    cases l with
    | nil => rfl
    | cons c l =>
      rw [h c (by simp)]
      simp only [List.zip_cons_cons, writeBack]
      exact ih l fun d hd => h d (by simp [hd])

theorem reportAll_clean (b : Nat) (held : Bool) (l : List CellCond) (s : State) (h : ∀ c ∈ l, c = .clean) :
    reportAll b held l s = s := by
  induction l with
  | nil => rfl
  | cons c l ih =>
    rw [h c (by simp)]
    simp only [reportAll]
    exact ih fun d hd => h d (by simp [hd])

theorem readRecord_clean (r : StoreRecord) (conds : List CellCond) (s : State)
    (h : ∀ c ∈ s.store.recordConds r conds, c = .clean) : s.readRecord r conds = s := by
  have h6 : CellCond.uncorrectable ∉ s.store.recordConds r conds := fun x => by cases h _ x
  simp only [readRecord]
  rw [writeBack_clean _ _ _ h, reportAll_clean _ _ _ _ h]
  simp [h6]

theorem cellHolder_free {ix : List StoreRecord} {b c : Nat} (h : ∀ r ∈ ix, r.holdsCell b c = false) : cellHolder ix b c = none := by
  simp [cellHolder]
  intro r hr
  simpa using h r hr

end Sys2Proof.Machine.State
end

