-- ==== Sys2Proof/Laws/Cells.lean ====
section
/-! SUPPORT. A read of a record's cells in closed form, with its write-backs, its reports and its poisoning; and the cells that an access
writes: `cellWrites`, by which a station reset completes an access that it interrupts (R122), names for each kind of access exactly the
cells that the access itself writes. -/

namespace Sys2Proof.Machine

theorem cellBytes_write (m : Memory) (epoch a b : Nat) :
    cellBytes (m.write a (.data (cellBytes m epoch a))) epoch b = cellBytes m epoch b := by
  by_cases h : b = a
  · subst h
    simp [cellBytes, Memory.read_write_same]
  · simp [cellBytes, Memory.read_write_other _ _ _ _ h]

/-- A change that leaves the bank of its number as it is changes no bank. -/
theorem modify_same {l : List Bank} {b : Nat} {f : Bank → Bank} (h : ∀ k, l[b]? = some k → f k = k) : l.modify b f = l := by
  apply List.ext_getElem?
  intro j
  rw [List.getElem?_modify]
  by_cases hj : b = j
  · subst hj
    cases hb : l[b]? with
    | none => rfl
    | some k => simp [h k hb]
  · simp [hj]

namespace State

/-- Cells written one after the other: the memory, and what the store port is driven with. -/
theorem writeCells_eq (cs : List (Nat × Cell)) (s : State) :
    writeCells cs s = { s with out := s.out ++ driven cs, store := { s.store with memory := written cs s.store.memory } } := by
  induction cs generalizing s with
  | nil => simp [writeCells, driven, written]
  | cons c cs ih =>
    have h : writeCells (c :: cs) s = writeCells cs (s.writeCell c.1 c.2) := rfl
    rw [h, ih]
    simp [writeCell, driven, written, emit, setOut, setStore]

/-- The write-backs among the cells of an access, each with the bytes that the cell held before the first of them. -/
theorem writeBack_eq (l : List (Nat × CellCond)) (s : State) :
    writeBack l s = writeCells ((l.filter fun x => x.2 == .corrected).map fun x =>
      (x.1, .data (cellBytes s.store.memory s.store.epoch x.1))) s := by
  induction l generalizing s with
  | nil => rfl
  | cons x l ih =>
    obtain ⟨a, c⟩ := x
    cases c
    · exact ih s
    · simp only [writeBack]
      rw [ih]
      have h : ∀ b, cellBytes (s.writeCell a (.data (cellBytes s.store.memory s.store.epoch a))).store.memory
          (s.writeCell a (.data (cellBytes s.store.memory s.store.epoch a))).store.epoch b =
            cellBytes s.store.memory s.store.epoch b := fun b => cellBytes_write _ _ _ _
      simp only [h]
      rfl
    · exact ih s

/-- Reports that do not bring their bank to the threshold are counted one by one while it is GOOD. -/
theorem reportAll_count (b : Nat) (l : List CellCond) (s : State)
    (h : ∀ k, s.patrol.banks[b]? = some k → k.state = .good → k.count + l.count .corrected < s.patrol.threshold) :
    reportAll b true l s = { s with patrol := { s.patrol with
      banks := s.patrol.banks.modify b fun k => if k.state = .good then { k with count := k.count + l.count .corrected } else k } } := by
  induction l generalizing s with
  | nil =>
    rw [modify_same fun k _ => by simp]
    rfl
  | cons c l ih =>
    cases c
    · simp only [reportAll]
      rw [ih s (by simpa using h)]
      simp
    · simp only [reportAll]
      have e : s.reportError b true = { s with patrol := { s.patrol with
          banks := s.patrol.banks.modify b fun k => if k.state = .good then { k with count := k.count + 1 } else k } } := by
        unfold reportError
        rcases hb : s.patrol.banks[b]? with _ | k
        · have h0 : s.patrol.bankState b = .good := by simp [Patrol.bankState, hb, List.getD_eq_getElem?_getD]
          have h1 : s.patrol.banks.length ≤ b := by simpa using hb
          have h2 : (s.mapPatrol (Patrol.countReport b)) = s := by
            simp [Patrol.countReport, Patrol.setBank, List.modify_eq_self h1, setPatrol]
          simp only [h0, h2]
          simp [List.modify_eq_self h1]
        · have hs : s.patrol.bankState b = k.state := by simp [Patrol.bankState, hb, List.getD_eq_getElem?_getD]
          by_cases hk : k.state = .good
          · have hc := h k hb hk
            simp at hc
            have hlt : k.count + 1 < s.patrol.threshold := by omega
            have h1 : s.mapPatrol (Patrol.countReport b) = { s with patrol := { s.patrol with
                banks := s.patrol.banks.modify b fun k => if k.state = .good then { k with count := k.count + 1 } else k } } := by
              simp only [mapPatrol_eq, Patrol.countReport, Patrol.setBank, setPatrol]
              congr 2
              apply List.ext_getElem?
              intro j
              simp only [List.getElem?_modify]
              by_cases hj : b = j
              · subst hj
                simp [hb, hk, hlt]
              · simp [hj]
            have h2 : ({ s with patrol := { s.patrol with
                banks := s.patrol.banks.modify b fun k => if k.state = .good then { k with count := k.count + 1 } else k } } :
                  State).patrol.bankState b = .good := by
              simp [Patrol.bankState, List.getD_eq_getElem?_getD, hb, hk]
            simp only [h1, h2, hs, hk]
            simp
          · have h1 : s.patrol.banks.modify b (fun k => if k.state = .good then { k with count := k.count + 1 } else k) =
                s.patrol.banks := modify_same fun k' hk' => by
              rw [hb] at hk'
              cases hk'
              simp [hk]
            simp [hs, hk, h1]
      rw [e, ih]
      · simp only [List.count_cons_self]
        congr 2
        apply List.ext_getElem?
        intro j
        simp only [List.getElem?_modify]
        by_cases hj : b = j
        · subst hj
          rcases hb : s.patrol.banks[b]? with _ | k
          · simp
          · by_cases hk : k.state = .good
            · simp [hk]
              omega
            · simp [hk]
        · simp [hj]
      · intro k hk hg
        simp only [List.getElem?_modify] at hk
        rcases hb : s.patrol.banks[b]? with _ | k'
        · simp [hb] at hk
        · have hc := h k' hb
          simp [hb] at hk
          subst hk
          by_cases hg' : k'.state = .good
          · have := hc hg'
            simp at this
            simp [hg']
            omega
          · simp [hg'] at hg
    · simp only [reportAll]
      rw [ih s (by simpa using h)]
      simp

/-- The reports of an access are those of its CORRECTED cells, one after the other. -/
theorem reportAll_reported (b : Nat) (l : List CellCond) (s : State) : reportAll b true l s = reported b (l.count .corrected) s := by
  induction l generalizing s with
  | nil => rfl
  | cons c l ih => cases c <;> simp [reportAll, reported, ih]

/-- A record that stays when others leave is found as before. -/
theorem findRecord_filter {k : Key} {ix : List StoreRecord} {r : StoreRecord} {p : StoreRecord → Bool} (h : findRecord k ix = some r)
    (hp : p r = true) : findRecord k (ix.filter p) = some r := by
  induction ix with
  | nil => cases h
  | cons a ix ih =>
    by_cases ha : a.key = k
    · have hr : a = r := by simpa [findRecord, ha] using h
      subst hr
      simp [findRecord, hp, ha]
    · have h' : findRecord k ix = some r := by simpa [findRecord, ha] using h
      by_cases hpa : p a = true
      · simpa [findRecord, hpa, ha] using ih h'
      · simpa [findRecord, hpa] using ih h'

theorem notifyAuthorities_index (n : Notice) (s : State) : (s.notifyAuthorities n).store.index = s.store.index := by
  unfold notifyAuthorities
  generalize List.range s.straps.authLimit.val = ks
  induction ks generalizing s with
  | nil => rfl
  | cons k ks ih => exact (ih _).trans (notify_quiet _ _ s).index

/-- A withdrawal leaves every VALID record in the index. -/
theorem withdrawBank_valid {k : Key} {r : StoreRecord} (b : Nat) {s : State} (h : findRecord k s.store.index = some r)
    (hv : r.state = .valid) : findRecord k (s.withdrawBank b).store.index = some r := by
  have e : (s.withdrawBank b).store.index = s.store.index.filter fun r => !(r.bank == b && r.state == .loading) := by
    have l : ∀ t : State, t.leaveWithdrawn.store.index = t.store.index := by
      intro t
      simp only [leaveWithdrawn]
      split <;> rfl
    simp only [withdrawBank]
    rw [l, notifyAuthorities_index, (offerOutgoing_quiet _).index]
    rfl
  rw [e]
  exact findRecord_filter h (by simp [hv])

theorem withdrawWaiting_valid {k : Key} {r : StoreRecord} (bs : List Nat) {s : State} (h : findRecord k s.store.index = some r)
    (hv : r.state = .valid) : findRecord k (withdrawWaiting bs s).store.index = some r := by
  induction bs generalizing s with
  | nil => exact h
  | cons b bs ih =>
    refine ih ?_
    split
    · exact withdrawBank_valid b h hv
    · exact h

/-- A report leaves every VALID record in the index, whatever spare decision it brings. -/
theorem reportError_valid {k : Key} {r : StoreRecord} (b : Nat) (held : Bool) {s : State} (h : findRecord k s.store.index = some r)
    (hv : r.state = .valid) : findRecord k (s.reportError b held).store.index = some r := by
  simp only [reportError]
  split
  · split
    · simp only [spareDecision]
      split
      · split
        · split <;> exact h
        · exact h
        · exact withdrawWaiting_valid _ h hv
        · exact withdrawWaiting_valid _ h hv
      · exact h
    · exact h
  · exact h

theorem reported_valid {k : Key} {r : StoreRecord} (b n : Nat) {s : State} (h : findRecord k s.store.index = some r)
    (hv : r.state = .valid) : findRecord k (reported b n s).store.index = some r := by
  induction n generalizing s with
  | zero => exact h
  | succ n ih => exact ih (reportError_valid b true h hv)

/-- A VALID record is poisoned. -/
theorem poison_poisoned {k : Key} {r : StoreRecord} {s : State} (h : findRecord k s.store.index = some r) (hv : r.state = .valid) :
    s.poison k = poisoned k r.bank s := by
  simp only [poison, h, hv, if_true, notify_offered, poisoned, updateRecord, beq_iff_eq]
  rfl

/-- A read of a record with no UNCORRECTABLE cell. -/
theorem readRecord_read (r : StoreRecord) (conds : List CellCond) (s : State) (hu : .uncorrectable ∉ s.store.recordConds r conds) :
    s.readRecord r conds = cellsRead r conds s := by
  have h : (s.store.recordConds r conds).contains .uncorrectable = false := by simpa using hu
  simp only [readRecord, h]
  rw [writeBack_eq, writeCells_eq, reportAll_reported]
  rfl

/-- A read whose reports stay below the threshold: the write-backs, and the errors counted while the bank is GOOD. -/
theorem cellsRead_counted (r : StoreRecord) (conds : List CellCond) (s : State)
    (h : ∀ k, s.patrol.banks[r.bank]? = some k → k.state = .good →
      k.count + (s.store.recordConds r conds).count .corrected < s.patrol.threshold) :
    cellsRead r conds s = { s with
      out := s.out ++ driven (s.recordWrites r conds)
      store := { s.store with memory := written (s.recordWrites r conds) s.store.memory }
      patrol := { s.patrol with
        banks := s.patrol.banks.modify r.bank fun k =>
          if k.state = .good then { k with count := k.count + (s.store.recordConds r conds).count .corrected } else k } } := by
  simp only [cellsRead]
  rw [← reportAll_reported, reportAll_count]
  exact h

/-- Such a read of a record with no UNCORRECTABLE cell. -/
theorem readRecord_corrected (r : StoreRecord) (conds : List CellCond) (s : State)
    (hu : .uncorrectable ∉ s.store.recordConds r conds)
    (h : ∀ k, s.patrol.banks[r.bank]? = some k → k.state = .good →
      k.count + (s.store.recordConds r conds).count .corrected < s.patrol.threshold) :
    s.readRecord r conds = { s with
      out := s.out ++ driven (s.recordWrites r conds)
      store := { s.store with memory := written (s.recordWrites r conds) s.store.memory }
      patrol := { s.patrol with
        banks := s.patrol.banks.modify r.bank fun k =>
          if k.state = .good then { k with count := k.count + (s.store.recordConds r conds).count .corrected } else k } } :=
  (readRecord_read r conds s hu).trans (cellsRead_counted r conds s h)

/-- A read of a VALID record with an UNCORRECTABLE cell: the CORRECTED cells beside it are written back and reported, and the record is
POISONED at the end. -/
theorem readRecord_poisoned {r : StoreRecord} {k : Key} (conds : List CellCond) {s : State} (hf : findRecord k s.store.index = some r)
    (hv : r.state = .valid) (hu : .uncorrectable ∈ s.store.recordConds r conds) :
    s.readRecord r conds = poisoned k r.bank (cellsRead r conds s) := by
  have hk : r.key = k := by simpa using List.find?_some hf
  have h : (s.store.recordConds r conds).contains .uncorrectable = true := by simpa using hu
  simp only [readRecord, h, if_true]
  rw [writeBack_eq, writeCells_eq, reportAll_reported, hk]
  exact poison_poisoned (reported_valid _ _ hf hv) hv

/-! ## Each access writes its `cellWrites` -/

theorem poison_memory (k : Key) (s : State) : (s.poison k).store.memory = s.store.memory :=
  (congrArg Store.memory (poison_spared k s).store :)

theorem reportAll_memory (b : Nat) (l : List CellCond) (s : State) : (reportAll b true l s).store.memory = s.store.memory :=
  (congrArg Store.memory (reportAll_spared b true l s).store :)

theorem reportCell_memory (b : Nat) (r : Option StoreRecord) (s : State) : (s.reportCell b r).store.memory = s.store.memory :=
  (congrArg Store.memory (reportError_spared b _ s).store :)

theorem readRecord_memory (r : StoreRecord) (conds : List CellCond) (s : State) :
    (s.readRecord r conds).store.memory = written (s.recordWrites r conds) s.store.memory := by
  have h : (reportAll r.bank true (s.store.recordConds r conds)
      (writeBack (((List.range r.cellCount).map fun k => s.store.address r.bank (r.firstCell + k)).zip
        (s.store.recordConds r conds)) s)).store.memory = written (s.recordWrites r conds) s.store.memory := by
    rw [reportAll_memory, writeBack_eq, writeCells_eq]
    rfl
  simp only [readRecord]
  split
  · rw [poison_memory, h]
  · exact h

theorem writeLoad_memory (w : LoadWrite) (s : State) :
    (s.writeLoad w).store.memory = written (s.loadWrites w) s.store.memory := by
  simp only [writeLoad, loadWrites]
  have e1 : (s.writeCell (s.store.address w.bank w.cell) (.data w.bytes)).patrol = s.patrol := rfl
  rw [e1]
  split <;> rfl

theorem copyCell_memory (b c : Nat) (cond : CellCond) (s : State) :
    (s.copyCell b c cond).store.memory = written (s.copyWrites b c cond) s.store.memory := by
  simp only [copyCell, copyWrites]
  cases cellHolder s.store.index b c with
  | none => rfl
  | some r =>
    cases readCond s.store.memory (s.store.address b c) cond with
    | clean => rfl
    | corrected =>
      simp only [writeCell, mapStore_eq, emit, setStore, setOut]
      rw [reportCell_memory]
      rfl
    | uncorrectable =>
      rw [poison_memory]
      rfl

theorem patrolCell_memory (b c : Nat) (cond : CellCond) (s : State) :
    (s.patrolCell b c cond).store.memory = written (s.patrolWrites b c cond) s.store.memory := by
  simp only [patrolCell, patrolWrites]
  cases readCond s.store.memory (s.store.address b c) cond <;> cases hh : cellHolder s.store.index b c <;> first
    | rfl
    | (simp only
       rw [reportCell_memory]
       rfl)
    | (simp only
       rw [poison_memory]
       rfl)

end State

end Sys2Proof.Machine
end

