-- ==== Sys2Proof/Laws/Numbers.lean ====
section
/-! SUPPORT. The small arithmetic of the allocation, of the squeeze and of JUSTIFY: one lemma for each function. -/

namespace Sys2Proof.Machine

/-! ## Allocation (R109) -/

theorem runFree_iff (ix : List StoreRecord) (b n f : Nat) :
    runFree ix b n f = true ↔ f + n ≤ 1024 ∧ ∀ r ∈ ix, ∀ k, k < n → r.holdsCell b (f + k) = false := by
  unfold runFree
  rw [Bool.and_eq_true, decide_eq_true_eq, List.all_eq_true]
  simp only [cellHolder, List.mem_range, Option.isNone_iff_eq_none, List.find?_eq_none]
  constructor
  · rintro ⟨h, k⟩
    exact ⟨h, fun r hr i hi => by simpa using k i hi r hr⟩
  · rintro ⟨h, k⟩
    exact ⟨h, fun i hi r hr => by simpa using k r hr i hi⟩

theorem findRun_some (ix : List StoreRecord) (b n fuel f c : Nat) (h : findRun ix b n fuel f = some c) :
    runFree ix b n c = true ∧ f ≤ c ∧ ∀ c', f ≤ c' → c' < c → runFree ix b n c' = false := by
  induction fuel generalizing f with
  | zero => simp [findRun] at h
  | succ m ih =>
    simp only [findRun] at h
    split at h
    · cases h
      rename_i hh
      exact ⟨hh, Nat.le_refl _, fun c' _ _ => by omega⟩
    · rename_i hh
      obtain ⟨a1, a2, a3⟩ := ih _ h
      refine ⟨a1, by omega, fun c' b1 b2 => ?_⟩
      by_cases hc : c' = f
      · subst hc
        simpa using hh
      · exact a3 c' (by omega) b2

theorem findRun_none (ix : List StoreRecord) (b n fuel f : Nat) (h : findRun ix b n fuel f = none) :
    ∀ c', f ≤ c' → c' < f + fuel → runFree ix b n c' = false := by
  induction fuel generalizing f with
  | zero =>
    intro c' _ _
    omega
  | succ m ih =>
    intro c' h1 h2
    simp only [findRun] at h
    split at h
    · cases h
    · rename_i hh
      by_cases hc : c' = f
      · subst hc
        simpa using hh
      · exact ih _ h c' (by omega) (by omega)

/-! ## The squeeze (R49) -/

theorem squeezeRound_zero (l : List (Nat × Nat)) : squeezeRound 0 l = (0, l) := by
  induction l with
  | nil => rfl
  | cons y l ih => simp [squeezeRound, ih]

theorem squeezeRounds_zero (m : Nat) (l : List (Nat × Nat)) : squeezeRounds m 0 l = l := by
  induction m generalizing l with
  | zero => rfl
  | succ m ih => simp [squeezeRounds, squeezeRound_zero, ih]

/-- One round: what is taken has left the excess, no reduction passes its limit, and while some excess is left every gap below its limit
has been reduced by one. -/
theorem squeezeRound_spec (e : Nat) (gs : List (Nat × Nat)) (h : ∀ g ∈ gs, g.2 ≤ g.1) :
    (squeezeRound e gs).1 + ((squeezeRound e gs).2.map (·.2)).sum = e + (gs.map (·.2)).sum ∧
      (squeezeRound e gs).2.map (·.1) = gs.map (·.1) ∧ (∀ g ∈ (squeezeRound e gs).2, g.2 ≤ g.1) ∧
      (0 < (squeezeRound e gs).1 → (squeezeRound e gs).2 = gs.map fun g => (g.1, min g.1 (g.2 + 1))) := by
  induction gs generalizing e with
  | nil => simp [squeezeRound]
  | cons g gs ih =>
    have hg := h g (by simp)
    have ht : ∀ x ∈ gs, x.2 ≤ x.1 := fun x hx => h x (by simp [hx])
    simp only [squeezeRound]
    split
    · rename_i hc
      simp at hc
      obtain ⟨a, b, c, d⟩ := ih (e - 1) ht
      refine ⟨by simp; omega, by simp [b], ?_, ?_⟩
      · intro x hx
        rcases List.mem_cons.1 hx with rfl | hx
        · simp
          omega
        · exact c x hx
      · intro hp
        simp [d hp]
        omega
    · rename_i hc
      obtain ⟨a, b, c, d⟩ := ih e ht
      refine ⟨by simp; omega, by simp [b], ?_, ?_⟩
      · intro x hx
        rcases List.mem_cons.1 hx with rfl | hx
        · exact hg
        · exact c x hx
      · intro hp
        have hp' : 0 < (squeezeRound e gs).1 := hp
        have he : 0 < e := by
          rcases Nat.eq_zero_or_pos e with rfl | he
          · rw [squeezeRound_zero] at hp'
            omega
          · exact he
        simp [he] at hc
        simp only [d hp', List.map_cons]
        congr 1
        have : g.2 = g.1 := by omega
        ext <;> simp
        omega

/-! ## JUSTIFY (R52) -/

/-- The additions of the places: their sum, their number, and that each SPACE takes the quotient or one more. -/
theorem justifyAdditions_spec (q : Nat) (ps : List Placement) (rest : Nat)
    (h : rest ≤ (ps.filter fun p => p.role == .space).length) :
    (justifyAdditions q rest ps).sum = q * (ps.filter fun p => p.role == .space).length + rest ∧
      (justifyAdditions q rest ps).length = ps.length ∧
      ∀ k p, ps[k]? = some p → (p.role ≠ .space → (justifyAdditions q rest ps).getD k 0 = 0) ∧
        (p.role = .space → (justifyAdditions q rest ps).getD k 0 = q ∨ (justifyAdditions q rest ps).getD k 0 = q + 1) := by
  induction ps generalizing rest with
  | nil =>
    simp at h
    simp [justifyAdditions, h]
  | cons p ps ih =>
    simp only [justifyAdditions]
    by_cases hr : p.role = .space
    · simp [hr] at h
      simp only [if_pos hr]
      split
      · rename_i h0
        obtain ⟨a, b, c⟩ := ih 0 (by omega)
        refine ⟨by simp [a, hr, h0]; rw [Nat.mul_add]; omega, by simp [b], ?_⟩
        intro k p' hk
        cases k with
        | zero => simp at hk; subst hk; simp [hr]
        | succ k => simp at hk; simpa using c k p' hk
      · rename_i h0
        obtain ⟨a, b, c⟩ := ih (rest - 1) (by omega)
        refine ⟨by simp [a, hr]; rw [Nat.mul_add]; omega, by simp [b], ?_⟩
        intro k p' hk
        cases k with
        | zero => simp at hk; subst hk; simp [hr]
        | succ k => simp at hk; simpa using c k p' hk
    · simp [hr] at h
      obtain ⟨a, b, c⟩ := ih rest h
      simp only [if_neg hr]
      refine ⟨by simp [a, hr], by simp [b], ?_⟩
      intro k p' hk
      cases k with
      | zero => simp at hk; subst hk; simp [hr]
      | succ k => simp at hk; simpa using c k p' hk

end Sys2Proof.Machine
end

