-- ==== Sys2Proof/Laws/Slots.lean ====
section
/-! SUPPORT. What the operations leave of the slots' own invariants and of the ports. `Steady s t`: no line loses its header, a READY slot
stays READY, the sequencer's state is the same, and outputs are only added. `Rises s t` leaves out the READY slots and the sequencer's
state, for the operations that `settle` follows. `Holds s t`: both invariants of the slots are kept, and outputs are only added. -/

namespace Sys2Proof.Machine

/-- A slot that holds a line holds its header. -/
def Slot.headed (t : Slot) : Prop := t.state ≠ .empty → t.header ≠ none

theorem slotsHeaded_iff (s : State) : SlotsHeaded s ↔ ∀ i, (s.slots.get i).headed := Iff.rfl

theorem Slots.get_put (x : Slots) (i j : SlotId) (v : Slot) : (x.put i v).get j = if j = i then v else x.get j := by
  cases i <;> cases j <;> rfl

theorem Slots.get_vacate (x : Slots) (i j : SlotId) : (x.vacate i).get j = if j = i then .vacant else x.get j := by
  cases i <;> cases j <;> rfl

theorem SlotId.other_ne (i : SlotId) : i.other ≠ i := by cases i <;> simp [SlotId.other]

structure Steady (s t : State) : Prop where
  headed : ∀ i, (s.slots.get i).headed → (t.slots.get i).headed
  ready  : ∀ i, (s.slots.get i).state = .ready → (t.slots.get i).state = .ready
  seq    : t.seq.state = s.seq.state
  out    : s.out <+: t.out

structure Rises (s t : State) : Prop where
  headed : ∀ i, (s.slots.get i).headed → (t.slots.get i).headed
  out    : s.out <+: t.out

structure Holds (s t : State) : Prop where
  headed : ∀ i, (s.slots.get i).headed → (t.slots.get i).headed
  waits  : ProofWaits s → ProofWaits t
  out    : s.out <+: t.out

namespace Steady

theorem refl (s : State) : Steady s s := ⟨fun _ => id, fun _ => id, rfl, List.prefix_rfl⟩

theorem trans {s t u : State} (h : Steady s t) (k : Steady t u) : Steady s u :=
  ⟨fun i => k.headed i ∘ h.headed i, fun i => k.ready i ∘ h.ready i, k.seq.trans h.seq, h.out.trans k.out⟩

theorem rises {s t : State} (h : Steady s t) : Rises s t := ⟨h.headed, h.out⟩

theorem holds {s t : State} (h : Steady s t) : Holds s t :=
  ⟨h.headed, fun w i hi => h.ready i (w i (h.seq ▸ hi)), h.out⟩

/-- The slots and the sequencer's state are as before. -/
theorem of {s t : State} (h : t.slots = s.slots) (k : t.seq.state = s.seq.state) (o : s.out <+: t.out) : Steady s t :=
  ⟨fun i => by rw [h]; exact id, fun i => by rw [h]; exact id, k, o⟩

end Steady

/-- Moreover the states of the slots and the headers of their lines are the same. -/
structure Alike (s t : State) : Prop where
  state  : ∀ i, (t.slots.get i).state = (s.slots.get i).state
  header : ∀ i, (t.slots.get i).header = (s.slots.get i).header
  seq    : t.seq.state = s.seq.state
  out    : s.out <+: t.out

namespace Alike

theorem refl (s : State) : Alike s s := ⟨fun _ => rfl, fun _ => rfl, rfl, List.prefix_rfl⟩

theorem trans {s t u : State} (h : Alike s t) (k : Alike t u) : Alike s u :=
  ⟨fun i => (k.state i).trans (h.state i), fun i => (k.header i).trans (h.header i), k.seq.trans h.seq, h.out.trans k.out⟩

theorem steady {s t : State} (h : Alike s t) : Steady s t :=
  ⟨fun i => by simp only [Slot.headed, h.state i, h.header i]; exact id, fun i k => (h.state i).trans k, h.seq, h.out⟩

theorem of {s t : State} (h : t.slots = s.slots) (k : t.seq.state = s.seq.state) (o : s.out <+: t.out) : Alike s t :=
  ⟨fun i => by rw [h], fun i => by rw [h], k, o⟩

end Alike

namespace Rises

theorem refl (s : State) : Rises s s := ⟨fun _ => id, List.prefix_rfl⟩

theorem trans {s t u : State} (h : Rises s t) (k : Rises t u) : Rises s u :=
  ⟨fun i => k.headed i ∘ h.headed i, h.out.trans k.out⟩

theorem of {s t : State} (h : t.slots = s.slots) (o : s.out <+: t.out) : Rises s t := ⟨fun i => by rw [h]; exact id, o⟩

end Rises

namespace Holds

theorem refl (s : State) : Holds s s := ⟨fun _ => id, id, List.prefix_rfl⟩

theorem trans {s t u : State} (h : Holds s t) (k : Holds t u) : Holds s u :=
  ⟨fun i => k.headed i ∘ h.headed i, k.waits ∘ h.waits, h.out.trans k.out⟩

theorem rises {s t : State} (h : Holds s t) : Rises s t := ⟨h.headed, h.out⟩

/-- No PROOF-WAIT is left, and the slots are as before. -/
theorem leaves {s t : State} (h : t.slots = s.slots) (k : ∀ i, t.seq.state ≠ .proofWait i) (o : s.out <+: t.out) : Holds s t :=
  ⟨fun i => by rw [h]; exact id, fun _ i hi => absurd hi (k i), o⟩

end Holds

/-- Error reports, withdrawals and copies leave the slots alone. -/
theorem Spared.steady {s t : State} (h : Spared s t) : Steady s t :=
  .of h.slots (congrArg Sequencer.state h.seq :) ⟨[], by rw [List.append_nil, h.out]⟩

/-- So does an access to the cells. -/
theorem Accessed.steady {s t : State} (h : Accessed s t) : Steady s t := by
  obtain ⟨w, hw⟩ := h.out
  exact .of h.spared.slots (congrArg Sequencer.state h.spared.seq :) (by rw [hw]; exact List.prefix_append _ _)

namespace State

/-! ## The transmit queue -/

theorem offer_steady (f) (s : State) : Steady s (s.offer f).1 := (offer_spared f s).steady

theorem notify_steady (d n) (s : State) : Steady s (s.notify d n) := (notify_spared d n s).steady

theorem giveUp_steady (f) (s : State) : Steady s (s.giveUp f) := (giveUp_spared f s).steady

theorem delivered_steady (f) (s : State) : Steady s (s.delivered f) := by
  cases f <;> simp only [delivered]
  case enrol => exact (spared_startWait s).steady
  all_goals exact .refl s

theorem offerOutgoing_steady (s : State) : Steady s s.offerOutgoing := (offerOutgoing_spared s).steady

/-- A report that is placed empties its slot. -/
theorem offerSlot_steady (i) (s : State) : Steady s (s.offerSlot i) := by
  unfold offerSlot
  split
  · rename_i rep hd hr _ _
    have k := offer_steady (.report hd.requester rep) s
    dsimp only
    split
    · refine k.trans ⟨fun j => ?_, fun j hj => ?_, rfl, List.prefix_rfl⟩
      · rw [slots_setSlots, Slots.get_vacate]
        split
        · exact fun _ h => absurd rfl h
        · exact id
      · rw [slots_setSlots, Slots.get_vacate]
        split
        · rename_i e
          subst e
          have : (s.offer (.report hd.requester rep)).1.slots = s.slots := (offer_spared _ s).slots
          rw [this] at hj
          rw [slot_eq, hj] at hr
          cases hr
        · exact hj
    · exact .refl s
  · exact .refl s

theorem reportEntries_steady (which es) (s : State) : Steady s (reportEntries which es s).2 := by
  induction es generalizing s with
  | nil => exact .refl s
  | cons e es ih =>
    simp only [reportEntries]
    split
    · exact ih s
    · split
      · exact (offer_steady _ s).trans (ih _)
      · exact (offer_steady _ s).trans (ih _)

theorem reportLines_steady (which) (s : State) : Steady s (s.reportLines which) :=
  (reportEntries_steady which s.lines s).trans (.of rfl rfl List.prefix_rfl)

/-- The owners that wait for room are offered it. -/
theorem gainRoom_steady (s : State) : Steady s s.gainRoom := by
  unfold gainRoom
  have h : Steady s (if s.link.enrolWaits then s.offerEnrol else s) := by
    split
    · exact (offer_steady (.enrol s.enrolFields) s).trans (.of rfl rfl List.prefix_rfl)
    · exact .refl s
  exact (((h.trans (offerOutgoing_steady _)).trans (offerSlot_steady _ _)).trans (offerSlot_steady _ _)).trans
    (reportLines_steady _ _)

/-! ## Slots -/

/-- A slot is given contents with a header when its old contents had one, and stays READY. -/
theorem putSlot_steady (i v) (s : State) (h : (s.slots.get i).headed → v.headed)
    (k : (s.slots.get i).state = .ready → v.state = .ready) : Steady s (s.putSlot i v) := by
  refine ⟨fun j => ?_, fun j => ?_, rfl, List.prefix_rfl⟩ <;> rw [putSlot_eq, slots_setSlots, Slots.get_put] <;> split
  · rename_i e
    subst e
    exact h
  · exact id
  · rename_i e
    subst e
    exact k
  · exact id

/-- The line stays and the state does not change, or the slot begins or ends a pass. -/
theorem putSlot_same (i v) (s : State) (h : v.header = (s.slots.get i).header)
    (k : v.state = (s.slots.get i).state ∨ (s.slots.get i).state = .awaiting ∨ (s.slots.get i).state = .resolving) :
    Steady s (s.putSlot i v) := by
  refine putSlot_steady i v s (fun hh hv => ?_) (fun hr => ?_)
  · rw [h]
    refine hh ?_
    rcases k with k | k | k
    · rwa [← k]
    · simp [k]
    · simp [k]
  · rcases k with k | k | k
    · rwa [k]
    · rw [k] at hr; cases hr
    · rw [k] at hr; cases hr

theorem putSlot_alike (i v) (s : State) (h : v.state = (s.slots.get i).state) (k : v.header = (s.slots.get i).header) :
    Alike s (s.putSlot i v) := by
  refine ⟨fun j => ?_, fun j => ?_, rfl, List.prefix_rfl⟩ <;> rw [putSlot_eq, slots_setSlots, Slots.get_put] <;> split
  · rename_i e
    subst e
    exact h
  · rfl
  · rename_i e
    subst e
    exact k
  · rfl

theorem mapCache_alike (f) (s : State) : Alike s (s.mapCache f) := .of rfl rfl List.prefix_rfl
theorem mapStore_alike (f) (s : State) : Alike s (s.mapStore f) := .of rfl rfl List.prefix_rfl
theorem setFetches_alike (x) (s : State) : Alike s (s.setFetches x) := .of rfl rfl List.prefix_rfl
theorem setPass_alike (i f) (s : State) : Alike s (s.setPass i f) := putSlot_alike _ _ s rfl rfl
theorem setPlacement_alike (i p f) (s : State) : Alike s (s.setPlacement i p f) := putSlot_alike _ _ s rfl rfl
theorem setFlags_alike (i f) (s : State) : Alike s (s.setFlags i f) := putSlot_alike _ _ s rfl rfl

theorem resolveAt_alike (i p n) (s : State) : Alike s (s.resolveAt i p n) := by
  unfold resolveAt
  split
  · exact (mapCache_alike _ s).trans (setPlacement_alike _ _ _ _)
  · exact .refl s

theorem queueRead_alike (i k) (s : State) : Alike s (s.queueRead i k) :=
  (mapStore_alike _ s).trans (setPass_alike _ _ _)

theorem thirdStep_alike (i p k) (s : State) : Alike s (s.thirdStep i p k) := by
  unfold thirdStep
  split
  · exact setPlacement_alike _ _ _ s
  · split
    · exact (setPlacement_alike _ _ _ s).trans (setFlags_alike _ _ _)
    · split
      · unfold fetchFor
        split
        · exact resolveAt_alike _ _ _ s
        · exact (setFetches_alike _ s).trans (setPlacement_alike _ _ _ _)
      · exact setPlacement_alike _ _ _ s

theorem visit_alike (i p k) (s : State) : Alike s (s.visit i p k) := by
  unfold visit
  split
  · exact resolveAt_alike _ _ _ s
  · split
    · unfold secondStep
      split
      · exact setPass_alike _ _ s
      · exact queueRead_alike _ _ s
    · exact thirdStep_alike _ _ _ s

theorem walk_alike (n i) (s : State) : Alike s (walk n i s) := by
  induction n generalizing s with
  | zero => exact .refl s
  | succ n ih =>
    simp only [walk]
    split
    · exact .refl s
    · split
      · exact .refl s
      · split
        · split
          · exact ((visit_alike _ _ _ s).trans (setPass_alike _ _ _)).trans (ih _)
          · exact visit_alike _ _ _ s
        · exact (setPass_alike _ _ s).trans (ih _)

theorem releaseHeld_steady (j) (s : State) : Steady s (s.releaseHeld j) := by
  unfold releaseHeld
  dsimp only
  split
  · rename_i h
    exact putSlot_same _ _ s rfl (.inr (.inl h))
  · rename_i h _
    split <;> exact putSlot_same _ _ s rfl (.inr (.inr h))
  · exact putSlot_same _ _ s rfl (.inl rfl)

theorem passEnded_steady (i) (s : State) : Steady s (s.passEnded i) := by
  unfold passEnded
  split
  · exact .refl s
  · exact releaseHeld_steady _ s
  · exact putSlot_same _ _ s rfl (.inl rfl)

theorem passesOver_steady (i) (s : State) : Steady s (s.passesOver i) := by
  unfold passesOver
  split
  · exact .refl s
  · exact releaseHeld_steady _ s

/-- It leaves the slot itself as it is. -/
theorem passesOver_self (i) (s : State) : (s.passesOver i).slots.get i = s.slots.get i := by
  have h : ∀ v, (s.putSlot i.other v).slots.get i = s.slots.get i := by
    intro v
    rw [putSlot_eq, slots_setSlots, Slots.get_put, if_neg (Ne.symm i.other_ne)]
  unfold passesOver
  split
  · rfl
  · unfold releaseHeld
    dsimp only
    split
    · exact h _
    · split <;> exact h _
    · exact h _

theorem passEnded_self (i) (s : State) : (s.passEnded i).slots.get i = s.slots.get i := by
  have h : ∀ v, (s.putSlot i.other v).slots.get i = s.slots.get i := by
    intro v
    rw [putSlot_eq, slots_setSlots, Slots.get_put, if_neg (Ne.symm i.other_ne)]
  unfold passEnded
  split
  · rfl
  · unfold releaseHeld
    dsimp only
    split
    · exact h _
    · split <;> exact h _
    · exact h _
  · exact h _

theorem answerRoom_steady (i) (s : State) : Steady s (s.answerRoom i) := by
  unfold answerRoom
  split
  · rename_i h
    exact putSlot_same _ _ s rfl (.inr (.inl h))
  · exact putSlot_same _ _ s rfl (.inl rfl)
  all_goals exact .refl s

theorem roomEvent_steady (s : State) : Steady s s.roomEvent := by
  unfold roomEvent
  dsimp only
  split
  · refine (answerRoom_steady _ s).trans (putSlot_same _ _ _ ?_ (.inl ?_)) <;> split <;> rfl
  · split
    · exact answerRoom_steady _ s
    · split
      · exact answerRoom_steady _ s
      · exact .refl s

theorem vacant_headed : Slot.vacant.headed := fun h => absurd rfl h

theorem finishLine_rises (i o w g) (s : State) : Rises s (s.finishLine i o w g) := by
  unfold finishLine
  dsimp only
  split
  · exact .refl s
  · rename_i hd _
    refine Rises.trans ?_ ((offerSlot_steady i _).trans (passesOver_steady i _)).rises
    refine Rises.trans (Rises.of rfl List.prefix_rfl) ⟨fun j => ?_, List.prefix_rfl⟩
    rw [putSlot_eq, slots_setSlots, Slots.get_put]
    split
    · intro _ _ h
      cases h
    · exact id

/-- The line of a slot that is not READY is given its outcome. -/
theorem finishLine_steady (i o w g) (s : State) (h : (s.slots.get i).state ≠ .ready) : Steady s (s.finishLine i o w g) := by
  unfold finishLine
  dsimp only
  split
  · exact .refl s
  · rename_i hd _
    refine Steady.trans ?_ ((offerSlot_steady i _).trans (passesOver_steady i _))
    refine ((mapCache_alike _ s).trans (mapStore_alike _ _)).steady.trans (putSlot_steady _ _ _ ?_ ?_)
    · intro _ _ h
      cases h
    · exact fun h' => absurd h' h

theorem endBoth_rises (o) (s : State) : Rises s (s.endBoth o) := by
  have k : ∀ i (u : State), Rises u (u.endAssembly o i) := by
    intro i u
    unfold endAssembly
    split
    · exact finishLine_rises _ _ _ _ u
    · exact .refl u
  exact (k _ s).trans (k _ _)

theorem measureSlot_steady (i) (s : State) (h : (s.slots.get i).state ≠ .ready) : Steady s (s.measureSlot i) := by
  unfold measureSlot
  dsimp only
  split
  · exact .refl s
  · rename_i hd hh
    split
    · refine putSlot_steady _ _ s ?_ (fun _ => rfl)
      intro _ _ k
      rw [hh] at k
      cases k
    · exact finishLine_steady _ _ _ _ s h

theorem endPass_steady (i) (s : State) (h : (s.slots.get i).state = .resolving) : Steady s (s.endPass i) := by
  have k : ((s.passesOver i).slots.get i).state = .resolving := by rw [passesOver_self, h]
  unfold endPass
  dsimp only
  refine (passesOver_steady i s).trans ?_
  split
  · exact measureSlot_steady _ _ (by rw [k]; simp)
  · exact putSlot_same _ _ _ rfl (.inr (.inr k))

theorem passes_steady (n i) (s : State) (h : (s.slots.get i).state = .resolving) : Steady s (passes n i s) := by
  induction n generalizing s with
  | zero => exact .refl s
  | succ n ih =>
    simp only [passes]
    have w := walk_alike ((s.slot i).list.length - ((s.slot i).pass.map Pass.pos).getD 0) i s
    have k := (w.state i).trans h
    split
    · exact w.steady
    · split
      · split
        · split
          · exact (w.trans (setPass_alike _ _ _)).steady
          · refine ((w.steady.trans (putSlot_same i (Slot.beginPass ((walk _ i s).slot i)) _ rfl (.inr (.inr k)))).trans
              (passEnded_steady _ _)).trans (ih _ ?_)
            rw [passEnded_self, putSlot_eq, slots_setSlots, Slots.get_put, if_pos rfl]
            rfl
        · exact w.steady.trans (endPass_steady _ _ k)
      · exact w.steady

/-- A slot that runs changes neither the header of a line nor a READY slot. -/
theorem runSlot_steady (i) (s : State) : Steady s (s.runSlot i) := by
  unfold runSlot
  split
  · rename_i h
    split
    · exact passes_steady _ _ s h
    · exact .refl s
  · rename_i h
    split
    · exact measureSlot_steady _ s (by rw [slot_eq] at h; rw [h]; simp)
    · exact .refl s
  all_goals exact .refl s

/-! ## Hand-over -/

/-- A line that is sent leaves no PROOF-WAIT. -/
theorem transfer_holds (i) (s : State) (h : (s.slots.get i).state ≠ .empty) : Holds s (s.transfer i) := by
  refine ⟨fun j => ?_, fun _ j hj => ?_, List.prefix_append _ _⟩
  · have : (s.transfer i).slots = s.slots.put i { s.slots.get i with state := .exposing } := rfl
    rw [this, Slots.get_put]
    split
    · rename_i e
      subst e
      exact fun hh _ => hh h
    · exact id
  · have : (s.transfer i).seq.state = .exposing := rfl
    rw [this] at hj
    cases hj

/-- A READY line is taken. -/
theorem takeReady_holds (i) (s : State) (h : (s.slots.get i).state = .ready) : Holds s (s.takeReady i) := by
  unfold takeReady
  split
  · have k := notify_steady s.ownerOrAll (.proofReady (((s.slot i).header.map LineHeader.number).getD 0))
      (s.mapSeq fun q => { q with state := .proofWait i })
    refine ⟨k.headed, fun _ j hj => ?_, k.out⟩
    rw [k.seq] at hj
    cases hj
    exact k.ready _ h
  · exact transfer_holds i s (by rw [h]; simp)

theorem dispatch_holds (s : State) : Holds s s.dispatch := by
  unfold dispatch
  split
  · split
    · split
      · rename_i h
        exact takeReady_holds _ s h
      · exact .refl s
    · exact .refl s
  · exact .refl s

theorem leaveProof_rises (s : State) : Rises s s.leaveProof ∧ ProofWaits s.leaveProof := by
  unfold leaveProof
  split
  · rename_i i h
    split
    · rename_i k
      refine ⟨.refl s, fun j hj => ?_⟩
      rw [h] at hj
      cases hj
      exact k
    · exact ⟨.of rfl List.prefix_rfl, fun j hj => by cases hj⟩
  all_goals
    rename_i h
    exact ⟨.refl s, fun j hj => by rw [h] at hj; cases hj⟩

/-- Whatever went before, the waiting slot of PROOF-WAIT is READY after `settle`. -/
theorem settle_waits (s : State) : ProofWaits s.settle :=
  ((((runSlot_steady s.leaveProof.slots.older s.leaveProof).holds.trans (dispatch_holds _)).trans
    (runSlot_steady s.leaveProof.slots.older.other _).holds).trans (dispatch_holds _)).waits (leaveProof_rises s).2

theorem settle_rises (s : State) : Rises s s.settle :=
  (leaveProof_rises s).1.trans
    ((((runSlot_steady s.leaveProof.slots.older s.leaveProof).holds.trans (dispatch_holds _)).trans
      (runSlot_steady s.leaveProof.slots.older.other _).holds).trans (dispatch_holds _)).rises

/-- An event that `settle` follows keeps both invariants of the slots. -/
theorem Rises.settled {s t : State} (h : Rises s t) : Holds s t.settle :=
  ⟨(h.trans (settle_rises t)).headed, fun _ => settle_waits t, (h.trans (settle_rises t)).out⟩

/-! ## Ends of fetches and invalidation -/

theorem resolveAwaiting_alike (k n r a i) (s : State) : Alike s (s.resolveAwaiting k n r a i) := by
  unfold resolveAwaiting
  dsimp only
  split
  · exact .refl s
  · have h := (mapCache_alike (fun c => (List.replicate ((s.slot i).list.filter (Slot.awaits k)).length n).foldl
      (fun c m => c.pin m) c) s).trans (putSlot_alike i ((s.slot i).withList ((s.slot i).list.map fun p =>
        if Slot.awaits k p then resolveWith n r p else p)) _ rfl rfl)
    split
    · exact h.trans (setFlags_alike _ _ _)
    · exact h

theorem resolveAllAwaiting_alike (k n r a) (s : State) : Alike s (s.resolveAllAwaiting k n r a) :=
  (resolveAwaiting_alike _ _ _ _ _ s).trans (resolveAwaiting_alike _ _ _ _ _ _)

theorem substituteAwaiting_alike (k i) (s : State) : Alike s (s.substituteAwaiting k i) := by
  unfold substituteAwaiting
  dsimp only
  split
  · exact (putSlot_alike i ((s.slot i).withList ((s.slot i).list.map fun p => if Slot.awaits k p then substitute p else p)) s rfl
      rfl).trans (setFlags_alike _ _ _)
  · exact .refl s

theorem staleSlot_rises (ns i) (s : State) : Rises s (s.staleSlot ns i) := by
  have k : ∀ (u : State) (v : Slot), v.header = (u.slots.get i).header → (u.slots.get i).state ≠ .empty →
      Rises u (u.putSlot i v) := by
    intro u v h1 h2
    refine ⟨fun j => ?_, List.prefix_rfl⟩
    rw [putSlot_eq, slots_setSlots, Slots.get_put]
    split
    · rename_i e
      subst e
      intro hh _
      rw [h1]
      exact hh h2
    · exact id
  unfold staleSlot
  dsimp only
  split
  · split
    · exact (setFlags_alike _ _ s).steady.rises
    · split
      · rename_i h
        have hne : (s.slots.get i).state ≠ .empty := by
          simp only [Slot.inAssembly, slot_eq, Bool.or_eq_true, beq_iff_eq] at h
          rcases h with (h | h) | h <;> rw [h] <;> simp
        split <;> exact (mapCache_alike _ s).steady.rises.trans (k _ _ rfl hne)
      · exact .refl s
  · exact .refl s

theorem insertImage_alike (r o) (s : State) : Alike s (s.insertImage r o).2 := .of rfl rfl List.prefix_rfl

theorem updateFetch_alike (k f) (s : State) : Alike s (s.updateFetch k f) := setFetches_alike _ s

theorem endWithImage_holds (f r) (s : State) : Holds s (s.endWithImage f r) :=
  Rises.settled ((((setFetches_alike _ s).trans (insertImage_alike _ _ _)).trans (resolveAllAwaiting_alike _ _ _ _ _)).steady.trans
    (roomEvent_steady _)).rises

theorem finalFailure_holds (k) (s : State) : Holds s (s.finalFailure k) :=
  Rises.settled ((((setFetches_alike _ s).trans (substituteAwaiting_alike _ _ _)).trans
    (substituteAwaiting_alike _ _ _)).steady.trans (roomEvent_steady _)).rises

theorem failedAttempt_holds (f) (s : State) : Holds s (s.failedAttempt f) := by
  unfold failedAttempt
  split
  · exact finalFailure_holds _ s
  · split
    · exact (updateFetch_alike _ _ s).steady.holds
    · exact finalFailure_holds _ s

/-- An exchange ends with its outcome. -/
theorem takeOutcome_holds (x o) (s : State) : Holds s (s.takeOutcome x o) := by
  have hm : Steady s ((s.mapLink fun l => { l with exchange := none, tenure := .none }).markOutcome x o) := by
    unfold markOutcome
    split <;> exact .of rfl rfl List.prefix_rfl
  unfold takeOutcome
  dsimp only
  split
  · refine hm.holds.trans ?_
    unfold takeDetached
    split
    · split
      · exact (insertImage_alike _ _ _).steady.holds
      · exact .refl _
    all_goals exact .refl _
  · split
    · refine hm.holds.trans ?_
      unfold takeAttached
      split
      · split
        · exact endWithImage_holds _ _ _
        · exact failedAttempt_holds _ _
      · split
        · exact (updateFetch_alike _ _ _).steady.holds
        · exact failedAttempt_holds _ _
      all_goals exact failedAttempt_holds _ _
    · exact hm.holds

/-! ## Ends of attempts -/

theorem mapLink_steady (f) (s : State) : Steady s (s.mapLink f) := .of rfl rfl List.prefix_rfl

theorem frameLeaves_holds (e g) (s : State) : Holds s (s.frameLeaves e g) := by
  cases g
  · exact Rises.settled (((mapLink_steady _ s).trans (giveUp_steady e.frame _)).trans (gainRoom_steady _)).rises
  · exact Rises.settled (((mapLink_steady _ s).trans (delivered_steady e.frame _)).trans (gainRoom_steady _)).rises

theorem frameAttempt_holds (a) (s : State) : Holds s (s.frameAttempt a) := by
  unfold frameAttempt
  split
  · split
    · exact frameLeaves_holds _ _ s
    · exact frameLeaves_holds _ _ s
    · split
      · exact frameLeaves_holds _ _ s
      · exact (mapLink_steady _ s).holds
  · exact .refl s

theorem exchangeAttempt_holds (a) (s : State) : Holds s (s.exchangeAttempt a) := by
  unfold exchangeAttempt
  split
  · split
    · exact .refl s
    · exact takeOutcome_holds _ _ s
    · split
      · exact takeOutcome_holds _ _ s
      · exact .refl s
  · exact .refl s

/-- The station's own tenure ends. -/
theorem endTenure_holds (n a) (s : State) : Holds s (s.endTenure n a) := by
  unfold endTenure
  dsimp only
  split
  · exact (mapLink_steady _ s).holds
  · exact (mapLink_steady _ s).holds.trans (exchangeAttempt_holds _ _)
  · exact (mapLink_steady _ s).holds.trans (frameAttempt_holds _ _)

theorem disturbed_holds (s : State) : Holds s s.disturbed := by
  unfold disturbed
  have b : Holds s s.breakOff := (mapLink_steady _ s).holds
  split <;> first
    | exact endTenure_holds _ _ s
    | exact b
    | exact .refl s
    | (split
       · exact b
       · exact .refl s)

theorem giveUpAll_steady (q : List TxEntry) (s : State) : Steady s (q.foldl (fun s e => s.giveUp e.frame) s) := by
  induction q generalizing s with
  | nil => exact .refl s
  | cons e q ih => exact (giveUp_steady e.frame s).trans (ih _)

/-- MUTE is entered. -/
theorem enterMute_steady (s : State) : Steady s s.enterMute :=
  (((setFetches_alike _ s).steady.trans (mapLink_steady _ _)).trans (giveUpAll_steady _ _)).trans (gainRoom_steady _)

/-! ## The sequencer -/

theorem setHead_steady (x) (s : State) : Steady s (s.setHead x) := .of rfl rfl List.prefix_rfl
theorem emit_steady (o) (s : State) : Steady s (s.emit o) := .of rfl rfl (List.prefix_append _ _)

theorem mapSeq_steady (f : Sequencer → Sequencer) (s : State) (h : (f s.seq).state = s.seq.state) : Steady s (s.mapSeq f) :=
  .of rfl h List.prefix_rfl

/-- The sequencer's state is set to one other than PROOF-WAIT. -/
theorem mapSeq_leaves (f : Sequencer → Sequencer) (s : State) (h : ∀ i, (f s.seq).state ≠ .proofWait i) : Holds s (s.mapSeq f) :=
  .leaves rfl h List.prefix_rfl

theorem sendCut_holds (k r) (s : State) : Holds s (s.sendCut k r) :=
  ((mapSeq_leaves _ s (by simp)).trans (setHead_steady _ _).holds).trans (emit_steady _ _).holds

theorem endClose_steady (s : State) : Steady s s.endClose := by
  unfold endClose
  split
  · exact (notify_steady _ _ s).trans (mapSeq_steady _ _ rfl)
  · exact .refl s

/-- A close expiry. -/
theorem expireClose_holds (s : State) : Holds s s.expireClose :=
  Rises.settled (((mapSeq_steady _ s rfl).rises.trans (endBoth_rises _ _)).trans (reportLines_steady _ _).rises)

theorem takeHeldExpiry_holds (s : State) : Holds s s.takeHeldExpiry := by
  unfold takeHeldExpiry
  split
  · exact expireClose_holds s
  · exact .refl s

theorem leaveExposing_holds (f m) (s : State) : Holds s (s.leaveExposing f m) := by
  unfold leaveExposing
  dsimp only
  split
  · exact sendCut_holds _ _ s
  · split
    · exact sendCut_holds _ _ s
    · split
      · exact sendCut_holds _ _ s
      · split <;> exact mapSeq_leaves _ s (by simp)

theorem soundAlarm_steady (m) (s : State) : Steady s (s.soundAlarm m) := by
  unfold soundAlarm
  split
  · exact Steady.trans (t := s.setAcc fun a => { a with alarm := true }) (.of rfl rfl List.prefix_rfl) (notify_steady _ _ _)
  · exact .refl s

/-- FILM-OUT and HEAD-FAULT. -/
theorem faultHead_holds (o) (s : State) : Holds s (s.faultHead o) := by
  unfold faultHead
  split
  · exact .refl s
  · dsimp only
    have ends : ∀ (b : Bool) (u : State), Rises u (if b = true then u.endClose else u) := by
      intro b u
      split
      · exact (endClose_steady u).rises
      · exact .refl u
    have line : ∀ (o : Option SlotId) (u : State),
        Rises u (match o with
          | some i => u.finishLine i .cutShort (widthsOf (u.slot i)) none
          | none => u) := by
      intro o u
      cases o
      · exact .refl u
      · exact finishLine_rises _ _ _ _ u
    refine Rises.settled (Rises.trans ?_ (ends _ _))
    refine Rises.trans ?_ (takeHeldExpiry_holds _).rises
    refine Rises.trans ?_ (notify_steady _ _ _).rises
    refine Rises.trans ?_ (ends _ _)
    refine Rises.trans ?_ (line _ _)
    exact (setHead_steady _ s).rises.trans (mapSeq_leaves _ _ (by simp)).rises

/-- EXPOSED. -/
theorem lineExposed_holds (s : State) : Holds s s.lineExposed := by
  have e : Rises s s.endExposure := by
    unfold endExposure
    split
    · exact (setHead_steady _ s).rises.trans (finishLine_rises _ _ _ _ _)
    · exact (setHead_steady _ s).rises
  exact Rises.settled ((((e.trans (mapSeq_steady _ _ rfl).rises).trans (soundAlarm_steady _ _).rises).trans
    (leaveExposing_holds _ _ _).rises).trans (takeHeldExpiry_holds _).rises)

/-- CUT-DONE. -/
theorem cutEnds_holds (r) (s : State) : Holds s (s.cutEnds r) := by
  have e : Rises s ((s.setHead .none).mapSeq (cutMade r)) := .of rfl List.prefix_rfl
  unfold cutEnds
  dsimp only
  refine Rises.settled (Rises.trans ?_ (takeHeldExpiry_holds _).rises)
  split
  · exact e.trans (endClose_steady _).rises
  · exact e

theorem timerFalls_holds (s : State) : Holds s s.timerFalls := by
  unfold timerFalls
  split
  · split
    · exact (mapSeq_steady _ s rfl).holds
    · exact expireClose_holds s
  · exact (mapSeq_steady _ s rfl).holds

theorem completeClose_holds (s : State) : Holds s s.completeClose := by
  unfold completeClose
  split <;> first
    | exact sendCut_holds _ _ s
    | exact (endClose_steady s).holds
    | exact .refl s

theorem takeStationClear_holds (s : State) : Holds s s.takeStationClear := by
  unfold takeStationClear
  dsimp only
  have h := (endBoth_rises .cleared s).trans (reportLines_steady _ _ : Steady _ (reportQueued .cleared _)).rises
  refine Rises.settled (Rises.trans ?_ (mapCache_alike _ _).steady.rises)
  split
  · exact (h.trans (setFetches_alike _ _).steady.rises).trans (roomEvent_steady _).rises
  · exact h

end State

end Sys2Proof.Machine
end

