-- ==== Sys2Proof/Laws/Walk.lean ====
section
/-! SUPPORT. The patrol's walk over WITHDRAWN banks: what it leaves of the banks, and where it comes to rest (R133). -/

namespace Sys2Proof.Machine.Patrol

/-- The completion of a pass changes no bank's state. -/
theorem bankState_completePass (p : Patrol) (b : Nat) : p.completePass.bankState b = p.bankState b := by
  unfold completePass
  split
  · simp only [dripBanks, bankState, List.getD_eq_getElem?_getD, List.getElem?_map]
    cases p.banks[b]? with
    | none => rfl
    | some k =>
      simp only [Option.map_some, Option.getD_some]
      split <;> rfl
  · rfl

theorem length_completePass (p : Patrol) : p.completePass.banks.length = p.banks.length := by
  unfold completePass dripBanks
  split <;> simp

/-- The completion of a pass and the position stand apart. -/
theorem completePass_position (p : Patrol) (b c : Nat) :
    completePass { p with posBank := b, posCell := c } = { p.completePass with posBank := b, posCell := c } := by
  unfold completePass
  simp only
  split <;> rfl

theorem isWithdrawn_iff (p : Patrol) (b : Nat) : p.isWithdrawn b = true ↔ p.bankState b = .withdrawn := by simp [isWithdrawn]

/-- One bank that is not WITHDRAWN is enough for the walk to go on. -/
theorem allWithdrawn_false {p : Patrol} {b : Nat} (h : p.bankState b ≠ .withdrawn) (hb : b < p.banks.length) :
    p.allWithdrawn = false := by
  simp [allWithdrawn]
  refine ⟨p.banks[b], by simp, ?_⟩
  simpa [bankState, hb] using h

/-- On a bank that is not WITHDRAWN the position stands. -/
theorem settlePosition_stands {p : Patrol} (h : p.isWithdrawn p.posBank = false) : p.settlePosition = p := by
  unfold settlePosition
  generalize p.banks.length = n
  cases n <;> simp [skipWithdrawn, h]

/-- Over WITHDRAWN banks upward to one that is not. -/
theorem skipWithdrawn_up (n : Nat) (p : Patrol) (b : Nat) (hb : b < p.banks.length) (hw : p.bankState b ≠ .withdrawn)
    (hle : p.posBank ≤ b) (hn : b - p.posBank ≤ n) (hall : ∀ c, p.posBank ≤ c → c < b → p.bankState c = .withdrawn)
    (hc : p.posBank = b ∨ p.posCell = 0) :
    skipWithdrawn n p = { p with posBank := b, posCell := if p.posBank = b then p.posCell else 0 } := by
  induction n generalizing p with
  | zero =>
    have : p.posBank = b := by omega
    subst this
    simp only [skipWithdrawn, if_true]
  | succ n ih =>
    unfold skipWithdrawn
    by_cases he : p.posBank = b
    · subst he
      have : p.isWithdrawn p.posBank = false := by simpa [isWithdrawn] using hw
      rw [this]
      simp only [Bool.false_and, Bool.false_eq_true, if_false, if_true]
    · have h1 : p.isWithdrawn p.posBank = true := (isWithdrawn_iff _ _).2 (hall _ (Nat.le_refl _) (by omega))
      have h3 : p.nextBank = { p with posBank := p.posBank + 1, posCell := 0 } := by
        unfold nextBank
        rw [if_pos (by omega)]
      simp only [h1, allWithdrawn_false hw hb, Bool.not_false, Bool.and_self, if_true, h3]
      rw [ih { p with posBank := p.posBank + 1, posCell := 0 } hb hw (by simp only; omega) (by simp only; omega)
        (fun c h h' => hall c (by simp only at h; omega) h') (Or.inr rfl)]
      simp [he]

/-- Over WITHDRAWN banks past the last one to the lowest that is not: a pass is complete. -/
theorem skipWithdrawn_wrap (n : Nat) (p : Patrol) (b : Nat) (hp : p.posBank < p.banks.length) (hb : b < p.banks.length)
    (hw : p.bankState b ≠ .withdrawn) (h1 : ∀ c, p.posBank ≤ c → c < p.banks.length → p.bankState c = .withdrawn)
    (h2 : ∀ c, c < b → p.bankState c = .withdrawn) (hn : p.banks.length - p.posBank + b ≤ n) :
    skipWithdrawn n p = { p.completePass with posBank := b, posCell := 0 } := by
  induction n generalizing p with
  | zero => omega
  | succ n ih =>
    unfold skipWithdrawn
    have e1 : p.isWithdrawn p.posBank = true := (isWithdrawn_iff _ _).2 (h1 _ (Nat.le_refl _) hp)
    have e2 := allWithdrawn_false hw hb
    simp only [e1, e2, Bool.not_false, Bool.and_self, if_true]
    by_cases hl : p.posBank + 1 < p.banks.length
    · have h3 : p.nextBank = { p with posBank := p.posBank + 1, posCell := 0 } := by
        unfold nextBank
        rw [if_pos hl]
      rw [h3, ih { p with posBank := p.posBank + 1, posCell := 0 } hl hb hw
        (fun c h h' => h1 c (by simp only at h; omega) h') h2 (by simp only; omega), completePass_position]
    · have h3 : p.nextBank = { p.completePass with posBank := 0, posCell := 0 } := by
        unfold nextBank
        rw [if_neg hl]
        show (if p.allWithdrawn = true then _ else _) = _
        rw [if_neg (by rw [e2]; simp)]
        exact completePass_position _ _ _
      have hbs : ∀ c, bankState { p.completePass with posBank := 0, posCell := 0 } c = p.bankState c :=
        fun c => bankState_completePass p c
      rw [h3, skipWithdrawn_up n _ b (by simp only [length_completePass]; exact hb) (by rw [hbs]; exact hw) (Nat.zero_le _)
        (by simp only; omega) (fun c _ h => by rw [hbs]; exact h2 c h) (Or.inr rfl)]
      simp only [ite_self]

end Sys2Proof.Machine.Patrol
end

