-- ==== Sys2Proof/Tests/Slice0.lean ====
section
/-! SUPPORT. Tests: an ill-formed command for each check of WellFormed, the spec's worked examples, and for each statement with hypotheses
a state and operands that meet them. -/

namespace Sys2Proof.Tests

open Sys2Proof.Machine

-- One test after the other: a test that waits for the kernel in a thread of its own costs that thread's whole stack.
set_option Elab.async false

/-! ## WellFormed: one ill-formed term for each check -/

def okHdr : Hdr := { src := 1, dst := 6 }
def okKey : Key := { face := 255, index := 65535 }
def okSpan : Span := { face := 12, first := 0, last := 65535 }
def okLine : LineFrame :=
  { number := 65535, measure := 2400, leading := 240, mode := 3, baseDir := 0, squeeze := 2
    runs := [{ table := 3, dir := 0, face := 12, size := 20, codes := [0x66, 0x69, 0x20] }] }
def okAnnounce : AnnounceFrame :=
  { first := { face := 21, index := 0 }, last := { face := 21, index := 0xFFF }, version := 7
    ways := [{ primary := 5, alternate := 8 }], complete := true }
def okLoad : LoadFields :=
  { key := { face := 40, index := 0x502 }, pieceCount := 3, advanceWidth := 600, originX := -125, originY := 450, imageLength := 150 }
def okAlarm : AlarmFrame :=
  { line := 2, column := 1, page := 31, maskLine := true, maskCol := true, maskPage := false, autoCut := 1 }
def okHeader : HeaderFields := { codeBase := 0x600, codeCount := 128, ligCount := 2, spaceCode := 0x20, spaceWidth := 230 }
def okEntry : CodeEntry := { cls := .dual, isolated := 0x500, final := 0x501, initial := 0x502, medial := 0x503 }
def okLig : LigEntry := { first := 0x523, second := 0x511, ligature := 0x531 }
def okFrame : RawFrame := { cls := 0, kind := 1, src := 4, dst := 6, payload := [0x15, 0x03, 0x46] }
def okReply : RawReply := { src := 9, dst := 6, status := 1, payload := [] }
def okPolicy : PolicyFrame := { noFields with threshold := some 255, force := some 3 }

def noSlots : Asserted := { ack := false, object := false }

theorem test_wellformed_accepts :
    ([.fetch okHdr okKey noSlots, .enrol okHdr 1 4 true false 2048, .announce okHdr okAnnounce,
      .withdraw okHdr [{ first := okKey, last := okKey }], .invalidate okHdr okSpan, .threshold okHdr 255, .line okHdr okLine,
      .pageBegin okHdr 12 255 65535, .alarmSet okHdr okAlarm, .run okHdr, .header okHdr 255 okHeader,
      .classBlock okHdr 5 0 [okEntry], .ligature okHdr 5 0 [okLig], .commit okHdr 5, .loadPiece0 okHdr okLoad [],
      .loadPiece okHdr okKey 7 8 [], .discard okHdr okSpan, .lineReport okHdr [], .notice okHdr [], .frameOutOfForm okFrame,
      .checkWordWrong okFrame 0, .frameObserved (.heldFetch okHdr), .contend [{ cls := 3, kind := 15, src := 15 }], .reply okReply 0,
      .deferTimer okKey, .control okHdr [.pageBegin 2 3 600, .alarmSet okAlarm, .run], .storePolicy okHdr okPolicy, .freeCondition,
      .stationReset Config.boardStraps { tenure := true, begun := some { access := .patrolStep .corrected, writes := 1 } }] :
      List Instr).all Instr.wf = true := by decide +kernel

theorem test_wellformed_refuses_frames :
    ([.fetch { src := 16, dst := 6 } okKey noSlots, .fetch { src := 1, dst := 16 } okKey noSlots,
      .fetch okHdr { face := 256, index := 0 } noSlots, .fetch okHdr { face := 0, index := 65536 } noSlots,
      .enrol okHdr 256 4 true true 0, .enrol okHdr 1 256 true true 0, .enrol okHdr 1 4 true true 65536,
      .announce okHdr { okAnnounce with version := 65536 },
      .announce okHdr { okAnnounce with ways := [{ primary := 256, alternate := 0 }] },
      .announce okHdr { okAnnounce with ways := [{ primary := 1, alternate := 256 }] },
      .announce okHdr { okAnnounce with first := { face := 256, index := 0 } },
      .announce okHdr { okAnnounce with last := { face := 256, index := 0 } },
      .announce okHdr { okAnnounce with ways := List.replicate 256 { primary := 1, alternate := 0 } },
      .withdraw okHdr (List.replicate 88 { first := okKey, last := okKey }),
      .withdraw okHdr [{ first := { face := 256, index := 0 }, last := okKey }],
      .withdraw okHdr [{ first := okKey, last := { face := 256, index := 0 } }],
      .invalidate okHdr { okSpan with face := 256 }, .invalidate okHdr { okSpan with first := 65536 },
      .discard okHdr { okSpan with last := 65536 }, .threshold okHdr 256, .dripInterval okHdr 256, .sparingEnable okHdr 256,
      .patrolEnable okHdr 256, .thaw okHdr 256, .force okHdr 256, .storePolicy okHdr { noFields with drip := some 256 }] :
      List Instr).all (fun i => !i.wf) = true := by decide +kernel

theorem test_wellformed_refuses_lines_and_commands :
    ([.line okHdr { okLine with number := 65536 }, .line okHdr { okLine with measure := 65536 },
      .line okHdr { okLine with leading := 65536 }, .line okHdr { okLine with mode := 256 }, .line okHdr { okLine with baseDir := 256 },
      .line okHdr { okLine with squeeze := 256 }, .line okHdr { okLine with runs :=
        [{ table := 256, dir := 0, face := 0, size := 8, codes := [] }] },
      .line okHdr { okLine with runs := [{ table := 0, dir := 256, face := 0, size := 8, codes := [] }] },
      .line okHdr { okLine with runs := [{ table := 0, dir := 0, face := 256, size := 8, codes := [] }] },
      .line okHdr { okLine with runs := [{ table := 0, dir := 0, face := 0, size := 256, codes := [] }] },
      .line okHdr { okLine with runs := [{ table := 0, dir := 0, face := 0, size := 8, codes := [65536] }] },
      .line okHdr { okLine with runs := [{ table := 0, dir := 0, face := 0, size := 8, codes := List.replicate 255 0 },
        { table := 0, dir := 0, face := 0, size := 8, codes := [0] }] },
      .pageBegin okHdr 256 1 0, .pageBegin okHdr 1 256 0, .pageBegin okHdr 1 1 65536, .alarmSet okHdr { okAlarm with line := 256 },
      .alarmSet okHdr { okAlarm with column := 256 }, .alarmSet okHdr { okAlarm with page := 256 },
      .alarmSet okHdr { okAlarm with autoCut := 256 }, .stop { src := 16, dst := 6 }, .control okHdr [.pageBegin 256 1 0],
      .control okHdr (List.replicate 256 .run), .control okHdr (List.replicate 88 (.alarmSet okAlarm))] :
      List Instr).all (fun i => !i.wf) = true := by decide +kernel

theorem test_wellformed_refuses_pieces :
    ([.header okHdr 256 okHeader, .header okHdr 0 { okHeader with codeBase := 65536 }, .header okHdr 0 { okHeader with codeCount := 65536 },
      .header okHdr 0 { okHeader with ligCount := 256 }, .header okHdr 0 { okHeader with spaceCode := 65536 },
      .header okHdr 0 { okHeader with spaceWidth := 65536 }, .classBlock okHdr 256 0 [], .classBlock okHdr 0 65536 [],
      .classBlock okHdr 0 0 [{ okEntry with isolated := 4096 }], .classBlock okHdr 0 0 [{ okEntry with final := 65536 }],
      .classBlock okHdr 0 0 [{ okEntry with initial := 65536 }], .classBlock okHdr 0 0 [{ okEntry with medial := 65536 }],
      .classBlock okHdr 0 0 (List.replicate 66 okEntry), .ligature okHdr 256 0 [], .ligature okHdr 0 256 [],
      .ligature okHdr 0 0 [{ okLig with first := 65536 }], .ligature okHdr 0 0 [{ okLig with second := 65536 }],
      .ligature okHdr 0 0 [{ okLig with ligature := 65536 }], .ligature okHdr 0 0 (List.replicate 88 okLig), .commit okHdr 256,
      .loadPiece0 okHdr { okLoad with pieceCount := 256 } [], .loadPiece0 okHdr { okLoad with advanceWidth := 65536 } [],
      .loadPiece0 okHdr { okLoad with originX := 32768 } [], .loadPiece0 okHdr { okLoad with originY := -32769 } [],
      .loadPiece0 okHdr { okLoad with imageLength := 65536 } [], .loadPiece0 okHdr okLoad (List.replicate 516 0),
      .loadPiece okHdr okKey 0 8 [], .loadPiece okHdr okKey 256 8 [], .loadPiece okHdr okKey 1 256 [],
      .loadPiece okHdr okKey 1 8 (List.replicate 524 0), .lineReport okHdr (List.replicate 1024 0), .notice okHdr (List.replicate 1024 0),
      .frameOutOfForm { okFrame with cls := 4 }, .frameOutOfForm { okFrame with kind := 16 }, .frameOutOfForm { okFrame with src := 16 },
      .checkWordWrong { okFrame with dst := 16 } 0, .checkWordWrong { okFrame with payload := List.replicate 1024 0 } 0,
      .frameObserved (.reply { src := 16, dst := 0 }), .contend [{ cls := 4, kind := 0, src := 0 }],
      .contend [{ cls := 0, kind := 16, src := 0 }],
      .contend [{ cls := 0, kind := 0, src := 16 }], .reply { okReply with src := 16 } 0, .reply { okReply with dst := 16 } 0,
      .reply { okReply with status := 4 } 0, .reply { okReply with payload := List.replicate 1024 0 } 0,
      .deferTimer { face := 256, index := 0 }] : List Instr).all (fun i => !i.wf) = true := by decide +kernel

/-! ## Worked examples of the spec -/

/-- 1.1.1. -/
theorem test_ordinals :
    ({ face := 12, index := 0x345 } : Key).ordinal = 49989 ∧ ({ face := 40, index := 0x612 } : Key).ordinal = 165394 ∧
      ({ face := 255, index := 0xFFF } : Key).ordinal = 1048575 := by decide

/-- The tables of R5 and R6. -/
theorem test_scaling :
    [advanceAt 556 20, advanceAt 500 17, advanceAt 250 18, advanceAt 611 22, advanceAt 750 14, advanceAt 722 25, advanceAt 2000 240,
      advanceAt 0 240] = [111, 85, 45, 134, 105, 181, 4800, 0] ∧
    [offsetAt 450 24, offsetAt 180 24, offsetAt (-125) 24, offsetAt (-125) 18, offsetAt 125 18, offsetAt 350 25, offsetAt (-120) 21,
      offsetAt (-1000) 240] = [108, 43, -30, -23, 23, 88, -25, -2400] := by decide +kernel

/-- 11.1: a FETCH from station 4 to station 6 for 21:0346h. -/
theorem test_fetch_layout :
    fetchFrame 4 6 { face := 21, index := 0x346 } = okFrame ∧
      readFrame okFrame = some (.fetch { src := 4, dst := 6 } { face := 21, index := 0x346 } noSlots) := by decide +kernel

/-- R187: the check word of no bits, and that appending a frame's check word leaves 0 (the generator's residue). -/
theorem test_check_word :
    checkWord [] = 0xFFFF#16 ∧
      checkWord (frameBits okFrame ++ bitsOf 16 (checkWord (frameBits okFrame)).toNat) = 0#16 := by decide +kernel

/-- 2.5: table 3 and table 5. -/
def latin : ScriptTable :=
  { state := .complete, codeBase := 0x20, codeCount := 95, spaceCode := 0x20, spaceWidth := 250
    entries := (List.range 95).map fun i => { cls := .none, isolated := 0x20 + i, final := 0, initial := 0, medial := 0 }
    ligCount := 1, ligatures := [{ first := 0x66, second := 0x69, ligature := 0xF01 }], nextClass := none, nextLig := none }

def arabicEntry (code : Nat) : CodeEntry :=
  if code = 0x627 then { cls := .right, isolated := 0x510, final := 0x511, initial := 0, medial := 0 }
  else if code = 0x628 then { cls := .dual, isolated := 0x500, final := 0x501, initial := 0x502, medial := 0x503 }
  else if code = 0x644 then { cls := .dual, isolated := 0x520, final := 0x521, initial := 0x522, medial := 0x523 }
  else if 0x64E ≤ code then { cls := .mark, isolated := 0x650 + (code - 0x64E), final := 0, initial := 0, medial := 0 }
  else { cls := .none, isolated := 0, final := 0, initial := 0, medial := 0 }

def arabic : ScriptTable :=
  { state := .complete, codeBase := 0x600, codeCount := 128, spaceCode := 0x20, spaceWidth := 230
    entries := (List.range 128).map fun i => arabicEntry (0x600 + i), ligCount := 2
    ligatures := [{ first := 0x522, second := 0x511, ligature := 0x530 }, { first := 0x523, second := 0x511, ligature := 0x531 }]
    nextClass := none, nextLig := none }

def scripts : List ScriptTable := (List.replicate 16 ScriptTable.blank).set 3 latin |>.set 5 arabic

def line1207 : List Run :=
  [{ table := 3, dir := .ltr, face := 12, size := 20, codes := [0x66, 0x69, 0x20] },
   { table := 5, dir := .rtl, face := 40, size := 24, codes := [0x628, 0x64E, 0x644, 0x627, 0x20, 0x628] },
   { table := 3, dir := .ltr, face := 12, size := 20, codes := [0x31, 0x32] }]

/-- 2.5: the visual order of line 1207. -/
theorem test_shaping_of_line_1207 :
    (shapeLine scripts false .ltr line1207).1.map (fun p => (p.cluster, p.role, p.key.map Key.index, p.advance)) =
      [(0, .ligature, some 0xF01, none), (1, .space, none, some 50), (5, .base, some 0x500, none), (4, .space, none, some 55),
       (3, .ligature, some 0x531, none), (2, .base, some 0x502, none), (2, .mark, some 0x650, none), (6, .base, some 0x31, none),
       (7, .base, some 0x32, none)] ∧
    (shapeLine scripts false .ltr line1207).2 = {} := by decide +kernel

/-- 2.6: a mark at the run's start, and one mark too many. -/
theorem test_shaping_of_marks :
    (shapeLine scripts true .rtl [{ table := 5, dir := .rtl, face := 40, size := 24
                                    codes := [0x64E, 0x628, 0x64E, 0x64F, 0x650, 0x651] }]).1.map
        (fun p => (p.cluster, p.role, p.key.map Key.index, p.advance)) =
      [(1, .base, some 0x500, none), (1, .mark, some 0x650, none), (1, .mark, some 0x651, none), (1, .mark, some 0x652, none),
       (0, .substitute, none, some 120)] ∧
    (shapeLine scripts true .rtl [{ table := 5, dir := .rtl, face := 40, size := 24
                                    codes := [0x64E, 0x628, 0x64E, 0x64F, 0x650, 0x651] }]).2 =
      { uncovered := true, markOverflow := true, substituted := true, noDirectory := true } := by decide +kernel

def cluster (role : Role) (w : Nat) : Placement :=
  { cluster := 0, role := role, key := none, size := 20, state := .resolved, waitsRoom := false, ref := none, advance := some w
    origin := none, x := none, y := none }

def head1207 (mode : Mode) (measure squeeze : Nat) : LineHeader :=
  { number := 1207, requester := 2, measure := measure, leading := 240, mode := mode, baseDir := .ltr, squeeze := squeeze }

/-- 3.8: the positions of line 1207. -/
theorem test_positions_of_line_1207 :
    (match measureLine (head1207 .justify 2400 2) [cluster .ligature 111, cluster .space 50, cluster .base 144, cluster .space 55,
        cluster .ligature 192, cluster .base 72, cluster .base 100, cluster .base 101] with
      | .fits m _ _ => (m.natural, m.set, (positioned m [cluster .ligature 111, cluster .space 50, cluster .base 144, cluster .space 55,
          cluster .ligature 192, cluster .base 72, cluster .base 100, cluster .base 101]).map fun p => p.x)
      | .overset _ _ => (0, 0, [])) =
      (825, 2400, [some 0, some 111, some 949, some 1093, some 1935, some 2127, some 2199, some 2299]) := by decide +kernel

/-- 3.9: squeezed, overset and left alone, over eleven clusters. -/
theorem test_squeeze_and_overset :
    measureLine (head1207 .left 1000 3) (List.replicate 10 (cluster .base 102) ++ [cluster .base 5]) =
      .fits { natural := 1025, set := 1000, start := 0, gaps := [3, 3, 3, 3, 3, 2, 2, 2, 2, 2], additions := [] } true false ∧
    measureLine (head1207 .left 1000 3) (List.replicate 10 (cluster .base 103) ++ [cluster .base 1]) = .overset 1031 1001 ∧
    measureLine (head1207 .left 1000 3) (List.replicate 10 (cluster .base 98)) =
      .fits { natural := 980, set := 980, start := 0, gaps := [], additions := [] } false false ∧
    justifyAdditions 6 2 [cluster .space 1, cluster .base 1, cluster .space 1, cluster .space 1] = [7, 0, 7, 6] := by decide +kernel

/-- 8.14: a page of two columns and depth 3, and its alarm at line 2 of column 1. -/
theorem test_galley_and_alarm :
    (advanceGalley 2 3 { page := 41, column := 0, line := 2 } = ({ page := 41, column := 1, line := 0 }, false)) ∧
    (advanceGalley 2 3 { page := 41, column := 1, line := 2 } = ({ page := 42, column := 0, line := 0 }, true)) ∧
    alarmMatches { line := 2, column := 1, page := 0, maskLine := true, maskCol := true, maskPage := false, autoCut := false }
      { page := 41, column := 1, line := 2 } = true ∧
    alarmMatches { line := 2, column := 1, page := 0, maskLine := false, maskCol := false, maskPage := false, autoCut := false }
      { page := 41, column := 1, line := 2 } = false := by decide +kernel

/-- 9.10: a LINE-REPORT against a FETCH, and the lower source within one kind. -/
theorem test_contention :
    State.wins { cls := 2, kind := 3, src := 6 } [{ cls := 0, kind := 1, src := 4 }] = false ∧
      State.wins { cls := 0, kind := 1, src := 4 } [{ cls := 2, kind := 3, src := 6 }] = true ∧
      State.wins { cls := 1, kind := 1, src := 9 } [{ cls := 1, kind := 1, src := 6 }] = false := by decide +kernel

/-! ## States and operands for the statements' hypotheses -/

/-- State.reset after the first free condition, with the directory OPERATIONAL. -/
def up : State :=
  { State.reset with
    link := { State.reset.link with listens := true, free := true }
    dir := { State.reset.dir with state := .operational, complete := true } }

def fromAuth : Hdr := { src := 1, dst := 6 }
def fromDesk : Hdr := { src := 2, dst := 6 }
def toAll : Hdr := { src := 1, dst := 0 }
def glyph : Key := { face := 40, index := 0x502 }

def paged : State := { up with seq := { up.seq with page := .opened, owner := some 2, columns := 2, depth := 3 } }
def inSeq (q : SeqState) : State := { paged with seq := { paged.seq with state := q } }
def cutting (k : CutKind) : State :=
  { paged with
    head := .cut, seq := { paged.seq with state := .cutting, cutRecord := some { kind := k, renumbers := true, runs := true } } }

/-- A slot with a line of one SPACE, in a state. -/
def slotIn (st : SlotState) : Slot :=
  { Slot.vacant with state := st, header := some (head1207 .left 2400 0), list := [cluster .space 50] }
def withSlot (st : SlotState) (s : State) : State := { s with slots := { slot0 := slotIn st, slot1 := .vacant, age := some .zero } }
def exposing : State := { withSlot .exposing (inSeq .exposing) with head := .line }

def linked (l : LinkState) : State := { up with link := { up.link with state := l, free := false } }
def waiting : Fetch := { key := glyph, state := .waitingLink, target := 9, role := .primary, tried := [9], failed := 0, defers := 0 }
def exchange (attempts : Nat) : Exchange := { key := glyph, target := 9, role := .primary, attempts := attempts, detached := false }
def aNotice : TxEntry := { frame := .notice 2 .filmLow, attempts := 0, onLink := false }
def queued (e : TxEntry) : State := { up with link := { up.link with queue := [e] } }
def sendingFrame (attempts : Nat) : State :=
  { up with link := { up.link with
      state := .sending, free := false, tenure := .frame, queue := [{ aNotice with attempts := attempts, onLink := true }] } }
def exchanging (l : LinkState) (attempts : Nat) : State :=
  { up with
    fetches := [{ waiting with state := .exchanging }]
    link := { up.link with state := l, free := false, tenure := .fetch, exchange := some (exchange attempts) } }

def record (st : RecordState) : StoreRecord :=
  { key := glyph, bank := 0, firstCell := 0, cellCount := 1, imageLength := 8, advanceWidth := 300, originX := 0, originY := 0
    state := st, nextPiece := if st = .loading then some 1 else none }
def holding (ix : List StoreRecord) : State :=
  { up with
    link := { up.link with state := .holding, free := false, requester := some 4 }
    store := { up.store with serve := some glyph, index := ix, memory := [(0, .data (List.replicate 8 7))] } }
def stored (st : RecordState) : State :=
  { up with store := { up.store with index := [record st], memory := [(0, .data (List.replicate 8 7))] } }

def banks (f : Patrol → Patrol) : State := { up with patrol := f up.patrol }
def bank0 (n : Nat) (b : BankState) : State := banks fun p => { p with banks := p.banks.set 0 { count := n, state := b } }
def copying (c : Nat) : State :=
  banks fun p => { p with
    banks := p.banks.set 0 { count := 24, state := .copying }, spare := .target, copySource := some 0, copyProgress := some c
    copyStepWaits := true }

def entry (v : Nat) : DirEntry :=
  { first := { face := 40, index := 0 }, last := { face := 40, index := 0xFFF }, version := v
    ways := [{ primary := 9, alternate := 11, primaryStruck := false, alternateStruck := false }] }
def knows (es : List DirEntry) : State := { up with dir := { up.dir with entries := es } }
def announce (v : Nat) : AnnounceFrame :=
  { first := { face := 40, index := 0 }, last := { face := 40, index := 4095 }, version := v
    ways := [{ primary := 9, alternate := 11 }], complete := true }

/-- No bank of a fresh unit is AT-THRESHOLD, nor is one that the unit does not have. -/
theorem good_banks (b : Nat) : up.patrol.bankState b = .good := by
  rcases b with _ | _ | _ | _ | b <;> rfl

/-! ## One step of commands whose meaning has several ends -/

/-- The state after a command. -/
def after (i : Instr) (s : State) : State :=
  match exec i s with
  | .next t => t
  | _ => s

def noMark (s : State) : State := { s with dir := Directory.setAbsent 9 s.dir }

/-- R170: from another station's FETCH that its holder takes, through the hold, to the reply. -/
theorem test_fetch_of_another_holder :
    (after (.fetch { src := 4, dst := 9 } glyph { ack := true, object := false }) up).link.state = .busyOther ∧
      (after (.fetch { src := 4, dst := 9 } glyph { ack := true, object := true }) up).link.state = .idle ∧
      (after (.fetch { src := 4, dst := 9 } glyph { ack := true, object := false }) up).out = [] := by decide +kernel

/-- R90: the twin's reply, addressed to this station's number, clears the holder's mark; a frame so addressed is no observed one. -/
theorem test_twins_reply_clears_the_mark :
    (noMark up).dir.isAbsent 9 = true ∧ (after (.frameObserved (.reply { src := 9, dst := 6 })) (noMark up)).dir.isAbsent 9 = false ∧
      (after (.frameObserved (.frame { src := 9, dst := 6 })) (noMark up)).dir.isAbsent 9 = true ∧
      (after (.frameObserved (.heldFetch { src := 9, dst := 4 })) up).link.state = .busyOther := by decide +kernel

/-- R189: a NOTICE LOAD-REFUSED of index 1000h, and a NOTICE POISONED of index FFFh. -/
theorem test_notice_with_a_bad_key :
    (after (.notice fromDesk [7, 40, 0x10, 0x00, 1]) up).out = [.answer false true] ∧
      (after (.notice fromDesk [8, 40, 0x0F, 0xFF, 0]) up).out = [.answer true false] := by decide +kernel

/-- R187: a frame goes out with the check word of its bits. -/
theorem test_sent_frame_has_its_check_word :
    (after (.contend []) (queued aNotice)).out =
      [.frame (aNotice.frame.raw 6) (checkWord (frameBits (aNotice.frame.raw 6)))] := by decide +kernel

def aWrite (live : Bool) : LoadWrite := { key := glyph, bank := 0, cell := 4, bytes := List.replicate 8 1, live := live }
def writing (live : Bool) (s : State) : State := { s with store := { s.store with writes := [aWrite live], index := [record .loading] } }

def aBegunWrite : AtReset := { tenure := false, begun := some { access := .loadWrite, writes := 1 } }

/-- R122: a begun LOAD write reaches its cell, and its LOADING record is gone; one not begun writes nothing. -/
theorem test_reset_completes_a_begun_write :
    (after (.stationReset up.straps aBegunWrite) (writing true up)).store.memory =
        [(4, .data (List.replicate 8 1))] ∧
      (after (.stationReset up.straps aBegunWrite) (writing true up)).store.index = [] ∧
      (after (.stationReset up.straps { tenure := false, begun := none }) (writing true up)).store.memory = [] := by decide +kernel

def anImage : ImageRecord :=
  { key := glyph, advanceWidth := 300, originX := -5, originY := 7, imageLength := 8, bytes := List.replicate 8 1 }
def cached (pins : Nat) : Cache :=
  { entries := [(5, { key := glyph, record := anImage, state := .valid, pins := pins, origin := .remotePrimary })], recency := [] }

def reader (live : Bool) : ReadRequest := { slot := .zero, key := glyph, live := live }
def readingPass : Pass := { pos := 0, again := false, wait := .reading }
def unresolved : Placement := { cluster .base 0 with key := some glyph, state := .unresolved, advance := none }
def reading (st : RecordState) : State :=
  { stored st with
    store := { (stored st).store with reads := [reader true] }
    slots := { slot0 := { slotIn .resolving with list := [unresolved], pass := some readingPass }, slot1 := .vacant, age := some .zero } }

/-- R41, R42, log 13: a read without an image goes to the third step: with no target it is SUBSTITUTED, a VALID entry notwithstanding;
with one, the VALID entry is taken in place of a fetch (R85). -/
theorem test_third_step_after_a_read :
    ((after (.localRead []) { reading .poisoned with cache := cached 0 }).slots.slot0.list.map Placement.state) = [.substituted] ∧
      ((after (.localRead []) { reading .poisoned with cache := cached 0, dir := (knows [entry 3]).dir }).slots.slot0.list.map
        Placement.ref) = [some 5] ∧
      (after (.localRead []) { reading .poisoned with dir := (knows [entry 3]).dir }).fetches.map Fetch.target = [9] := by
  decide +kernel

/-! ## Each statement's hypotheses are met -/

theorem test_meets_StepRunsFrontCommand :
    ({ up with pending := [.ready] }).pending = .ready :: [] ∧ State.reset.pending = [] ∧
      step { up with pending := [.freeCondition, .ready] } =
        exec .freeCondition { up with pending := [.ready] } := ⟨rfl, rfl, rfl⟩

theorem test_meets_StationResetKeeps :
    up.straps.banksLessOne = up.straps.banksLessOne ∧ up.patrol.copySource = none ∧ (∀ b, up.patrol.bankState b ≠ .atThreshold) ∧
    (copying 5).patrol.sparing = true ∧ (copying 5).patrol.copySource = some 0 ∧ 0 < (copying 5).patrol.banks.length ∧
    (∀ c, c < 0 → (copying 5).patrol.bankState c ≠ .atThreshold) :=
  ⟨rfl, rfl, fun b h => (by rw [good_banks] at h; cases h), rfl, rfl, by decide, fun c h => absurd h (Nat.not_lt_zero c)⟩

theorem test_meets_LibraryFramesNeedAnAuthority :
    libraryHdr (.commit fromDesk 3) = some fromDesk ∧ Arrives fromDesk up ∧ ¬FromAuthority fromDesk up ∧
      ¬FromAuthority { src := 0, dst := 6 } up := by
  unfold Arrives Listens FromAuthority; decide +kernel

theorem test_meets_BadFramesAreObjected :
    Listens up ∧ okFrame.dst = up.straps.station ∧ (0x0000#16 : Word16) ≠ checkWord (frameBits okFrame) ∧
    ({ okFrame with payload := [] } : RawFrame).src ≠ 0 ∧ readFrame { okFrame with payload := [] } = none ∧
    readFrame { okFrame with kind := 2 } = none ∧
    (∃ i, readFrame { okFrame with payload := [0x15, 0x10, 0x00] } = some i ∧ fieldsBad i = true) ∧
    ({ okFrame with src := 0 } : RawFrame).src = 0 := by
  refine ⟨?_, ?_, ?_, ?_, ?_, ?_, ⟨.fetch { src := 4, dst := 6 } { face := 21, index := 4096 } noSlots, ?_⟩, ?_⟩ <;>
    (try unfold Listens) <;> decide +kernel

theorem test_meets_ObservedAndDiscardedFrames :
    Listens up ∧ (9 : Nat) ≠ up.straps.station ∧ Arrives fromDesk up ∧ Arrives toAll up ∧ Arrives fromAuth { up with
      link := { up.link with state := .busyOther } } := by
  unfold Arrives Listens; decide +kernel

theorem test_meets_FetchMakesTheStationHolder :
    ArrivesHere fromDesk up ∧ ({ face := 255, index := 4095 } : Key).index ≤ 4095 ∧ Arrives toAll up ∧ toAll.dst = 0 ∧
      Arrives fromDesk up ∧ 4095 < ({ face := 0, index := 4096 } : Key).index := by
  unfold ArrivesHere Arrives Listens; decide +kernel

theorem test_meets_EnrolIsAnsweredOrMutes :
    (Arrives { src := 9, dst := 0 } up ∧ (9 : Nat) ≠ up.straps.station) ∧
    ((9 : Nat) = 9 ∧ 1 ≤ 8 ∧ 8 ≤ 8 ∧ 2048 ≤ 2048) ∧ ¬((9 : Nat) = 9 ∧ 1 ≤ 9 ∧ 9 ≤ 8 ∧ 0 ≤ 2048) ∧
    (Arrives { src := 6, dst := 0 } up ∧ (6 : Nat) = up.straps.station) := by
  unfold Arrives Listens; decide +kernel

theorem test_meets_TenuresEndInIdle :
    up.link.state = .idle ∧ (linked .busyOther).link.state = .busyOther ∧ (linked .recovery).link.state = .recovery ∧
      (linked .replying).link.state = .replying := by decide

theorem test_meets_LowestArbitrationFieldWins :
    ({ cls := 3, kind := 15, src := 15 } : Arb).wf = true ∧
      (∀ o ∈ ([{ cls := 0, kind := 1, src := 4 }] : List Arb), o.wf = true) := by decide

theorem test_meets_ContendTakesTheOldestFetch :
    up.link.state = .idle ∧ up.link.free = true ∧ up.link.exchange = none ∧
      ({ up with fetches := [waiting] } : State).fetches.find? (fun g : Fetch => g.state == FetchState.waitingLink) = some waiting ∧
      State.wins { cls := 0, kind := 1, src := up.straps.station } [] = true ∧
      State.wins { cls := 0, kind := 1, src := up.straps.station } [{ cls := 0, kind := 1, src := 5 }] = false := by decide +kernel

theorem test_meets_ContendSendsTheFirstQueuedFrame :
    (queued aNotice).link.state = .idle ∧ (queued aNotice).link.free = true ∧ (queued aNotice).link.exchange = none ∧
      (∀ g ∈ (queued aNotice).fetches, g.state ≠ .waitingLink) ∧ (queued aNotice).link.queue = aNotice :: [] ∧
      State.wins { cls := aNotice.frame.cls, kind := aNotice.frame.kind, src := 6 } [] = true ∧
      State.wins { cls := aNotice.frame.cls, kind := aNotice.frame.kind, src := 6 } [{ cls := 0, kind := 1, src := 9 }] = false := by
  decide +kernel

theorem test_meets_ObjectRetriesAndFetchAnswers :
    (sendingFrame 7).link.state = .sending ∧ (sendingFrame 7).link.tenure = .frame ∧
      (sendingFrame 7).link.queue.find? (fun x => x.onLink) = some { aNotice with attempts := 7, onLink := true } ∧
      (exchanging .sending 7).link.tenure = .fetch ∧ (exchanging .awaitAnswer 7).link.exchange = some (exchange 7) ∧ 7 < 8 := by
  decide +kernel

theorem test_meets_AnsweredFrameLeavesTheQueue :
    (sendingFrame 8).link.state = .sending ∧ (sendingFrame 8).link.tenure = .frame ∧
      (sendingFrame 8).link.queue.find? (fun x => x.onLink) = some { aNotice with attempts := 8, onLink := true } ∧
      (true = true → 8 ≤ (8 : Nat)) ∧ aNotice.frame = .notice 2 .filmLow ∧ (2 : Nat) ≠ 0 ∧
      { State.reset with out := [] }.dir.state = .enrolling := by decide +kernel

theorem test_meets_DisturbanceAndStall :
    up.link.listens = true ∧ (linked .busyOther).link.state = .busyOther ∧ (linked .replying).link.state = .replying ∧
      (sendingFrame 7).link.queue.find? (fun x => x.onLink) = some { aNotice with attempts := 7, onLink := true } ∧
      (exchanging .awaitReply 7).link.state = .awaitReply ∧ (exchanging .awaitReply 7).link.exchange = some (exchange 7) ∧
      (exchanging .awaitReply 8).link.tenure = .fetch ∧ (exchanging .awaitReply 8).link.exchange = some (exchange 8) := by
  decide +kernel

theorem test_meets_ServeAndHoldLimit :
    (holding []).link.state = .holding ∧ (holding []).store.serve = some glyph ∧
      findRecord glyph (holding []).store.index = none ∧
      findRecord glyph (holding [record .loading]).store.index = some (record .loading) ∧
      findRecord glyph (holding [record .poisoned]).store.index = some (record .poisoned) ∧
      findRecord glyph (holding [record .valid]).store.index = some (record .valid) ∧
      (holding [record .valid]).patrol.bankState 0 ≠ .withdrawn ∧ (bank0 24 .withdrawn).patrol.bankState 0 = .withdrawn ∧
      (∀ c ∈ (holding [record .valid]).store.recordConds (record .valid) [.clean], c = .clean) ∧
      .uncorrectable ∈ (holding [record .valid]).store.recordConds (record .valid) [.uncorrectable] := by decide +kernel

def deferReply : RawReply := { src := 9, dst := 6, status := 1, payload := [] }
def imageReply : RawReply := (Reply.image anImage).raw 9 6

theorem test_meets_BadAndDeferReplies :
    (exchanging .awaitReply 7).link.state = .awaitReply ∧ (exchanging .awaitReply 7).link.tenure = .fetch ∧
      (exchanging .awaitReply 7).link.exchange = some (exchange 7) ∧ deferReply.payload.length ≤ 528 ∧
      (0x0000#16 : Word16) ≠ checkWord (replyBits deferReply) ∧ (exchange 7).detached = false ∧
      ({ exchanging .awaitReply 1 with fetches := [{ waiting with state := .exchanging, defers := 3 }] }).fetches.find?
        (fun e => e.key == glyph) = some { waiting with state := .exchanging, defers := 3 } ∧
      deferReply.src = (exchange 7).target ∧ deferReply.dst = up.straps.station ∧ deferReply.status = 1 := by decide +kernel

theorem test_meets_ImageReplyEndsTheFetch :
    (exchanging .awaitReply 1).fetches.find? (fun e => e.key == (exchange 1).key) = some { waiting with state := .exchanging } ∧
      imageReply.payload.length ≤ 528 ∧ imageReply.src = (exchange 1).target ∧ imageReply.src ≠ 0 ∧
      imageReply.dst = up.straps.station ∧ imageReply.status = 0 ∧ readImage imageReply.payload = some anImage ∧
      anImage.wellFormed = true ∧ anImage.key = (exchange 1).key := by decide +kernel

theorem test_meets_FailedAttempts :
    ({ deferReply with status := 2 } : RawReply).status = 2 ∧ ({ deferReply with status := 3 } : RawReply).status = 3 ∧
      (1 : Nat) < 2 ∧ (knows [entry 3]).dir.chooseTarget 6 [9] glyph = some (11, .alternate) ∧
      (Directory.strikeNotHeld glyph 9 (knows [entry 3]).dir).chooseTarget 6 [9] glyph = some (11, .alternate) ∧
      2 ≤ ({ waiting with failed := 2 } : Fetch).failed ∧ up.dir.chooseTarget 6 [9] glyph = none := by decide +kernel

theorem test_meets_TimersAndTheEnrolOffer :
    ({ up with dir := { up.dir with enrolWait := true } }).dir.enrolWait = true ∧
      (banks fun p => { p with copyIntervalRuns := true }).patrol.copyIntervalRuns = true ∧ up.patrol.enabled = true ∧
      up.patrol.intervalRuns = true ∧ up.patrol.bankState up.patrol.posBank ≠ .withdrawn ∧
      up.patrol.posBank < up.patrol.banks.length ∧ up.link.enrolDue = true ∧ up.link.listens = true ∧ up.link.state ≠ .mute ∧
      up.link.queue.length < 12 ∧ 12 ≤ ({ up.link with queue := List.replicate 12 aNotice }).queue.length := by decide +kernel

theorem test_meets_AnnounceRefusedOrIgnored :
    Arrives fromAuth up ∧ FromAuthority fromAuth up ∧ (announce 1).first.index ≤ 4095 ∧ (announce 1).last.index ≤ 4095 ∧
      Directory.announceValid (announce 0) = false ∧ Directory.announceValid (announce 65535) = true ∧
      (∃ e ∈ (knows [entry 3]).dir.entries, e.range.overlaps (Directory.announceRange (announce 3)) = true ∧
        (announce 3).version ≤ e.version) ∧
      (∀ e ∈ (knows (List.replicate 64 { entry 3 with first := okKey, last := okKey })).dir.entries,
        e.range.overlaps (Directory.announceRange (announce 1)) = true → e.version < 1) ∧
      64 < 64 - ((knows (List.replicate 64 { entry 3 with first := okKey, last := okKey })).dir.entries.filter
        fun e => e.range.overlaps (Directory.announceRange (announce 1))).length + 1 := by
  unfold Arrives Listens FromAuthority; decide +kernel

theorem test_meets_AnnounceReplacesTheOverlapped :
    Directory.announceValid (announce 4) = true ∧ Directory.announceValid { announce 4 with ways := [] } = true ∧
      (∀ e ∈ (knows [entry 3]).dir.entries, e.range.overlaps (Directory.announceRange (announce 4)) = true → e.version < 4) ∧
      ((knows [entry 3]).dir.entries.filter fun e => !e.range.overlaps (Directory.announceRange (announce 4))) = [] ∧
      ([] : List DirEntry).length < 64 := by decide +kernel

theorem test_meets_WithdrawStrikesItsSender :
    Arrives { src := 9, dst := 0 } up ∧
      (∀ r ∈ List.replicate 16 ({ first := glyph, last := glyph } : KeyRange), r.first.index ≤ 4095 ∧ r.last.index ≤ 4095) ∧
      (1 ≤ 16 ∧ 16 ≤ 16 ∧ ∀ r ∈ List.replicate 16 ({ first := glyph, last := glyph } : KeyRange), r.first.ordinal ≤ r.last.ordinal) ∧
      ¬(1 ≤ 17 ∧ 17 ≤ 16) := by
  unfold Arrives Listens; decide +kernel

theorem test_meets_TargetIsTheFirstUnmarkedCandidate :
    (knows [entry 3]).dir.wayOf glyph = some { primary := 9, alternate := 11, primaryStruck := false, alternateStruck := false } ∧
      Directory.mayAsk 6 [] 9 false = true ∧ Directory.mayAsk 6 [9] 9 false = false ∧ Directory.mayAsk 6 [9] 11 false = true ∧
      Directory.mayAsk 6 [] 0 false = false ∧ Directory.mayAsk 6 [] 6 false = false ∧ Directory.mayAsk 6 [] 9 true = false ∧
      up.dir.isAbsent 9 = false ∧ (Directory.setAbsent 9 up.dir).isAbsent 9 = true := by decide +kernel

/-- 5.9: the ways of face 21 over three holders. -/
theorem test_meets_WayOfAKeyIsTheRemainder :
    let e : DirEntry := { entry 7 with
      ways := List.replicate 3 { primary := 5, alternate := 8, primaryStruck := false, alternateStruck := false } }
    e.ways ≠ [] ∧ e.wayNumber { face := 40, index := 0x345 } = 0 ∧ e.wayNumber { face := 40, index := 0x346 } = 1 ∧
      e.wayNumber { face := 40, index := 0x347 } = 2 ∧ e.first.ordinal ≤ e.last.ordinal := by decide +kernel

theorem test_meets_InvalidateLeavesNoValidEntry :
    Arrives toAll up ∧ FromAuthority toAll up ∧ ({ face := 33, first := 0, last := 4095 } : Span).first ≤ 4095 ∧
      ({ face := 33, first := 0, last := 4095 } : Span).last ≤ 4095 := by
  unfold Arrives Listens FromAuthority; decide +kernel

theorem test_meets_DripPatrolAndThawFields :
    ArrivesHere fromAuth up ∧ FromAuthority fromAuth up ∧ (1 ≤ 15 ∧ 15 ≤ 15) ∧
      (banks fun p => { p with enabled := false }).patrol.enabled = false ∧ up.patrol.bankState up.patrol.posBank ≠ .withdrawn ∧
      up.patrol.banks ≠ [] ∧ 3 < up.patrol.banks.length ∧ up.patrol.bankState 3 = .good ∧
      (bank0 24 .atThreshold).patrol.bankState 0 = .atThreshold ∧ (bank0 24 .spared).patrol.bankState 0 = .spared ∧
      (copying 0).patrol.bankState 0 = .copying ∧ (bank0 24 .withdrawn).patrol.bankState 0 = .withdrawn := by
  unfold ArrivesHere Listens FromAuthority; decide +kernel

theorem test_meets_ThresholdAndForce :
    ArrivesHere fromAuth up ∧ FromAuthority fromAuth up ∧ (1 ≤ 1 ∧ 1 ≤ 255) ∧ (1 ≤ 255 ∧ 255 ≤ 255) ∧
      (banks fun p => { p with sparing := false }).patrol.sparing = false ∧ 3 < up.patrol.banks.length ∧
      up.patrol.bankState 3 = .good ∧ (copying 0).patrol.bankState 0 = .copying := by
  unfold ArrivesHere Listens FromAuthority; decide +kernel

theorem test_meets_SparingField :
    (copying 5).patrol.sparing = true ∧ (copying 5).patrol.copySource = some 0 ∧
      (banks fun p => { p with sparing := false }).patrol.sparing = false ∧
      (∀ b, (banks fun p => { p with sparing := false }).patrol.bankState b ≠ .atThreshold) ∧ up.patrol.spare = .free ∧
      (bank0 24 .atThreshold).patrol.bankState 0 = .atThreshold ∧
      (∀ c, c < 0 → (bank0 24 .atThreshold).patrol.bankState c ≠ .atThreshold) :=
  ⟨rfl, rfl, rfl, fun b h => (by have := h.symm.trans (show _ = BankState.good from good_banks b); cases this), rfl, rfl,
    fun c h => absurd h (Nat.not_lt_zero c)⟩

theorem test_meets_StorePolicyIsTakenWhole :
    FromAuthority toAll up ∧ Arrives toAll up ∧ policyBad okPolicy = false ∧ toAll.dst = 0 ∧ ArrivesHere fromAuth up ∧
      ({ noFields with thaw := some 4 } : PolicyFrame).thaw = some 4 ∧ up.patrol.banks.length ≤ 4 ∧
      (∀ k ∈ up.patrol.banks, k.count < 1) := by
  unfold Arrives ArrivesHere Listens FromAuthority; decide +kernel

theorem test_meets_SpareDecisionByTheTable :
    (banks fun p => { p with sparing := false }).patrol.sparing = false ∧ (copying 5).patrol.spare = .target ∧
      (∀ b, up.patrol.bankState b ≠ .atThreshold) ∧ (bank0 24 .atThreshold).patrol.sparing = true ∧
      (bank0 24 .atThreshold).patrol.spare = .free ∧ (bank0 24 .atThreshold).patrol.bankState 0 = .atThreshold ∧
      (banks fun p => { p with spare := .absent }).patrol.spare = .absent ∧
      (banks fun p => { p with spare := .inUse }).patrol.spare = .inUse :=
  ⟨rfl, rfl, fun b h => (by rw [good_banks] at h; cases h), rfl, rfl, rfl, rfl, rfl⟩

theorem test_meets_ErrorBuckets :
    (copying 0).patrol.bankState 0 ≠ .good ∧ (bank0 22 .good).patrol.banks[0]? = some { count := 22, state := .good } ∧
      22 + 1 < up.patrol.threshold ∧ (bank0 23 .good).patrol.banks[0]? = some { count := 23, state := .good } ∧
      up.patrol.threshold ≤ 23 + 1 ∧ ({ up.patrol with passes := 2 }).passes + 1 < up.patrol.drip ∧
      up.patrol.drip ≤ ({ up.patrol with passes := 3 }).passes + 1 := by decide +kernel

def loadingTable : ScriptTable :=
  { latin with state := .loading, codeCount := 100, ligCount := 10, entries := [], ligatures := [], nextClass := some 64
               nextLig := some 0 }
def tabled (t : ScriptTable) : State := { up with tables := up.tables.set 15 t }

theorem test_meets_HeaderAndCommit :
    Arrives toAll up ∧ FromAuthority toAll up ∧ 15 < 16 ∧ (0 = 0 ∧ 64 ≤ 64 ∧ 2000 ≤ 2000) ∧ (1 ≤ 256 ∧ 256 ≤ 256) ∧
      (256 < 257 ∨ 64 < 65 ∨ 2000 < 2001) ∧ (tabled loadingTable).tables[15]? = some loadingTable ∧
      loadingTable.nextClass ≠ some loadingTable.codeCount ∧ (tabled latin).tables[15]? = some latin ∧ latin.state = .complete ∧
      ({ loadingTable with nextClass := some 100, nextLig := some 10 }).nextClass = some loadingTable.codeCount ∧
      up.tables[15]? = some .blank ∧ ScriptTable.blank.state = .empty := by
  unfold Arrives Listens FromAuthority; decide +kernel

theorem test_meets_PiecesOfATableAreWritten :
    loadingTable.state = .loading ∧ loadingTable.nextClass = some 64 ∧ 1 ≤ (List.replicate 36 okEntry).length ∧
      (List.replicate 36 okEntry).length ≤ 64 ∧ 64 ≤ 64 ∧ 64 + (List.replicate 36 okEntry).length ≤ loadingTable.codeCount ∧
      (∀ e ∈ List.replicate 36 okEntry, e.isolated ≤ 4095 ∧ e.final ≤ 4095 ∧ e.initial ≤ 4095 ∧ e.medial ≤ 4095) ∧
      loadingTable.codeCount < 65 + (List.replicate 36 okEntry).length ∧
      ({ loadingTable with nextClass := some 100 }).nextClass = some loadingTable.codeCount ∧ loadingTable.nextLig = some 0 ∧
      0 + (List.replicate 10 okLig).length ≤ loadingTable.ligCount ∧ loadingTable.nextClass ≠ some loadingTable.codeCount ∧
      (∀ e ∈ List.replicate 10 okLig, e.first ≤ 4095 ∧ e.second ≤ 4095 ∧ e.ligature ≤ 4095) := by decide +kernel

def okPiece : LoadFields := { okLoad with imageLength := 512, pieceCount := 8 }

theorem test_meets_LoadPieceZeroBeginsARecord :
    Arrives fromAuth up ∧ FromAuthority fromAuth up ∧ okPiece.key.index ≤ 4095 ∧ fromAuth.dst ≠ 0 ∧ okPiece.advanceWidth ≤ 2000 ∧
      (-1000 ≤ okPiece.originX ∧ okPiece.originX ≤ 1000 ∧ -1000 ≤ okPiece.originY ∧ okPiece.originY ≤ 1000) ∧
      (8 ≤ okPiece.imageLength ∧ okPiece.imageLength ≤ 512 ∧ okPiece.pieceCount = (okPiece.imageLength + 63) / 64) ∧
      (List.replicate 64 (0 : Byte)).length = (if 1 < okPiece.pieceCount then 64 else okPiece.imageLength) ∧
      up.store.writes.length < 4 ∧ (∀ r ∈ up.store.index, r.key ≠ okPiece.key) ∧ up.store.index.length < 2048 ∧
      allocate up.store.index 8 up.patrol.openBanks = some (0, 0) ∧
      (∃ r ∈ (stored .valid).store.index, r.key = okPiece.key) ∧
      allocate ((stored .valid).store.index.filter fun r => r.key != okPiece.key) 8 up.patrol.openBanks = some (0, 0) ∧
      allocate [] 1 (bank0 24 .withdrawn).patrol.openBanks = some (1, 0) ∧
      allocate [{ record .valid with cellCount := 1020 }] 8 [0] = none ∧
      2048 ≤ ((List.replicate 2048 { record .valid with key := okKey }).filter fun r => r.key != okPiece.key).length ∧
      ¬(toAll.dst ≠ 0) := by
  refine ⟨?_, ?_, ?_, ?_, ?_, ?_, ?_, ?_, ?_, ?_, ?_, ?_, ⟨record .valid, ?_⟩, ?_, ?_, ?_, ?_, ?_⟩ <;>
    (try unfold Arrives Listens) <;> (try unfold FromAuthority) <;> decide +kernel

def loading3 : StoreRecord := { record .loading with cellCount := 3, imageLength := 150, nextPiece := some 2 }

theorem test_meets_LoadPiecesAndDiscard :
    findRecord glyph [loading3] = some loading3 ∧ loading3.state = .loading ∧ 3 = loading3.cellCount ∧ (1 ≤ 2 ∧ 2 < loading3.cellCount) ∧
      loading3.nextPiece = some 2 ∧ 2 ≤ 2 ∧
      (List.replicate 22 (0 : Byte)).length = (if 2 + 1 < loading3.cellCount then 64
        else loading3.imageLength - 64 * (loading3.cellCount - 1)) ∧
      (List.replicate 64 (0 : Byte)).length = (if 1 + 1 < loading3.cellCount then 64
        else loading3.imageLength - 64 * (loading3.cellCount - 1)) ∧
      (List.replicate 23 (0 : Byte)).length ≠ (if 2 + 1 < loading3.cellCount then 64
        else loading3.imageLength - 64 * (loading3.cellCount - 1)) ∧
      findRecord glyph up.store.index = none ∧ Arrives toAll up ∧ FromAuthority toAll up ∧ okSpan.first ≤ 4095 := by
  unfold Arrives Listens FromAuthority; decide +kernel

theorem test_meets_LoadWriteReachesItsCell :
    (writing true up).store.writes = aWrite true :: [] ∧ (writing true up).store.serve = none ∧ (aWrite true).live = true ∧
      (writing false up).store.writes = aWrite false :: [] ∧ (aWrite false).live = false ∧
      ((writing true (copying 5)).patrol.copySource = some (aWrite true).bank ∧
        (aWrite true).cell < (writing true (copying 5)).patrol.copyProgress.getD 0) ∧
      ¬((writing true (copying 4)).patrol.copySource = some (aWrite true).bank ∧
        (aWrite true).cell < (writing true (copying 4)).patrol.copyProgress.getD 0) := by decide +kernel

theorem test_meets_LocalReadServesItsPlacement :
    (reading .valid).store.reads = reader true :: [] ∧ (reading .valid).store.serve = none ∧ (reading .valid).store.writes = [] ∧
      findRecord (reader true).key (reading .valid).store.index = some (record .valid) ∧
      (reading .valid).patrol.bankState 0 ≠ .withdrawn ∧
      (∀ c ∈ (reading .valid).store.recordConds (record .valid) [], c = .clean) ∧
      (reading .valid).cache.validNumber glyph = none ∧ (∀ f ∈ (reading .valid).fetches, f.key ≠ glyph) ∧
      (reader true).live = true ∧ ((reading .valid).slots.get .zero).pass = some readingPass ∧ readingPass.wait = .reading ∧
      (record .poisoned).state ≠ .valid ∧ (reading .poisoned).dir.chooseTarget 6 [] glyph = none := by decide +kernel

theorem test_meets_LocalReadOfAGoneLine :
    (reader false).live = false ∧ SlotsRest up ∧ (up.slots.get .zero).pass = none :=
  ⟨rfl, ⟨fun i => by cases i <;> decide, fun i => by cases i <;> decide⟩, rfl⟩

theorem test_meets_CopyStepsCopyTheBank :
    (copying 1022).patrol.copySource = some 0 ∧ (copying 1022).patrol.copyProgress = some 1022 ∧
      (copying 1022).patrol.copyStepWaits = true ∧ (copying 1022).store.serve = none ∧ (copying 1022).store.writes = [] ∧
      (copying 1022).store.reads = [] ∧ 1022 < 1023 ∧ (∀ r ∈ (copying 1022).store.index, r.holdsCell 0 1022 = false) ∧
      cellHolder (stored .valid).store.index 0 0 = some (record .valid) ∧
      readCond (stored .valid).store.memory ((stored .valid).store.address 0 0) .clean = .clean ∧
      readCond (stored .valid).store.memory ((stored .valid).store.address 0 0) .uncorrectable = .uncorrectable ∧
      readCond [(0, .marked)] 0 .clean = .uncorrectable ∧ findRecord glyph (stored .valid).store.index = some (record .valid) ∧
      (copying 1023).patrol.copyProgress = some 1023 ∧ (copying 1023).link.state ≠ .mute := by decide +kernel

theorem test_meets_CopyCompletion : ∀ x, (copying 1023).patrol.bankState x ≠ .atThreshold := by
  intro b h; rcases b with _ | _ | _ | _ | b <;> cases h

def stepping (b c : Nat) : State := banks fun p => { p with stepWaits := true, intervalRuns := false, posBank := b, posCell := c }

theorem test_meets_PatrolStepWalksTheCells :
    (stepping 3 1023).patrol.stepWaits = true ∧ (stepping 3 1023).patrol.copyStepWaits = false ∧
      (stepping 3 1023).patrol.bankState 3 ≠ .withdrawn ∧
      readCond (stepping 3 1023).store.memory ((stepping 3 1023).store.address 3 1023) .clean = .clean ∧ (1022 < 1023) ∧
      (stepping 2 1023).patrol.posBank + 1 < (stepping 2 1023).patrol.banks.length ∧
      (stepping 3 1023).patrol.posBank + 1 = (stepping 3 1023).patrol.banks.length ∧ up.patrol.passes + 1 < up.patrol.drip ∧
      cellHolder (stored .valid).store.index 0 0 = some (record .valid) ∧ (record .valid).state = .valid := by decide +kernel

theorem test_meets_LineIsAcceptedByTheOwnersPage :
    Arrives fromDesk paged ∧ LineInForm okLine ∧ paged.straps.head = true ∧ paged.seq.page = .opened ∧
      paged.seq.owner = some fromDesk.src ∧ paged.lines.length < 6 ∧ fromDesk.dst ≠ 0 ∧ ¬LineInForm { okLine with squeeze := 16 } ∧
      LineInForm { okLine with measure := 32767, leading := 4095, squeeze := 15 } ∧ paged.seq.owner ≠ some fromAuth.src := by
  unfold Arrives Listens LineInForm; decide +kernel

def anEntry : QueueEntry :=
  { header := head1207 .left 2400 2, runs := [{ table := 15, dir := .ltr, face := 12, size := 20, codes := [0x66] }], mark := none }
def lined (s : State) : State := { s with lines := [anEntry] }

theorem test_meets_LineTakeShapesTheHeadOfTheQueue :
    (lined up).lines.find? (fun x => x.mark.isNone) = some anEntry ∧ (lined up).dir.state = .operational ∧
      (∀ r ∈ anEntry.runs, ((lined up).tables.getD r.table .blank).state ≠ .loading) ∧
      (SlotId.zero = .zero ∧ (lined up).slots.slot0.state = .empty) ∧
      ((withSlot .ready up).slots.slot0.state ≠ .empty ∧ (withSlot .ready up).slots.slot1.state = .empty) ∧
      (lined { up with dir := { up.dir with state := .enrolling } }).dir.state ≠ .operational ∧
      (∃ r ∈ anEntry.runs, ((lined (tabled loadingTable)).tables.getD r.table .blank).state = .loading) := by
  refine ⟨?_, ?_, ?_, ?_, ?_, ?_, ⟨{ table := 15, dir := .ltr, face := 12, size := 20, codes := [0x66] }, ?_⟩⟩ <;> decide +kernel

theorem test_meets_MeasureArithmetic :
    1000 < naturalWidth (List.replicate 10 (cluster .base 102) ++ [cluster .base 10]) ∧
      naturalWidth (List.replicate 10 (cluster .base 102) ++ [cluster .base 10]) - 1000 ≤
        capacity 3 (List.replicate 10 (cluster .base 102) ++ [cluster .base 10]) ∧
      capacity 3 (List.replicate 10 (cluster .base 102) ++ [cluster .base 11]) <
        naturalWidth (List.replicate 10 (cluster .base 102) ++ [cluster .base 11]) - 1000 ∧
      (head1207 .justify 2400 0).mode = .justify ∧ naturalWidth [cluster .space 2400] ≤ 2400 ∧
      1 ≤ spaceCount [cluster .space 2400] ∧ (-1 : Int) < 0 ∧ (0 : Int) ≤ 0 := by decide +kernel

theorem test_meets_ControlTakesItsListInOrder :
    Arrives fromDesk up ∧ up.straps.head = true ∧ fromDesk.dst ≠ 0 ∧ (1 ≤ 6 ∧ 6 ≤ 6) ∧
      (∀ c ∈ [ControlCmd.pageBegin 12 255 65535, .alarmSet { okAlarm with line := 255, column := 15 }, .run],
        commandInRange c = true ∧ commandBad c = false) ∧
      (∃ c ∈ [ControlCmd.pageBegin 13 1 0], commandInRange c = false ∨ commandBad c = true) ∧ commandInRange (.pageBegin 0 1 0) = false ∧
      commandBad (.alarmSet { okAlarm with autoCut := 2 }) = true ∧ State.maySend 3 .run paged = false ∧ paged.link.state ≠ .mute := by
  refine ⟨?_, ?_, ?_, ?_, ?_, ⟨.pageBegin 13 1 0, ?_⟩, ?_, ?_, ?_, ?_⟩ <;> (try unfold Arrives Listens) <;> decide +kernel

theorem test_meets_PagesBeginAndEnd :
    ArrivesHere fromDesk up ∧ up.straps.head = true ∧
      (up.seq.page ≠ .opened ∧ up.seq.closing = none ∧ up.seq.state = .stopped ∧ up.seq.galley.line = 0 ∧ up.seq.galley.column = 0) ∧
      paged.seq.page = .opened ∧ up.seq.page ≠ .opened := by
  unfold ArrivesHere Listens; decide +kernel

/-- The three ways to be a sender that may command: the owner, an authority, and anyone where there is neither. -/
theorem test_meets_Commanded :
    Commanded fromDesk paged ∧ Commanded fromAuth paged ∧
      Commanded { src := 15, dst := 6 } { up with straps := { up.straps with authLimit := 0 } } ∧
      ¬Commanded { src := 15, dst := 6 } paged := by
  unfold Commanded ArrivesHere Listens FromAuthority; decide +kernel

theorem test_meets_RunAndStop :
    Commanded fromDesk (withSlot .ready paged) ∧ (withSlot .ready paged).seq.state = .stopped ∧
      (withSlot .ready paged).headSlot = some .zero ∧ ((withSlot .ready paged).slots.get .zero).state = .ready ∧
      (withSlot .ready paged).seq.proof = false ∧ (inSeq .running).seq.state = .running ∧
      (inSeq (.proofWait .one)).seq.state = .proofWait .one ∧ (inSeq .exposing).seq.state = .exposing ∧
      (cutting .pageFull).seq.cutRecord = some { kind := .pageFull, renumbers := true, runs := true } ∧
      (inSeq .fault).seq.state = .fault := by
  unfold Commanded ArrivesHere Listens FromAuthority; decide +kernel

theorem test_meets_RunWithNothingReady : ∀ i, (paged.slots.get i).state ≠ .ready := by intro i; cases i <;> decide

theorem test_meets_CutAndGalleyReset :
    Commanded fromDesk paged ∧ paged.seq.state = .stopped ∧ (inSeq .exposing).seq.state = .exposing ∧
      (cutting .alarm).seq.state = .cutting ∧ (inSeq .fault).seq.state ≠ .stopped := by
  unfold Commanded ArrivesHere Listens FromAuthority; decide +kernel

theorem test_meets_ProofAlarmAndFlags :
    (∀ i, paged.seq.state ≠ .proofWait i) ∧ (inSeq (.proofWait .zero)).seq.state = .proofWait .zero ∧
      (255 ≤ 255 ∧ 15 ≤ 15 ∧ 31 ≤ 31 ∧ 1 ≤ 1) ∧ Commanded fromDesk (inSeq (.proofWait .zero)) :=
  ⟨fun i => by cases i <;> decide, rfl, by decide, by unfold Commanded ArrivesHere Listens FromAuthority; decide +kernel⟩

theorem test_meets_StationClearEndsTheWork :
    Commanded fromDesk exposing ∧ SlotsHeaded exposing ∧ (exposing.slots.get .zero).state = .exposing ∧
      (∀ i, (paged.slots.get i).state ≠ .exposing) ∧ SlotsHeaded paged :=
  ⟨by unfold Commanded ArrivesHere Listens FromAuthority; decide +kernel, fun i => by cases i <;> decide, rfl,
    fun i => by cases i <;> decide, fun i => by cases i <;> decide⟩

theorem test_meets_ExposedAdvancesTheGalley :
    exposing.head = .line ∧ exposing.seq.state = .exposing ∧ exposing.seq.galley.line + 1 ≠ exposing.seq.depth ∧
      ({ exposing.seq with galley := { page := 65535, column := 0, line := 2 } }).galley.line + 1 = exposing.seq.depth ∧
      ({ exposing.seq with galley := { page := 65535, column := 1, line := 2 } }).galley.column + 1 = exposing.seq.columns ∧
      (exposing.slots.get .zero).state = .exposing ∧ (exposing.slots.get .zero).header = some (head1207 .left 2400 0) ∧
      exposing.slots.get SlotId.zero.other = .vacant ∧ exposing.link.state ≠ .mute ∧ exposing.link.queue.length < 12 ∧
      exposing.seq.galley.line + 1 < exposing.seq.depth ∧
      alarmMatches exposing.seq.alarm { exposing.seq.galley with line := exposing.seq.galley.line + 1 } = false ∧
      exposing.seq.cutPending = false ∧ exposing.seq.stopPending = false ∧ exposing.seq.expiryHeld = false := by decide +kernel

theorem test_meets_CutDoneMakesTheCut :
    (cutting .commanded).head = .cut ∧ (cutting .commanded).seq.state = .cutting ∧
      (cutting .commanded).seq.cutRecord = some { kind := .commanded, renumbers := true, runs := true } ∧ SlotsRest (cutting .commanded) ∧
      (cutting .commanded).seq.expiryHeld = false ∧ SlotsRest (cutting .close) ∧
      ({ (cutting .close).seq with closing := some .pageEnd }).closing = some .pageEnd :=
  ⟨rfl, rfl, rfl, ⟨fun i => by cases i <;> decide, fun i => by cases i <;> decide⟩, rfl,
    ⟨fun i => by cases i <;> decide, fun i => by cases i <;> decide⟩, rfl⟩

theorem test_meets_FilmAndHeadFaults :
    exposing.link.state ≠ .mute ∧ exposing.seq.state ≠ .fault ∧ SlotsHeaded exposing ∧ exposing.slots.slot0.state = .exposing ∧
      (inSeq .fault).seq.state = .fault ∧ paged.head ≠ .line ∧ paged.head ≠ .cut :=
  ⟨by decide, by decide, fun i => by cases i <;> decide, rfl, rfl, by decide, by decide⟩

def timed (n : Nat) (s : State) : State := { s with seq := { s.seq with closeTimer := n } }

theorem test_meets_CloseTimerExpiryAndEnd :
    (timed 2 paged).seq.page = .opened ∧ 1 < (timed 2 paged).seq.closeTimer ∧ (timed 1 exposing).seq.closeTimer = 1 ∧
      (timed 1 exposing).seq.state = .exposing ∧ (timed 1 paged).seq.state ≠ .exposing ∧ SlotsHeaded (timed 1 paged) ∧
      ({ paged.seq with page := .closed, closing := some .expiry }).closing = some .expiry ∧ (∀ e ∈ paged.lines, e.mark ≠ none) ∧
      (∀ i, ¬InAssembly (paged.slots.get i) ∧ (paged.slots.get i).state ≠ .exposing) ∧ paged.seq.state = .stopped ∧
      (inSeq .fault).seq.state = .fault ∧ (inSeq .fault).link.queue.length < 12 :=
  ⟨rfl, by decide, rfl, rfl, by decide, fun i => by cases i <;> decide, rfl, by decide,
    fun i => by cases i <;> (unfold InAssembly; decide), rfl, rfl, by decide⟩

theorem test_meets_FramesReadBackAsSent :
    ({ station := 255, banks := 255, spare := true, head := false, records := 65535 } : EnrolFields).station < 256 ∧
      (List.replicate 255 ({ first := okKey, last := okKey } : KeyRange)).length < 256 ∧
      (∀ r ∈ List.replicate 255 ({ first := okKey, last := okKey } : KeyRange), r.wf = true) ∧ okKey.wf = true ∧
      anImage.wellFormed = true ∧ anImage.key.wf = true ∧ readImage (Reply.image anImage).payload = some anImage := by decide +kernel

theorem test_meets_the_invariants :
    MemoryCanonical up ∧ MemoryCanonical (stored .valid) ∧ GalleyInGeometry paged ∧ WithinCapacities up ∧
      step (stored .valid) = .next (stored .valid) := by
  refine ⟨?_, ?_, ?_, ?_, rfl⟩
  · unfold MemoryCanonical; decide +kernel
  · unfold MemoryCanonical; decide +kernel
  · unfold GalleyInGeometry; decide +kernel
  · unfold WithinCapacities; decide +kernel

theorem test_meets_OnlyAResetLeavesMute : (linked .mute).link.state = .mute ∧ isReset .freeCondition = false := by decide

/-! ## The clauses that one witness does not reach -/

theorem test_meets_StationResetKeeps_begun :
    (writing true up).store.writes = aWrite true :: [] ∧ (aWrite true).live = true ∧
      ((writing true up).cellWrites .loadWrite).take 1 = [(4, .data (List.replicate 8 1))] := by decide +kernel

theorem test_meets_ObservedAndDiscardedFrames_held :
    Listens (linked .busyOther) ∧ Listens up ∧ (9 : Nat) ≠ up.straps.station ∧ noticeBad [7, 40, 0x10, 0x00, 1] = true ∧
      noticeBad [8, 40, 0x0F, 0xFF, 0] = false ∧ 528 < (List.replicate 529 (0 : Byte)).length ∧
      checkWord (replyBits okReply) ≠ checkWord (replyBits okReply) + 1 := by
  unfold Listens; decide +kernel

def aReport : LineReport :=
  { number := 7, outcome := .set, natural := 50, set := 50, placements := 1, substituted := 0, flags := {}, galley := none }
def anEnrol : EnrolFields := { station := 6, banks := 4, spare := true, head := true, records := 0 }
def tx (f : TxFrame) : TxEntry := { frame := f, attempts := 0, onLink := false }
def owners : State :=
  { up with
    dir := { up.dir with state := .enrolling }
    link := { up.link with enrolWaits := true, queue := [tx (.enrol anEnrol), tx (.report 2 aReport), tx (.notice 2 .filmLow)] }
    lines := [{ header := head1207 .left 2400 2, runs := [], mark := some .closed }] }

theorem test_meets_EnrolIsAnsweredOrMutes_owners :
    Arrives { src := 6, dst := 0 } owners ∧ tx (.report 2 aReport) ∈ owners.link.queue ∧
      tx (.notice 2 .filmLow) ∈ owners.link.queue ∧ tx (.enrol anEnrol) ∈ owners.link.queue ∧ owners.dir.state = .enrolling ∧
      (∃ e ∈ owners.lines, e.mark ≠ none) ∧ owners.link.enrolWaits = true := by
  unfold Arrives Listens; decide +kernel

def between (n : Nat) : State := { up with link := { up.link with exchange := some (exchange n) } }

theorem test_meets_ContendTakesTheOldestFetch_again :
    (between 3).link.state = .idle ∧ (between 3).link.free = true ∧ (between 3).link.exchange = some (exchange 3) ∧
      State.wins { cls := 0, kind := 1, src := (between 3).straps.station } [] = true ∧
      State.wins { cls := 0, kind := 1, src := (between 3).straps.station } [{ cls := 0, kind := 1, src := 5 }] = false := by
  decide +kernel

theorem test_meets_ObjectRetriesAndFetchAnswers_eighth :
    (exchanging .awaitAnswer 8).link.state = .awaitAnswer ∧ (exchanging .awaitAnswer 8).link.tenure = .fetch ∧
      (exchanging .awaitAnswer 8).link.exchange = some (exchange 8) ∧ 8 ≤ (exchange 8).attempts := by decide +kernel

def sendingA (f : TxFrame) : State :=
  { sendingFrame 1 with link := { (sendingFrame 1).link with queue := [{ frame := f, attempts := 1, onLink := true }] } }

/-- ACK and silence: no owner waits, and the frame at its first attempt is a report, a notice or an ENROL. -/
theorem test_meets_AnsweredFrameLeavesTheQueue_silence :
    (sendingA (.report 2 aReport)).link.state = .sending ∧ (sendingA (.report 2 aReport)).link.tenure = .frame ∧
      (sendingA (.report 2 aReport)).link.queue.find? (fun x => x.onLink) =
        some { frame := .report 2 aReport, attempts := 1, onLink := true } ∧
      (sendingA (.enrol anEnrol)).link.queue.find? (fun x => x.onLink) =
        some { frame := .enrol anEnrol, attempts := 1, onLink := true } ∧
      (false = true → 8 ≤ (1 : Nat)) ∧ NoOwnerWaits (sendingA (.report 2 aReport)) ∧ SlotsRest (sendingA (.report 2 aReport)) :=
  ⟨by decide, by decide, by decide, by decide, by decide, ⟨by decide, by decide, fun i => by cases i <;> decide, by decide⟩,
    ⟨fun i => by cases i <;> decide, fun i => by cases i <;> decide⟩⟩

theorem test_meets_DisturbanceAndStall_eighth :
    (sendingFrame 8).link.state = .sending ∧ (sendingFrame 8).link.tenure = .frame ∧
      (sendingFrame 8).link.queue.find? (fun x => x.onLink) = some { aNotice with attempts := 8, onLink := true } ∧
      NoOwnerWaits (sendingFrame 8) ∧ SlotsRest (sendingFrame 8) :=
  ⟨by decide, by decide, by decide, ⟨by decide, by decide, fun i => by cases i <;> decide, by decide⟩,
    ⟨fun i => by cases i <;> decide, fun i => by cases i <;> decide⟩⟩

theorem test_meets_ServeAndHoldLimit_corrected :
    .uncorrectable ∉ (holding [record .valid]).store.recordConds (record .valid) [.corrected] ∧
      (holding [record .valid]).patrol.banks[0]? = some { count := 0, state := .good } ∧
      0 + ((holding [record .valid]).store.recordConds (record .valid) [.corrected]).count .corrected < up.patrol.threshold ∧
      ((holding [record .valid]).recordWrites (record .valid) [.corrected]) = [(0, .data (List.replicate 8 7))] ∧
      ({ holding [record .valid] with patrol := (bank0 24 .spared).patrol }).patrol.bankState 0 ≠ .good := by decide +kernel

theorem test_meets_BadAndDeferReplies_eighth :
    (exchanging .awaitReply 8).link.exchange = some (exchange 8) ∧ 8 ≤ (exchange 8).attempts ∧
      (0x0000#16 : Word16) ≠ checkWord (replyBits deferReply) ∧
      ({ deferReply with dst := 4 } : RawReply).dst ≠ up.straps.station ∧
      ({ deferReply with src := 8 } : RawReply).src ≠ (exchange 7).target := by
  decide +kernel

def waiter : Placement := { unresolved with waitsRoom := true }
def waits (st : SlotState) : Slot :=
  { slotIn st with list := [waiter], pass := if st = .resolving then some readingPass else none }
def bothSlots (a b : Slot) : State := { up with slots := { slot0 := a, slot1 := b, age := some .zero } }

/-- No slot waits for room, either one does, or both, the older one RESOLVING or AWAITING. -/
theorem test_meets_ImageReplyEndsTheFetch_room :
    ¬WaitsForRoom (up.slots.get .zero) ∧ ¬WaitsForRoom (up.slots.get .one) ∧
      WaitsForRoom ((bothSlots (waits .awaiting) .vacant).slots.get .zero) ∧
      ¬WaitsForRoom ((bothSlots (waits .awaiting) .vacant).slots.get .one) ∧
      WaitsForRoom ((bothSlots (waits .resolving) (waits .awaiting)).slots.get .zero) ∧
      WaitsForRoom ((bothSlots (waits .resolving) (waits .awaiting)).slots.get .one) ∧
      (bothSlots (waits .resolving) (waits .awaiting)).slots.older = .zero := by
  unfold WaitsForRoom; decide +kernel

theorem test_meets_FailedAttempts_fifth_defer :
    deferReply.status = 1 ∧ 4 ≤ ({ waiting with defers := 4 } : Fetch).defers ∧
      (∀ i, readImage ([] : List Byte) = some i → i.wellFormed = false ∨ i.key ≠ glyph) ∧
      (cluster .base 100).role ≠ .mark ∧ (cluster .mark 0).role = .mark :=
  ⟨rfl, by decide, fun i h => (by cases h), by decide, rfl⟩

def ownAnnounce : AnnounceFrame := { announce 4 with ways := [{ primary := 6, alternate := 11 }] }
def holdsWithdrawn : State :=
  { knows [entry 3] with
    store := (stored .valid).store, patrol := (bank0 24 .withdrawn).patrol }

/-- With no ways, with ways and nothing withdrawn, and as a holder of the range of a VALID record of a WITHDRAWN bank. -/
theorem test_meets_AnnounceReplacesTheOverlapped_listing :
    ({ announce 4 with ways := [] } : AnnounceFrame).ways = [] ∧ (announce 4).ways ≠ [] ∧ ¬HoldsWithdrawn (announce 4) holdsWithdrawn ∧
      ownAnnounce.ways ≠ [] ∧ HoldsWithdrawn ownAnnounce holdsWithdrawn ∧ Directory.announceValid ownAnnounce = true ∧
      (∀ e ∈ holdsWithdrawn.dir.entries, e.range.overlaps (Directory.announceRange ownAnnounce) = true → e.version < 4) ∧
      Arrives fromAuth holdsWithdrawn ∧ FromAuthority fromAuth holdsWithdrawn := by
  unfold HoldsWithdrawn Arrives Listens FromAuthority; decide +kernel

/-- The list is empty, the queue is full, or a range is offered. -/
theorem test_meets_AnnounceReplacesTheOverlapped_offer :
    up.dir.outgoing = [] ∧ up.link.state ≠ .mute ∧ 12 ≤ ({ up.link with queue := List.replicate 12 aNotice }).queue.length ∧
      up.link.queue.length < 12 ∧ ({ up.dir with outgoing := [{ first := glyph, last := glyph }] }).outgoing ≠ [] := by decide +kernel

def referring : Placement := { cluster .base 100 with key := some glyph, ref := some 5 }
def refers (st : SlotState) : Slot :=
  { slotIn st with list := [referring], pass := if st = .resolving then some readingPass else none }

/-- A slot in each state that refers to a STALE entry, and one that does not. -/
theorem test_meets_InvalidateLeavesNoValidEntry_slots :
    (∀ p ∈ (slotIn .ready).list, refersTo [5] p = false) ∧ (slotIn .reporting).state = .reporting ∧
      (∃ p ∈ (refers .exposing).list, refersTo [5] p = true) ∧ (refers .exposing).state = .exposing ∧
      (∃ p ∈ (refers .resolving).list, refersTo [5] p = true) ∧ (refers .resolving).state = .resolving ∧
      (∃ p ∈ (refers .awaiting).list, refersTo [5] p = true) ∧ (refers .awaiting).state = .awaiting ∧
      (∃ p ∈ (refers .ready).list, refersTo [5] p = true) ∧ (refers .ready).state = .ready ∧
      5 ∈ (cached 1).madeStale { face := 40, first := 0, last := 4095 } ∧
      5 ∉ (cached 0).madeStale { face := 40, first := 0, last := 4095 } := by decide +kernel

/-- Values just outside their ranges. -/
theorem test_meets_refused_policy_values :
    (0 = 0 ∨ 15 < 0) ∧ (16 = 0 ∨ 15 < 16) ∧ 1 < 2 ∧ up.patrol.banks.length ≤ 4 ∧ (0 = 0 ∨ 255 < 0) ∧ (256 = 0 ∨ 255 < 256) ∧
      ({ noFields with threshold := some 0 } : PolicyFrame).threshold = some 0 ∧
      ({ noFields with drip := some 16 } : PolicyFrame).drip = some 16 ∧
      ({ noFields with sparing := some 2 } : PolicyFrame).sparing = some 2 ∧
      ({ noFields with patrol := some 2 } : PolicyFrame).patrol = some 2 ∧
      (banks fun p => { p with sparing := false }).patrol.sparing = false := by decide

def unspared (n : Nat) (b : BankState) : State :=
  banks fun p => { p with sparing := false, banks := p.banks.set 0 { count := n, state := b } }

theorem test_meets_ThresholdAndForce_by_state :
    (unspared 3 .good).patrol.sparing = false ∧ (unspared 3 .good).patrol.bankState 0 = .good ∧
      (unspared 3 .atThreshold).patrol.bankState 0 = .atThreshold ∧ (unspared 3 .withdrawn).patrol.bankState 0 = .withdrawn ∧
      (bank0 24 .spared).patrol.sparing = true ∧ (bank0 24 .spared).patrol.bankState 0 = .spared ∧
      (bank0 24 .withdrawn).patrol.bankState 0 = .withdrawn ∧ 0 < up.patrol.banks.length := by decide

theorem test_meets_SparingField_without_a_copy :
    up.patrol.sparing = true ∧ up.patrol.copySource = none ∧ (unspared 3 .good).patrol.sparing = false := by decide

def ownEntry : DirEntry :=
  { entry 3 with ways := [{ primary := 6, alternate := 9, primaryStruck := false, alternateStruck := false }] }

/-- A bank withdrawn with an entry listed and one not listed; and the walk before and after its bank. -/
theorem test_meets_SpareDecisionByTheTable_withdrawal :
    holdsWithdrawn.link.state ≠ .mute ∧
      listedFor 0 holdsWithdrawn ownEntry = true ∧
      listedFor 0 holdsWithdrawn (entry 3) = false ∧ up.patrol.bankState up.patrol.posBank ≠ .withdrawn ∧
      (banks fun p => { p with enabled := false }).patrol.enabled = false ∧ (bank0 24 .withdrawn).patrol.enabled = true ∧
      (bank0 24 .withdrawn).patrol.stepWaits = false ∧
      (bank0 24 .withdrawn).patrol.bankState (bank0 24 .withdrawn).patrol.posBank = .withdrawn ∧
      (bank0 24 .withdrawn).patrol.posBank + 1 < (bank0 24 .withdrawn).patrol.banks.length ∧
      (bank0 24 .withdrawn).patrol.bankState ((bank0 24 .withdrawn).patrol.posBank + 1) ≠ .withdrawn ∧
      (banks fun p => { p with spare := .inUse, banks := p.banks.set 0 { count := 24, state := .atThreshold } }).patrol.bankState 0 =
        .atThreshold := by decide +kernel

theorem test_meets_ErrorBuckets_unspared :
    (unspared 23 .good).patrol.banks[0]? = some { count := 23, state := .good } ∧ (unspared 23 .good).patrol.threshold ≤ 23 + 1 ∧
      (unspared 23 .good).patrol.sparing = false := by decide

def heldRead : State :=
  { stored .valid with
    store := { (stored .valid).store with reads := [reader false] }
    slots := { slot0 := { slotIn .resolving with list := [unresolved], pass := some { readingPass with wait := .readHeld } }
               slot1 := .vacant, age := some .zero } }

/-- A CORRECTED and an UNCORRECTABLE cell, a read whose line is gone with the slot's next one held back, and a key that is not held. -/
theorem test_meets_LocalReadServesItsPlacement_cells :
    ((reading .valid).slots.get (reader true).slot).state = .resolving ∧
      .uncorrectable ∉ (reading .valid).store.recordConds (record .valid) [.corrected] ∧
      (reading .valid).cache.validNumber glyph = none ∧
      (reading .valid).patrol.banks[0]? = some { count := 0, state := .good } ∧
      0 + ((reading .valid).store.recordConds (record .valid) [.corrected]).count .corrected < up.patrol.threshold ∧
      .uncorrectable ∈ (reading .valid).store.recordConds (record .valid) [.uncorrectable] ∧
      .corrected ∉ (reading .valid).store.recordConds (record .valid) [.uncorrectable] ∧ (reading .valid).link.state ≠ .mute ∧
      (heldRead.store.reads = reader false :: [] ∧ (heldRead.slots.get .zero).pass = some { readingPass with wait := .readHeld } ∧
        (heldRead.slots.get .zero).list[0]? = some unresolved ∧ unresolved.key = some glyph) ∧
      findRecord glyph (reading .poisoned).store.index = some (record .poisoned) := by decide +kernel

def fullList : List Fetch := List.replicate 8 { waiting with key := okKey }

/-- The ends of the third step: a fetch present, no target, a full list, room, and room with a VALID entry. -/
theorem test_meets_LocalReadServesItsPlacement_third :
    (∃ f ∈ ({ up with fetches := [waiting] } : State).fetches, f.key = glyph) ∧ (∀ f ∈ fullList, f.key ≠ glyph) ∧
      up.dir.chooseTarget up.straps.station [] glyph = none ∧
      (knows [entry 3]).dir.chooseTarget up.straps.station [] glyph = some (9, .primary) ∧ 8 ≤ fullList.length ∧
      up.fetches.length < 8 ∧ up.cache.validNumber glyph = none ∧ (cached 0).validNumber glyph = some 5 ∧
      (cached 0).entry 5 = some { key := glyph, record := anImage, state := .valid, pins := 0, origin := .remotePrimary } := by
  decide +kernel

/-- The first two steps, and a fetch that a local read cancels. -/
theorem test_meets_LocalReadServesItsPlacement_visit :
    (∃ r, findRecord glyph (stored .valid).store.index = some r ∧ r.state = .valid ∧
        (stored .valid).patrol.bankState r.bank ≠ .withdrawn) ∧
      (∀ r ∈ (stored .valid).store.reads, r.slot ≠ .zero) ∧ (∃ r ∈ (reading .valid).store.reads, r.slot = .zero) ∧
      findRecord glyph up.store.index = none ∧ (∀ f ∈ up.fetches, f.key ≠ anImage.key) ∧
      [{ waiting with state := .exchanging }].find? (fun e => e.key == anImage.key) = some { waiting with state := .exchanging } :=
  ⟨⟨record .valid, by decide +kernel, rfl, by decide +kernel⟩, by decide +kernel, by decide +kernel, by decide +kernel,
    by decide +kernel, by decide +kernel⟩

def copyingAt (st : RecordState) : State :=
  { copying 0 with store := { (copying 0).store with index := [record st], memory := [(0, .data (List.replicate 8 7))] } }

theorem test_meets_CopyStepsCopyTheBank_cells :
    (copyingAt .valid).patrol.copyProgress = some 0 ∧ cellHolder (copyingAt .valid).store.index 0 0 = some (record .valid) ∧
      (copyingAt .valid).patrol.bankState 0 ≠ .good ∧
      readCond (copyingAt .valid).store.memory ((copyingAt .valid).store.address 0 0) .clean = .clean ∧
      readCond (copyingAt .valid).store.memory ((copyingAt .valid).store.address 0 0) .corrected = .corrected ∧
      readCond (copyingAt .valid).store.memory ((copyingAt .valid).store.address 0 0) .uncorrectable = .uncorrectable ∧
      findRecord (record .valid).key (copyingAt .valid).store.index = some (record .valid) ∧ (0 : Nat) < 1023 := by decide +kernel

def steppingOn (ix : List StoreRecord) (b : Bank) : State :=
  { stored .valid with
    store := { (stored .valid).store with index := ix }
    patrol := { (stepping 0 0).patrol with banks := (stepping 0 0).patrol.banks.set 0 b } }

/-- A CORRECTED and an UNCORRECTABLE cell that is FREE, of a LOADING record, of a VALID one and of a POISONED one, in a GOOD bank and in
another. -/
theorem test_meets_PatrolStepWalksTheCells_cells :
    (steppingOn [] { count := 0, state := .good }).patrol.posCell < 1023 ∧
      readCond (steppingOn [] { count := 0, state := .good }).store.memory
        ((steppingOn [] { count := 0, state := .good }).store.address 0 0) .corrected = .corrected ∧
      readCond (steppingOn [] { count := 0, state := .good }).store.memory
        ((steppingOn [] { count := 0, state := .good }).store.address 0 0) .uncorrectable = .uncorrectable ∧
      (∀ r ∈ (steppingOn [] { count := 0, state := .good }).store.index, r.holdsCell 0 0 = false) ∧
      (cellHolder [record .loading] 0 0 = some (record .loading) ∧ (record .loading).state = .loading) ∧
      (steppingOn [record .valid] { count := 9, state := .spared }).patrol.bankState 0 ≠ .good ∧
      (cellHolder [record .valid] 0 0 = some (record .valid) ∧ (record .valid).state ≠ .loading ∧ (record .valid).state = .valid) ∧
      (findRecord glyph [record .poisoned] = some (record .poisoned) ∧ (record .poisoned).state ≠ .valid) ∧
      (steppingOn [record .valid] { count := 9, state := .good }).patrol.banks[0]? = some { count := 9, state := .good } ∧
      9 + 1 < (steppingOn [record .valid] { count := 9, state := .good }).patrol.threshold ∧
      (steppingOn [record .valid] { count := 9, state := .good }).link.state ≠ .mute := by decide +kernel

/-- A code of each kind, a pair with and one without a ligature, and clusters with marks. -/
theorem test_meets_LineTakeShapesTheHeadOfTheQueue_shaping :
    (latin.state = .complete ∧ 0x20 = latin.spaceCode ∧ 0x66 ≠ latin.spaceCode ∧ latin.codeBase ≤ 0x66 ∧
        0x66 < latin.codeBase + latin.codeCount ∧
        latin.entries[0x66 - latin.codeBase]? = some { cls := .none, isolated := 0x66, final := 0, initial := 0, medial := 0 }) ∧
      (0x19 ≠ latin.spaceCode ∧ 0x19 < latin.codeBase) ∧ latin.codeBase + latin.codeCount ≤ 0x7F ∧
      ScriptTable.blank.state ≠ .complete ∧
      ([lookupCode arabic 0x628, lookupCode arabic 0x627][1]? = some (lookupCode arabic 0x627)) ∧
      (latin.ligatures[0]? = some { first := 0x66, second := 0x69, ligature := 0xF01 } ∧
        ∀ l ∈ latin.ligatures, l.first ≠ 0x67 ∨ l.second ≠ 0x69) ∧
      (∀ g, Shaped.space ≠ .glyph g) ∧ (∀ i, Formed.glyph 5 ≠ .mark i) :=
  ⟨by decide +kernel, by decide +kernel, by decide +kernel, by decide, by decide +kernel, by decide +kernel,
    fun g h => (by cases h), fun i h => (by cases h)⟩

def markOn : Placement := { cluster .mark 0 with origin := some (-30, 12) }
def fourModes : List Placement := [cluster .base 100, markOn, cluster .base 50]

/-- The four modes, a line with no SPACE, and positions of a base and of the mark on it. -/
theorem test_meets_MeasureArithmetic_modes :
    naturalWidth fourModes ≤ 400 ∧ spaceCount fourModes = 0 ∧ (head1207 .left 400 0).mode = .left ∧
      (head1207 .right 400 0).mode = .right ∧ (head1207 .centre 400 0).mode = .centre ∧ (head1207 .justify 400 0).mode = .justify ∧
      ((positioned { natural := 150, set := 150, start := 20, gaps := [], additions := [] } fourModes).map fun p => p.x) =
        [some 20, some (-10), some 120] ∧
      (match measureLine (head1207 .centre 401 0) fourModes with
        | .fits m _ _ => m.start
        | .overset _ _ => 0) = 125 := by decide +kernel

def proofed : State := { withSlot .ready paged with seq := { paged.seq with proof := true } }
def youngerReady : State :=
  { paged with slots := { slot0 := slotIn .ready, slot1 := { slotIn .resolving with pass := some readingPass }, age := some .one } }

/-- Proof mode, a READY line behind an older one, and the three kinds of the head of the slots. -/
theorem test_meets_RunAndStop_proof :
    Commanded fromDesk proofed ∧ proofed.seq.state = .stopped ∧ proofed.headSlot = some .zero ∧
      (proofed.slots.get .zero).state = .ready ∧ proofed.seq.proof = true ∧
      (proofed.slots.get .zero).header = some (head1207 .left 2400 0) ∧ youngerReady.headSlot = some .one ∧
      (youngerReady.slots.get .one).state ≠ .ready ∧ (youngerReady.slots.get .zero).state = .ready ∧
      InAssembly (youngerReady.slots.get youngerReady.slots.older) ∧ ¬InAssembly (paged.slots.get paged.slots.older) ∧
      InAssembly ({ withSlot .ready paged with slots := { slot0 := slotIn .reporting, slot1 := slotIn .ready, age := some .zero } :
        State }.slots.get .one) := by
  unfold Commanded ArrivesHere Listens FromAuthority InAssembly; decide +kernel

theorem test_meets_StationClearEndsTheWork_proof :
    (∃ i, (inSeq (.proofWait .zero)).seq.state = .proofWait i) ∧ SlotsHeaded (withSlot .ready (inSeq (.proofWait .zero))) ∧
      Commanded fromDesk (withSlot .ready (inSeq (.proofWait .zero))) ∧
      ((exposing.slots.get SlotId.zero.other).state ≠ .exposing ∧ ¬InAssembly (exposing.slots.get SlotId.zero.other)) :=
  ⟨⟨.zero, rfl⟩, fun i => by cases i <;> decide, by unfold Commanded ArrivesHere Listens FromAuthority; decide +kernel,
    by unfold InAssembly; decide⟩

def alarmed (auto : Bool) : State :=
  { exposing with seq := { exposing.seq with
      alarm := { line := 1, column := 0, page := 0, maskLine := true, maskCol := false, maskPage := false, autoCut := auto } } }

/-- An alarm that matches with and without AUTO-CUT, a cut pending, and a stop pending. -/
theorem test_meets_ExposedAdvancesTheGalley_due :
    (alarmed true).head = .line ∧ (alarmed true).seq.state = .exposing ∧
      alarmMatches (alarmed true).seq.alarm (after .exposed (alarmed true)).seq.galley = true ∧
      (alarmed true).seq.alarm.autoCut = true ∧ (alarmed false).seq.alarm.autoCut = false ∧
      alarmMatches (alarmed false).seq.alarm (after .exposed (alarmed false)).seq.galley = true ∧
      (alarmed true).link.state ≠ .mute ∧ (alarmed true).link.queue.length < 11 ∧
      ¬((alarmed true).seq.galley.line + 1 = (alarmed true).seq.depth ∧
        (alarmed true).seq.galley.column + 1 = (alarmed true).seq.columns) ∧
      alarmMatches exposing.seq.alarm (after .exposed exposing).seq.galley = false ∧
      ({ exposing.seq with cutPending := true }).cutPending = true ∧ ({ exposing.seq with stopPending := true }).stopPending = true := by
  decide +kernel

def exposingIn1 (n : Nat) : State :=
  { inSeq .exposing with
    head := .line, slots := { slot0 := slotIn .resolving, slot1 := slotIn .exposing, age := some .one }
    link := { paged.link with queue := List.replicate n aNotice } }

/-- A line exposing in slot 1, with room for report and notice, for neither, and no line exposing. -/
theorem test_meets_FilmAndHeadFaults_slots :
    (exposingIn1 0).seq.state ≠ .fault ∧ SlotsHeaded (exposingIn1 0) ∧ (exposingIn1 0).slots.slot0.state ≠ .exposing ∧
      (exposingIn1 0).slots.slot1.state = .exposing ∧ ((exposingIn1 0).slots.get SlotId.one.other).state ≠ .exposing ∧
      ((exposingIn1 0).slots.get .one).header = some (head1207 .left 2400 0) ∧ (exposingIn1 0).link.state ≠ .mute ∧
      (exposingIn1 9).link.queue.length < 10 ∧ 12 ≤ (exposingIn1 12).link.queue.length ∧
      (paged.seq.state ≠ .fault ∧ SlotsRest paged ∧ (∀ i, (paged.slots.get i).state ≠ .exposing) ∧ paged.seq.closing = none ∧
        paged.seq.expiryHeld = false ∧ paged.link.state ≠ .mute) :=
  ⟨by decide, fun i => by cases i <;> decide, by decide, by decide, by decide, by decide, by decide, by decide, by decide,
    ⟨by decide, ⟨fun i => by cases i <;> decide, fun i => by cases i <;> decide⟩, fun i => by cases i <;> decide, rfl, rfl, by decide⟩⟩

theorem test_meets_ResetHasTheInvariants_step :
    SlotsHeaded (withSlot .ready (inSeq (.proofWait .zero))) ∧ ProofWaits (withSlot .ready (inSeq (.proofWait .zero))) ∧
      step (withSlot .ready (inSeq (.proofWait .zero))) = .next (withSlot .ready (inSeq (.proofWait .zero))) :=
  ⟨fun i => by cases i <;> decide, fun i h => (by cases i <;> first | rfl | cases h), rfl⟩

/-! ## The laws of the shared operations -/

/-- R170: a frame to another station whose check word is wrong ends the tenure that is followed; it is answered in neither slot. -/
theorem test_wrong_check_word_to_another_station :
    (after (.checkWordWrong { okFrame with dst := 9 } 0) up).link.free = false ∧
      (after (.checkWordWrong { okFrame with dst := 9 } 0) (linked .busyOther)).link.state = .idle ∧
      (after (.checkWordWrong { okFrame with dst := 9 } 0) up).out = [] ∧
      (after (.checkWordWrong okFrame 0) up).out = [.answer false true] ∧ checkWord (frameBits { okFrame with dst := 9 }) ≠ 0 := by
  decide +kernel

def copying2 : State :=
  banks fun p => { p with
    banks := (p.banks.set 2 { count := 24, state := .copying }).set 1 { count := 30, state := .atThreshold }
    spare := .target, copySource := some 2, copyProgress := some 9, copyStepWaits := true }
def frozen (x : SpareState) : State :=
  banks fun p => { p with spare := x, banks := p.banks.set 0 { count := 24, state := .atThreshold } }

/-- A copy of bank 2 aborted with bank 1 AT-THRESHOLD below it; bank 0 AT-THRESHOLD with no copy and each state of the spare; and straps
that read otherwise. -/
theorem test_meets_StationResetKeeps_spare :
    copying2.patrol.sparing = true ∧ copying2.patrol.copySource = some 2 ∧ 2 < copying2.patrol.banks.length ∧
      copying2.patrol.bankState 1 = .atThreshold ∧ (∀ d, d < 1 → d ≠ 2 ∧ copying2.patrol.bankState d ≠ .atThreshold) ∧
      (after (.stationReset up.straps { tenure := false, begun := none }) copying2).patrol.copySource = some 1 ∧
      (unspared 24 .atThreshold).patrol.sparing = false ∧ (unspared 24 .atThreshold).patrol.copySource = none ∧
      (frozen .free).patrol.copySource = none ∧ (frozen .free).patrol.spare = .free ∧ (frozen .free).patrol.sparing = true ∧
      (frozen .free).patrol.bankState 0 = .atThreshold ∧ (frozen .inUse).patrol.spare = .inUse ∧
      (frozen .absent).patrol.spare = .absent ∧ { up.straps with spare := !up.straps.spare }.spare ≠ up.straps.spare ∧
      { up.straps with banksLessOne := 7 }.banksLessOne ≠ up.straps.banksLessOne := by decide +kernel

theorem test_meets_ObservedAndDiscardedFrames_check_word :
    Listens (linked .busyOther) ∧ ({ okFrame with dst := 9 } : RawFrame).dst ≠ up.straps.station ∧
      ({ okFrame with dst := 9 } : RawFrame).dst ≠ 0 ∧ (0x0000#16 : Word16) ≠ checkWord (frameBits { okFrame with dst := 9 }) := by
  unfold Listens; decide +kernel

/-- A slot that has its report but no room for it yet. -/
def reportingSlot : Slot := { slotIn .reporting with list := [], report := some aReport }
def reportingIn (n : Nat) : State :=
  { up with
    slots := { slot0 := .vacant, slot1 := reportingSlot, age := some .one }
    link := { up.link with queue := List.replicate n aNotice } }

theorem test_meets_EnrolIsAnsweredOrMutes_slot :
    ((reportingIn 12).slots.get .one).state = .reporting ∧ ((reportingIn 12).slots.get .one).report ≠ none ∧
      ((reportingIn 12).slots.get .one).header ≠ none ∧ Arrives { src := 6, dst := 0 } (reportingIn 12) := by
  unfold Arrives Listens; decide +kernel

/-- A queue in order, and a frame of class 1 placed behind the one and before the others. -/
theorem test_meets_ContendSendsTheFirstQueuedFrame_order :
    [tx (.enrol anEnrol), tx (.report 2 aReport), aNotice].Pairwise (fun x y => x.frame.cls ≤ y.frame.cls) ∧
      State.insertTx (tx (.withdraw [])) [tx (.enrol anEnrol), tx (.report 2 aReport), aNotice] =
        [tx (.enrol anEnrol), tx (.withdraw []), tx (.report 2 aReport), aNotice] := by decide +kernel

/-- An ENROL, a slot's report and a Line Queue entry that wait, with room and without. -/
theorem test_meets_AnsweredFrameLeavesTheQueue_room :
    (reportingIn 11).link.state ≠ .mute ∧ (reportingIn 11).link.queue.length < 12 ∧ 12 ≤ (reportingIn 12).link.queue.length ∧
      ((reportingIn 11).slots.get .zero).state ≠ .reporting ∧ ((reportingIn 11).slots.get .one).report = some aReport ∧
      ((reportingIn 11).slots.get .one).header = some (head1207 .left 2400 0) ∧ QueueEntry.mark anEntry = none ∧
      QueueEntry.mark { anEntry with mark := some .cleared } = some .cleared ∧ owners.link.enrolWaits = true ∧
      (after (.sendAttemptEnd true false) { sendingFrame 1 with slots := (reportingIn 0).slots }).link.queue =
        [tx (.report 2 aReport)] := by decide +kernel

/-- A detached exchange that awaits its reply. -/
def detached (c : Cache) (fs : List Fetch) : State :=
  { exchanging .awaitReply 1 with
    fetches := fs, cache := c, link := { (exchanging .awaitReply 1).link with exchange := some { exchange 1 with detached := true } } }

theorem test_meets_BadAndDeferReplies_detached :
    (detached (cached 0) []).link.state = .awaitReply ∧
      (detached (cached 0) []).link.exchange = some { exchange 1 with detached := true } ∧ deferReply.payload.length ≤ 528 ∧
      deferReply.src = (exchange 1).target ∧ deferReply.src ≠ 0 ∧ deferReply.dst = up.straps.station ∧ deferReply.status = 1 ∧
      imageReply.status = 0 ∧ readImage imageReply.payload = some anImage ∧ anImage.wellFormed = true ∧ anImage.key = glyph ∧
      (detached up.cache []).cache.validNumber glyph = none ∧ (∀ f ∈ (detached up.cache []).fetches, f.key ≠ glyph) ∧
      (detached (cached 0) []).cache.validNumber glyph ≠ none ∧ (∃ f ∈ (detached up.cache [waiting]).fetches, f.key = glyph) ∧
      ({ deferReply with status := 3 } : RawReply).status = 3 ∧
      ((after (.reply imageReply (checkWord (replyBits imageReply))) (detached up.cache [])).cache.validNumber glyph = some 0) := by
  decide +kernel

def cacheEntry (st : CacheState) (pins : Nat) : CacheEntry :=
  { key := glyph, record := anImage, state := st, pins := pins, origin := .remotePrimary }
def held (st : CacheState) (pins : Nat) : Cache := { entries := [(0, cacheEntry st pins)], recency := [] }
def fullCache : Cache :=
  { entries := (List.range 256).map fun n => (n, cacheEntry .valid 0), recency := 7 :: (List.range 256).filter fun n => n != 7 }

/-- A cache with room, one that is full, and an entry to pin. -/
theorem test_meets_ImageReplyEndsTheFetch_cache :
    (held .valid 0).entries.length < 256 ∧ (held .valid 0).entries.Pairwise (fun a b => a.1 < b.1) ∧
      ((held .valid 0).insert anImage .localStore).1 = 1 ∧ 256 ≤ fullCache.entries.length ∧ fullCache.recency.head? = some 7 ∧
      (fullCache.insert anImage .localStore).1 = 7 ∧ (held .valid 0).entry 0 = some (cacheEntry .valid 0) := by decide +kernel

/-- The ends of an unpin: above 1, and at 1 VALID and STALE. -/
theorem test_meets_InvalidateLeavesNoValidEntry_unpin :
    (held .valid 2).entry 0 = some (cacheEntry .valid 2) ∧ (held .valid 1).entry 0 = some (cacheEntry .valid 1) ∧
      (held .stale 1).entry 0 = some (cacheEntry .stale 1) ∧ (held .valid 1).entry 1 = none ∧ 1 < (cacheEntry .valid 2).pins ∧
      (cacheEntry .stale 1).pins ≤ 1 ∧ (cacheEntry .stale 1).state = .stale := by decide

theorem test_meets_AnnounceReplacesTheOverlapped_order :
    let low : DirEntry := { entry 3 with first := { face := 2, index := 0 }, last := { face := 2, index := 9 } }
    [low].Pairwise (fun x y => x.first.ordinal < y.first.ordinal) ∧ (∀ x ∈ [low], x.first.ordinal ≠ (entry 3).first.ordinal) ∧
      Directory.insertEntry low [entry 3] = [low, entry 3] := by decide +kernel

/-- The threshold is reached while sparing is on: the spare decision begins a copy. -/
theorem test_meets_ErrorBuckets_sparing :
    (bank0 23 .good).patrol.banks[0]? = some { count := 23, state := .good } ∧ (bank0 23 .good).patrol.threshold ≤ 23 + 1 ∧
      (bank0 23 .good).patrol.sparing = true ∧ ((bank0 23 .good).reportError 0 true).patrol.copySource = some 0 := by decide +kernel

/-- The last cell of a copy with a record in it, and a bank that waits AT-THRESHOLD. -/
def lastCell (st : RecordState) : State :=
  { copying 1023 with
    store := { (copying 1023).store with index := [{ record st with firstCell := 1023 }] }
    patrol := { (copying 1023).patrol with
      banks := (copying 1023).patrol.banks.set 1 { count := 24, state := .atThreshold } } }

theorem test_meets_CopyStepsCopyTheBank_last :
    (lastCell .valid).patrol.copyProgress = some 1023 ∧ (lastCell .valid).patrol.copyStepWaits = true ∧
      cellHolder (lastCell .valid).store.index 0 1023 = some { record .valid with firstCell := 1023 } ∧
      readCond (lastCell .valid).store.memory ((lastCell .valid).store.address 0 1023) .corrected = .corrected ∧
      readCond (lastCell .valid).store.memory ((lastCell .valid).store.address 0 1023) .uncorrectable = .uncorrectable ∧
      (lastCell .valid).patrol.bankState 0 ≠ .good ∧ (lastCell .valid).patrol.bankState 1 = .atThreshold ∧
      findRecord glyph (lastCell .poisoned).store.index = some { record .poisoned with firstCell := 1023 } ∧
      (lastCell .valid).link.state ≠ .mute ∧ (after (.copyStep .corrected) (lastCell .valid)).patrol.bankState 1 = .withdrawn := by
  decide +kernel

/-- The move of the patrol from cell 1023, with bank 1 WITHDRAWN, with the last bank so, and from a bank that has become so. -/
theorem test_meets_PatrolStepWalksTheCells_moves :
    let p := (stepping 0 1023).patrol
    let q := { p with banks := p.banks.set 1 { count := 0, state := .withdrawn } }
    let r := { p with posBank := 2, banks := p.banks.set 3 { count := 0, state := .withdrawn } }
    let w := { p with posCell := 8, banks := p.banks.set 0 { count := 0, state := .withdrawn } }
    (q.posCell = 1023 ∧ q.posBank < 2 ∧ 2 < q.banks.length ∧ q.bankState 2 ≠ .withdrawn ∧
        (∀ c, c < 2 → q.posBank < c → q.bankState c = .withdrawn) ∧ q.afterStep.posBank = 2) ∧
      (0 ≤ r.posBank ∧ r.bankState 0 ≠ .withdrawn ∧ (∀ c, c < r.banks.length → r.posBank < c → r.bankState c = .withdrawn) ∧
        r.afterStep.passes = 1) ∧
      (w.posCell < 1023 ∧ w.bankState w.posBank = .withdrawn ∧ w.afterStep.posBank = 1 ∧ w.afterStep.posCell = 0) := by decide +kernel

/-- Slot 0 in a pass, and slot 1 held back by `h` passes of it. -/
def walking (p : Pass) (ps : List Placement) (h : Nat) : State :=
  { up with slots := { slot0 := { slotIn .resolving with list := ps, pass := some p }
                       slot1 := { slotIn .awaiting with list := [unresolved], held := h }, age := some .zero } }
def running (pos : Nat) (again : Bool) : Pass := { pos := pos, again := again, wait := .running }

/-- Slots at the end of a pass: fit, overset, not done, held back by no pass, one and two; and a walk at its ends and at a placement. -/
theorem test_meets_MeasureArithmetic_passes :
    let w := walking (running 0 false) [unresolved, cluster .space 50]
    (match measureLine (head1207 .left 2400 0) [cluster .space 50] with
      | .fits _ _ _ => true
      | .overset _ _ => false) = true ∧
      (match measureLine (head1207 .left 40 0) [cluster .space 50] with
      | .fits _ _ _ => true
      | .overset _ _ => false) = false ∧
      [cluster .space 50].all Placement.done = true ∧ [unresolved].all Placement.done = false ∧
      (((w 0).slots.get SlotId.zero.other).held = 0 ∧ ((w 1).slots.get SlotId.zero.other).held = 1 ∧
        ((w 2).slots.get SlotId.zero.other).held = 0 + 2) ∧
      (running 0 true).wait = .running ∧ readingPass.wait ≠ .running ∧
      ((slotIn .awaiting).list.all Placement.done = true ∧ (slotIn .ready).state ≠ .resolving) ∧
      ([unresolved, cluster .space 50][0]? = some unresolved ∧ [unresolved, cluster .space 50][2]? = none) ∧
      ((((w 0).visit .zero 0 glyph).slots.get .zero).pass.map Pass.wait) = some .running ∧
      ((({ w 0 with store := (stored .valid).store } : State).visit .zero 0 glyph).slots.get .zero).pass.map Pass.wait = some .reading ∧
      (cluster .space 50).state ≠ .unresolved := by decide +kernel

/-- The order of a squeeze and of a justification: two gaps take the second unit, and one SPACE takes the odd one. -/
theorem test_meets_MeasureArithmetic_order :
    gapReductions 3 5 (List.replicate 4 (cluster .base 102)) = [2, 2, 1] ∧
      (gapLimits 3 (List.replicate 4 (cluster .base 102))).mapIdx (fun k l => min l (if k < 2 then 1 + 1 else 1)) = [2, 2, 1] ∧
      justifyAdditions 1 1 [cluster .space 5, cluster .base 9, cluster .space 5] = [2, 0, 1] := by decide +kernel

/-- In PROOF-WAIT with its slot READY and not, in RUNNING with a READY head of the slots, and a line to transfer. -/
theorem test_meets_RunAndStop_handover :
    (withSlot .ready (inSeq (.proofWait .zero))).seq.state = .proofWait .zero ∧
      ((withSlot .ready (inSeq (.proofWait .zero))).slots.get .zero).state = .ready ∧
      ((withSlot .resolving (inSeq (.proofWait .zero))).slots.get .zero).state ≠ .ready ∧
      (withSlot .ready (inSeq .running)).seq.state = .running ∧ (withSlot .ready (inSeq .running)).headSlot = some .zero ∧
      ((withSlot .ready (inSeq .running)).slots.get .zero).header = some (head1207 .left 2400 0) ∧
      (withSlot .ready (inSeq .running)).seq.proof = false ∧ paged.seq.state ≠ .running ∧ (inSeq .running).headSlot = none ∧
      (∀ i, paged.seq.state ≠ .proofWait i) :=
  ⟨rfl, rfl, by decide, rfl, rfl, rfl, rfl, by decide, rfl, fun i => by cases i <;> decide⟩

/-! ## Lengths, senders, ended lines and MUTE -/

def overlong : List Byte := List.replicate 529 0

theorem test_meets_BadFramesAreObjected_length :
    Listens up ∧ Listens (linked .busyOther) ∧ (List.replicate 528 (0 : Byte)).length ≤ 528 ∧ 528 < overlong.length := by
  unfold Listens; decide +kernel

/-- R187: a frame of 529 bytes is a form disturbance to a station that follows it, whoever it is addressed to. -/
theorem test_overlong_frames :
    ∀ c ∈ [Instr.checkWordWrong { okFrame with payload := overlong } 0, .checkWordWrong { okFrame with dst := 9, payload := overlong } 0,
        .frameOutOfForm { okFrame with payload := overlong }, .lineReport okHdr overlong, .notice okHdr overlong],
      c.wf = true ∧ (after c up).link.state = .recovery ∧ (after c up).link.free = false ∧ (after c up).out = [] := by decide +kernel

/-- A frame that is refused for a field, one that calls for the spare decision and one that does not, a bank in each state, and a walk
that resumes on a WITHDRAWN bank. -/
theorem test_meets_StorePolicyIsTakenWhole_fields :
    up.patrol.applyPolicy { noFields with thaw := some 4 } = none ∧ up.patrol.applyPolicy okPolicy ≠ none ∧ okPolicy.threshold ≠ none ∧
      up.patrol.applyPolicy { noFields with drip := some 15, patrol := some 0 } ≠ none ∧
      policyBad { noFields with patrol := some 0 } = false ∧
      (unspared 3 .good).patrol.sparing = false ∧ noFields.sparing ≠ some 0 ∧ (copying 9).patrol.bankState 0 = .copying ∧
      (bank0 24 .withdrawn).patrol.bankState 0 = .withdrawn ∧ (copying 9).patrol.sparing = true ∧
      (copying 9).patrol.copySource = some 0 ∧ 0 < (copying 9).patrol.banks.length ∧ (bank0 24 .spared).patrol.bankState 0 = .spared ∧
      (bank0 24 .withdrawn).patrol.posBank = 0 ∧ (bank0 24 .withdrawn).patrol.bankState 1 ≠ .withdrawn ∧
      ArrivesHere fromAuth (copying 9) ∧ FromAuthority fromAuth (copying 9) ∧ ArrivesHere fromAuth (bank0 24 .withdrawn) := by
  unfold ArrivesHere Listens FromAuthority; decide +kernel

/-- R128: sparing off with THAW of the bank being copied, THAW and FORCE of one bank, and a refused THAW beside a good field. -/
theorem test_policy_fields_in_order :
    (after (.storePolicy fromAuth { noFields with sparing := some 0, thaw := some 0 }) (copying 9)).patrol.banks.head? =
        some { count := 0, state := .good } ∧
      (after (.storePolicy fromAuth { noFields with thaw := some 0, force := some 0 }) (unspared 3 .good)).patrol.banks.head? =
        some { count := 0, state := .atThreshold } ∧
      (after (.storePolicy fromAuth { noFields with drip := some 9, thaw := some 0 }) (copying 9)).patrol = (copying 9).patrol ∧
      (after (.storePolicy fromAuth { noFields with drip := some 9, thaw := some 0 }) (copying 9)).out = [.answer false true] := by
  decide +kernel

/-- The owner, an authority, a station that is neither, with an owner and with none, and a board without authorities; a command that its
own rule refuses and one that it takes. -/
theorem test_meets_ControlTakesItsListInOrder_senders :
    State.maySend 2 .run paged = true ∧ State.maySend 1 .run paged = true ∧ State.maySend 3 (.pageBegin 1 1 0) paged = true ∧
      State.maySend 3 .run { up with straps := { up.straps with authLimit := 0 } } = true ∧
      ArrivesHere { src := 3, dst := 6 } paged ∧ ¬FromAuthority { src := 3, dst := 6 } paged ∧ paged.seq.owner ≠ some 3 ∧
      paged.seq.owner ≠ none ∧ ArrivesHere { src := 3, dst := 6 } up ∧ up.seq.owner = none ∧ up.straps.authLimit ≠ 0 ∧
      paged.straps.head = true ∧ commandInRange .run = true ∧ commandBad .run = false ∧ paged.takeCommand 2 .proceed = none ∧
      paged.takeCommand 2 .pageEnd ≠ none := by
  unfold ArrivesHere Listens FromAuthority; decide +kernel

/-- R146: the ends of the ranges. -/
theorem test_command_ranges :
    commandInRange (.pageBegin 12 255 0) = true ∧ commandInRange (.pageBegin 13 255 0) = false ∧ commandInRange (.pageBegin 1 1 0) = true ∧
      commandInRange (.pageBegin 0 1 0) = false ∧ commandInRange (.pageBegin 1 0 0) = false ∧ commandInRange (.pageBegin 1 256 0) = false ∧
      commandInRange (.alarmSet { okAlarm with line := 255, column := 15, page := 31 }) = true ∧
      commandInRange (.alarmSet { okAlarm with line := 256 }) = false ∧ commandInRange (.alarmSet { okAlarm with column := 16 }) = false ∧
      commandInRange (.alarmSet { okAlarm with page := 32 }) = false := by decide

/-- Two lines in assembly, the older in slot 1, three entries of which one is marked, and `n` frames in the transmit queue. -/
def ending (n : Nat) : State :=
  { paged with
    slots := { slot0 := slotIn .ready, slot1 := slotIn .awaiting, age := some .one }
    lines := [anEntry, { anEntry with mark := some .closed }, anEntry]
    link := { paged.link with queue := List.replicate n aNotice } }
def muted (s : State) : State := { s with link := { s.link with state := .mute } }
def outcomes (s : State) : List LineOutcome :=
  s.link.queue.filterMap fun e => match e.frame with
    | .report _ r => some r.outcome
    | _ => none

theorem test_meets_StationClearEndsTheWork_lines :
    Commanded fromDesk (ending 11) ∧ SlotsHeaded (ending 11) ∧ (∀ i, InAssembly ((ending 11).slots.get i)) ∧
      (∀ i, ((ending 11).slots.get i).header = some (head1207 .left 2400 0)) ∧ (ending 11).slots.older = .one ∧
      (ending 11).link.queue.length + 0 < 12 ∧ 12 ≤ (ending 11).link.queue.length + 1 :=
  ⟨by unfold Commanded ArrivesHere Listens FromAuthority; decide +kernel, fun i => by cases i <;> decide,
    fun i => by cases i <;> (unfold InAssembly; decide), fun i => by cases i <;> rfl, rfl, by decide, by decide⟩

/-- R17, R60: with room for three of the four reports, and for the older slot's alone. -/
theorem test_station_clear_reports :
    outcomes (after (.stationClear fromDesk) (ending 9)) = [.cleared, .cleared, .cleared] ∧
      (after (.stationClear fromDesk) (ending 9)).lines.map QueueEntry.mark = [some .closed, some .cleared] ∧
      (after (.stationClear fromDesk) (ending 11)).slots.slot1 = .vacant ∧
      (after (.stationClear fromDesk) (ending 11)).slots.slot0.state = .reporting ∧
      (after (.stationClear fromDesk) (ending 11)).slots.slot0.report.map LineReport.outcome = some .cleared ∧
      (after (.stationClear fromDesk) (ending 11)).lines.map QueueEntry.mark = [some .cleared, some .closed, some .cleared] := by
  decide +kernel

/-- An OPEN page, a close that PAGE-END has begun, and MUTE. -/
theorem test_meets_CloseTimerExpiryAndEnd_lines :
    (timed 1 (ending 9)).seq.page = .opened ∧ (timed 1 (ending 9)).seq.closing = none ∧ (timed 1 (ending 9)).seq.state = .stopped ∧
      SlotsHeaded (timed 1 (ending 9)) ∧ (timed 1 (ending 9)).link.state ≠ .mute ∧ (muted (timed 1 (ending 9))).link.state = .mute ∧
      (after (.pageEnd fromDesk) (timed 1 (ending 9))).seq.closing = some .pageEnd ∧
      (after (.pageEnd fromDesk) (timed 1 (ending 9))).seq.page = .closed ∧
      (after (.pageEnd fromDesk) (timed 1 (ending 9))).seq.closeTimer = 1 :=
  ⟨rfl, rfl, rfl, fun i => by cases i <;> decide, by decide, rfl, by decide +kernel, by decide +kernel, by decide +kernel⟩

/-- R17, R59, R180: the reports of a close expiry, and those that MUTE gives up. -/
theorem test_close_expiry_reports :
    outcomes (after .closeExpiry (timed 1 (ending 8))) = [.closed, .closed, .closed, .closed] ∧
      (after .closeExpiry (timed 1 (ending 8))).seq.closing = some .expiry ∧
      (after .closeExpiry (timed 1 (ending 8))).lines.map QueueEntry.mark = [some .closed] ∧
      (after .closeExpiry (timed 1 (ending 12))).slots.slot1.report.map LineReport.outcome = some .closed ∧
      (after .closeExpiry (muted (timed 1 (ending 8)))).link.queue = (ending 8).link.queue ∧
      (after .closeExpiry (muted (timed 1 (ending 8)))).slots.slot0 = .vacant ∧
      (after .closeExpiry (muted (timed 1 (ending 8)))).seq.acc.reportLost = true := by decide +kernel

theorem test_meets_OnlyAResetLeavesMute_offers :
    bringsFrame (.run fromDesk) = true ∧ ((muted (reportingIn 0)).slots.get .one).state = .reporting ∧
      ((muted (reportingIn 0)).slots.get .one).report = some aReport ∧
      ((muted (reportingIn 0)).slots.get .one).header = some (head1207 .left 2400 0) ∧ (muted (reportingIn 0)).link.state = .mute ∧
      (fun e : QueueEntry => if e.mark.isSome then none else some ReportMark.closed) anEntry = some .closed := by decide +kernel

/-- R180: a LINE, a FETCH and an overlong frame that reach a MUTE station, and a notice and a report offered in MUTE. -/
theorem test_mute_answers_nothing :
    after (.line fromDesk okLine) (muted paged) = muted paged ∧ after (.fetch okHdr glyph noSlots) (muted up) = muted up ∧
      after (.frameOutOfForm { okFrame with payload := overlong }) (muted up) = muted up ∧
      (after .filmLow (muted up)).seq.acc.noticeLost = true ∧ (after .filmLow (muted up)).link.queue = [] ∧
      ((muted (reportingIn 0)).offerSlot .one).seq.acc.reportLost = true ∧
      ((muted (reportingIn 0)).offerSlot .one).slots.slot1 = .vacant := by decide +kernel

/-! ## Exchanges given up, cells read, and held expiries -/

/-- The fetch of an exchange with so many failed attempts, and a directory that knows its two holders. -/
def failing (l : LinkState) (attempts failed : Nat) : State :=
  { exchanging l attempts with
    fetches := [{ waiting with state := .exchanging, failed := failed }], dir := (knows [entry 3]).dir }
def apart (s : State) : State :=
  { s with link := { s.link with exchange := s.link.exchange.map fun x => { x with detached := true } } }

/-- The alternatives of GivenUp: an entry below its third failed attempt with a target and with none, one at it, and none at all. -/
theorem test_meets_ObjectRetriesAndFetchAnswers_given_up :
    (failing .awaitAnswer 8 1).link.exchange = some (exchange 8) ∧ (exchange 8).detached = false ∧
      (failing .awaitAnswer 8 1).fetches.find? (fun e => e.key == (exchange 8).key) =
        some { waiting with state := .exchanging, failed := 1 } ∧ (1 : Nat) < 2 ∧
      (targetMarked (exchange 8) (failing .awaitAnswer 8 1)).dir.chooseTarget 6 [9] glyph = some (11, .alternate) ∧
      (targetMarked (exchange 8) (exchanging .awaitAnswer 8)).dir.chooseTarget 6 [9] glyph = none ∧
      2 ≤ ({ waiting with failed := 2 } : Fetch).failed ∧ (apart (failing .awaitAnswer 8 1)).link.exchange =
        some { exchange 8 with detached := true } ∧
      (∀ f ∈ ({ exchanging .awaitAnswer 8 with fetches := [] } : State).fetches, f.key ≠ (exchange 8).key) := by decide +kernel

/-- R71, R73: silence, the eighth OBJECT, a disturbance in AWAIT-REPLY and the stall limit are each a failed attempt. -/
theorem test_failed_attempts_of_an_exchange :
    (∀ c ∈ [Instr.sendAttemptEnd false false, .sendAttemptEnd false true],
      (after c (failing .awaitAnswer 8 1)).fetches =
          [{ waiting with target := 11, role := .alternate, tried := [9, 11], failed := 2 }] ∧
        (after c (failing .awaitAnswer 8 2)).fetches = [] ∧
        (after c (apart (failing .awaitAnswer 8 1))).fetches = (failing .awaitAnswer 8 1).fetches) ∧
    (∀ c ∈ [Instr.disturbance, .stallLimit],
      (after c (failing .awaitReply 8 1)).fetches =
          [{ waiting with target := 11, role := .alternate, tried := [9, 11], failed := 2 }] ∧
        (after c (failing .awaitReply 8 2)).fetches = [] ∧
        (after c (apart (failing .awaitReply 8 1))).fetches = (failing .awaitReply 8 1).fetches) := by decide +kernel

theorem test_meets_BadAndDeferReplies_given_up :
    (failing .awaitReply 8 1).link.exchange = some (exchange 8) ∧
      528 < ({ deferReply with payload := overlong } : RawReply).payload.length ∧
      ({ deferReply with src := 0 } : RawReply).src ≠ (exchange 8).target ∧ (failing .awaitReply 8 1).link.tenure = .fetch ∧
      (after (.reply deferReply 0) (failing .awaitReply 8 1)).fetches.map Fetch.failed = [2] ∧
      (after (.reply { deferReply with payload := overlong } 0) (failing .awaitReply 8 1)).link.state = .recovery := by decide +kernel

/-- A record of two cells in a bank that has counted `n` errors. -/
def twoCells (n : Nat) (s : State) : State :=
  { s with
    store := { s.store with
      index := [{ record .valid with cellCount := 2, imageLength := 65 }]
      memory := [(0, .data (List.replicate 64 7)), (1, .data [7])] }
    patrol := (bank0 n .good).patrol }
def twoConds : List CellCond := [.corrected, .uncorrectable]

theorem test_meets_ServeAndHoldLimit_cells :
    findRecord glyph (twoCells 5 (holding [])).store.index = some { record .valid with cellCount := 2, imageLength := 65 } ∧
      (twoCells 5 (holding [])).patrol.bankState 0 ≠ .withdrawn ∧
      (twoCells 5 (holding [])).store.recordConds { record .valid with cellCount := 2, imageLength := 65 } twoConds = twoConds ∧
      .uncorrectable ∈ twoConds ∧ .uncorrectable ∉ [CellCond.corrected, .clean] ∧ 5 + twoConds.count .corrected < 24 ∧
      (twoCells 5 (holding [])).patrol.banks[0]? = some { count := 5, state := .good } := by decide +kernel

/-- R117, R119, R120: a serve of a CORRECTED and an UNCORRECTABLE cell, in time, at the hold limit, and with the count at the threshold. -/
theorem test_serve_poisons_its_record :
    (∀ c ∈ [(Instr.serve twoConds, Reply.damaged), (.holdLimit (some twoConds), .defer)],
      (after c.1 (twoCells 5 (holding []))).link.reply = some c.2 ∧
        (after c.1 (twoCells 5 (holding []))).store.index.map StoreRecord.state = [.poisoned] ∧
        (after c.1 (twoCells 5 (holding []))).patrol.banks.head? = some { count := 6, state := .good } ∧
        (after c.1 (twoCells 5 (holding []))).link.queue = [tx (.notice 0 (.poisoned glyph 0))] ∧
        Output.cell 0 (.data (List.replicate 64 7)) ∈ (after c.1 (twoCells 5 (holding []))).out) ∧
    (after (.serve twoConds) (twoCells 23 (holding []))).patrol.copySource = some 0 := by decide +kernel

theorem test_meets_LocalReadServesItsPlacement_mixed :
    (twoCells 23 (reading .valid)).store.reads = reader true :: [] ∧
      findRecord glyph (twoCells 23 (reading .valid)).store.index = some { record .valid with cellCount := 2, imageLength := 65 } ∧
      (twoCells 23 (reading .valid)).patrol.bankState 0 ≠ .withdrawn ∧
      (twoCells 23 (reading .valid)).store.recordConds { record .valid with cellCount := 2, imageLength := 65 } twoConds = twoConds ∧
      ({ reading .valid with cache := cached 0 } : State).cache.validNumber glyph = some 5 ∧ heldRead.store.reads = reader false :: [] ∧
      findRecord glyph heldRead.store.index = some (record .valid) ∧ heldRead.patrol.bankState 0 ≠ .withdrawn ∧
      (reader false).live = false ∧
      (heldRead.slots.get .zero).pass = some { readingPass with wait := .readHeld } ∧ readingPass.wait ≠ .readHeld := by decide +kernel

/-- R41, R80: a read beside a VALID entry makes no other; with both kinds of error the record is POISONED and the CORRECTED cell counted,
here up to the threshold; and a slot whose read was held back requests it when a read of its gone line ends. -/
theorem test_local_read_of_two_cells :
    (after (.localRead []) { reading .valid with cache := cached 0 }).cache.entries.map Prod.fst = [5] ∧
      (after (.localRead []) { reading .valid with cache := cached 0 }).slots.slot0.list.map Placement.ref = [some 5] ∧
      (after (.localRead twoConds) (twoCells 23 (reading .valid))).store.index.map StoreRecord.state = [.poisoned] ∧
      (after (.localRead twoConds) (twoCells 23 (reading .valid))).patrol.copySource = some 0 ∧
      (after (.localRead twoConds) (twoCells 23 (reading .valid))).slots.slot0.list.map Placement.state = [.substituted] ∧
      (after (.localRead []) heldRead).store.reads = [reader true] := by decide +kernel

def expired (s : State) : State := { s with seq := { s.seq with expiryHeld := true } }
/-- A line exposing in slot 0, a READY line in slot 1. -/
def nextReady : State := { exposing with slots := { exposing.slots with slot1 := slotIn .ready } }

theorem test_meets_ExposedAdvancesTheGalley_settled :
    nextReady.head = .line ∧ nextReady.seq.state = .exposing ∧ (nextReady.slots.get .zero).state = .exposing ∧
      (nextReady.slots.get SlotId.zero.other).state ≠ .exposing ∧
      GalleyAdvances nextReady.seq { page := 0, column := 0, line := 1 } false ∧
      GalleyAdvances { nextReady.seq with galley := { page := 0, column := 0, line := 2 } } { page := 0, column := 1, line := 0 } false ∧
      GalleyAdvances { nextReady.seq with galley := { page := 65535, column := 1, line := 2 } }
        { page := 0, column := 0, line := 0 } true ∧
      alarmMatches (alarmed true).seq.alarm { page := 0, column := 0, line := 1 } = true ∧ (expired nextReady).seq.expiryHeld = true ∧
      SlotsHeaded (expired nextReady) := by
  unfold GalleyAdvances
  exact ⟨rfl, rfl, rfl, by decide, by decide, by decide, by decide, by decide, rfl, fun i => by cases i <;> decide⟩

/-- R150, R158: after EXPOSED the READY line goes to the head, unless an expiry was held, which closes the page and ends that line. -/
theorem test_exposed_settles :
    (after .exposed nextReady).seq.state = .exposing ∧ (after .exposed nextReady).slots.slot1.state = .exposing ∧
      (after .exposed nextReady).head = .line ∧ (after .exposed (expired nextReady)).seq.page = .closed ∧
      (after .exposed (expired nextReady)).seq.closing = some .expiry ∧ (after .exposed (expired nextReady)).seq.state = .running ∧
      (after .exposed (expired nextReady)).head = .none ∧ (after .exposed (expired nextReady)).seq.expiryHeld = false ∧
      outcomes (after .exposed (expired nextReady)) = [.set, .closed] := by decide +kernel

def cutReady (k : CutKind) : State := withSlot .ready (cutting k)
def closingCut : State := { cutting .close with seq := { (cutting .close).seq with page := .closed, closing := some .pageEnd } }

theorem test_meets_CutDoneMakesTheCut_settled :
    (cutReady .commanded).head = .cut ∧ (cutReady .commanded).seq.state = .cutting ∧ (cutReady .commanded).seq.expiryHeld = false ∧
      (cutReady .commanded).seq.cutRecord = some { kind := .commanded, renumbers := true, runs := true } ∧
      (expired (cutReady .commanded)).seq.expiryHeld = true ∧ SlotsHeaded (expired (cutReady .commanded)) ∧
      closingCut.seq.cutRecord = some { kind := .close, renumbers := true, runs := true } ∧ closingCut.seq.closing = some .pageEnd ∧
      closingCut.head = .cut ∧ SlotsRest closingCut :=
  ⟨rfl, rfl, rfl, rfl, rfl, fun i => by cases i <;> decide, rfl, rfl, rfl,
    fun i => by cases i <;> decide, fun i => by cases i <;> decide⟩

/-- R154, R158: the READY line after a CUT-DONE, and a held expiry in its place. -/
theorem test_cut_done_settles :
    (after .cutDone (cutReady .commanded)).seq.state = .exposing ∧ (after .cutDone (cutReady .commanded)).slots.slot0.state = .exposing ∧
      (after .cutDone (expired (cutReady .commanded))).seq.page = .closed ∧
      (after .cutDone (expired (cutReady .commanded))).seq.state = .running ∧
      (after .cutDone (expired (cutReady .commanded))).seq.closing = some .expiry ∧
      (after .cutDone closingCut).seq.closing = none ∧ (after .cutDone closingCut).seq.state = .stopped := by decide +kernel

def closingFault (s : State) : State := { s with seq := { s.seq with page := .closed, closing := some .expiry } }

theorem test_meets_FilmAndHeadFaults_closing :
    closingCut.seq.state ≠ .fault ∧ (∀ i, (closingCut.slots.get i).state ≠ .exposing) ∧
      closingCut.seq.cutRecord = some { kind := .close, renumbers := true, runs := true } ∧
      (∀ r, (closingFault exposing).seq.cutRecord = some r → r.kind ≠ .close) ∧ (closingFault exposing).seq.expiryHeld = false ∧
      (closingFault exposing).seq.closing = some .expiry ∧ NothingToDrain (closingFault exposing) ∧
      ((closingFault exposing).slots.get .zero).state = .exposing ∧ ((closingFault exposing).slots.get .one).state ≠ .exposing ∧
      ((closingFault exposing).slots.get .zero).header = some (head1207 .left 2400 0) ∧ ¬NothingToDrain (lined (closingFault exposing)) ∧
      (expired exposing).seq.expiryHeld = true ∧ SlotsHeaded (expired exposing) ∧
      (∀ r, (expired (cutting .alarm)).seq.cutRecord = some r → r.kind ≠ .close) ∧ SlotsHeaded (expired (cutting .alarm)) ∧
      (∀ i, ((expired (cutting .alarm)).slots.get i).state ≠ .exposing) :=
  ⟨by decide, fun i => by cases i <;> decide, rfl, fun r h => (by cases h), rfl, rfl,
    ⟨by decide, fun i => by cases i <;> (unfold InAssembly; decide)⟩, rfl, by decide, rfl, fun h => h.1 anEntry (List.Mem.head _) rfl, rfl,
    fun i => by cases i <;> decide, fun r h => (by cases h; decide), fun i => by cases i <;> decide, fun i => by cases i <;> decide⟩

def notices (s : State) : List Notice :=
  s.link.queue.filterMap fun e => match e.frame with
    | .notice _ n => some n
    | _ => none
def isPageEnd : Notice → Bool
  | .pageEnd _ _ _ => true
  | _ => false

/-- R158, R160, R161: HEAD-FAULT in a CLOSE cut, in a close with nothing left to drain and with a line left, and over a held expiry. -/
theorem test_head_fault_ends_a_close :
    ∀ c ∈ [Instr.filmOut, .headFault],
      (notices (after c closingCut)).map isPageEnd = [true, false] ∧ (after c closingCut).seq.closing = none ∧
        (after c closingCut).seq.galley = closingCut.seq.galley ∧ (after c closingCut).seq.state = .fault ∧
        (notices (after c (closingFault exposing))).map isPageEnd = [false, true] ∧
        (after c (closingFault exposing)).seq.closing = none ∧
        (after c (lined (closingFault exposing))).seq.closing = some .expiry ∧
        (notices (after c (lined (closingFault exposing)))).map isPageEnd = [false] ∧
        (after c (expired exposing)).seq.page = .closed ∧ (after c (expired exposing)).seq.closing = none ∧
        (after c (expired exposing)).seq.state = .fault ∧ (notices (after c (expired exposing))).map isPageEnd = [false, true] := by
  decide +kernel

/-- R160: in FAULT the close of a page completes without a cut. -/
theorem test_meets_CloseTimerExpiryAndEnd_fault :
    (closingFault (inSeq .fault)).seq.state = .fault ∧ (closingFault (inSeq .fault)).seq.closing = some .expiry ∧
      (∀ e ∈ (closingFault (inSeq .fault)).lines, e.mark ≠ none) ∧
      (notices (after .closeComplete (closingFault (inSeq .fault)))).map isPageEnd = [true] ∧
      (after .closeComplete (closingFault (inSeq .fault))).head ≠ .cut := by decide +kernel

end Sys2Proof.Tests
end

section
/-! SUPPORT. Pieces of a script table: when CLASS-BLOCK and LIGATURE take a piece and what they write (R22, R23), and what a piece that
arrives from an authority does to the station (R25, R171, R172). -/

namespace Sys2Proof.Machine

namespace ScriptTable

theorem codeEntryOk_iff (e : CodeEntry) :
    codeEntryOk e = true ↔ e.isolated ≤ 4095 ∧ e.final ≤ 4095 ∧ e.initial ≤ 4095 ∧ e.medial ≤ 4095 := by
  simp [codeEntryOk, and_assoc]

theorem ligEntryOk_iff (e : LigEntry) : ligEntryOk e = true ↔ e.first ≤ 4095 ∧ e.second ≤ 4095 ∧ e.ligature ≤ 4095 := by
  simp [ligEntryOk, and_assoc]

/-- R22: all that lets a table take a class piece, and the table that has taken it. -/
theorem classBlock_eq_some_iff {first : Nat} {es : List CodeEntry} {t u : ScriptTable} :
    classBlock first es t = some u ↔
      ∃ m, t.state = .loading ∧ t.nextClass = some m ∧ 1 ≤ es.length ∧ es.length ≤ 64 ∧ first ≤ m ∧
        first + es.length ≤ t.codeCount ∧
        (∀ e ∈ es, e.isolated ≤ 4095 ∧ e.final ≤ 4095 ∧ e.initial ≤ 4095 ∧ e.medial ≤ 4095) ∧
        { t with entries := write first es t.entries, nextClass := some (max m (first + es.length)) } = u := by
  unfold classBlock
  split
  case h_1 m hstate hnext =>
    simp only [hstate, hnext, Option.ite_none_right_eq_some, Option.some.injEq, Bool.and_eq_true, decide_eq_true_eq,
      List.all_eq_true, codeEntryOk_iff, and_assoc, true_and, exists_eq_left']
  case h_2 hother =>
    simp only [reduceCtorEq, false_iff]
    rintro ⟨m, hstate, hnext, -⟩
    exact hother m hstate hnext

/-- R23: all that lets a table take a ligature piece, and the table that has taken it. -/
theorem ligature_eq_some_iff {first : Nat} {es : List LigEntry} {t u : ScriptTable} :
    ligature first es t = some u ↔
      ∃ m, t.state = .loading ∧ t.nextLig = some m ∧ 1 ≤ es.length ∧ es.length ≤ 64 ∧ t.nextClass = some t.codeCount ∧
        first ≤ m ∧ first + es.length ≤ t.ligCount ∧
        (∀ e ∈ es, e.first ≤ 4095 ∧ e.second ≤ 4095 ∧ e.ligature ≤ 4095) ∧
        { t with ligatures := write first es t.ligatures, nextLig := some (max m (first + es.length)) } = u := by
  unfold ligature
  split
  case h_1 m hstate hnext =>
    simp only [hstate, hnext, Option.ite_none_right_eq_some, Option.some.injEq, Bool.and_eq_true, decide_eq_true_eq,
      beq_iff_eq, List.all_eq_true, ligEntryOk_iff, and_assoc, true_and, exists_eq_left']
  case h_2 hother =>
    simp only [reduceCtorEq, false_iff]
    rintro ⟨m, hstate, hnext, -⟩
    exact hother m hstate hnext

theorem classBlock_refused {first : Nat} {es : List CodeEntry} {t : ScriptTable}
    (hbad : t.state ≠ .loading ∨ t.codeCount < first + es.length ∨ es = [] ∨ 64 < es.length ∨
      (∃ m, t.nextClass = some m ∧ m < first) ∨
      ∃ e ∈ es, 4095 < e.isolated ∨ 4095 < e.final ∨ 4095 < e.initial ∨ 4095 < e.medial) :
    classBlock first es t = none := by
  refine Option.eq_none_iff_forall_ne_some.2 fun u hu => ?_
  obtain ⟨m, hstate, hnext, hpos, hmax, hgap, hcount, hentries, -⟩ := classBlock_eq_some_iff.1 hu
  rcases hbad with hnot | hover | rfl | hlong | ⟨k, hk, hskip⟩ | ⟨e, he, hwide⟩
  · exact hnot hstate
  · omega
  · simp at hpos
  · omega
  · obtain rfl : m = k := Option.some.inj (hnext.symm.trans hk)
    omega
  · have := hentries e he
    omega

theorem ligature_refused {first : Nat} {es : List LigEntry} {t : ScriptTable}
    (hbad : t.state ≠ .loading ∨ t.nextClass ≠ some t.codeCount ∨ t.ligCount < first + es.length ∨ es = [] ∨
      64 < es.length ∨ (∃ m, t.nextLig = some m ∧ m < first) ∨
      ∃ e ∈ es, 4095 < e.first ∨ 4095 < e.second ∨ 4095 < e.ligature) :
    ligature first es t = none := by
  refine Option.eq_none_iff_forall_ne_some.2 fun u hu => ?_
  obtain ⟨m, hstate, hnext, hpos, hmax, hclasses, hgap, hcount, hentries, -⟩ := ligature_eq_some_iff.1 hu
  rcases hbad with hnot | hearly | hover | rfl | hlong | ⟨k, hk, hskip⟩ | ⟨e, he, hwide⟩
  · exact hnot hstate
  · exact hearly hclasses
  · omega
  · simp at hpos
  · omega
  · obtain rfl : m = k := Option.some.inj (hnext.symm.trans hk)
    omega
  · have := hentries e he
    omega

end ScriptTable

namespace State

theorem table_of_getElem? {n : Nat} {s : State} {t : ScriptTable} (ht : s.tables[n]? = some t) : s.table n = t := by
  simp [table, ht]

@[simp] theorem tables_arrived (h : Hdr) (s : State) : (arrived h s).tables = s.tables := rfl

section
variable {h : Hdr} {n : Nat} {s : State} {t : ScriptTable} {f : ScriptTable → Option ScriptTable}

/-- A piece from an authority that its table takes is written there and answered with ACK. -/
theorem receive_piece_taken {u : ScriptTable} (ha : Arrives h s) (hauth : FromAuthority h s) (hn : n < 16)
    (ht : s.tables[n]? = some t) (hf : f t = some u) :
    s.receive h false true (takePiece n f) = answers true { arrived h s with tables := s.tables.set n u } := by
  have htable : (arrived h s).table n = t := table_of_getElem? (by rw [tables_arrived, ht])
  have hpiece : takePiece n f (arrived h s) = ((arrived h s).setTables (s.tables.set n u), true) := by
    simp [takePiece, Config.scriptTables, hn, htable, hf]
  rw [receive_arrives ha rfl (fun _ => hauth), hpiece]
  rfl

/-- A piece from an authority that its table refuses changes nothing and is answered with OBJECT. -/
theorem receive_piece_refused (ha : Arrives h s) (hauth : FromAuthority h s) (hn : n < 16)
    (ht : s.tables[n]? = some t) (hf : f t = none) :
    s.receive h false true (takePiece n f) = answers false (arrived h s) := by
  have htable : (arrived h s).table n = t := table_of_getElem? (by rw [tables_arrived, ht])
  have hpiece : takePiece n f (arrived h s) = (arrived h s, false) := by
    simp [takePiece, Config.scriptTables, hn, htable, hf]
  rw [receive_arrives ha rfl (fun _ => hauth), hpiece]

end

end State

theorem exec_classBlock_eq (h : Hdr) (n first : Nat) (es : List CodeEntry) (s : State) :
    exec (.classBlock h n first es) s = .next (s.receive h false true (State.takePiece n (ScriptTable.classBlock first es))) := rfl

theorem exec_ligature_eq (h : Hdr) (n first : Nat) (es : List LigEntry) (s : State) :
    exec (.ligature h n first es) s = .next (s.receive h false true (State.takePiece n (ScriptTable.ligature first es))) := rfl

/-- Settles O35: the conditions are those of `classBlock_eq_some_iff` and `ligature_eq_some_iff`, and the refusals their negations. -/
theorem piecesOfATableAreWritten : Obligations.PiecesOfATableAreWritten := by
  refine ⟨fun h n first es s t ha hauth hn ht => ⟨?_, fun hbad => ?_⟩,
    fun h n first es s t ha hauth hn ht => ⟨?_, fun hbad => ?_⟩⟩
  · intro m hstate hnext hpos hmax hgap hcount hentries
    have htaken := ScriptTable.classBlock_eq_some_iff.2 ⟨m, hstate, hnext, hpos, hmax, hgap, hcount, hentries, rfl⟩
    rw [exec_classBlock_eq, State.receive_piece_taken ha hauth hn ht htaken]
    rfl
  · rw [exec_classBlock_eq, State.receive_piece_refused ha hauth hn ht (ScriptTable.classBlock_refused hbad)]
  · intro m hstate hnext hclasses hpos hmax hgap hcount hentries
    have htaken := ScriptTable.ligature_eq_some_iff.2 ⟨m, hstate, hnext, hpos, hmax, hclasses, hgap, hcount, hentries, rfl⟩
    rw [exec_ligature_eq, State.receive_piece_taken ha hauth hn ht htaken]
    rfl
  · rw [exec_ligature_eq, State.receive_piece_refused ha hauth hn ht (ScriptTable.ligature_refused hbad)]

end Sys2Proof.Machine
end

section
/-! SUPPORT. The glyph directory: the way that holds a key (R87), and what a WITHDRAW that arrives does to the entries it overlaps
(R99, R172, R189). -/

namespace Sys2Proof.Machine

/-! ## The way of a key -/

theorem keyRange_covers_iff (r : KeyRange) (k : Key) :
    r.covers k = true ↔ r.first.ordinal ≤ k.ordinal ∧ k.ordinal ≤ r.last.ordinal := by
  simp [KeyRange.covers]

namespace DirEntry

theorem wayNumber_lt {e : DirEntry} (hw : e.ways ≠ []) (k : Key) : e.wayNumber k < e.ways.length :=
  Nat.mod_lt _ (List.length_pos_iff.2 hw)

end DirEntry

namespace Directory

theorem entryOf_singleton {d : Directory} {e : DirEntry} {k : Key} (hd : d.entries = [e]) (hk : e.range.covers k = true) :
    d.entryOf k = some e := by
  simp [entryOf, hd, hk]

theorem wayOf_of_entryOf {d : Directory} {e : DirEntry} {k : Key} (he : d.entryOf k = some e) :
    d.wayOf k = e.ways[e.wayNumber k]? := by
  simp [wayOf, he]

end Directory

/-- Settles O26: a remainder is below a divisor that is not 0, and the one entry that covers the key gives that way. -/
theorem wayOfAKeyIsTheRemainder : Obligations.WayOfAKeyIsTheRemainder := by
  refine fun e k hw => ⟨e.wayNumber_lt hw k, rfl, fun d hd hfirst hlast => ?_⟩
  have hcovers := (keyRange_covers_iff e.range k).2 ⟨hfirst, hlast⟩
  exact Directory.wayOf_of_entryOf (Directory.entryOf_singleton hd hcovers)

/-! ## WITHDRAW -/

namespace State

/-- R99: the count and the order of the ranges that a WITHDRAW may list. -/
theorem withdrawValid_iff (rs : List KeyRange) :
    withdrawValid rs = true ↔ 1 ≤ rs.length ∧ rs.length ≤ 16 ∧ ∀ r ∈ rs, r.first.ordinal ≤ r.last.ordinal := by
  simp [withdrawValid, and_assoc]

theorem takeWithdraw_valid {rs : List KeyRange} (hv : withdrawValid rs = true) (src : Nat) (s : State) :
    takeWithdraw src rs s = (s.mapDir (Directory.strikeRanges rs src), true) :=
  if_pos hv

theorem takeWithdraw_invalid {rs : List KeyRange} (hv : ¬withdrawValid rs = true) (src : Nat) (s : State) :
    takeWithdraw src rs s = (s, false) :=
  if_neg hv

end State

/-- R189: the ranges of a WITHDRAW whose key fields are in form. -/
theorem all_indexOk_iff (rs : List KeyRange) :
    rs.all KeyRange.indexOk = true ↔ ∀ r ∈ rs, r.first.index ≤ 4095 ∧ r.last.index ≤ 4095 := by
  simp [KeyRange.indexOk, Key.indexOk]

/-- An arrived WITHDRAW with key fields in form is the Directory Unit's, from whatever source. -/
theorem exec_withdraw_arrives {h : Hdr} {rs : List KeyRange} {s : State} (ha : Arrives h s)
    (hindex : ∀ r ∈ rs, r.first.index ≤ 4095 ∧ r.last.index ≤ 4095) :
    exec (.withdraw h rs) s =
      .next (answers (State.takeWithdraw h.src rs (arrived h s)).2 (State.takeWithdraw h.src rs (arrived h s)).1) := by
  have hform : (!rs.all KeyRange.indexOk) = false := by rw [(all_indexOk_iff rs).2 hindex]; rfl
  exact congrArg _ (State.receive_plain ha hform (State.takeWithdraw h.src rs))

/-- Settles O24: the Directory Unit takes exactly the lists of `withdrawValid_iff`, and strikes the sender by `strikeRanges`. -/
theorem withdrawStrikesItsSender : Obligations.WithdrawStrikesItsSender := by
  refine fun h rs s ha hindex => ⟨fun hlist => ?_, fun hlist => ?_⟩
  · rw [exec_withdraw_arrives ha hindex, State.takeWithdraw_valid ((State.withdrawValid_iff rs).2 hlist)]
    rfl
  · rw [exec_withdraw_arrives ha hindex, State.takeWithdraw_invalid (mt (State.withdrawValid_iff rs).1 hlist)]

end Sys2Proof.Machine
end

section
/-! SUPPORT. What a command can do, said once: it answers a next state, which the operations that it is made of lead to. A relation that
each of those operations is within (`Carries`) holds from before a command to after it; the invariants of Safety are two such relations. -/

namespace Sys2Proof.Machine

/-- The command answers a next state, and the relation leads there. -/
def LeadsTo (R : State → State → Prop) (s : State) (o : Host.Outcome State Fault Refusal) : Prop := ∃ t, o = .next t ∧ R s t

theorem leadsTo_next {R : State → State → Prop} {s t : State} (h : R s t) : LeadsTo R s (.next t) := ⟨t, rfl, h⟩

/-- An `if` by an equivalent condition and with equal branches, whatever decides either condition. -/
theorem ite_of_iff {α : Sort _} {p q : Prop} [Decidable p] [Decidable q] {a b c d : α} (h : p ↔ q) (ha : a = c) (hb : b = d) :
    (if p then a else b) = if q then c else d := ite_congr (propext h) (fun _ => ha) fun _ => hb

theorem State.countAttempt_length (t : Tenure) (l : Link) : (countAttempt t l).queue.length = l.queue.length := by
  cases t
  case none | fetch => rfl
  case frame =>
    unfold countAttempt
    cases hq : l.queue <;> rfl

/-- A relation that every operation is within of which the commands are made that bring no frame and end no tenure. -/
structure Works (R : State → State → Prop) : Prop where
  trans : ∀ {s t u}, R s t → R t u → R s u
  setOut : ∀ x s, R s (s.setOut x)
  mapFetches : ∀ (g : Fetch → Fetch) s, R s (s.setFetches (s.fetches.map g))
  mapDir : ∀ g s, (g s.dir).entries.length ≤ s.dir.entries.length → R s (s.mapDir g)
  mapPatrol : ∀ g s, R s (s.mapPatrol g)
  ready : ∀ s : State, R s (s.mapSeq fun q => { q with state := .stopped })
  setAcc : ∀ g s, R s (s.setAcc g)
  notify : ∀ d n s, R s (s.notify d n)
  enrolOffered : ∀ s : State, R s (s.mapLink fun l => { l with enrolDue := false }).offerEnrol
  takeWrite : ∀ w rest s, s.store.writes = w :: rest → R s (s.takeWrite w rest)
  takeRead : ∀ q rest cs s, R s (s.takeRead q rest cs)
  copyCell : ∀ b c cond s, R s (s.copyCell b c cond)
  copyEnd : ∀ b c s, R s (s.copyEnd b c)
  patrolCell : ∀ b c cond s, R s (s.patrolCell b c cond)
  slotTakes : ∀ i e s, R s (s.slotTakes i e)
  lineExposed : ∀ s : State, R s s.lineExposed
  cutEnds : ∀ r s, R s (s.cutEnds r)
  faultHead : ∀ o s, R s (s.faultHead o)
  timerFalls : ∀ s : State, R s s.timerFalls
  expireClose : ∀ s : State, R s s.expireClose
  completeClose : ∀ s : State, R s s.completeClose

/-- A relation that every operation of which the commands other than the resets are made is within. -/
structure Carries (R : State → State → Prop) : Prop extends Works R where
  mapLink : ∀ g s, (g s.link).queue.length ≤ s.link.queue.length → R s (s.mapLink g)
  setServe : ∀ x s, R s (s.mapStore fun st => { st with serve := x })
  removeWhere : ∀ p s, R s (s.mapStore fun st => st.removeWhere p)
  enterMute : ∀ s : State, R s s.enterMute
  endTenure : ∀ n a s, R s (s.endTenure n a)
  disturbed : ∀ s : State, R s s.disturbed
  takeOutcome : ∀ x o s, R s (s.takeOutcome x o)
  takeAnnounce : ∀ a s, R s (s.takeAnnounce a).1
  takeInvalidate : ∀ sp s, R s (s.takeInvalidate sp)
  takePolicy : ∀ h f s, R s (s.takePolicy h f).1
  takePiece : ∀ n f s, R s (s.takePiece n f).1
  takeLine : ∀ h l s, R s (s.takeLine h l).1
  takeControl : ∀ h cs s, R s (s.takeControl h cs).1
  takeLoad0 : ∀ h f bs s, R s (s.takeLoad0 h f bs).1
  takeLoad : ∀ h k n c bs s, R s (s.takeLoad h k n c bs).1
  serveKey : ∀ k cs s, R s (State.serveKey k cs s).2

/-- The commands that bring no frame and end no tenure: the store's arbiter, the timers, the head, the Line Queue and the enrolment. -/
def ownWork : Instr → Bool
  | .loadWrite | .localRead _ | .copyStep _ | .patrolStep _ | .patrolInterval | .copyInterval | .deferTimer _ | .lineTake | .exposed
  | .cutDone | .ready | .filmLow | .filmOut | .headFault | .closeExpiry | .closeComplete | .enrolOffer | .enrolWaitExpiry
  | .closeTimerTick => true
  | _ => false

namespace Works

section
variable {R : State → State → Prop} (c : Works R)
include c

theorem refl (s : State) : R s s := c.setOut s.out s
theorem fresh (s : State) : R s s.fresh := c.setOut [] s
theorem emit (o) (s : State) : R s (s.emit o) := c.setOut _ s
theorem after {s t : State} (h : R s.fresh t) : R s t := c.trans (c.fresh s) h

theorem updateFetch (k) (g : Fetch → Fetch) (s : State) : R s (s.updateFetch k g) := c.mapFetches _ s

theorem execEnrolOffer (s : State) : LeadsTo R s (execEnrolOffer s) := by
  refine leadsTo_next (c.after ?_)
  split
  · exact c.enrolOffered _
  · exact c.refl _

theorem execLoadWrite (s : State) : LeadsTo R s (execLoadWrite s) := by
  unfold Machine.execLoadWrite
  dsimp only
  split
  · rename_i hw
    refine leadsTo_next (c.after ?_)
    split
    · exact c.takeWrite _ _ _ hw
    · exact c.refl _
  · exact leadsTo_next (c.fresh s)

theorem execLocalRead (cs) (s : State) : LeadsTo R s (execLocalRead cs s) := by
  unfold Machine.execLocalRead
  dsimp only
  split
  · refine leadsTo_next (c.after ?_)
    split
    · exact c.takeRead _ _ _ _
    · exact c.refl _
  · exact leadsTo_next (c.fresh s)

theorem execCopyStep (cond) (s : State) : LeadsTo R s (execCopyStep cond s) := by
  unfold Machine.execCopyStep
  dsimp only
  split
  · refine leadsTo_next (c.after ?_)
    split
    · exact c.trans (c.copyCell _ _ _ _) (c.copyEnd _ _ _)
    · exact c.refl _
  · exact leadsTo_next (c.fresh s)

theorem execPatrolStep (cond) (s : State) : LeadsTo R s (execPatrolStep cond s) := by
  unfold Machine.execPatrolStep
  dsimp only
  split
  · split
    · exact leadsTo_next (c.after (c.mapPatrol _ _))
    · exact leadsTo_next (c.after (c.trans (c.patrolCell _ _ _ _) (c.mapPatrol _ _)))
  · exact leadsTo_next (c.fresh s)

theorem execLineTake (s : State) : LeadsTo R s (execLineTake s) := by
  unfold Machine.execLineTake
  dsimp only
  split
  · refine leadsTo_next (c.after ?_)
    split
    · exact c.slotTakes _ _ _
    · exact c.refl _
  · exact leadsTo_next (c.fresh s)

theorem execCutDone (s : State) : LeadsTo R s (execCutDone s) := by
  unfold Machine.execCutDone
  dsimp only
  split
  · exact leadsTo_next (c.after (c.cutEnds _ _))
  · exact leadsTo_next (c.fresh s)

/-- A command that does something when a test holds, and nothing but clear the ports' outputs otherwise. -/
theorem when {p : Prop} [Decidable p] {s t : State} (h : R s.fresh t) : LeadsTo R s (.next (if p then t else s.fresh)) := by
  refine leadsTo_next (c.after ?_)
  split
  · exact h
  · exact c.refl _

theorem exec (i : Instr) (s : State) (hi : ownWork i = true) : LeadsTo R s (exec i s) := by
  cases i
  case loadWrite => exact c.execLoadWrite s
  case localRead cs => exact c.execLocalRead cs s
  case copyStep cond => exact c.execCopyStep cond s
  case patrolStep cond => exact c.execPatrolStep cond s
  case patrolInterval => exact c.when (c.mapPatrol _ _)
  case copyInterval => exact c.when (c.mapPatrol _ _)
  case deferTimer k => exact leadsTo_next (c.after (c.updateFetch _ _ _))
  case lineTake => exact c.execLineTake s
  case exposed => exact c.when (c.lineExposed _)
  case cutDone => exact c.execCutDone s
  case ready => exact c.when (c.ready _)
  case filmLow => exact leadsTo_next (c.after (c.trans (c.setAcc _ _) (c.notify _ _ _)))
  case filmOut => exact leadsTo_next (c.after (c.faultHead _ _))
  case headFault => exact leadsTo_next (c.after (c.faultHead _ _))
  case closeExpiry => exact c.when (c.expireClose _)
  case closeComplete => exact c.when (c.completeClose _)
  case enrolOffer => exact c.execEnrolOffer s
  case enrolWaitExpiry => exact c.when (c.mapDir _ _ (Nat.le_refl _))
  case closeTimerTick => exact c.when (c.timerFalls _)
  all_goals cases hi

end

end Works

namespace Carries

section
variable {R : State → State → Prop} (c : Carries R)
include c

theorem heard (n) (s : State) : R s (s.heard n) := by
  unfold State.heard
  split
  · exact c.toWorks.refl s
  · exact c.mapDir _ s (Nat.le_refl _)

theorem tenureOver (s : State) : R s s.tenureOver := c.mapLink _ s (Nat.le_refl _)
theorem tenureOver_heard (n) (s : State) : R s (s.tenureOver.heard n) := c.trans (c.tenureOver s) (c.heard n _)
theorem tenureGoesOn_heard (n) (s : State) : R s (s.tenureGoesOn.heard n) :=
  c.trans (c.mapLink _ s (Nat.le_refl _)) (c.heard n _)

theorem receive {h : Hdr} {bad library : Bool} {owner : State → State × Bool} (ho : ∀ u, R u (owner u).1) (s : State) :
    R s (s.receive h bad library owner) := by
  refine c.toWorks.after ?_
  have arrives := c.tenureOver_heard h.src s.fresh
  unfold State.receive State.answered
  dsimp only
  split
  · split
    · split
      · exact c.trans arrives (c.toWorks.emit _ _)
      · exact c.trans (c.trans arrives (ho _)) (c.toWorks.emit _ _)
    · exact arrives
  · exact c.toWorks.refl _

theorem follow {f : State → State} (hf : ∀ u, R u (f u)) (n : Nat) (s : State) : R s (s.follow n f) := by
  obtain h | h | h := State.follow_cases n f s <;> rw [h]
  · exact c.toWorks.refl s
  · exact c.disturbed s
  · exact hf s

theorem receiveControl (h : Hdr) (cs : List ControlCmd) (s : State) : R s (s.receiveControl h cs) :=
  c.receive (c.takeControl h cs) s

theorem receivePolicy (h : Hdr) (f : PolicyFrame) (s : State) : R s (s.receivePolicy h f) := c.receive (c.takePolicy h f) s

theorem beginExchange (s : State) : R s s.beginExchange := by
  unfold State.beginExchange
  split
  · exact c.toWorks.refl s
  · split
    · exact c.trans (c.toWorks.updateFetch _ _ s) (c.mapLink _ _ (Nat.le_refl _))
    · exact c.toWorks.refl s

theorem contendWith (others t f) (s : State) : R s (s.contendWith others t f) := by
  unfold State.contendWith
  split
  · refine c.trans (c.mapLink _ s ?_) (c.toWorks.emit _ _)
    exact Nat.le_of_eq (State.countAttempt_length t s.link)
  · exact c.mapLink _ s (Nat.le_refl _)

theorem beginReply (r) (s : State) : R s (s.beginReply r) := c.trans (c.mapLink _ s (Nat.le_refl _)) (c.toWorks.emit _ _)

/-! ### Commands whose meaning has several ends -/

theorem takeWithdraw (src rs) (s : State) : R s (s.takeWithdraw src rs).1 := by
  unfold State.takeWithdraw
  split
  · exact c.mapDir _ s (by simp [Directory.strikeRanges])
  · exact c.toWorks.refl s

theorem takeFetch (h k o) (s : State) : R s (s.takeFetch h k o).1 := by
  unfold State.takeFetch
  split
  · exact c.toWorks.refl s
  · split
    · exact c.toWorks.refl s
    · exact c.trans (c.mapLink _ s (Nat.le_refl _)) (c.setServe _ _)

theorem execFetch (h k o) (s : State) : LeadsTo R s (execFetch h k o s) := by
  refine leadsTo_next ?_
  split
  · exact c.toWorks.after (c.tenureGoesOn_heard _ _)
  · exact c.receive (c.takeFetch h k _) s

theorem execEnrol (h st b sp hd n) (s : State) : LeadsTo R s (execEnrol h st b sp hd n s) := by
  unfold Machine.execEnrol
  split
  · exact leadsTo_next (c.toWorks.after (c.enterMute _))
  · exact leadsTo_next (c.receive (fun u => c.toWorks.refl u) s)

theorem execFrameOutOfForm (f) (s : State) : LeadsTo R s (execFrameOutOfForm f s) := by
  refine leadsTo_next (c.toWorks.after (c.follow (fun u => ?_) _ _))
  have h := c.tenureOver_heard f.src u
  split
  · dsimp only
    split
    · exact c.trans h (c.toWorks.emit _ _)
    · exact h
  · exact c.toWorks.refl u

theorem execCheckWordWrong (f w) (s : State) : LeadsTo R s (execCheckWordWrong f w s) := by
  refine leadsTo_next (c.toWorks.after (c.follow (fun u => ?_) _ _))
  split
  · split
    · exact c.trans (c.tenureOver u) (c.toWorks.emit _ _)
    · exact c.tenureOver u
  · exact c.toWorks.refl u

theorem execFrameObserved (f) (s : State) : LeadsTo R s (execFrameObserved f s) := by
  refine leadsTo_next (c.toWorks.after ?_)
  split
  · split
    · split
      · exact c.toWorks.refl _
      · exact c.tenureOver_heard _ _
    · split
      · exact c.toWorks.refl _
      · exact c.tenureGoesOn_heard _ _
    · exact c.tenureOver_heard _ _
  · exact c.toWorks.refl _

theorem execContend (os) (s : State) : LeadsTo R s (execContend os s) := by
  unfold Machine.execContend
  dsimp only
  split
  · split
    · exact leadsTo_next (c.toWorks.after (c.trans (c.beginExchange _) (c.contendWith _ _ _ _)))
    · exact leadsTo_next (c.toWorks.fresh s)
  · exact leadsTo_next (c.toWorks.fresh s)

theorem execSendAttemptEnd (a o) (s : State) : LeadsTo R s (execSendAttemptEnd a o s) := by
  unfold Machine.execSendAttemptEnd
  dsimp only
  have h : LeadsTo R s (if s.fresh.link.tenure = .fetch ∧ a ∧ !o then
      .next (s.fresh.mapLink fun l => { l with state := .awaitReply })
    else .next (s.fresh.endTenure .idle (State.attemptEnd s.fresh.sendsToAll a o))) := by
    split
    · exact leadsTo_next (c.toWorks.after (c.mapLink _ _ (Nat.le_refl _)))
    · exact leadsTo_next (c.toWorks.after (c.endTenure _ _ _))
  split
  · exact h
  · exact h
  · exact leadsTo_next (c.toWorks.fresh s)

theorem execStallLimit (s : State) : LeadsTo R s (execStallLimit s) := by
  unfold Machine.execStallLimit
  dsimp only
  split
  · exact leadsTo_next (c.toWorks.after (c.endTenure _ _ _))
  · exact leadsTo_next (c.toWorks.after (c.disturbed _))

theorem execFreeCondition (s : State) : LeadsTo R s (execFreeCondition s) := by
  unfold Machine.execFreeCondition
  dsimp only
  have h := leadsTo_next (c.toWorks.after
    (c.mapLink (fun l => { l with state := .idle, free := true, listens := true }) s.fresh (Nat.le_refl _)))
  split
  · exact h
  · exact h
  · exact h
  · exact leadsTo_next (c.toWorks.fresh s)

theorem execReplySent (s : State) : LeadsTo R s (execReplySent s) := by
  unfold Machine.execReplySent
  dsimp only
  split
  · exact leadsTo_next (c.toWorks.after (c.mapLink _ _ (Nat.le_refl _)))
  · exact leadsTo_next (c.toWorks.fresh s)

theorem replyRefused (s : State) : R s s.replyRefused := c.trans (c.toWorks.emit _ s) (c.endTenure _ _ _)

theorem observeReply (r w) (s : State) : R s (s.observeReply r w) := by
  unfold State.observeReply
  split
  · exact c.tenureOver s
  · exact c.tenureOver_heard _ s

theorem execReply (r w) (s : State) : LeadsTo R s (execReply r w s) := by
  unfold Machine.execReply
  dsimp only
  split
  · split
    · exact leadsTo_next (c.toWorks.after (c.endTenure _ _ _))
    · split
      · exact leadsTo_next (c.toWorks.after (c.replyRefused _))
      · have h := c.toWorks.after (c.heard r.src s.fresh)
        split
        · exact leadsTo_next (c.trans (c.trans (c.trans h (c.toWorks.emit _ _)) (c.mapLink _ _ (Nat.le_refl _))) (c.takeOutcome _ _ _))
        · exact leadsTo_next (c.trans h (c.replyRefused _))
  · exact leadsTo_next (c.toWorks.after (c.follow (c.observeReply r w) _ _))

theorem execServe (cs) (s : State) : LeadsTo R s (execServe cs s) := by
  unfold Machine.execServe
  dsimp only
  split
  · exact leadsTo_next (c.toWorks.after (c.trans (c.trans (c.setServe _ _) (c.serveKey _ _ _)) (c.beginReply _ _)))
  · exact leadsTo_next (c.toWorks.fresh s)

theorem execHoldLimit (taken) (s : State) : LeadsTo R s (execHoldLimit taken s) := by
  unfold Machine.execHoldLimit
  dsimp only
  split
  · have h := c.toWorks.after (c.trans (c.setServe none s.fresh) (c.beginReply .defer _))
    refine leadsTo_next ?_
    split
    · exact c.trans h (c.serveKey _ _ _)
    · exact h
  · exact leadsTo_next (c.toWorks.fresh s)

/-- Every command but the resets answers a next state, within the relation. -/
theorem exec (i : Instr) (s : State) (hr : isReset i = false) : LeadsTo R s (exec i s) := by
  cases i
  case powerOnReset | stationReset => simp [isReset] at hr
  case fetch h k o => exact c.execFetch h k o s
  case enrol h st b sp hd n => exact c.execEnrol h st b sp hd n s
  case announce h a => exact leadsTo_next (c.receive (c.takeAnnounce a) s)
  case withdraw h rs => exact leadsTo_next (c.receive (c.takeWithdraw h.src rs) s)
  case invalidate h sp => exact leadsTo_next (c.receive (fun u => c.takeInvalidate sp u) s)
  case threshold | dripInterval | sparingEnable | patrolEnable | thaw | force | storePolicy =>
    exact leadsTo_next (c.receivePolicy _ _ s)
  case line h l => exact leadsTo_next (c.receive (c.takeLine h l) s)
  case pageBegin | pageEnd | run | stop | cut | galleyReset | proofOn | proofOff | proceed | alarmSet | clearFlags | stationClear |
      control =>
    exact leadsTo_next (c.receiveControl _ _ s)
  case header | classBlock | ligature | commit => exact leadsTo_next (c.receive (c.takePiece _ _) s)
  case loadPiece0 h f bs => exact leadsTo_next (c.receive (c.takeLoad0 h f bs) s)
  case loadPiece h k n m bs => exact leadsTo_next (c.receive (c.takeLoad h k n m bs) s)
  case discard h sp => exact leadsTo_next (c.receive (fun u => c.removeWhere _ u) s)
  case lineReport h p => exact leadsTo_next (c.toWorks.after (c.follow (c.receive fun u => c.toWorks.refl u) _ _))
  case notice h p => exact leadsTo_next (c.toWorks.after (c.follow (c.receive fun u => c.toWorks.refl u) _ _))
  case frameOutOfForm f => exact c.execFrameOutOfForm f s
  case checkWordWrong f w => exact c.execCheckWordWrong f w s
  case frameObserved f => exact c.execFrameObserved f s
  case contend os => exact c.execContend os s
  case loadWrite | localRead | copyStep | patrolStep | patrolInterval | copyInterval | deferTimer | lineTake | exposed | cutDone | ready |
      filmLow | filmOut | headFault | closeExpiry | closeComplete | enrolOffer | enrolWaitExpiry | closeTimerTick =>
    exact c.toWorks.exec _ s rfl
  case sendAttemptEnd a o => exact c.execSendAttemptEnd a o s
  case disturbance => exact leadsTo_next (c.toWorks.after (c.disturbed _))
  case stallLimit => exact c.execStallLimit s
  case freeCondition => exact c.execFreeCondition s
  case holdLimit taken => exact c.execHoldLimit taken s
  case replySent => exact c.execReplySent s
  case reply r w => exact c.execReply r w s
  case serve cs => exact c.execServe cs s

end

end Carries

/-! ## The invariants of the queues, of the memory and of the galley -/

namespace State

theorem mapFetches_tame (g : Fetch → Fetch) (s : State) : Tame s (s.setFetches (s.fetches.map g)) :=
  (quiet_setFetches _ s (by simp)).tame

theorem insertEntry_length (e : DirEntry) (l : List DirEntry) : (Directory.insertEntry e l).length = l.length + 1 := by
  induction l with
  | nil => rfl
  | cons x xs ih =>
    unfold Directory.insertEntry
    split
    · rfl
    · simp [ih]

theorem insertNew_length (own a struck) (d : Directory) : (d.insertNew own a struck).entries.length = d.entries.length + 1 := by
  unfold Directory.insertNew
  dsimp only
  split <;> simp [insertEntry_length]

theorem filter_not_length {α : Type} (p : α → Bool) (l : List α) : (l.filter fun x => !p x).length = l.length - (l.filter p).length := by
  have h : l.countP p + l.countP (fun x => !p x) = l.length := by simpa using (List.length_eq_countP_add_countP p (l := l)).symm
  simp only [← List.countP_eq_length_filter]
  omega

/-- R94: an ANNOUNCE with ways is applied only where its entry finds room beside those that it does not overlap. -/
theorem applyAnnounce_tame (a : AnnounceFrame) (s : State) (hroom : s.dir.announceNoRoom a = false) : Tame s (s.applyAnnounce a) := by
  have removed := dir_tame (Directory.removeOverlapped a) s (List.length_filter_le _ _)
  unfold applyAnnounce
  dsimp only
  split
  · exact removed
  · rename_i hways
    have hfits : s.dir.entries.length - (s.dir.overlapped a).length + 1 ≤ 64 := by
      simp only [Directory.announceNoRoom, hways, Bool.not_false, Bool.true_and] at hroom
      exact Nat.le_of_not_lt (of_decide_eq_false hroom)
    refine Tame.trans ?_ (offerOutgoing_quiet _).tame
    have hkept : (s.dir.removeOverlapped a).entries.length = s.dir.entries.length - (s.dir.overlapped a).length :=
      filter_not_length (fun e : DirEntry => e.range.overlaps (Directory.announceRange a)) s.dir.entries
    constructor <;> simp [insertNew_length, hkept]
    omega

theorem takeFlag_tame (a : AnnounceFrame) (s : State) : Tame s (s.takeFlag a) := by
  unfold takeFlag
  split
  · exact dir_tame _ s (Nat.le_refl _)
  · exact .refl s

theorem takeAnnounce_tame (a : AnnounceFrame) (s : State) : Tame s (s.takeAnnounce a).1 := by
  unfold takeAnnounce
  split
  · split
    · exact takeFlag_tame a s
    · split
      · exact .refl s
      · rename_i hroom
        exact (applyAnnounce_tame a s (by simpa using hroom)).trans (takeFlag_tame a _)
  · exact .refl s

theorem takeInvalidate_tame (sp : Span) (s : State) : Tame s (s.takeInvalidate sp) :=
  ((((mapCache_quiet _ s).trans (staleSlot_quiet _ _ _)).trans (staleSlot_quiet _ _ _)).trans (settle_quiet _)).tame

theorem takePolicy_tame (h : Hdr) (f : PolicyFrame) (s : State) : Tame s (s.takePolicy h f).1 := by
  unfold takePolicy
  split
  · exact .refl s
  · split
    · rename_i p _
      have taken := patrol_tame (fun _ => p) s
      dsimp only
      split
      · exact taken.trans (spareDecision_spared _).tame
      · exact taken
    · exact .refl s

theorem takePiece_tame (n f) (s : State) : Tame s (s.takePiece n f).1 := by
  unfold takePiece
  split
  · split
    · exact tables_tame _ s
    · exact .refl s
  · exact .refl s

theorem takeLine_tame (h l) (s : State) : Tame s (s.takeLine h l).1 := by
  unfold takeLine
  split
  · split
    · rename_i hok
      have hroom : s.lines.length < 6 := by
        simp only [acceptsLine, Bool.and_eq_true, Config.queueCapacity] at hok
        exact of_decide_eq_true hok.1.2
      constructor <;> simp
      omega
    · exact .refl s
  · exact .refl s

theorem slotTakes_tame (i e) (s : State) : Tame s (s.slotTakes i e) := by
  refine Tame.trans ?_ ((quiet_setSlots _ _).trans (settle_quiet _)).tame
  constructor <;> simp
  exact fun h => Nat.le_trans List.length_eraseP_le h

end State

theorem Sound.refl (s : State) : Sound s s := (Tame.refl s).sound

open State in
/-- Every operation keeps the invariants of the memory, of the galley and of the capacities. -/
theorem carries_sound : Carries Sound where
  trans h k := h.trans k
  setOut x s := (quiet_setOut x s).tame.sound
  mapLink g s h := (link_tame g s h).sound
  mapFetches g s := (mapFetches_tame g s).sound
  mapDir g s h := (dir_tame g s h).sound
  mapPatrol g s := (patrol_tame g s).sound
  setServe _ _ := ⟨rfl, id, id, id⟩
  removeWhere p s := (removeWhere_tame p s).sound
  ready s := (seq_tame _ s ⟨rfl, rfl, rfl⟩).sound
  setAcc g s := (spared_setAcc g s).tame.sound
  notify d n s := (notify_quiet d n s).tame.sound
  enrolOffered s := ((link_tame _ s (Nat.le_refl _)).trans (offerEnrol_quiet _).tame).sound
  enterMute s := (enterMute_tame s).sound
  endTenure n a s := (endTenure_tame n a s).sound
  disturbed s := (disturbed_tame s).sound
  takeOutcome x o s := (takeOutcome_tame x o s).sound
  takeAnnounce a s := (takeAnnounce_tame a s).sound
  takeInvalidate sp s := (takeInvalidate_tame sp s).sound
  takePolicy h f s := (takePolicy_tame h f s).sound
  takePiece n f s := (takePiece_tame n f s).sound
  takeLine h l s := (takeLine_tame h l s).sound
  takeControl := takeControl_sound
  takeLoad0 := takeLoad0_sound
  takeLoad := takeLoad_sound
  serveKey k cs s := (serveKey_accessed k cs s).tame.sound
  takeWrite w rest s h := (takeWrite_tame w rest s (by simp [h])).sound
  takeRead q rest cs s := (takeRead_tame q rest cs s).sound
  copyCell b c cond s := (copyCell_accessed b c cond s).tame.sound
  copyEnd b c s := (copyEnd_tame b c s).sound
  patrolCell b c cond s := (patrolCell_accessed b c cond s).tame.sound
  slotTakes i e s := (slotTakes_tame i e s).sound
  lineExposed := lineExposed_sound
  cutEnds := cutEnds_sound
  faultHead o s := (faultHead_tame o s).sound
  timerFalls s := (timerFalls_tame s).sound
  expireClose s := (expireClose_tame s).sound
  completeClose s := (completeClose_tame s).sound

/-! ## Resets -/

theorem powerOn_sound (p : Straps) (tenure : Bool) (epoch : Nat) (s : State) :
    Sound s ((State.powerOn p tenure epoch).setPending s.pending) where
  pending := rfl
  memory _ := rfl
  place _ := by simp [GalleyInGeometry, State.powerOn, Sequencer.afterPowerOn]
  capacities _ := by
    simp [WithinCapacities, State.powerOn, Link.afterReset, Directory.afterReset, Store.afterPowerOn]

theorem exec_stationReset (p : Straps) (found : AtReset) (s : State) :
    exec (.stationReset p found) s =
      .next (((s.fresh.endBegun found.begun).abortHead.stationReset p found.tenure).spareDecision) := rfl

namespace State

theorem writeCells_accessed (cs : List (Nat × Cell)) (s : State) : Accessed s (writeCells cs s) := by
  induction cs generalizing s with
  | nil => exact .refl s
  | cons c cs ih => exact (writeCell_accessed c.1 c.2 s).trans (ih _)

theorem endBegun_tame (begun : Option Interrupted) (s : State) : Tame s (s.endBegun begun) := by
  unfold endBegun
  split
  · exact (writeCells_accessed _ s).tame
  · exact .refl s

theorem abortHead_tame (s : State) : Tame s s.abortHead := by
  unfold abortHead
  split
  · exact .refl s
  all_goals exact (head_tame .none s).trans (emit_tame .abort _)

theorem resetStore_tame (p : Straps) (s : State) : Tame s (s.resetStore p) := by
  unfold resetStore
  split
  · constructor <;> simp [Store.afterPowerOn, Memory.wf]
  · constructor <;> simp [Store.afterStation]
    exact fun h => Nat.le_trans (List.length_filter_le _ _) h

theorem stationReset_sound (p : Straps) (tenure : Bool) (s : State) : Sound s (s.stationReset p tenure) := by
  have sequencer := seq_tame Sequencer.afterStation (s.resetStore p) ⟨rfl, rfl, rfl⟩
  refine ((resetStore_tame p s).trans (sequencer.trans ?_)).sound
  constructor <;> simp [stationReset, Link.afterReset, Directory.afterReset]

end State

/-- R122: a station reset completes the begun writes, sends ABORT, empties the blocks and makes the spare decision. -/
theorem stationReset_next_sound (p : Straps) (found : AtReset) (s : State) :
    Sound s ((s.fresh.endBegun found.begun).abortHead.stationReset p found.tenure).spareDecision :=
  (((State.fresh_tame s).trans ((State.endBegun_tame _ _).trans (State.abortHead_tame _))).sound.trans
    (State.stationReset_sound p found.tenure _)).trans (State.spareDecision_spared _).tame.sound

/-- Every command answers a next state, with the invariants that it found. -/
theorem exec_sound (c : Instr) (s : State) : LeadsTo Sound s (exec c s) := by
  by_cases hr : isReset c = false
  · exact carries_sound.exec c s hr
  · cases c
    case powerOnReset p tenure => exact leadsTo_next (powerOn_sound p tenure _ s)
    case stationReset p found => exact leadsTo_next (stationReset_next_sound p found s)
    all_goals exact absurd rfl hr

/-! ## Steps -/

/-- The two cases of a step: it idles on an empty queue, or runs the front command with the queue's rest. -/
theorem step_cases {s t : State} (h : step s = .next t) :
    (s.pending = [] ∧ t = s) ∨ ∃ c rest, s.pending = c :: rest ∧ exec c (s.setPending rest) = .next t := by
  unfold step at h
  split at h
  · rename_i hp
    exact .inl ⟨hp, (Host.Outcome.next.inj h).symm⟩
  · rename_i c rest hp
    exact .inr ⟨c, rest, hp, h⟩

/-- A predicate that does not look at the queue of commands is kept by a step when every command keeps it. -/
theorem step_keeps {P : State → Prop} (hq : ∀ s rest, P s → P (s.setPending rest))
    (hc : ∀ c s, LeadsTo (fun s t => P s → P t) s (exec c s)) {s t : State} (hs : P s) (h : step s = .next t) : P t := by
  obtain ⟨-, rfl⟩ | ⟨c, rest, -, he⟩ := step_cases h
  · exact hs
  · obtain ⟨u, hu, hk⟩ := hc c (s.setPending rest)
    obtain rfl : u = t := Host.Outcome.next.inj (hu.symm.trans he)
    exact hk (hq s rest hs)

theorem LeadsTo.imp {R S : State → State → Prop} {s : State} {o : Host.Outcome State Fault Refusal} (h : LeadsTo R s o)
    (k : ∀ t, R s t → S s t) : LeadsTo S s o :=
  let ⟨t, ht, hr⟩ := h
  ⟨t, ht, k t hr⟩

/-- Settles O1: the definition of a step, on a queue with a front command and on an empty one. -/
theorem stepRunsFrontCommand : Obligations.StepRunsFrontCommand := by
  refine ⟨fun c rest s hp => ?_, fun s hp => ?_⟩
  · simp only [step, hp]
    rfl
  · simp only [step, hp]

/-- Settles O2: every command answers a next state (`exec_sound`), whose queue of commands is the one it found. -/
theorem everyCommandAnswersAndKeepsTheQueue : Obligations.EveryCommandAnswersAndKeepsTheQueue :=
  fun c s => (exec_sound c s).imp (S := fun s t => t.pending = s.pending) fun _ h => h.pending

/-- Settles O56, from what every command keeps of the memory. -/
theorem stepKeepsMemoryCanonical : Obligations.StepKeepsMemoryCanonical :=
  fun _ _ => step_keeps (P := MemoryCanonical) (fun _ _ => id) fun c s => (exec_sound c s).imp fun _ h => h.memory

/-- Settles O57, from what every command keeps of the galley. -/
theorem stepKeepsGalleyInGeometry : Obligations.StepKeepsGalleyInGeometry :=
  fun _ _ => step_keeps (P := GalleyInGeometry) (fun _ _ => id) fun c s => (exec_sound c s).imp fun _ h => h.place

/-- Settles O58, from what every command keeps of the capacities. -/
theorem stepKeepsCapacities : Obligations.StepKeepsCapacities :=
  fun _ _ => step_keeps (P := WithinCapacities) (fun _ _ => id) fun c s => (exec_sound c s).imp fun _ h => h.capacities

end Sys2Proof.Machine
end

section
/-! SUPPORT. The invariant of the slots over every command: a slot that holds a line holds its header, and the slot that is waited on in
PROOF-WAIT is READY (R35, R150, R151). -/

namespace Sys2Proof.Machine

/-- The two invariants of the slots together: the second is what lets PROCEED send a line that its slot holds. -/
def SlotsSound (s : State) : Prop := SlotsHeaded s ∧ ProofWaits s

def SlotsKept (s t : State) : Prop := SlotsSound s → SlotsSound t

namespace SlotsKept

theorem trans {s t u : State} (h : SlotsKept s t) (k : SlotsKept t u) : SlotsKept s u := k ∘ h

theorem of {s t : State} (h : t.slots = s.slots) (k : t.seq.state = s.seq.state) : SlotsKept s t := by
  rintro ⟨headed, waits⟩
  refine ⟨fun i => ?_, fun i => ?_⟩
  · rw [h]
    exact headed i
  · rw [h, k]
    exact waits i

end SlotsKept

theorem Holds.slotsKept {s t : State} (h : Holds s t) : SlotsKept s t :=
  fun ⟨headed, waits⟩ => ⟨fun i => h.headed i (headed i), h.waits waits⟩

theorem Steady.slotsKept {s t : State} (h : Steady s t) : SlotsKept s t := h.holds.slotsKept

namespace State

theorem takeAnnounce_kept (a : AnnounceFrame) (s : State) : SlotsKept s (s.takeAnnounce a).1 := by
  have flag : ∀ u : State, SlotsKept u (u.takeFlag a) := by
    intro u
    unfold takeFlag
    split <;> exact .of rfl rfl
  have applied : SlotsKept s (s.applyAnnounce a) := by
    unfold applyAnnounce
    dsimp only
    split
    · exact .of rfl rfl
    · refine SlotsKept.trans ?_ (offerOutgoing_steady _).slotsKept
      exact .of rfl rfl
  unfold takeAnnounce
  split
  · split
    · exact flag s
    · split
      · exact id
      · exact applied.trans (flag _)
  · exact id

theorem takeInvalidate_kept (sp : Span) (s : State) : SlotsKept s (s.takeInvalidate sp) :=
  (Rises.settled (((mapCache_alike _ s).steady.rises.trans (staleSlot_rises _ _ _)).trans (staleSlot_rises _ _ _))).slotsKept

theorem takePolicy_kept (h : Hdr) (f : PolicyFrame) (s : State) : SlotsKept s (s.takePolicy h f).1 := by
  unfold takePolicy
  split
  · exact id
  · split
    · dsimp only
      split
      · refine SlotsKept.trans ?_ (spareDecision_spared _).steady.slotsKept
        exact .of rfl rfl
      · exact .of rfl rfl
    · exact id

theorem takePiece_kept (n f) (s : State) : SlotsKept s (s.takePiece n f).1 := by
  unfold takePiece
  split
  · split
    · exact .of rfl rfl
    · exact id
  · exact id

theorem takeLine_kept (h l) (s : State) : SlotsKept s (s.takeLine h l).1 := by
  unfold takeLine
  split
  · split
    · exact .of rfl rfl
    · exact id
  · exact id

/-! ## Commands of a CONTROL frame -/

theorem transfer_kept {i : SlotId} {s : State} (h : s.seq.state = .proofWait i) : SlotsKept s (s.transfer i) := fun hs =>
  (transfer_holds i s (by simp [hs.2 i h])).slotsKept hs

theorem takeRun_kept {s t : State} (h : s.takeRun = some t) : SlotsKept s t := by
  unfold takeRun at h
  split at h <;> simp only [Option.some.injEq, reduceCtorEq] at h <;> subst h
  · exact (mapSeq_leaves _ s (by simp)).slotsKept.trans (dispatch_holds _).slotsKept
  · exact id
  · exact id
  · exact (mapSeq_steady _ s rfl).slotsKept
  · exact (mapSeq_steady _ s rfl).slotsKept

theorem takeStop_kept {s t : State} (h : s.takeStop = some t) : SlotsKept s t := by
  unfold takeStop at h
  split at h <;> simp only [Option.some.injEq] at h <;> subst h
  · exact (mapSeq_leaves _ s (by simp)).slotsKept
  · exact (mapSeq_leaves _ s (by simp)).slotsKept
  · exact (mapSeq_steady _ s rfl).slotsKept
  · exact (mapSeq_steady _ s rfl).slotsKept
  · exact id
  · exact id

theorem takeCut_kept {s t : State} (h : s.takeCut = some t) : SlotsKept s t := by
  unfold takeCut at h
  split at h <;> simp only [Option.some.injEq, reduceCtorEq] at h <;> subst h
  · exact (sendCut_holds _ _ s).slotsKept
  · exact (sendCut_holds _ _ s).slotsKept
  · exact (sendCut_holds _ _ s).slotsKept
  · exact (mapSeq_steady _ s rfl).slotsKept

theorem takeProofOff_kept (s : State) : SlotsKept s s.takeProofOff := by
  have off : SlotsKept s (s.mapSeq fun q => { q with proof := false }) := (mapSeq_steady _ s rfl).slotsKept
  unfold takeProofOff
  dsimp only
  split
  · rename_i hw
    exact off.trans (transfer_kept hw)
  all_goals exact off

theorem takeProceed_kept {s t : State} (h : s.takeProceed = some t) : SlotsKept s t := by
  unfold takeProceed at h
  split at h <;> simp only [Option.some.injEq, reduceCtorEq] at h
  rename_i hw
  subst h
  exact transfer_kept hw

theorem takeCommand_kept (src c) {s t : State} (h : s.takeCommand src c = some t) : SlotsKept s t := by
  cases c <;> simp only [takeCommand, Option.some.injEq] at h
  case pageBegin =>
    simp only [takePageBegin, Option.ite_none_right_eq_some, Option.some.injEq] at h
    exact h.2 ▸ (mapSeq_steady _ s rfl).slotsKept
  case pageEnd =>
    simp only [takePageEnd, Option.ite_none_right_eq_some, Option.some.injEq] at h
    exact h.2 ▸ (mapSeq_steady _ s rfl).slotsKept
  case galleyReset =>
    simp only [takeGalleyReset, Option.ite_none_right_eq_some, Option.some.injEq] at h
    exact h.2 ▸ (mapSeq_steady _ s rfl).slotsKept
  case run => exact takeRun_kept h
  case stop => exact takeStop_kept h
  case cut => exact takeCut_kept h
  case proofOn => exact h ▸ (mapSeq_steady _ s rfl).slotsKept
  case proofOff => exact h ▸ takeProofOff_kept s
  case proceed => exact takeProceed_kept h
  case alarmSet => exact h ▸ (mapSeq_steady _ s rfl).slotsKept
  case clearFlags => exact h ▸ .of rfl rfl
  case stationClear => exact h ▸ (takeStationClear_holds s).slotsKept

theorem command_kept (src n c) (s : State) : SlotsKept s (s.command src n c) := by
  unfold command
  split
  · split
    · rename_i t ht
      exact takeCommand_kept src c ht
    · exact (notify_steady _ _ s).slotsKept
  · exact (notify_steady _ _ s).slotsKept

theorem commands_kept (src n cs) (s : State) : SlotsKept s (commands src n cs s) := by
  induction cs generalizing n s with
  | nil => exact id
  | cons c cs ih => exact (command_kept src n c s).trans (ih _ _)

theorem takeControl_kept (h cs) (s : State) : SlotsKept s (s.takeControl h cs).1 := by
  unfold takeControl
  split
  · exact commands_kept _ _ _ s
  · exact id

/-! ## The store -/

theorem takeLoad0_kept (h f bs) (s : State) : SlotsKept s (s.takeLoad0 h f bs).1 := by
  unfold takeLoad0
  split
  · dsimp only
    split
    · exact (notify_steady _ _ s).slotsKept
    · split
      · exact (notify_steady _ _ s).slotsKept
      · exact .of rfl rfl
  · exact id

theorem takeLoad_kept (h k n c bs) (s : State) : SlotsKept s (s.takeLoad h k n c bs).1 := by
  unfold takeLoad
  split
  · split
    · exact .of rfl rfl
    · exact id
  · exact id

theorem takeWrite_kept (w rest) (s : State) : SlotsKept s (s.takeWrite w rest) := by
  unfold takeWrite
  dsimp only
  split
  · exact ((mapStore_alike _ s).steady.trans ((writeLoad_accessed w _).steady.trans (mapStore_alike _ _).steady)).slotsKept
  · exact .of rfl rfl

theorem copyEnd_kept (b c) (s : State) : SlotsKept s (s.copyEnd b c) := by
  unfold copyEnd
  split
  · exact .of rfl rfl
  · exact SlotsKept.trans (t := s.setStore { s.store with map := s.store.map.set b Config.spareBank }) (.of rfl rfl)
      (completeCopy_spared b s).steady.slotsKept

theorem localAccess_steady (k cs) (s : State) : Steady s (s.localAccess k cs) := by
  unfold localAccess
  split
  · split
    · exact (readRecord_accessed _ _ s).steady
    · exact .refl s
  · exact .refl s

theorem readEntry_steady (i) (s : State) : Steady s (s.readEntry i).2 := by
  unfold readEntry
  split
  · exact .refl s
  · exact (insertImage_alike _ _ s).steady

theorem cancelFetch_steady (i n) (s : State) : Steady s (s.cancelFetch i n) := by
  unfold cancelFetch
  split
  · exact .refl s
  · dsimp only
    refine Steady.trans (Steady.trans ?_ (resolveAllAwaiting_alike _ _ _ _ _).steady) (roomEvent_steady _)
    split <;> exact .of rfl rfl List.prefix_rfl

theorem atReading_steady (i f) (s : State) (h : ∀ p u, Steady u (f p u)) : Steady s (s.atReading i f) := by
  unfold atReading
  split
  · split
    · exact (h _ s).trans (setPass_alike _ _ _).steady
    · exact .refl s
  · exact .refl s

theorem requestHeld_steady (i) (s : State) : Steady s (s.requestHeld i) := by
  unfold requestHeld
  split
  · split
    · split
      · exact (queueRead_alike _ _ s).steady
      · exact .refl s
    · exact .refl s
  · exact .refl s

theorem takeRead_kept (q rest cs) (s : State) : SlotsKept s (s.takeRead q rest cs) := by
  have cached (i) (u : State) : Steady u ((u.readEntry i).2.cancelFetch i (u.readEntry i).1) :=
    (readEntry_steady i u).trans (cancelFetch_steady i _ _)
  refine (Rises.settled (Steady.rises ?_)).slotsKept
  refine Steady.trans ?_ (requestHeld_steady _ _)
  refine Steady.trans (mapStore_alike (fun st => { st with reads := rest }) s).steady ?_
  refine Steady.trans (localAccess_steady q.key cs _) ?_
  dsimp only
  split
  · split
    · exact (cached _ _).trans (atReading_steady _ _ _ fun p u => (resolveAt_alike _ _ _ u).steady)
    · exact cached _ _
  · split
    · exact atReading_steady _ _ _ fun p u => (thirdStep_alike _ _ _ u).steady
    · exact .refl _

/-- A line that is taken brings its header with it. -/
theorem slotTakes_kept (i e) (s : State) : SlotsKept s (s.slotTakes i e) := by
  unfold slotTakes
  dsimp only
  refine (Rises.settled ?_).slotsKept
  refine ⟨fun j => ?_, List.prefix_rfl⟩
  change (s.slots.get j).headed → ((s.slots.put i _).get j).headed
  rw [Slots.get_put]
  split
  · exact fun _ _ => by simp [slotWith, Slot.beginPass]
  · exact id

end State

open State in
/-- Every operation keeps the invariant of the slots. -/
theorem carries_slotsKept : Carries SlotsKept where
  trans h k := h.trans k
  setOut _ _ := .of rfl rfl
  mapLink _ _ _ := .of rfl rfl
  mapFetches _ _ := .of rfl rfl
  mapDir _ _ _ := .of rfl rfl
  mapPatrol _ _ := .of rfl rfl
  setServe _ _ := .of rfl rfl
  removeWhere _ _ := .of rfl rfl
  ready s := (mapSeq_leaves _ s (by simp)).slotsKept
  setAcc _ _ := .of rfl rfl
  notify d n s := (notify_steady d n s).slotsKept
  enrolOffered s := ((mapLink_steady _ s).trans ((offer_steady _ _).trans (mapLink_steady _ _))).slotsKept
  enterMute s := (enterMute_steady s).slotsKept
  endTenure n a s := (endTenure_holds n a s).slotsKept
  disturbed s := (disturbed_holds s).slotsKept
  takeOutcome x o s := (takeOutcome_holds x o s).slotsKept
  takeAnnounce := takeAnnounce_kept
  takeInvalidate := takeInvalidate_kept
  takePolicy := takePolicy_kept
  takePiece := takePiece_kept
  takeLine := takeLine_kept
  takeControl := takeControl_kept
  takeLoad0 := takeLoad0_kept
  takeLoad := takeLoad_kept
  serveKey k cs s := (serveKey_accessed k cs s).steady.slotsKept
  takeWrite w rest s _ := takeWrite_kept w rest s
  takeRead := takeRead_kept
  copyCell b c cond s := (copyCell_accessed b c cond s).steady.slotsKept
  copyEnd := copyEnd_kept
  patrolCell b c cond s := (patrolCell_accessed b c cond s).steady.slotsKept
  slotTakes := slotTakes_kept
  lineExposed s := (lineExposed_holds s).slotsKept
  cutEnds r s := (cutEnds_holds r s).slotsKept
  faultHead o s := (faultHead_holds o s).slotsKept
  timerFalls s := (timerFalls_holds s).slotsKept
  expireClose s := (expireClose_holds s).slotsKept
  completeClose s := (completeClose_holds s).slotsKept

/-- R61, R166: after a reset both slots are EMPTY and the sequencer is STOPPED. -/
theorem slotsSound_of_reset {t : State} (h : t.slots = .afterReset) (k : t.seq.state = .stopped) : SlotsSound t := by
  refine ⟨fun i => ?_, fun i => by simp [k]⟩
  rw [h]
  cases i <;> exact State.vacant_headed

theorem exec_slotsKept (c : Instr) (s : State) : LeadsTo SlotsKept s (exec c s) := by
  by_cases hr : isReset c = false
  · exact carries_slotsKept.exec c s hr
  · cases c
    case powerOnReset p tenure => exact leadsTo_next fun _ => slotsSound_of_reset rfl rfl
    case stationReset p found =>
      exact leadsTo_next fun _ => (State.spareDecision_spared _).steady.slotsKept (slotsSound_of_reset rfl rfl)
    all_goals exact absurd rfl hr

/-- Settles O59: the empty blocks of a power-on reset, and what every command keeps of the slots. -/
theorem resetHasTheInvariants : Obligations.ResetHasTheInvariants := by
  have sound : Sound State.reset State.reset := powerOn_sound Config.boardStraps false 0 State.reset
  have slots : SlotsSound State.reset := slotsSound_of_reset rfl rfl
  refine ⟨⟨rfl, ?_, ?_, slots.1, slots.2, rfl⟩, fun s t headed waits hstep => ?_⟩
  · exact (by decide : 0 < 255 ∧ 0 < 1 ∧ 0 < 65536)
  · exact (by decide : 0 ≤ 12 ∧ 0 ≤ 8 ∧ 0 ≤ 6 ∧ 0 ≤ 64 ∧ 0 ≤ 2048 ∧ 0 ≤ 4)
  · exact step_keeps (P := SlotsSound) (fun _ _ => id) exec_slotsKept ⟨headed, waits⟩ hstep

end Sys2Proof.Machine
end

section
/-! SUPPORT. Frames as they reach the station: refused for their source or their form, observed, discarded, or a FETCH that makes it the
holder (R90, R170 to R176, R187 to R189); the ends of tenures in IDLE; and a station in MUTE (R177, R180). -/

namespace Sys2Proof.Machine

/-! ## Frames that reach no block -/

namespace State

theorem not_addressed {h : Hdr} {s : State} (hd : h.dst ≠ s.straps.station) (h0 : h.dst ≠ 0) : s.addressed h = false :=
  Bool.eq_false_iff.2 fun ha => ((addressed_iff h s).1 ha).elim hd h0

theorem not_listening {s : State} (h : ¬Listens s) : s.listening = false := Bool.eq_false_iff.2 fun hl => h ((listening_iff s).1 hl)

theorem mute_unread {s : State} (h : s.link.state = .mute) : ¬Listens s := fun hl => listens_notMute hl h

theorem tenureOver_observed (n : Nat) (s : State) : s.fresh.tenureOver.heard n = observed n .idle s := by
  unfold heard observed
  split <;> rfl

theorem tenureGoesOn_observed (n : Nat) (s : State) : s.fresh.tenureGoesOn.heard n = observed n .busyOther s := by
  unfold heard observed
  split <;> rfl

/-- A frame that is not addressed to this station is observed (R90, R170). -/
theorem receive_observed {h : Hdr} {s : State} (hl : Listens s) (hd : h.dst ≠ s.straps.station) (h0 : h.dst ≠ 0) (bad library : Bool)
    (owner : State → State × Bool) : s.receive h bad library owner = observed h.src .idle s := by
  have listens : s.fresh.listening = true := (listening_iff s).2 hl
  have elsewhere : s.fresh.addressed h = false := not_addressed (s := s.fresh) hd h0
  simp only [receive, listens, elsewhere, if_true, Bool.false_eq_true, if_false, tenureOver_observed]

end State

theorem outOfForm_iff (f : RawFrame) :
    outOfForm f = true ↔ f.src = 0 ∨ readFrame f = none ∨ ∃ i, readFrame f = some i ∧ fieldsBad i = true := by
  unfold outOfForm
  cases readFrame f <;> simp

/-- R189: the key field of a NOTICE LOAD-REFUSED or POISONED. -/
theorem noticeBad_key {code : Byte} (hc : code = 7 ∨ code = 8) (a b c : Byte) (rest : List Byte) :
    noticeBad (code :: a :: b :: c :: rest) = true ↔ 4095 < b.toNat * 256 + c.toNat := by
  have key : (readKey a b c).indexOk = true ↔ b.toNat * 256 + c.toNat ≤ 4095 := decide_eq_true_iff
  have named : (read1 code == 7 || read1 code == 8) = true := by rcases hc with rfl | rfl <;> rfl
  simp only [noticeBad, named, Bool.true_and, Bool.not_eq_true', Bool.eq_false_iff, ne_eq, key, Nat.not_le]

/-- Settles O5: each of the rows is received as a library frame, which a source that is no authority has refused. -/
theorem libraryFramesNeedAnAuthority : Obligations.LibraryFramesNeedAnAuthority := by
  intro c h s hc ha hf
  have refused (bad : Bool) (owner : State → State × Bool) : s.receive h bad true owner = answers false (arrived h s) :=
    State.receive_refused ha (.inr ⟨rfl, hf⟩) owner
  cases c <;> simp only [libraryHdr, Option.some.injEq, reduceCtorEq] at hc <;> subst hc <;> exact congrArg _ (refused _ _)

theorem exec_checkWordWrong (f : RawFrame) (check : Word16) (s : State) :
    exec (.checkWordWrong f check) s = .next (s.fresh.follow f.payload.length fun s =>
      if check ≠ checkWord (frameBits f) then
        if s.addressed { src := f.src, dst := f.dst } then s.tenureOver.emit (.answer false true) else s.tenureOver
      else s) := rfl

theorem exec_frameOutOfForm (f : RawFrame) (s : State) :
    exec (.frameOutOfForm f) s = .next (s.fresh.follow f.payload.length fun s =>
      if outOfForm f then
        let t := s.tenureOver.heard f.src
        if s.addressed { src := f.src, dst := f.dst } then t.emit (.answer false true) else t
      else s) := rfl

/-- Settles O6, by the three ends of a frame that is followed: not to its end, with a wrong check word, and out of form. -/
theorem badFramesAreObjected : Obligations.BadFramesAreObjected := by
  refine ⟨fun f check s hl hd hn hw => ?_, fun f s hl hd hn => ⟨fun hsrc hform => ?_, fun hsrc => ?_⟩, fun f check s hl hn => ⟨?_, ?_⟩⟩
  · have here : s.fresh.addressed { src := f.src, dst := f.dst } = true := (State.addressed_iff _ s.fresh).2 hd
    rw [exec_checkWordWrong, State.follow_listens hl hn, if_pos hw, if_pos here]
    rfl
  · have here : s.fresh.addressed { src := f.src, dst := f.dst } = true := (State.addressed_iff _ s.fresh).2 hd
    rw [exec_frameOutOfForm, State.follow_listens hl hn, if_pos ((outOfForm_iff f).2 (.inr hform))]
    simp only [here, if_true, State.tenureOver_heard { src := f.src, dst := f.dst } s hsrc]
    rfl
  · have here : s.fresh.addressed { src := f.src, dst := f.dst } = true := (State.addressed_iff _ s.fresh).2 hd
    rw [exec_frameOutOfForm, State.follow_listens hl hn, if_pos ((outOfForm_iff f).2 (.inl hsrc))]
    simp only [here, if_true]
    rw [hsrc]
    rfl
  · rw [exec_checkWordWrong, State.follow_overlong hl hn]
  · rw [exec_frameOutOfForm, State.follow_overlong hl hn]

/-! ## Frames observed and discarded -/

section
variable {s : State} (hl : Listens s)
include hl

theorem exec_observedReply (h : Hdr) : exec (.frameObserved (.reply h)) s = .next (observed h.src .idle s) := by
  have listens : s.fresh.listening = true := (State.listening_iff s).2 hl
  change Host.Outcome.next (if s.fresh.listening then s.fresh.tenureOver.heard h.src else s.fresh) = _
  rw [if_pos listens, State.tenureOver_observed]

theorem exec_observedFrame {h : Hdr} (hd : h.dst ≠ s.straps.station) (h0 : h.dst ≠ 0) :
    exec (.frameObserved (.frame h)) s = .next (observed h.src .idle s) := by
  have listens : s.fresh.listening = true := (State.listening_iff s).2 hl
  have elsewhere : s.fresh.addressed h = false := State.not_addressed (s := s.fresh) hd h0
  change Host.Outcome.next (if s.fresh.listening then if s.fresh.addressed h then s.fresh else s.fresh.tenureOver.heard h.src
    else s.fresh) = _
  simp only [listens, elsewhere, if_true, Bool.false_eq_true, if_false, State.tenureOver_observed]

theorem exec_observedHeldFetch {h : Hdr} (hd : h.dst ≠ s.straps.station) (h0 : h.dst ≠ 0) :
    exec (.frameObserved (.heldFetch h)) s = .next (observed h.src .busyOther s) := by
  have listens : s.fresh.listening = true := (State.listening_iff s).2 hl
  have elsewhere : s.fresh.addressed h = false := State.not_addressed (s := s.fresh) hd h0
  change Host.Outcome.next (if s.fresh.listening then if s.fresh.addressed h then s.fresh else s.fresh.tenureGoesOn.heard h.src
    else s.fresh) = _
  simp only [listens, elsewhere, if_true, Bool.false_eq_true, if_false, State.tenureGoesOn_observed]

/-- R170: the station follows another's FETCH to the reply when its holder has taken it, and to its answer slots otherwise. -/
theorem exec_fetch_elsewhere {h : Hdr} (hd : h.dst ≠ s.straps.station) (h0 : h.dst ≠ 0) (k : Key) (ack object : Bool) :
    exec (.fetch h k { ack := ack, object := object }) s =
      .next (observed h.src (if ack && !object then .busyOther else .idle) s) := by
  have listens : s.listening = true := (State.listening_iff s).2 hl
  have elsewhere : s.addressed h = false := State.not_addressed hd h0
  change Host.Outcome.next (if s.listening && !s.addressed h && ack && !object then s.fresh.tenureGoesOn.heard h.src
    else s.receive h _ false _) = _
  rw [State.receive_observed hl hd h0, State.tenureGoesOn_observed]
  simp only [listens, elsewhere, Bool.not_false, Bool.true_and]
  cases ack && !object <;> rfl

/-- A reply that is not this station's, for it awaits none: it is followed as another's (R170). -/
theorem exec_reply_elsewhere (r : RawReply) (check : Word16) :
    exec (.reply r check) s = .next (s.fresh.follow r.payload.length (State.observeReply r check)) := by
  have notAwaited : s.fresh.link.state ≠ .awaitReply := by
    rcases hl.2 with hs | hs <;> simp [hs]
  change execReply r check s = _
  unfold execReply
  dsimp only
  split
  · rename_i hs _
    exact absurd hs notAwaited
  · rfl

end

theorem exec_lineReport (h : Hdr) (p : List Byte) (s : State) :
    exec (.lineReport h p) s = .next (s.fresh.follow p.length fun s => s.receive h false false fun s => (s, true)) := rfl

theorem exec_notice (h : Hdr) (p : List Byte) (s : State) :
    exec (.notice h p) s = .next (s.fresh.follow p.length fun s => s.receive h (noticeBad p) false fun s => (s, true)) := rfl

/-- Settles O7, one lemma for each kind of what is followed. -/
theorem observedAndDiscardedFrames : Obligations.ObservedAndDiscardedFrames := by
  refine ⟨fun h s hl => ⟨exec_observedReply hl h, fun hd h0 => ⟨exec_observedFrame hl hd h0, exec_observedHeldFetch hl hd h0, ?_, ?_⟩⟩,
    fun f check s hl hd h0 hn hw => ?_, fun r check s hl => ⟨?_, ?_, ?_⟩, fun h p s hl hn => ⟨?_, ?_⟩,
    fun h p s ha hn => ⟨?_, ?_, ?_⟩, fun code a b c rest hc => noticeBad_key hc a b c rest⟩
  · exact fun k => exec_fetch_elsewhere hl hd h0 k true false
  · refine fun k acked => ⟨?_, exec_fetch_elsewhere hl hd h0 k false false⟩
    rw [exec_fetch_elsewhere hl hd h0 k acked true, Bool.not_true, Bool.and_false]
    rfl
  · have elsewhere : s.fresh.addressed { src := f.src, dst := f.dst } = false := State.not_addressed (s := s.fresh) hd h0
    rw [exec_checkWordWrong, State.follow_listens hl hn, if_pos hw, elsewhere]
    rfl
  · intro hn hw
    rw [exec_reply_elsewhere hl, State.follow_listens hl hn, State.observeReply, if_neg (not_not_intro hw), State.tenureOver_observed]
  · intro hn hw
    rw [exec_reply_elsewhere hl, State.follow_listens hl hn, State.observeReply, if_pos hw]
    rfl
  · intro hn
    have listens : s.fresh.listening = true := (State.listening_iff s).2 hl
    have overlong : Config.maxPayload < r.payload.length := hn
    rw [exec_reply_elsewhere hl, State.follow, if_pos listens, if_pos overlong]
    rfl
  · rw [exec_lineReport, State.follow_overlong hl hn]
  · rw [exec_notice, State.follow_overlong hl hn]
  · rw [exec_lineReport, State.follow_listens ha.1 hn]
    exact congrArg _ (State.receive_plain (s := s.fresh) ha rfl fun s => (s, true))
  · intro hb
    rw [exec_notice, State.follow_listens ha.1 hn]
    exact congrArg _ (State.receive_plain (s := s.fresh) ha hb fun s => (s, true))
  · intro hb
    rw [exec_notice, State.follow_listens ha.1 hn]
    exact congrArg _ (State.receive_refused (s := s.fresh) ha (.inl hb) fun s => (s, true))

/-! ## FETCH and the ends of tenures -/

/-- A FETCH that arrives at this station, or goes to all, is received. -/
theorem exec_fetch_arrives {h : Hdr} {s : State} (ha : Arrives h s) (k : Key) (ack object : Bool) :
    exec (.fetch h k { ack := ack, object := object }) s = .next (s.receive h (!k.indexOk) false (State.takeFetch h k object)) := by
  have here : s.addressed h = true := (State.addressed_iff h s).2 ha.2.2
  change Host.Outcome.next (if s.listening && !s.addressed h && ack && !object then _ else _) = _
  rw [here, if_neg (by simp)]

/-- Settles O8, by what the station does with a FETCH that it receives. -/
theorem fetchMakesTheStationHolder : Obligations.FetchMakesTheStationHolder := by
  refine fun h k acked s => ⟨fun hh hk => ?_, fun o ha hbad => ?_⟩
  · have ha := State.arrives_of_here hh
    obtain ⟨-, -, -, h0⟩ := hh
    have taken := State.receive_plain ha (bad := !k.indexOk) (by simp [Key.indexOk, hk])
    rw [exec_fetch_arrives ha, exec_fetch_arrives ha, taken, taken]
    simp only [State.takeFetch, if_neg h0]
    exact ⟨rfl, rfl⟩
  · rw [exec_fetch_arrives ha]
    by_cases hk : k.indexOk = true
    · rw [State.receive_plain ha (by simp [hk])]
      have h0 : h.dst = 0 := hbad.resolve_right (by simpa [Key.indexOk] using hk)
      simp only [State.takeFetch, if_pos h0]
    · rw [State.receive_refused ha (.inl (by simpa using hk))]

/-- Settles O10, by the link's state at the free condition and at the end of a reply. -/
theorem tenuresEndInIdle : Obligations.TenuresEndInIdle := by
  refine ⟨fun s hs => ?_, fun s hs => ?_⟩
  · change execFreeCondition s = _
    rcases hs with hs | hs | hs <;> simp only [execFreeCondition, State.fresh_eq, State.link_setOut, hs] <;> rfl
  · change execReplySent s = _
    simp only [execReplySent, State.fresh_eq, State.link_setOut, hs]
    rfl

end Sys2Proof.Machine
end

section
/-! SUPPORT. MUTE: what an offer, a frame and every command other than a reset do to a station in it (R177, R180), and the ENROL of a twin,
by which a station becomes MUTE (R186). -/

namespace Sys2Proof.Machine

/-! ## Work that leaves the link's state -/

/-- The state of the link is as it was. -/
structure LinkKept (s t : State) : Prop where
  state : t.link.state = s.link.state

namespace LinkKept

theorem refl (s : State) : LinkKept s s := ⟨rfl⟩
theorem trans {s t u : State} (h : LinkKept s t) (k : LinkKept t u) : LinkKept s u := ⟨k.state.trans h.state⟩
theorem after {s t u : State} (k : LinkKept t u) (h : t.link.state = s.link.state) : LinkKept s u := ⟨k.state.trans h⟩

end LinkKept

theorem Quiet.linkKept {s t : State} (h : Quiet s t) : LinkKept s t := ⟨h.linkState⟩
theorem Spared.linkKept {s t : State} (h : Spared s t) : LinkKept s t := ⟨(congrArg Link.state h.link :)⟩
theorem Accessed.linkKept {s t : State} (h : Accessed s t) : LinkKept s t := ⟨h.spared.linkKept.state⟩

namespace State

theorem sendCut_linkKept (k r) (s : State) : LinkKept s (s.sendCut k r) := ⟨rfl⟩

theorem endClose_linkKept (s : State) : LinkKept s s.endClose := by
  unfold endClose
  split
  · exact (notify_quiet _ _ s).linkKept.trans ⟨rfl⟩
  · exact .refl s

theorem expireClose_linkKept (s : State) : LinkKept s s.expireClose := by
  unfold expireClose
  refine LinkKept.trans ?_ (((endBoth_quiet .closed _).trans (reportLines_quiet _ _)).trans (settle_quiet _)).linkKept
  exact ⟨rfl⟩

theorem takeHeldExpiry_linkKept (s : State) : LinkKept s s.takeHeldExpiry := by
  unfold takeHeldExpiry
  split
  · exact expireClose_linkKept s
  · exact .refl s

theorem leaveExposing_linkKept (f m) (s : State) : LinkKept s (s.leaveExposing f m) := by
  unfold leaveExposing
  dsimp only
  split
  · exact sendCut_linkKept _ _ s
  · split
    · exact sendCut_linkKept _ _ s
    · split
      · exact sendCut_linkKept _ _ s
      · split <;> exact ⟨rfl⟩

theorem alarmSounds_linkKept (m) (s : State) : LinkKept s (s.soundAlarm m) := by
  unfold soundAlarm
  split
  · exact (notify_quiet _ _ _).linkKept.after rfl
  · exact .refl s

theorem endExposure_linkKept (s : State) : LinkKept s s.endExposure := by
  unfold endExposure
  split
  · exact ((quiet_setHead _ s).trans (finishLine_quiet _ _ _ _ _)).linkKept
  · exact (quiet_setHead _ s).linkKept

theorem lineExposed_linkKept (s : State) : LinkKept s s.lineExposed := by
  have advanced : LinkKept s (s.endExposure.mapSeq fun q => { q with galley := s.galleyAfter.1, exposedSinceCut := true }) :=
    (endExposure_linkKept s).trans ⟨rfl⟩
  exact (((advanced.trans (alarmSounds_linkKept _ _)).trans (leaveExposing_linkKept _ _ _)).trans (takeHeldExpiry_linkKept _)).trans
    (settle_quiet _).linkKept

theorem cutEnds_linkKept (r) (s : State) : LinkKept s (s.cutEnds r) := by
  unfold cutEnds
  dsimp only
  refine LinkKept.trans (LinkKept.trans ?_ (takeHeldExpiry_linkKept _)) (settle_quiet _).linkKept
  split
  · exact (endClose_linkKept _).after rfl
  · exact ⟨rfl⟩

theorem faultHead_linkKept (o) (s : State) : LinkKept s (s.faultHead o) := by
  have closed (p : Prop) [Decidable p] (u : State) : LinkKept u (if p then u.endClose else u) := by
    split
    · exact endClose_linkKept u
    · exact .refl u
  have ended (i : Option SlotId) (u : State) : LinkKept u (match i with
      | some i => u.finishLine i .cutShort (widthsOf (u.slot i)) none
      | none => u) := by
    split
    · exact (finishLine_quiet _ _ _ _ u).linkKept
    · exact .refl u
  unfold faultHead
  split
  · exact .refl s
  · dsimp only
    refine LinkKept.trans (LinkKept.trans ?_ (closed _ _)) (settle_quiet _).linkKept
    refine LinkKept.trans (LinkKept.trans (LinkKept.trans ?_ (closed _ _)) (notify_quiet _ _ _).linkKept) (takeHeldExpiry_linkKept _)
    exact (ended _ _).after rfl

theorem timerFalls_linkKept (s : State) : LinkKept s s.timerFalls := by
  unfold timerFalls
  split
  · split
    · exact ⟨rfl⟩
    · exact expireClose_linkKept s
  · exact ⟨rfl⟩

theorem completeClose_linkKept (s : State) : LinkKept s s.completeClose := by
  unfold completeClose
  split
  case h_1 | h_2 => exact sendCut_linkKept _ _ s
  case h_3 => exact endClose_linkKept s
  all_goals exact .refl s

theorem slotTakes_linkKept (i e) (s : State) : LinkKept s (s.slotTakes i e) := by
  unfold slotTakes
  dsimp only
  refine LinkKept.trans ?_ (settle_quiet _).linkKept
  exact ⟨rfl⟩

theorem mapStore_linkKept (f) (s : State) : LinkKept s (s.mapStore f) := ⟨rfl⟩

theorem takeWrite_linkKept (w rest) (s : State) : LinkKept s (s.takeWrite w rest) := by
  unfold takeWrite
  dsimp only
  split
  · exact ((mapStore_linkKept _ s).trans (writeLoad_accessed w _).linkKept).trans (mapStore_linkKept _ _)
  · exact ⟨rfl⟩

theorem copyEnd_linkKept (b c) (s : State) : LinkKept s (s.copyEnd b c) := by
  unfold copyEnd
  split
  · exact ⟨rfl⟩
  · exact (completeCopy_spared b s).linkKept.after rfl

theorem localAccess_linkKept (k cs) (s : State) : LinkKept s (s.localAccess k cs) := by
  unfold localAccess
  split
  · split
    · exact (readRecord_accessed _ _ s).linkKept
    · exact .refl s
  · exact .refl s

theorem readEntry_linkKept (i) (s : State) : LinkKept s (s.readEntry i).2 := by
  unfold readEntry
  split
  · exact .refl s
  · exact (insertImage_quiet _ _ s).linkKept

theorem cancelFetch_linkKept (i n) (s : State) : LinkKept s (s.cancelFetch i n) := by
  unfold cancelFetch
  split
  · exact .refl s
  · dsimp only
    refine LinkKept.trans ?_ ((resolveAllAwaiting_quiet _ _ _ _ _).trans (roomEvent_quiet _)).linkKept
    split <;> exact ⟨rfl⟩

theorem atReading_linkKept (i f) (s : State) (h : ∀ p u, Quiet u (f p u)) : LinkKept s (s.atReading i f) := by
  unfold atReading
  split
  · split
    · exact ((h _ s).trans (passOn_quiet _ _)).linkKept
    · exact .refl s
  · exact .refl s

theorem requestHeld_linkKept (i) (s : State) : LinkKept s (s.requestHeld i) := by
  unfold requestHeld
  split
  · split
    · split
      · exact (queueRead_quiet _ _ s).linkKept
      · exact .refl s
    · exact .refl s
  · exact .refl s

theorem takeRead_linkKept (q rest cs) (s : State) : LinkKept s (s.takeRead q rest cs) := by
  have cached (i) (u : State) : LinkKept u ((u.readEntry i).2.cancelFetch i (u.readEntry i).1) :=
    (readEntry_linkKept i u).trans (cancelFetch_linkKept i _ _)
  refine LinkKept.trans ?_ ((requestHeld_linkKept q.slot _).trans (settle_quiet _).linkKept)
  refine (mapStore_linkKept (fun st => { st with reads := rest }) s).trans ?_
  refine LinkKept.trans (localAccess_linkKept q.key cs _) ?_
  dsimp only
  split
  · split
    · exact (cached _ _).trans (atReading_linkKept _ _ _ fun p u => resolveAt_quiet _ _ _ u)
    · exact cached _ _
  · split
    · exact atReading_linkKept _ _ _ fun p u => thirdStep_quiet _ _ _ u
    · exact .refl _

end State

open State in
theorem works_linkKept : Works LinkKept where
  trans h k := h.trans k
  setOut _ _ := ⟨rfl⟩
  mapFetches _ _ := ⟨rfl⟩
  mapDir _ _ _ := ⟨rfl⟩
  mapPatrol _ _ := ⟨rfl⟩
  ready _ := ⟨rfl⟩
  setAcc _ _ := ⟨rfl⟩
  notify d n s := (notify_quiet d n s).linkKept
  enrolOffered _ := (offerEnrol_quiet _).linkKept.after rfl
  takeWrite w rest s _ := takeWrite_linkKept w rest s
  takeRead := takeRead_linkKept
  copyCell b c cond s := (copyCell_accessed b c cond s).linkKept
  copyEnd := copyEnd_linkKept
  patrolCell b c cond s := (patrolCell_accessed b c cond s).linkKept
  slotTakes := slotTakes_linkKept
  lineExposed := lineExposed_linkKept
  cutEnds := cutEnds_linkKept
  faultHead := faultHead_linkKept
  timerFalls := timerFalls_linkKept
  expireClose := expireClose_linkKept
  completeClose := completeClose_linkKept

/-! ## Commands of the link in MUTE -/

/-- The commands that begin or end a tenure, and the serve that ends in a reply. -/
def tenureWork : Instr → Bool
  | .contend _ | .sendAttemptEnd _ _ | .disturbance | .stallLimit | .freeCondition | .holdLimit _ | .replySent | .serve _ => true
  | _ => false

section
variable {s : State} (hm : s.link.state = .mute)
include hm

theorem receive_mute (h : Hdr) (bad library : Bool) (owner : State → State × Bool) :
    Host.Outcome.next (s.receive h bad library owner) = (.next (unchanged s) : Host.Outcome State Fault Refusal) :=
  congrArg _ (State.receive_unread (State.mute_unread hm) bad library owner)

theorem follow_mute (n : Nat) (f : State → State) :
    Host.Outcome.next (s.fresh.follow n f) = (.next (unchanged s) : Host.Outcome State Fault Refusal) :=
  congrArg _ (State.follow_unread (s := s.fresh) (State.mute_unread hm) n f)

/-- R180: a MUTE station reads no frame, so that none changes it. -/
theorem exec_bringsFrame_mute {c : Instr} (hc : bringsFrame c = true) : exec c s = .next (unchanged s) := by
  have deaf : s.listening = false := State.not_listening (State.mute_unread hm)
  cases c
  case fetch h k o =>
    change Host.Outcome.next (if s.listening && !s.addressed h && o.ack && !o.object then _ else _) = _
    rw [if_neg (by simp [deaf])]
    exact receive_mute hm ..
  case enrol h st b sp hd n =>
    change execEnrol h st b sp hd n s = _
    rw [execEnrol, if_neg (by simp [State.twinHeard, deaf])]
    exact receive_mute hm ..
  case frameObserved f =>
    change Host.Outcome.next (if s.fresh.listening then _ else s.fresh) = _
    rw [show s.fresh.listening = false from deaf]
    rfl
  case lineReport | notice | frameOutOfForm | checkWordWrong => exact follow_mute hm ..
  case reply r w =>
    change execReply r w s = _
    simp only [execReply, State.fresh_eq, State.link_setOut, hm]
    exact follow_mute hm ..
  all_goals first | exact receive_mute hm .. | cases hc

theorem exec_tenureWork_mute {c : Instr} (hc : tenureWork c = true) : exec c s = .next (unchanged s) := by
  have muted : s.fresh.link.state = .mute := hm
  cases c
  case contend os =>
    change execContend os s = _
    simp only [execContend, muted, reduceCtorEq, false_and, if_false]
    rfl
  case sendAttemptEnd a o =>
    change execSendAttemptEnd a o s = _
    simp only [execSendAttemptEnd, muted]
    rfl
  case disturbance =>
    change Host.Outcome.next s.fresh.disturbed = _
    simp only [State.disturbed, muted]
    rfl
  case stallLimit =>
    change execStallLimit s = _
    simp only [execStallLimit, State.disturbed, muted]
    rfl
  case freeCondition =>
    change execFreeCondition s = _
    simp only [execFreeCondition, muted]
    rfl
  case holdLimit taken =>
    change execHoldLimit taken s = _
    simp only [execHoldLimit, muted]
    rfl
  case replySent =>
    change execReplySent s = _
    simp only [execReplySent, muted]
    rfl
  case serve cs =>
    change execServe cs s = _
    simp only [execServe, muted]
    cases s.fresh.store.serve <;> rfl
  all_goals cases hc

end

theorem command_kinds {c : Instr} (hr : isReset c = false) : bringsFrame c = true ∨ tenureWork c = true ∨ ownWork c = true := by
  cases c <;> first | exact .inl rfl | exact .inr (.inl rfl) | exact .inr (.inr rfl) | cases hr

theorem exec_mute {c : Instr} {s : State} (hm : s.link.state = .mute) (hr : isReset c = false) :
    ∃ t, exec c s = .next t ∧ t.link.state = .mute := by
  obtain hc | hc | hc := command_kinds hr
  · exact ⟨_, exec_bringsFrame_mute hm hc, hm⟩
  · exact ⟨_, exec_tenureWork_mute hm hc, hm⟩
  · obtain ⟨t, ht, hk⟩ := works_linkKept.exec c s hc
    exact ⟨t, ht, hk.state.trans hm⟩

/-! ## Offers in MUTE -/

namespace State

/-- R180: an offered frame is placed and given up without an attempt. -/
theorem offer_mute {s : State} (hm : s.link.state = .mute) (f : TxFrame) : s.offer f = (offeredMute f s, true) := by
  have wait (d : Directory) : d.startWait = if d.state = .enrolling then { d with enrolWait := true } else d := by
    unfold Directory.startWait
    split <;> simp [*]
  rw [offer, if_pos hm]
  cases f
  case enrol e =>
    simp only [atPlacing, giveUp, offeredMute, told, mapDir_eq, wait]
    split <;> rfl
  all_goals rfl

theorem offerSlot_mute {s : State} (hm : s.link.state = .mute) {i : SlotId} {rep : LineReport} {hd : LineHeader}
    (hs : (s.slots.get i).state = .reporting) (hr : (s.slots.get i).report = some rep) (hh : (s.slots.get i).header = some hd) :
    s.offerSlot i = (offeredMute (.report hd.requester rep) s).setSlots (s.slots.vacate i) := by
  unfold offerSlot
  simp only [slot_eq, hs, hr, hh, offer_mute hm, if_true]
  rfl

theorem reportEntries_mute {s : State} (hm : s.link.state = .mute) {which : QueueEntry → Option ReportMark} {m : ReportMark}
    {e : QueueEntry} (es : List QueueEntry) (he : which e = some m) :
    reportEntries which (e :: es) s = reportEntries which es (offeredMute (entryReport m e) s) := by
  have report : TxFrame.report e.header.requester (queueReport e m) = entryReport m e := by cases m <;> rfl
  rw [reportEntries, he]
  simp only [report, offer_mute hm, if_true]

/-- In MUTE every frame of ranges finds room, so that the list empties. -/
theorem offerWithdraws_mute {s : State} (hm : s.link.state = .mute) (n : Nat) (hn : s.dir.outgoing.length ≤ n) :
    offerWithdraws n s = s.setDir { s.dir with outgoing := [] } := by
  induction n generalizing s with
  | zero =>
    have none : s.dir.outgoing = [] := List.eq_nil_of_length_eq_zero (Nat.le_zero.1 hn)
    rw [offerWithdraws, ← none]
    rfl
  | succ n ih =>
    rw [offerWithdraws]
    split
    · rename_i he
      rw [← List.isEmpty_iff.1 he]
      rfl
    · rename_i he
      have shorter : (s.dir.outgoing.drop Config.withdrawRanges).length ≤ n := by
        have : 0 < s.dir.outgoing.length := List.length_pos_iff.2 (by simpa using he)
        simp only [List.length_drop, Config.withdrawRanges]
        omega
      simp only [offer_mute hm, if_true]
      exact ih hm shorter

theorem offerOutgoing_mute {s : State} (hm : s.link.state = .mute) : s.offerOutgoing = s.setDir { s.dir with outgoing := [] } :=
  offerWithdraws_mute hm _ (Nat.le_refl _)

theorem offerEnrol_mute {s : State} (hm : s.link.state = .mute) :
    s.offerEnrol = (s.setDir (if s.dir.state = .enrolling then { s.dir with enrolWait := true } else s.dir)).setLink
      { s.link with enrolWaits := false } := by
  unfold offerEnrol
  rw [offer_mute hm]
  simp only [offeredMute, told]
  split <;> rfl

end State

/-- Settles O60: the three kinds of commands in MUTE, and each offer that is given up. -/
theorem onlyAResetLeavesMute : Obligations.OnlyAResetLeavesMute := by
  refine ⟨fun c s hm hr => exec_mute hm hr, fun c s hm hc => ?_, fun s hm => ⟨State.offer_mute hm, fun d n => State.notify_mute hm d n,
    fun i rep hd hs hr hh => State.offerSlot_mute hm hs hr hh, fun which m e es he => State.reportEntries_mute hm es he,
    State.offerOutgoing_mute hm, State.offerEnrol_mute hm⟩⟩
  obtain hc | rfl | ⟨others, rfl⟩ := hc
  · exact exec_bringsFrame_mute hm hc
  · exact exec_tenureWork_mute hm rfl
  · exact exec_tenureWork_mute hm rfl

end Sys2Proof.Machine
end

section
/-! SUPPORT. An ENROL that arrives: one from another station is checked and answered, and a twin's makes the station MUTE, which gives up
every frame of its transmit queue and serves every owner that waited for room (R179, R180, R186). -/

namespace Sys2Proof.Machine

/-- The owner of a frame that is given up learns it: the frame was a report, a notice, or the ENROL of an ENROLLING directory. -/
def OwnerLearns (f : TxFrame) (s t : State) : Prop :=
  (∀ d r, f = .report d r → t.seq.acc.reportLost = true) ∧ (∀ d n, f = .notice d n → t.seq.acc.noticeLost = true) ∧
    ∀ e, f = .enrol e → s.dir.state = .enrolling → t.dir.enrolWait = true

theorem OwnerLearns.later {f : TxFrame} {s t u : State} (h : OwnerLearns f s t) (k : Quiet t u) : OwnerLearns f s u :=
  ⟨fun d r hf => k.acc.reportLost (h.1 d r hf), fun d n hf => k.acc.noticeLost (h.2.1 d n hf), fun e hf hd => k.wait (h.2.2 e hf hd)⟩

/-- What a frame given up leaves as it was. -/
structure Lost (s t : State) : Prop where
  link : t.link = s.link
  lines : t.lines = s.lines
  slots : t.slots = s.slots
  fetches : t.fetches = s.fetches
  out : t.out = s.out
  outgoing : t.dir.outgoing = s.dir.outgoing
  state : t.dir.state = s.dir.state

namespace Lost

theorem refl (s : State) : Lost s s := ⟨rfl, rfl, rfl, rfl, rfl, rfl, rfl⟩

theorem trans {s t u : State} (h : Lost s t) (k : Lost t u) : Lost s u :=
  ⟨k.link.trans h.link, k.lines.trans h.lines, k.slots.trans h.slots, k.fetches.trans h.fetches, k.out.trans h.out,
    k.outgoing.trans h.outgoing, k.state.trans h.state⟩

theorem mute {s t : State} (h : Lost s t) (hm : s.link.state = .mute) : t.link.state = .mute := by rw [h.link, hm]

end Lost

namespace State

/-! ## Frames given up -/

theorem giveUp_told (f : TxFrame) (s : State) : s.giveUp f = told f false s := by
  cases f
  case enrol e =>
    have wait : s.dir.startWait = if s.dir.state = .enrolling then { s.dir with enrolWait := true } else s.dir := by
      unfold Directory.startWait
      split <;> simp [*]
    simp only [giveUp, mapDir_eq, told, wait]
    split <;> rfl
  all_goals rfl

theorem told_lost (f : TxFrame) (b : Bool) (s : State) : Lost s (told f b s) := by
  cases f
  case withdraw => exact .refl s
  all_goals
    unfold told
    dsimp only
    split <;> constructor <;> rfl

theorem giveUp_lost (f : TxFrame) (s : State) : Lost s (s.giveUp f) := giveUp_told f s ▸ told_lost f false s

theorem giveUp_learns (f : TxFrame) (s : State) : OwnerLearns f s (s.giveUp f) := by
  rw [giveUp_told]
  refine ⟨?_, ?_, ?_⟩
  · rintro d r rfl
    rfl
  · rintro d n rfl
    rfl
  · rintro e rfl hd
    simp only [told, if_pos hd]

theorem giveUpAll_lost (q : List TxEntry) (s : State) : Lost s (q.foldl (fun s e => s.giveUp e.frame) s) := by
  induction q generalizing s with
  | nil => exact .refl s
  | cons e q ih => exact (giveUp_lost e.frame s).trans (ih _)

theorem giveUpAll_quiet (q : List TxEntry) (s : State) : Quiet s (q.foldl (fun s e => s.giveUp e.frame) s) := by
  induction q generalizing s with
  | nil => exact .refl s
  | cons e q ih => exact (giveUp_quiet e.frame s).trans (ih _)

theorem giveUpAll_learns (q : List TxEntry) (s : State) :
    ∀ e ∈ q, OwnerLearns e.frame s (q.foldl (fun s e => s.giveUp e.frame) s) := by
  induction q generalizing s with
  | nil => simp
  | cons x q ih =>
    intro e he
    rcases List.mem_cons.1 he with rfl | he
    · exact (giveUp_learns e.frame s).later (giveUpAll_quiet q _)
    · have later := ih (s.giveUp x.frame) e he
      exact ⟨later.1, later.2.1, fun f hf hd => later.2.2 f hf ((giveUp_lost x.frame s).state.trans hd)⟩

theorem offeredMute_lost (f : TxFrame) (s : State) : Lost s (offeredMute f s) := by
  refine Lost.trans ?_ (told_lost f false _)
  constructor <;> rfl

theorem offeredMute_report (d : Nat) (r : LineReport) (s : State) : (offeredMute (.report d r) s).seq.acc.reportLost = true := rfl

/-! ## Room in MUTE -/

section
variable {s : State} (hm : s.link.state = .mute)
include hm

theorem offer_mute_lost (f : TxFrame) : Lost s (s.offer f).1 := offer_mute hm f ▸ offeredMute_lost f s

theorem offerSlot_mute_link (i : SlotId) : (s.offerSlot i).link = s.link := by
  unfold offerSlot
  split
  · dsimp only
    split
    · exact (offer_mute_lost hm _).link
    · rfl
  · rfl

end

/-- What the offer of one slot's report leaves of everything but that slot. -/
theorem offerSlot_leaves {s : State} (hm : s.link.state = .mute) (i : SlotId) :
    (s.offerSlot i).lines = s.lines ∧ (s.offerSlot i).fetches = s.fetches ∧ (s.offerSlot i).out = s.out ∧
      (s.offerSlot i).dir.outgoing = s.dir.outgoing ∧
      ∀ j, j ≠ i → (s.offerSlot i).slots.get j = s.slots.get j := by
  unfold offerSlot
  split
  · rename_i rep hd _ _ _
    have lost := offer_mute_lost hm (.report hd.requester rep)
    dsimp only
    split
    · refine ⟨lost.lines, lost.fetches, lost.out, lost.outgoing, fun j hj => ?_⟩
      rw [slots_setSlots, Slots.get_vacate, if_neg hj, lost.slots]
    · exact ⟨rfl, rfl, rfl, rfl, fun _ _ => rfl⟩
  · exact ⟨rfl, rfl, rfl, rfl, fun _ _ => rfl⟩

/-- A REPORTING slot with its report. -/
def HoldsReport (t : Slot) : Prop := t.state = .reporting ∧ t.report ≠ none ∧ t.header ≠ none

theorem offerSlot_mute_vacant {s : State} (hm : s.link.state = .mute) {i : SlotId} (h : HoldsReport (s.slots.get i)) :
    (s.offerSlot i).slots.get i = .vacant ∧ (s.offerSlot i).seq.acc.reportLost = true := by
  obtain ⟨hs, hr, hh⟩ := h
  obtain ⟨rep, hr⟩ := Option.ne_none_iff_exists'.1 hr
  obtain ⟨hd, hh⟩ := Option.ne_none_iff_exists'.1 hh
  rw [offerSlot_mute hm hs hr hh]
  refine ⟨?_, offeredMute_report hd.requester rep s⟩
  rw [slots_setSlots, Slots.get_vacate, if_pos rfl]

theorem reportEntries_keeps {which : QueueEntry → Option ReportMark} {e : QueueEntry} (es : List QueueEntry) (s : State)
    (he : which e = none) :
    reportEntries which (e :: es) s = (e :: (reportEntries which es s).1, (reportEntries which es s).2) := by
  rw [reportEntries, he]

theorem reportEntries_mute_lost {s : State} (hm : s.link.state = .mute) (which : QueueEntry → Option ReportMark)
    (es : List QueueEntry) :
    Lost s (reportEntries which es s).2 ∧ (reportEntries which es s).1 = es.filter (fun e => which e == none) ∧
      ((∃ e ∈ es, which e ≠ none) → (reportEntries which es s).2.seq.acc.reportLost = true) := by
  induction es generalizing s with
  | nil => exact ⟨.refl s, rfl, by simp⟩
  | cons e es ih =>
    cases he : which e with
    | none =>
      rw [reportEntries_keeps es s he]
      obtain ⟨lost, kept, told⟩ := ih hm
      refine ⟨lost, by simp [he, kept], fun ⟨x, hx, hw⟩ => ?_⟩
      rcases List.mem_cons.1 hx with rfl | hx
      · exact absurd he hw
      · exact told ⟨x, hx, hw⟩
    | some m =>
      rw [reportEntries_mute hm es he]
      have first := offeredMute_lost (entryReport m e) s
      obtain ⟨lost, kept, -⟩ := ih (first.mute hm)
      refine ⟨first.trans lost, by simp [he, kept], fun _ => ?_⟩
      exact (reportEntries_quiet which es _).acc.reportLost (offeredMute_report _ _ s)

/-- R179, R180: a MUTE station serves every owner that waited for room. -/
theorem gainRoom_mute {s : State} (hm : s.link.state = .mute) :
    s.gainRoom.link = { s.link with enrolWaits := false } ∧ s.gainRoom.fetches = s.fetches ∧ s.gainRoom.out = s.out ∧
      s.gainRoom.dir.outgoing = [] ∧ s.gainRoom.lines = s.lines.filter (fun e => e.mark == none) ∧
      (∀ e ∈ s.lines, e.mark ≠ none → s.gainRoom.seq.acc.reportLost = true) ∧
      (∀ i, HoldsReport (s.slots.get i) → s.gainRoom.slots.get i = .vacant ∧ s.gainRoom.seq.acc.reportLost = true) ∧
      (s.link.enrolWaits = true ∧ s.dir.state = .enrolling → s.gainRoom.dir.enrolWait = true) := by
  obtain ⟨a, ha⟩ : ∃ a, a = if s.link.enrolWaits then s.offerEnrol else s := ⟨_, rfl⟩
  obtain ⟨b, hb⟩ : ∃ b, b = a.offerOutgoing := ⟨_, rfl⟩
  obtain ⟨c, hc⟩ : ∃ c, c = b.offerSlot b.slots.older := ⟨_, rfl⟩
  obtain ⟨d, hd⟩ : ∃ d, d = c.offerSlot b.slots.older.other := ⟨_, rfl⟩
  have gained : s.gainRoom = d.reportLines QueueEntry.mark := by
    rw [hd, hc, hb, ha]
    rfl
  have aIs : a.link = { s.link with enrolWaits := false } ∧ a.fetches = s.fetches ∧ a.out = s.out ∧ a.lines = s.lines ∧
      a.slots = s.slots ∧ (s.link.enrolWaits = true ∧ s.dir.state = .enrolling → a.dir.enrolWait = true) := by
    rw [ha]
    split
    · rw [offerEnrol_mute hm]
      exact ⟨rfl, rfl, rfl, rfl, rfl, fun h => by simp [h.2]⟩
    · rename_i hw
      refine ⟨?_, rfl, rfl, rfl, rfl, fun h => absurd h.1 hw⟩
      rw [← Bool.eq_false_iff.2 hw]
  obtain ⟨aLink, aFetches, aOut, aLines, aSlots, aWait⟩ := aIs
  have aMute : a.link.state = .mute := by rw [aLink, ← hm]
  have bIs : b = a.setDir { a.dir with outgoing := [] } := hb.trans (offerOutgoing_mute aMute)
  have bMute : b.link.state = .mute := by rw [bIs]; exact aMute
  have bSlots : b.slots = s.slots := by rw [bIs]; exact aSlots
  have bOutgoing : b.dir.outgoing = [] := by rw [bIs]; rfl
  have bLink : b.link = { s.link with enrolWaits := false } := by rw [bIs]; exact aLink
  have bFetches : b.fetches = s.fetches := by rw [bIs]; exact aFetches
  have bOut : b.out = s.out := by rw [bIs]; exact aOut
  have bLines : b.lines = s.lines := by rw [bIs]; exact aLines
  have cLink : c.link = b.link := hc ▸ offerSlot_mute_link bMute _
  have cMute : c.link.state = .mute := by rw [cLink, bMute]
  have dLink : d.link = c.link := hd ▸ offerSlot_mute_link cMute _
  have dMute : d.link.state = .mute := by rw [dLink, cMute]
  obtain ⟨cLines, cFetches, cOut, cOutgoing, cOther⟩ := offerSlot_leaves bMute b.slots.older
  rw [← hc] at cLines cFetches cOut cOutgoing cOther
  obtain ⟨dLines, dFetches, dOut, dOutgoing, dOther⟩ := offerSlot_leaves cMute b.slots.older.other
  rw [← hd] at dLines dFetches dOut dOutgoing dOther
  obtain ⟨lost, kept, marked⟩ := reportEntries_mute_lost dMute QueueEntry.mark d.lines
  have served : Quiet d (d.reportLines QueueEntry.mark) := reportLines_quiet _ d
  have lines : d.lines = s.lines := dLines.trans (cLines.trans bLines)
  rw [gained]
  refine ⟨?_, ?_, ?_, ?_, ?_, fun e he hmark => ?_, fun i hi => ?_, fun h => ?_⟩
  · exact lost.link.trans (dLink.trans (cLink.trans bLink))
  · exact lost.fetches.trans (dFetches.trans (cFetches.trans bFetches))
  · exact lost.out.trans (dOut.trans (cOut.trans bOut))
  · exact lost.outgoing.trans (dOutgoing.trans (cOutgoing.trans bOutgoing))
  · rw [← lines]
    exact kept
  · exact marked ⟨e, lines ▸ he, hmark⟩
  · have slots : (d.reportLines QueueEntry.mark).slots = d.slots := lost.slots
    rw [slots]
    by_cases older : i = b.slots.older
    · obtain ⟨vacated, told⟩ := offerSlot_mute_vacant bMute (i := i) (bSlots ▸ hi)
      rw [older] at vacated told
      refine ⟨?_, served.acc.reportLost (hd ▸ (offerSlot_quiet _ c).acc.reportLost (hc ▸ told))⟩
      rw [dOther i (older ▸ (SlotId.other_ne _).symm), older, hc]
      exact vacated
    · have younger : i = b.slots.older.other := by
        revert older
        cases i <;> cases b.slots.older <;> simp [SlotId.other]
      have holds : HoldsReport (c.slots.get i) := by
        rw [cOther i older, bSlots]
        exact hi
      rw [younger] at holds ⊢
      obtain ⟨vacated, told⟩ := offerSlot_mute_vacant cMute holds
      rw [← hd] at vacated told
      exact ⟨vacated, served.acc.reportLost told⟩
  · have waits : b.dir.enrolWait = true := by rw [bIs]; exact aWait h
    exact served.wait (hd ▸ (offerSlot_quiet _ c).wait (hc ▸ (offerSlot_quiet _ b).wait waits))

end State

/-! ## ENROL -/

theorem enrolOk_iff (src station banks records : Nat) :
    State.enrolOk src station banks records = true ↔ station = src ∧ 1 ≤ banks ∧ banks ≤ 8 ∧ records ≤ 2048 := by
  simp [State.enrolOk, and_assoc]

/-- R186: only this station's own number, in a frame that arrives, is a twin's. -/
theorem twinHeard_iff {h : Hdr} {s : State} (ha : Arrives h s) : s.twinHeard h = true ↔ h.src = s.straps.station := by
  obtain ⟨hl, h0, hd⟩ := ha
  have listens := (State.listening_iff s).2 hl
  have here := (State.addressed_iff h s).2 hd
  simp [State.twinHeard, listens, here, h0, State.own_eq]

theorem exec_enrol_other {h : Hdr} {s : State} (ha : Arrives h s) (hn : h.src ≠ s.straps.station) (station banks records : Nat)
    (spare head : Bool) :
    exec (.enrol h station banks spare head records) s =
      .next (answers (State.enrolOk h.src station banks records) (arrived h s)) := by
  change execEnrol h station banks spare head records s = _
  rw [execEnrol, if_neg (mt (twinHeard_iff ha).1 hn), State.receive_plain ha rfl]

theorem exec_enrol_twin {h : Hdr} {s : State} (ha : Arrives h s) (hn : h.src = s.straps.station) (station banks records : Nat)
    (spare head : Bool) : exec (.enrol h station banks spare head records) s = .next s.fresh.enterMute :=
  if_pos ((twinHeard_iff ha).2 hn)

/-- The station as it enters MUTE, before its owners learn of it. -/
def muteBegun (s : State) : State :=
  (s.fresh.setFetches
    (s.fetches.map fun f => if f.state = .exchanging then { f with state := .waitingLink } else f)).setLink
    { s.link with state := .mute, free := false, tenure := .none, queue := [], exchange := none, requester := none, reply := none }

/-- Settles O9: the checks of a foreign ENROL, and for a twin's the frames given up one by one, then the room in MUTE. -/
theorem enrolIsAnsweredOrMutes : Obligations.EnrolIsAnsweredOrMutes := by
  refine ⟨fun h station banks records spare head s ha hn => ⟨fun ok => ?_, fun bad => ?_⟩,
    fun h station banks records spare head s ha hn => ⟨_, exec_enrol_twin ha hn station banks records spare head, ?_⟩⟩
  · rw [exec_enrol_other ha hn, (enrolOk_iff ..).2 ok]
  · rw [exec_enrol_other ha hn, Bool.eq_false_iff.2 (mt (enrolOk_iff ..).1 bad)]
  · have lost := State.giveUpAll_lost s.link.queue (muteBegun s)
    have entered : s.fresh.enterMute = (s.link.queue.foldl (fun s e => s.giveUp e.frame) (muteBegun s)).gainRoom := rfl
    obtain ⟨link, fetches, out, outgoing, lines, marked, slots, wait⟩ := State.gainRoom_mute (lost.mute rfl)
    rw [entered]
    refine ⟨?_, ?_, ?_, out.trans lost.out, fetches.trans lost.fetches, fun e he => ?_, fun e he => ?_, outgoing, ?_, fun e he hmark => ?_,
      fun i hs hr hh => ?_, fun hw => ?_⟩
    · rw [link, lost.link]
      rfl
    · rw [link, lost.link]
      rfl
    · rw [link, lost.link]
      rfl
    · exact (State.giveUpAll_learns s.link.queue (muteBegun s) e he).later (State.gainRoom_quiet _)
    · rw [lines] at he
      simpa using (List.mem_filter.1 he).2
    · rw [link]
    · exact marked e (lost.lines ▸ he) hmark
    · exact slots i (lost.slots ▸ ⟨hs, hr, hh⟩)
    · exact wait ⟨by rw [lost.link]; exact hw.1, lost.state.trans hw.2⟩

end Sys2Proof.Machine
end

section
/-! SUPPORT. What this station sends: the contention by arbitration field (R168), the frame that CONTEND chooses (R65, R178), and the order
of the transmit queue (R177). -/

namespace Sys2Proof.Machine

/-! ## Contention -/

/-- A list of bits as a number, its first bit the most significant. -/
def bitsValue : List Bool → Nat
  | [] => 0
  | b :: bs => b.toNat * 2 ^ bs.length + bitsValue bs

theorem bitsValue_lt (l : List Bool) : bitsValue l < 2 ^ l.length := by
  induction l with
  | nil => simp [bitsValue]
  | cons b bs ih =>
    have bit : b.toNat ≤ 1 := Bool.toNat_le b
    have high : b.toNat * 2 ^ bs.length ≤ 1 * 2 ^ bs.length := Nat.mul_le_mul_right _ bit
    simp only [bitsValue, List.length_cons, Nat.pow_succ]
    omega

theorem bitsValue_append (l k : List Bool) : bitsValue (l ++ k) = bitsValue l * 2 ^ k.length + bitsValue k := by
  induction l with
  | nil => simp [bitsValue]
  | cons b bs ih =>
    simp only [List.cons_append, bitsValue, ih, List.length_append, Nat.pow_add]
    rw [Nat.add_mul, Nat.mul_assoc, Nat.add_assoc]

@[simp] theorem length_bitsOf (n v : Nat) : (bitsOf n v).length = n := by
  induction n with
  | zero => rfl
  | succ n ih => simp [bitsOf, ih]

theorem bitsValue_bitsOf (n v : Nat) : bitsValue (bitsOf n v) = v % 2 ^ n := by
  induction n with
  | zero => simp [bitsOf, bitsValue, Nat.mod_one]
  | succ n ih =>
    rw [bitsOf, bitsValue, ih, length_bitsOf, Nat.toNat_testBit, Nat.mod_pow_succ, Nat.add_comm, Nat.mul_comm]

theorem bitsValue_arbBits {a : Arb} (h : a.wf = true) : bitsValue (arbBits a) = arbValue a := by
  simp only [Arb.wf, fits, Bool.and_eq_true, decide_eq_true_eq] at h
  obtain ⟨⟨hcls, hkind⟩, hsrc⟩ := h
  simp only [arbBits, bitsValue_append, bitsValue_bitsOf, length_bitsOf, Nat.mod_eq_of_lt hcls, Nat.mod_eq_of_lt hkind,
    Nat.mod_eq_of_lt hsrc, arbValue]
  omega

namespace State

/-- R168, bit by bit: a low bit drops the stations that send a high one, and a high bit stands only while every station sends one. -/
theorem unbeaten_iff (mine : List Bool) (others : List (List Bool)) (h : ∀ o ∈ others, o.length = mine.length) :
    unbeaten mine others = true ↔ ∀ o ∈ others, bitsValue mine ≤ bitsValue o := by
  induction mine generalizing others with
  | nil => simp [unbeaten, bitsValue]
  | cons b bs ih =>
    have split : ∀ o ∈ others, ∃ c cs, o = c :: cs ∧ cs.length = bs.length := by
      intro o ho
      obtain ⟨c, cs, rfl⟩ := List.exists_cons_of_length_eq_add_one (h o ho)
      exact ⟨c, cs, rfl, by simpa using h _ ho⟩
    have rest (read : Bool) : ∀ o ∈ ((others.filter fun o => o.headD true == read).map List.tail), o.length = bs.length := by
      intro o ho
      obtain ⟨o', ho', rfl⟩ := List.mem_map.1 ho
      simp [h o' (List.mem_filter.1 ho').1]
    have low := bitsValue_lt bs
    cases b
    case false =>
      simp only [unbeaten, Bool.false_and, beq_self_eq_true, if_true]
      rw [ih _ (rest false)]
      refine ⟨fun lower o ho => ?_, fun lower o ho => ?_⟩
      · obtain ⟨c, cs, rfl, hcs⟩ := split o ho
        cases c
        case true => simp [bitsValue, hcs]; omega
        case false => simpa [bitsValue] using lower cs (List.mem_map.2 ⟨_, List.mem_filter.2 ⟨ho, rfl⟩, rfl⟩)
      · obtain ⟨o', ho', rfl⟩ := List.mem_map.1 ho
        obtain ⟨hmem, hread⟩ := List.mem_filter.1 ho'
        obtain ⟨c, cs, rfl, hcs⟩ := split o' hmem
        obtain rfl : c = false := by simpa using hread
        simpa [bitsValue] using lower _ hmem
    case true =>
      by_cases all : ∀ o ∈ others, o.headD true = true
      · have every : (others.all fun o => o.headD true) = true := List.all_eq_true.2 all
        simp only [unbeaten, Bool.true_and, every, beq_self_eq_true, if_true]
        rw [ih _ (rest true)]
        refine ⟨fun lower o ho => ?_, fun lower o ho => ?_⟩
        · obtain ⟨c, cs, rfl, hcs⟩ := split o ho
          obtain rfl : c = true := all _ ho
          have := lower cs (List.mem_map.2 ⟨_, List.mem_filter.2 ⟨ho, rfl⟩, rfl⟩)
          simpa [bitsValue, hcs] using this
        · obtain ⟨o', ho', rfl⟩ := List.mem_map.1 ho
          obtain ⟨hmem, -⟩ := List.mem_filter.1 ho'
          obtain ⟨c, cs, rfl, hcs⟩ := split o' hmem
          obtain rfl : c = true := all _ hmem
          simpa [bitsValue, hcs] using lower _ hmem
      · have notAll : (others.all fun o => o.headD true) = false := Bool.eq_false_iff.2 (mt List.all_eq_true.1 all)
        simp only [unbeaten, Bool.true_and, notAll]
        refine iff_of_false (by simp) fun lower => all fun o ho => ?_
        obtain ⟨c, cs, rfl, hcs⟩ := split o ho
        have below := lower _ ho
        cases c
        case true => rfl
        case false =>
          have short := bitsValue_lt cs
          simp only [bitsValue, Bool.toNat_true, Bool.toNat_false, Nat.one_mul, Nat.zero_mul, Nat.zero_add, ← hcs] at below
          omega

end State

/-- Settles O11: the arbitration field of a well-formed frame is the ten bits of its number. -/
theorem lowestArbitrationFieldWins : Obligations.LowestArbitrationFieldWins := by
  intro mine others hm ho
  have lengths : ∀ o ∈ others.map arbBits, o.length = (arbBits mine).length := by simp [arbBits]
  rw [State.wins, State.unbeaten_iff _ _ lengths, List.forall_mem_map, bitsValue_arbBits hm]
  exact forall₂_congr fun o h => by rw [bitsValue_arbBits (ho o h)]

/-! ## CONTEND -/

theorem exec_contend {s t : State} {c : Tenure × RawFrame} (hi : s.link.state = .idle) (hf : s.link.free = true)
    (ht : s.fresh.beginExchange = t) (hc : t.chosen = some c) (others : List Arb) :
    exec (.contend others) s = .next (t.contendWith others c.1 c.2) := by
  change execContend others s = _
  have ready : s.fresh.link.state = .idle ∧ s.fresh.link.free = true := ⟨hi, hf⟩
  simp only [execContend, if_pos ready, ht, hc]

theorem beginExchange_exchange {s : State} {x : Exchange} (h : s.link.exchange = some x) : s.beginExchange = s := by
  simp only [State.beginExchange, h]

theorem beginExchange_waiting {s : State} {f : Fetch} (h : s.link.exchange = none) (hf : s.oldestWaiting = some f) :
    s.beginExchange = s.takeEntry f := by
  simp only [State.beginExchange, h, hf]

theorem beginExchange_none {s : State} (h : s.link.exchange = none) (hf : s.oldestWaiting = none) : s.beginExchange = s := by
  simp only [State.beginExchange, h, hf]

theorem contendWith_won {others : List Arb} (f : RawFrame) (hw : State.wins (State.RawFrame.arb f) others = true) (t : Tenure)
    (s : State) : s.contendWith others t f =
      (s.mapLink fun l => { State.countAttempt t l with state := .sending, free := false, tenure := t }).emitFrame f := if_pos hw

theorem contendWith_lost {others : List Arb} (f : RawFrame) (hw : State.wins (State.RawFrame.arb f) others = false) (t : Tenure)
    (s : State) : s.contendWith others t f = s.mapLink fun l => { l with state := .busyOther, free := false } :=
  if_neg (Bool.eq_false_iff.1 hw)

/-- Settles O12, from the exchange in progress and from the oldest waiting entry. -/
theorem contendTakesTheOldestFetch : Obligations.ContendTakesTheOldestFetch := by
  refine ⟨fun others s f hi hf hx hw => ?_, fun others s x hi hf hx => ?_⟩
  · refine ⟨_, exec_contend (c := (.fetch, fetchFrame s.own f.target f.key)) hi hf (beginExchange_waiting hx hw) rfl others, ?_⟩
    cases won : State.wins (State.RawFrame.arb (fetchFrame s.own f.target f.key)) others
    case true =>
      rw [contendWith_won _ won]
      exact ⟨rfl, rfl, rfl, fun _ => ⟨rfl, rfl, rfl, rfl⟩, fun lost => absurd (won.symm.trans lost) (by simp)⟩
    case false =>
      rw [contendWith_lost _ won]
      exact ⟨rfl, rfl, rfl, fun win => absurd (won.symm.trans win) (by simp), fun _ => ⟨rfl, rfl, rfl, rfl⟩⟩
  · have chosen : s.fresh.chosen = some (.fetch, fetchFrame s.own x.target x.key) := by
      simp only [State.chosen, State.fresh_eq, State.link_setOut, hx]
      rfl
    have contends := exec_contend hi hf (beginExchange_exchange (s := s.fresh) hx) chosen others
    refine ⟨fun won => ?_, fun lost => ?_⟩
    · rw [contends, contendWith_won (fetchFrame s.own x.target x.key) won]
      simp only [State.mapLink_eq, State.countAttempt, State.fresh_eq, State.link_setOut, hx]
      rfl
    · rw [contends, contendWith_lost (fetchFrame s.own x.target x.key) lost]
      rfl

/-! ## The order of the transmit queue -/

namespace State

/-- R177: a frame goes behind those of its class or a lower one, before those of a higher. -/
theorem insertTx_eq (e : TxEntry) (q : List TxEntry) :
    insertTx e q = q.takeWhile (fun x => decide (x.frame.cls ≤ e.frame.cls)) ++
      e :: q.dropWhile (fun x => decide (x.frame.cls ≤ e.frame.cls)) := by
  induction q with
  | nil => rfl
  | cons x xs ih =>
    by_cases hx : e.frame.cls < x.frame.cls
    · simp [insertTx, hx, Nat.not_le.2 hx]
    · simp [insertTx, hx, Nat.not_lt.1 hx, ih]

/-- In a queue in order the frames of the lower classes stand first. -/
theorem insertTx_ordered (e : TxEntry) {q : List TxEntry} (hq : q.Pairwise fun x y => x.frame.cls ≤ y.frame.cls) :
    (insertTx e q).Pairwise (fun x y => x.frame.cls ≤ y.frame.cls) ∧
      insertTx e q = q.filter (fun x => decide (x.frame.cls ≤ e.frame.cls)) ++
        e :: q.filter (fun x => decide (e.frame.cls < x.frame.cls)) := by
  induction q with
  | nil => simp [insertTx]
  | cons x xs ih =>
    obtain ⟨first, later⟩ := List.pairwise_cons.1 hq
    obtain ⟨ordered, parts⟩ := ih later
    by_cases hx : e.frame.cls < x.frame.cls
    · have above : ∀ y ∈ xs, e.frame.cls < y.frame.cls := fun y hy => Nat.lt_of_lt_of_le hx (first y hy)
      have none : xs.filter (fun y => decide (y.frame.cls ≤ e.frame.cls)) = [] :=
        List.filter_eq_nil_iff.2 fun y hy => by simpa using above y hy
      have all : xs.filter (fun y => decide (e.frame.cls < y.frame.cls)) = xs :=
        List.filter_eq_self.2 fun y hy => by simpa using above y hy
      refine ⟨?_, by simp [insertTx, hx, Nat.not_le.2 hx, none, all]⟩
      simp only [insertTx, if_pos hx]
      refine List.pairwise_cons.2 ⟨fun y hy => ?_, hq⟩
      rcases List.mem_cons.1 hy with rfl | hy
      · exact Nat.le_of_lt hx
      · exact Nat.le_of_lt (above y hy)
    · have below := Nat.not_lt.1 hx
      refine ⟨?_, by simp [insertTx, hx, below, parts]⟩
      simp only [insertTx, if_neg hx]
      refine List.pairwise_cons.2 ⟨fun y hy => ?_, ordered⟩
      rcases (mem_insertTx y e xs).1 hy with rfl | hy
      · exact below
      · exact first y hy

end State

/-- Settles O13: with no fetch to send the first frame is chosen, and `insertTx` keeps the order of the classes. -/
theorem contendSendsTheFirstQueuedFrame : Obligations.ContendSendsTheFirstQueuedFrame := by
  refine ⟨fun others s e es hi hf hx hw hq => ?_, fun e q => ⟨State.insertTx_eq e q, State.insertTx_ordered e⟩⟩
  have none : s.fresh.oldestWaiting = none := List.find?_eq_none.2 fun g hg => by simpa using hw g hg
  have chosen : s.fresh.chosen = some (.frame, e.frame.raw s.own) := by
    simp only [State.chosen, State.fresh_eq, State.link_setOut, hx, hq]
    rfl
  have contends := exec_contend hi hf (beginExchange_none (s := s.fresh) hx none) chosen others
  refine ⟨fun won => ?_, fun lost => ?_⟩
  · rw [contends, contendWith_won (e.frame.raw s.own) won]
    simp only [State.mapLink_eq, State.countAttempt, State.fresh_eq, State.link_setOut, hq]
    rfl
  · rw [contends, contendWith_lost (e.frame.raw s.own) lost]
    rfl

end Sys2Proof.Machine
end

section
/-! SUPPORT. The ends of this station's attempts: a frame or an exchange that is kept for another attempt, an exchange that is given up, a
frame that leaves the transmit queue, and the room that is then offered (R58, R101, R173, R175 to R179). -/

namespace Sys2Proof.Machine

namespace State

/-! ## The end of a tenure -/

/-- The station has left its own tenure for a state. -/
def tenureLeft (next : LinkState) (s : State) : State := s.setLink { s.link with state := next, tenure := .none, free := false }

theorem endTenure_fetch {s : State} (h : s.link.tenure = .fetch) (next : LinkState) (a : AttemptEnd) :
    s.endTenure next a = (s.tenureLeft next).exchangeAttempt a := by
  simp only [endTenure, h]
  rfl

theorem endTenure_frame {s : State} (h : s.link.tenure = .frame) (next : LinkState) (a : AttemptEnd) :
    s.endTenure next a = (s.tenureLeft next).frameAttempt a := by
  simp only [endTenure, h]
  rfl

section
variable {s : State} {x : Exchange} (hx : s.link.exchange = some x)
include hx

theorem exchangeAttempt_kept (hn : x.attempts < 8) (last : ExchangeOutcome) : s.exchangeAttempt (.failed last) = s := by
  simp only [exchangeAttempt, hx]
  exact if_neg (Nat.not_le.2 hn)

theorem exchangeAttempt_eighth (hn : 8 ≤ x.attempts) (last : ExchangeOutcome) :
    s.exchangeAttempt (.failed last) = s.takeOutcome x last := by
  simp only [exchangeAttempt, hx]
  exact if_pos hn

theorem exchangeAttempt_silent : s.exchangeAttempt .silent = s.takeOutcome x .absent := by simp only [exchangeAttempt, hx]

end

section
variable {s : State} {e : TxEntry} (he : s.link.queue.find? (fun x => x.onLink) = some e)
include he

theorem frameAttempt_kept (hn : e.attempts < 8) (last : ExchangeOutcome) : s.frameAttempt (.failed last) = s.frameStays := by
  simp only [frameAttempt, onLink, he]
  exact if_neg (Nat.not_le.2 hn)

theorem frameAttempt_eighth (hn : 8 ≤ e.attempts) (last : ExchangeOutcome) :
    s.frameAttempt (.failed last) = s.frameLeaves e false := by
  simp only [frameAttempt, onLink, he]
  exact if_pos hn

end

/-! ## Exchanges given up -/

theorem takeOutcome_marked_quiet (x : Exchange) {o : ExchangeOutcome} (ho : o = .absent ∨ o = .refused) (s : State) :
    Quiet (targetMarked x s) (s.takeOutcome x o) := by
  have marked : (s.mapLink fun l => { l with exchange := none, tenure := .none }).markOutcome x o = targetMarked x s := by
    rcases ho with rfl | rfl <;> rfl
  unfold takeOutcome
  simp only [marked]
  split
  · exact takeDetached_quiet _ _ _
  · split
    · exact takeAttached_quiet _ _ _
    · exact .refl _

/-- An exchange that ends as ABSENT or REFUSED, after its tenure: what the link and the directory hold, and what its fetch takes. -/
theorem takeOutcome_ends (x : Exchange) {o : ExchangeOutcome} (ho : o = .absent ∨ o = .refused) (next : LinkState) (s : State) :
    ((s.tenureLeft next).takeOutcome x o).link.state = next ∧ ((s.tenureLeft next).takeOutcome x o).link.tenure = .none ∧
      ((s.tenureLeft next).takeOutcome x o).link.exchange = none ∧
      ((s.tenureLeft next).takeOutcome x o).dir.absent = s.dir.absent.set x.target true ∧
      GivenUp x (targetMarked x { s with link := { s.link with state := next, free := false } })
        ((s.tenureLeft next).takeOutcome x o) := by
  have quiet := takeOutcome_marked_quiet x ho (s.tenureLeft next)
  exact ⟨quiet.linkState, quiet.linkTenure, quiet.linkExchange, quiet.dirAbsent, takeOutcome_givenUp x o (s.tenureLeft next) ho⟩

end State

/-! ## The answer slots -/

theorem exec_sendAttemptEnd {s : State} (hs : s.link.state = .sending ∨ s.link.state = .awaitAnswer) (ack object : Bool) :
    exec (.sendAttemptEnd ack object) s =
      if s.link.tenure = .fetch ∧ ack ∧ !object then .next (s.fresh.mapLink fun l => { l with state := .awaitReply })
      else .next (s.fresh.endTenure .idle (State.attemptEnd s.fresh.sendsToAll ack object)) := by
  change execSendAttemptEnd ack object s = _
  unfold execSendAttemptEnd
  dsimp only
  split
  · rfl
  · rfl
  · rename_i sending awaiting
    exact (hs.elim sending awaiting).elim

theorem exec_sendAttemptEnd_object {s : State} (hs : s.link.state = .sending ∨ s.link.state = .awaitAnswer) (ack : Bool) :
    exec (.sendAttemptEnd ack true) s = .next (s.fresh.endTenure .idle (.failed .refused)) := by
  rw [exec_sendAttemptEnd hs, if_neg (by simp)]
  rfl

/-- Settles O14, by the kinds of an attempt's end: kept, awaiting its reply, or given up with the outcome REFUSED or ABSENT. -/
theorem objectRetriesAndFetchAnswers : Obligations.ObjectRetriesAndFetchAnswers := by
  refine ⟨fun ack s hs => ⟨fun e ht he hn => ?_, fun x ht hx hn => ?_, fun x ht hx hn => ?_⟩, fun s x hs ht hx => ⟨?_, ?_⟩⟩
  · rw [exec_sendAttemptEnd_object hs, State.endTenure_frame (s := s.fresh) ht,
      State.frameAttempt_kept (s := s.fresh.tenureLeft .idle) he hn]
    rfl
  · rw [exec_sendAttemptEnd_object hs, State.endTenure_fetch (s := s.fresh) ht,
      State.exchangeAttempt_kept (s := s.fresh.tenureLeft .idle) hx hn]
    rfl
  · obtain ⟨state, tenure, exchange, absent, given⟩ := State.takeOutcome_ends x (o := .refused) (.inr rfl) .idle s.fresh
    refine ⟨_, exec_sendAttemptEnd_object hs ack, ?_⟩
    rw [State.endTenure_fetch (s := s.fresh) ht, State.exchangeAttempt_eighth (s := s.fresh.tenureLeft .idle) hx hn]
    exact ⟨state, tenure, exchange, absent, given⟩
  · rw [exec_sendAttemptEnd hs, if_pos ⟨ht, rfl, rfl⟩]
    rfl
  · have alone : s.fresh.sendsToAll = false := by simp only [State.sendsToAll, State.fresh_eq, State.link_setOut, ht]
    obtain ⟨state, tenure, exchange, absent, given⟩ := State.takeOutcome_ends x (o := .absent) (.inl rfl) .idle s.fresh
    refine ⟨_, (exec_sendAttemptEnd hs false false).trans (if_neg (by simp)), ?_⟩
    rw [alone, State.endTenure_fetch (s := s.fresh) ht]
    rw [show State.attemptEnd false false false = .silent from rfl,
      State.exchangeAttempt_silent (s := s.fresh.tenureLeft .idle) hx]
    exact ⟨state, exchange, absent, given⟩

/-! ## Frames that leave the queue -/

namespace State

theorem delivered_told (f : TxFrame) (s : State) : s.delivered f = told f true s := by
  cases f
  case enrol e => exact giveUp_told (.enrol e) s
  all_goals rfl

/-- The frame being attempted is in the queue no more. -/
def withoutAttempted (s : State) : State := s.setLink { s.link with queue := s.link.queue.filter fun x => !x.onLink }

theorem frameLeaves_told (e : TxEntry) (given : Bool) (s : State) :
    s.frameLeaves e given = (told e.frame given s.withoutAttempted).gainRoom.settle := by
  cases given
  case false => exact congrArg (fun u => settle (gainRoom u)) (giveUp_told e.frame s.withoutAttempted)
  case true => exact congrArg (fun u => settle (gainRoom u)) (delivered_told e.frame s.withoutAttempted)

theorem told_quiet (f : TxFrame) (b : Bool) (s : State) : Quiet s (told f b s) := by
  cases b
  case false => exact giveUp_told f s ▸ giveUp_quiet f s
  case true => exact delivered_told f s ▸ delivered_quiet f s

theorem told_seqState (f : TxFrame) (b : Bool) (s : State) : (told f b s).seq.state = s.seq.state := by
  cases f
  case withdraw => rfl
  all_goals
    unfold told
    dsimp only
    split <;> rfl

/-- The owner of a frame that leaves the queue learns that it was given up, and the owner of an ENROL learns it in any case. -/
theorem told_learns (f : TxFrame) (b : Bool) (s : State) :
    (b = false → OwnerLearns f s (told f b s)) ∧
      ∀ e, f = .enrol e → s.dir.state = .enrolling → (told f b s).dir.enrolWait = true := by
  refine ⟨?_, ?_⟩
  · rintro rfl
    exact giveUp_told f s ▸ giveUp_learns f s
  · rintro e rfl hd
    simp only [told, if_pos hd]

theorem told_rest {f : TxFrame} {b : Bool} {s : State} (h : SlotsRest s) : SlotsRest (told f b s) := by
  refine ⟨fun i => ?_, fun i => ?_⟩
  · rw [(told_lost f b s).slots]
    exact h.1 i
  · rw [told_seqState]
    exact h.2 i

theorem told_noOwner {f : TxFrame} {b : Bool} {s : State} (h : NoOwnerWaits s) : NoOwnerWaits (told f b s) := by
  have lost := told_lost f b s
  obtain ⟨enrol, outgoing, slots, lines⟩ := h
  exact ⟨lost.link ▸ enrol, lost.outgoing ▸ outgoing, lost.slots ▸ slots, lost.lines ▸ lines⟩

/-- What is left of a queue frame that leaves with its outcome, whichever it is. -/
theorem frameLeaves_ends (e : TxEntry) (given : Bool) (s : State) :
    Quiet s.withoutAttempted (s.frameLeaves e given) ∧ (∀ x ∈ (s.frameLeaves e given).link.queue, x.onLink = false) ∧
      (NoOwnerWaits s → SlotsRest s → (s.frameLeaves e given).link.queue = s.link.queue.filter fun x => !x.onLink) := by
  have quiet : Quiet s.withoutAttempted (s.frameLeaves e given) :=
    frameLeaves_told e given s ▸ ((told_quiet e.frame given _).trans (gainRoom_quiet _)).trans (settle_quiet _)
  refine ⟨quiet, fun x hx => ?_, fun owner rest => ?_⟩
  · cases hl : x.onLink
    case false => rfl
    case true => simpa [hl] using (List.mem_filter.1 (quiet.onLink x hx hl)).2
  · have owner' : NoOwnerWaits s.withoutAttempted := owner
    have rest' : SlotsRest s.withoutAttempted := rest
    rw [frameLeaves_told, gainRoom_noOwner (told_noOwner owner'), settle_rest (told_rest rest'), (told_lost e.frame given _).link]
    rfl

theorem frameLeaves_learns (e : TxEntry) (s : State) : OwnerLearns e.frame s (s.frameLeaves e false) := by
  rw [frameLeaves_told]
  exact ((told_learns e.frame false s.withoutAttempted).1 rfl).later ((gainRoom_quiet _).trans (settle_quiet _))

/-- How the answer slots end the attempt of a queue frame that then leaves: whether it was delivered. -/
theorem frameAttempt_answered {s : State} {e : TxEntry} (he : s.link.queue.find? (fun x => x.onLink) = some e) (ack object : Bool)
    (hn : object = true → 8 ≤ e.attempts) :
    s.frameAttempt (attemptEnd (e.frame.dst == 0) ack object) =
      s.frameLeaves e (!object && (ack || e.frame.dst == 0)) := by
  cases object
  case true => exact frameAttempt_eighth he (hn rfl) _
  case false =>
    cases hd : ack || e.frame.dst == 0 <;>
      simp only [attemptEnd, frameAttempt, onLink, he, hd, Bool.not_false, Bool.true_and, Bool.false_eq_true, if_true, if_false]

/-! ## Offers by a station that is not MUTE -/

theorem offer_room {s : State} (hm : s.link.state ≠ .mute) (hq : s.link.queue.length < 12) (f : TxFrame) :
    s.offer f = ((s.atPlacing f).mapLink fun l => { l with queue := insertTx { frame := f, attempts := 0, onLink := false } l.queue },
      true) := by
  simp only [offer, if_neg hm]
  exact if_pos hq

theorem offer_full {s : State} (hm : s.link.state ≠ .mute) (hq : 12 ≤ s.link.queue.length) (f : TxFrame) : s.offer f = (s, false) := by
  simp only [offer, if_neg hm]
  exact if_neg (Nat.not_lt.2 hq)

theorem flags_or_none (a : LineFlags) : a.or {} = a := by simp [LineFlags.or]

/-- A report without flags leaves the accumulator as it is. -/
theorem atPlacing_queueReport (d : Nat) (e : QueueEntry) (m : ReportMark) (s : State) :
    s.atPlacing (.report d (queueReport e m)) = s := by
  simp only [atPlacing, setAcc_eq, Accumulator.takeReport, queueReport, flags_or_none, setSeq]

section
variable {s : State} (hm : s.link.state ≠ .mute)
include hm

theorem offerEnrol_room (hq : s.link.queue.length < 12) :
    s.offerEnrol = s.setLink { s.link with
      enrolWaits := false
      queue := insertTx { frame := .enrol s.enrolFields, attempts := 0, onLink := false } s.link.queue } := by
  unfold offerEnrol
  rw [offer_room hm hq]
  rfl

theorem offerEnrol_full (hq : 12 ≤ s.link.queue.length) : s.offerEnrol = s.setLink { s.link with enrolWaits := true } := by
  unfold offerEnrol
  rw [offer_full hm hq]
  rfl

variable {i : SlotId} {rep : LineReport} {hd : LineHeader} (hs : (s.slots.get i).state = .reporting)
  (hr : (s.slots.get i).report = some rep) (hh : (s.slots.get i).header = some hd)
include hs hr hh

theorem offerSlot_room (hq : s.link.queue.length < 12) :
    s.offerSlot i = ((s.atPlacing (.report hd.requester rep)).mapLink fun l =>
      { l with queue := insertTx { frame := .report hd.requester rep, attempts := 0, onLink := false } l.queue }).setSlots
        (s.slots.vacate i) := by
  unfold offerSlot
  simp only [slot_eq, hs, hr, hh, offer_room hm hq, if_true]
  rfl

theorem offerSlot_full (hq : 12 ≤ s.link.queue.length) : s.offerSlot i = s := by
  unfold offerSlot
  simp only [slot_eq, hs, hr, hh, offer_full hm hq, Bool.false_eq_true, if_false]

end

section
variable {s : State} (hm : s.link.state ≠ .mute) {which : QueueEntry → Option ReportMark} {m : ReportMark} {e : QueueEntry}
  (he : which e = some m) (es : List QueueEntry)
include hm he

theorem reportEntries_room (hq : s.link.queue.length < 12) :
    reportEntries which (e :: es) s = reportEntries which es (s.setLink { s.link with
      queue := insertTx { frame := .report e.header.requester (queueReport e m), attempts := 0, onLink := false } s.link.queue }) := by
  rw [reportEntries, he]
  simp only [offer_room hm hq, atPlacing_queueReport, if_true, mapLink_eq]

theorem reportEntries_full (hq : 12 ≤ s.link.queue.length) :
    reportEntries which (e :: es) s = ({ e with mark := some m } :: (reportEntries which es s).1, (reportEntries which es s).2) := by
  rw [reportEntries, he]
  simp only [offer_full hm hq, Bool.false_eq_true, if_false]

end

end State

/-- Settles O15: the frame leaves by `frameLeaves`, and each owner's offer has a case with room and one without. -/
theorem answeredFrameLeavesTheQueue : Obligations.AnsweredFrameLeavesTheQueue := by
  refine ⟨fun ack object s e hs ht he hn => ?_, fun s u hu => hu ▸ rfl, fun s hm => ⟨State.offerEnrol_room hm, State.offerEnrol_full hm,
    fun i h => State.offerSlot_notReporting h, fun i rep hd hs hr hh =>
      ⟨State.offerSlot_room hm hs hr hh, State.offerSlot_full hm hs hr hh⟩,
    fun which e es => ⟨rfl, rfl, State.reportEntries_keeps es s, fun m he => ⟨State.reportEntries_room hm he es,
      State.reportEntries_full hm he es⟩⟩⟩⟩
  obtain ⟨u, hu⟩ : ∃ u, u = s.fresh.tenureLeft .idle := ⟨_, rfl⟩
  have toAll : s.fresh.sendsToAll = (e.frame.dst == 0) := by
    simp only [State.sendsToAll, State.onLink, State.fresh_eq, State.link_setOut, ht, he]
  have left := State.frameAttempt_answered (s := s.fresh.tenureLeft .idle) he ack object hn
  rw [← hu] at left
  have ends : exec (.sendAttemptEnd ack object) s = .next (u.frameLeaves e (!object && (ack || e.frame.dst == 0))) := by
    rw [exec_sendAttemptEnd hs, if_neg (by simp [ht]), toAll, State.endTenure_frame (s := s.fresh) ht, ← hu, left]
  obtain ⟨quiet, attempted, noOwner⟩ := State.frameLeaves_ends e (!object && (ack || e.frame.dst == 0)) u
  have lost (hlost : object = true ∨ ack = false ∧ e.frame.dst ≠ 0) :
      OwnerLearns e.frame u (u.frameLeaves e (!object && (ack || e.frame.dst == 0))) := by
    have given : (!object && (ack || e.frame.dst == 0)) = false := by
      rcases hlost with rfl | ⟨rfl, hd⟩
      · rfl
      · simp [hd]
    exact given ▸ State.frameLeaves_learns e u
  subst hu
  refine ⟨_, ends, quiet.linkState, quiet.linkTenure, attempted, noOwner, fun d r hf hlost => (lost (hf ▸ hlost)).1 d r hf,
    fun d n hf hlost => (lost (hf ▸ hlost)).2.1 d n hf, fun f hf hd => ?_, State.frameLeaves_told e _ _⟩
  rw [State.frameLeaves_told]
  exact ((State.gainRoom_quiet _).trans (State.settle_quiet _)).wait ((State.told_learns e.frame _ _).2 f hf hd)

/-! ## Disturbances and the stall limit -/

theorem exec_disturbance (s : State) : exec .disturbance s = .next s.fresh.disturbed := rfl

/-- A disturbance while this station sends, or awaits its reply, ends its attempt. -/
theorem disturbed_attempt {s : State} (hs : s.link.state = .sending ∨ s.link.state = .awaitAnswer ∨ s.link.state = .awaitReply) :
    s.disturbed = s.endTenure .recovery (.failed .absent) := by
  rcases hs with hs | hs | hs <;> simp only [State.disturbed, hs]

theorem disturbed_following {s : State}
    (hs : s.link.state = .idle ∧ s.link.listens = true ∨ s.link.state = .busyOther ∨ s.link.state = .replying) :
    s.disturbed = s.breakOff := by
  rcases hs with ⟨hs, hl⟩ | hs | hs <;> simp only [State.disturbed, hs]
  exact if_pos hl

/-- Settles O16, by what the station does in the state in which the disturbance finds it. -/
theorem disturbanceAndStall : Obligations.DisturbanceAndStall := by
  refine ⟨fun s => ⟨fun hs => ?_, fun e hs ht he hn => ?_, fun e hs ht he hn => ?_, fun x hs ht hx hn => ?_, fun x hs ht hx hn => ?_⟩,
    fun s x hs ht hx => ?_, fun s hs => ?_⟩
  · rw [exec_disturbance, disturbed_following (s := s.fresh) hs]
    rfl
  · rw [exec_disturbance, disturbed_attempt (s := s.fresh) (hs.imp_right .inl), State.endTenure_frame (s := s.fresh) ht,
      State.frameAttempt_kept (s := s.fresh.tenureLeft .recovery) he hn]
    rfl
  · refine ⟨_, exec_disturbance s, ?_⟩
    rw [disturbed_attempt (s := s.fresh) (hs.imp_right .inl), State.endTenure_frame (s := s.fresh) ht,
      State.frameAttempt_eighth (s := s.fresh.tenureLeft .recovery) he hn]
    obtain ⟨quiet, attempted, noOwner⟩ := State.frameLeaves_ends e false (s.fresh.tenureLeft .recovery)
    obtain ⟨report, notice, -⟩ := State.frameLeaves_learns e (s.fresh.tenureLeft .recovery)
    exact ⟨quiet.linkState, quiet.linkTenure, attempted, noOwner, report, notice⟩
  · rw [exec_disturbance, disturbed_attempt (s := s.fresh) hs, State.endTenure_fetch (s := s.fresh) ht,
      State.exchangeAttempt_kept (s := s.fresh.tenureLeft .recovery) hx hn]
    rfl
  · refine ⟨_, exec_disturbance s, ?_⟩
    rw [disturbed_attempt (s := s.fresh) hs, State.endTenure_fetch (s := s.fresh) ht,
      State.exchangeAttempt_eighth (s := s.fresh.tenureLeft .recovery) hx hn]
    obtain ⟨state, -, exchange, absent, given⟩ := State.takeOutcome_ends x (o := .absent) (.inl rfl) .recovery s.fresh
    exact ⟨state, exchange, absent, given⟩
  · have stalls : exec .stallLimit s = .next (s.fresh.endTenure .recovery .silent) := by
      change execStallLimit s = _
      simp only [execStallLimit, State.fresh_eq, State.link_setOut, hs]
    refine ⟨_, stalls, ?_⟩
    rw [State.endTenure_fetch (s := s.fresh) ht, State.exchangeAttempt_silent (s := s.fresh.tenureLeft .recovery) hx]
    obtain ⟨state, -, exchange, absent, given⟩ := State.takeOutcome_ends x (o := .absent) (.inl rfl) .recovery s.fresh
    exact ⟨state, exchange, absent, given⟩
  · change execStallLimit s = _
    simp only [execStallLimit, State.fresh_eq, State.link_setOut, hs]
    rw [← State.fresh_eq, disturbed_following (s := s.fresh) (.inr (.inl hs))]
    rfl

end Sys2Proof.Machine
end

section
/-! SUPPORT. Held exchanges on both sides: the serve's reply and what its read does to the station (R116 to R120), and what a requester does
with the reply it reads, good or bad, its exchange attached or detached (R66 to R73, R175, R189). -/

namespace Sys2Proof.Machine

/-! ## The serve -/

theorem bankState_of_getElem? {p : Patrol} {b : Nat} {k : Bank} (h : p.banks[b]? = some k) : p.bankState b = k.state := by
  simp [Patrol.bankState, h]

theorem not_isWithdrawn {p : Patrol} {b : Nat} (h : p.bankState b ≠ .withdrawn) : p.isWithdrawn b = false := by
  simp [Patrol.isWithdrawn, h]

theorem modify_eq_set {l : List Bank} {b : Nat} {k : Bank} (f : Bank → Bank) (h : l[b]? = some k) : l.modify b f = l.set b (f k) := by
  refine List.ext_getElem? fun c => ?_
  rw [List.getElem?_modify, List.getElem?_set]
  by_cases same : b = c
  · subst same
    obtain ⟨inside, rfl⟩ := List.getElem?_eq_some_iff.1 h
    simp [inside]
  · simp [same]

/-- The station as the serve is taken: it waits no more (R119). -/
def served (s : State) : State := { s with out := [], store := { s.store with serve := none } }

namespace State

theorem serveKey_none {k : Key} {s : State} (h : findRecord k s.store.index = none) (conds : List CellCond) :
    serveKey k conds s = (.notHeld, s) := by
  simp only [serveKey, h]

section
variable {k : Key} {s : State} {x : StoreRecord} (hx : findRecord k s.store.index = some x) (conds : List CellCond)
include hx

theorem serveKey_withdrawn (hb : s.patrol.bankState x.bank = .withdrawn) : serveKey k conds s = (.notHeld, s) := by
  have away : s.patrol.isWithdrawn x.bank = true := (Patrol.isWithdrawn_iff _ _).2 hb
  simp only [serveKey, hx, away, if_true]

theorem serveKey_loading (hb : s.patrol.bankState x.bank ≠ .withdrawn) (hs : x.state = .loading) :
    serveKey k conds s = (.defer, s) := by
  simp only [serveKey, hx, not_isWithdrawn hb, hs, Bool.false_eq_true, if_false]

theorem serveKey_poisoned (hb : s.patrol.bankState x.bank ≠ .withdrawn) (hs : x.state = .poisoned) :
    serveKey k conds s = (.damaged, s) := by
  simp only [serveKey, hx, not_isWithdrawn hb, hs, Bool.false_eq_true, if_false]

variable (hb : s.patrol.bankState x.bank ≠ .withdrawn) (hs : x.state = .valid)
include hb hs

/-- R116, R119: with no cell UNCORRECTABLE the reply is the image, and the CORRECTED cells are written back and reported. -/
theorem serveKey_read (hu : .uncorrectable ∉ s.store.recordConds x conds) :
    serveKey k conds s = (.image (s.store.imageOf x), cellsRead x conds s) := by
  have sound : ¬(s.store.recordConds x conds).contains .uncorrectable = true := by simpa using hu
  simp only [serveKey, hx, not_isWithdrawn hb, hs, Bool.false_eq_true, if_false, imageRead, if_neg sound, readRecord_read x conds s hu]

/-- R117: with a cell UNCORRECTABLE the reply is DAMAGED, and the record becomes POISONED. -/
theorem serveKey_damaged (hu : .uncorrectable ∈ s.store.recordConds x conds) :
    serveKey k conds s = (.damaged, poisoned k x.bank (cellsRead x conds s)) := by
  have bad : (s.store.recordConds x conds).contains .uncorrectable = true := by simpa using hu
  simp only [serveKey, hx, not_isWithdrawn hb, hs, Bool.false_eq_true, if_false, imageRead, bad, if_true,
    readRecord_poisoned conds hx hs hu]

end

theorem cellsRead_good {x : StoreRecord} {conds : List CellCond} {s : State} {b : Bank} (hb : s.patrol.banks[x.bank]? = some b)
    (hg : b.state = .good) (hn : b.count + (s.store.recordConds x conds).count .corrected < s.patrol.threshold) :
    cellsRead x conds s = { s with
      out := s.out ++ driven (s.recordWrites x conds)
      store := { s.store with memory := written (s.recordWrites x conds) s.store.memory }
      patrol := { s.patrol with
        banks := s.patrol.banks.set x.bank { b with count := b.count + (s.store.recordConds x conds).count .corrected } } } := by
  rw [cellsRead_counted x conds s (fun k hk _ => by obtain rfl : b = k := Option.some.inj (hb.symm.trans hk); exact hn),
    modify_eq_set _ hb, if_pos hg]

/-- R125: a bank that is not GOOD counts no error. -/
theorem cellsRead_notGood {x : StoreRecord} {conds : List CellCond} {s : State} (hb : s.patrol.bankState x.bank ≠ .good) :
    cellsRead x conds s = { s with
      out := s.out ++ driven (s.recordWrites x conds)
      store := { s.store with memory := written (s.recordWrites x conds) s.store.memory } } := by
  have notGood (k : Bank) (hk : s.patrol.banks[x.bank]? = some k) : k.state ≠ .good := bankState_of_getElem? hk ▸ hb
  rw [cellsRead_counted x conds s (fun k hk hg => absurd hg (notGood k hk)), modify_same fun k hk => if_neg (notGood k hk)]

/-- A read that finds every cell CLEAN changes nothing. -/
theorem cellsRead_clean {x : StoreRecord} {conds : List CellCond} {s : State} (h : ∀ c ∈ s.store.recordConds x conds, c = .clean) :
    cellsRead x conds s = s := by
  have sound : .uncorrectable ∉ s.store.recordConds x conds := fun hu => by simpa using h _ hu
  rw [← readRecord_read x conds s sound, readRecord_clean x conds s h]

end State

theorem exec_serve {s : State} {k : Key} (hs : s.link.state = .holding) (hk : s.store.serve = some k) (conds : List CellCond) :
    exec (.serve conds) s =
      .next (replying (State.serveKey k conds (served s)).1 (State.serveKey k conds (served s)).2) := by
  change execServe conds s = _
  simp only [execServe, State.fresh_eq, State.link_setOut, State.store_setOut, hs, hk]
  rfl

theorem exec_holdLimit {s : State} {k : Key} (hs : s.link.state = .holding) (hk : s.store.serve = some k)
    (taken : Option (List CellCond)) :
    exec (.holdLimit taken) s = .next (match taken with
      | some conds => (State.serveKey k conds (replying .defer (served s))).2
      | none => replying .defer (served s)) := by
  change execHoldLimit taken s = _
  simp only [execHoldLimit, State.fresh_eq, State.link_setOut, State.store_setOut, hs, hk]
  cases taken <;> rfl

/-- Settles O17: the serve's ends by the record's state and bank, each followed by its reply, and at the hold limit without it. -/
theorem serveAndHoldLimit : Obligations.ServeAndHoldLimit := by
  refine ⟨fun conds s k hs hk => ⟨fun r raw hr hraw => ?_, fun x raw hx hb hv hraw => ⟨fun hc => ?_, fun hu => ⟨fun b hbank hg hn => ?_,
    fun hg => ?_⟩⟩, fun x u hx hb hv hu => ⟨fun hn => ?_, fun hn => ?_⟩, fun x b hx hv hbank hg hn hu => ?_⟩, fun s k raw hs hk hraw =>
    ⟨?_, fun conds u hu => ⟨?_, fun hx => ?_, fun x hx hb hv => ⟨fun hn => ?_, fun hn => ?_⟩⟩⟩⟩
  · subst hraw
    have serves : State.serveKey k conds (served s) = (r, served s) := by
      rcases hr with ⟨hx, rfl⟩ | ⟨x, hx, ⟨hb, rfl⟩ | ⟨hb, hl, rfl⟩ | ⟨hb, hp, rfl⟩⟩
      · exact State.serveKey_none (s := served s) hx conds
      · exact State.serveKey_withdrawn (s := served s) hx conds hb
      · exact State.serveKey_loading (s := served s) hx conds hb hl
      · exact State.serveKey_poisoned (s := served s) hx conds hb hp
    rw [exec_serve hs hk, serves]
    rfl
  · subst hraw
    have sound : .uncorrectable ∉ (served s).store.recordConds x conds := fun hu => by simpa using hc _ hu
    rw [exec_serve hs hk, State.serveKey_read (s := served s) hx conds hb hv sound, State.cellsRead_clean (s := served s) hc]
    rfl
  · subst hraw
    rw [exec_serve hs hk, State.serveKey_read (s := served s) hx conds hb hv hu,
      State.cellsRead_good (s := served s) hbank hg hn]
    rfl
  · subst hraw
    rw [exec_serve hs hk, State.serveKey_read (s := served s) hx conds hb hv hu, State.cellsRead_notGood (s := served s) hg]
    rfl
  · subst hu
    rw [exec_serve hs hk, State.serveKey_read (s := served s) hx conds hb hv hn]
    rfl
  · subst hu
    rw [exec_serve hs hk, State.serveKey_damaged (s := served s) hx conds hb hv hn]
    rfl
  · have good : (served s).patrol.bankState x.bank = .good := (bankState_of_getElem? hbank).trans hg
    rw [exec_serve hs hk, State.serveKey_damaged (s := served s) hx conds (by simp [good]) hv hu,
      State.cellsRead_good (s := served s) hbank hg hn]
    rfl
  · subst hraw
    rw [exec_holdLimit hs hk]
    rfl
  · subst hu
    have access := State.serveKey_accessed k conds (replying .defer (served s))
    refine ⟨_, exec_holdLimit hs hk (some conds), ?_⟩
    exact ⟨(congrArg Link.state access.spared.link :), (congrArg Link.reply access.spared.link :),
      (congrArg Store.serve access.spared.store :), access.spared.slots, access.spared.cache, access.spared.fetches⟩
  · subst hu
    have unread : (State.serveKey k conds (replying .defer (served s))).2 = replying .defer (served s) := by
      cases hf : findRecord k s.store.index with
      | none => exact congrArg Prod.snd (State.serveKey_none (s := replying .defer (served s)) hf conds)
      | some x =>
        by_cases hb : s.patrol.bankState x.bank = .withdrawn
        · exact congrArg Prod.snd (State.serveKey_withdrawn (s := replying .defer (served s)) hf conds hb)
        · have notValid := (hx x hf).resolve_right hb
          cases hst : x.state
          · exact congrArg Prod.snd (State.serveKey_loading (s := replying .defer (served s)) hf conds hb hst)
          · exact absurd hst notValid
          · exact congrArg Prod.snd (State.serveKey_poisoned (s := replying .defer (served s)) hf conds hb hst)
    rw [exec_holdLimit hs hk]
    exact congrArg _ unread
  · subst hu
    rw [exec_holdLimit hs hk]
    exact congrArg _ (congrArg Prod.snd (State.serveKey_read (s := replying .defer (served s)) hx conds hb hv hn))
  · subst hu
    rw [exec_holdLimit hs hk]
    exact congrArg _ (congrArg Prod.snd (State.serveKey_damaged (s := replying .defer (served s)) hx conds hb hv hn))

/-! ## The reply that a requester reads -/

theorem heard_eq (n : Nat) (s : State) : s.heard n =
    s.setDir (if n = 0 then s.dir else { s.dir with absent := s.dir.absent.set n false }) := by
  unfold State.heard
  split <;> rfl

/-- The requester after a good reply, answered with ACK: the tenure is over, and the exchange ends next. -/
def replyRead (r : RawReply) (s : State) : State :=
  { s with
    out := [.answer true false]
    link := { s.link with state := .idle, free := false }
    dir := { s.dir with absent := s.dir.absent.set r.src false } }

section
variable {r : RawReply} {s : State} {x : Exchange} (hs : s.link.state = .awaitReply) (hx : s.link.exchange = some x)
include hs hx

theorem exec_reply_awaited (check : Word16) :
    exec (.reply r check) s =
      if Config.maxPayload < r.payload.length then .next (s.fresh.endTenure .recovery (.failed .absent))
      else if check ≠ checkWord (replyBits r) then .next s.fresh.replyRefused
      else if r.src = x.target ∧ r.dst = s.own then
        .next ((((s.fresh.heard r.src).emit (.answer true false)).mapLink fun l => { l with state := .idle, free := false }).takeOutcome x
          (State.replyOutcome r))
      else .next (s.fresh.heard r.src).replyRefused := by
  change execReply r check s = _
  unfold execReply
  dsimp only
  split
  · rename_i y _ hy
    obtain rfl : y = x := Option.some.inj (hy.symm.trans hx)
    rfl
  · rename_i other
    exact (other x hs hx).elim

theorem exec_reply_wrongCheck {check : Word16} (hn : r.payload.length ≤ 528) (hw : check ≠ checkWord (replyBits r)) :
    exec (.reply r check) s = .next s.fresh.replyRefused := by
  have inLength : ¬Config.maxPayload < r.payload.length := Nat.not_lt.2 hn
  rw [exec_reply_awaited hs hx, if_neg inLength, if_pos hw]

theorem exec_reply_foreign (hn : r.payload.length ≤ 528) (hf : r.src ≠ x.target ∨ r.dst ≠ s.straps.station) :
    exec (.reply r (checkWord (replyBits r))) s = .next (s.fresh.heard r.src).replyRefused := by
  have inLength : ¬Config.maxPayload < r.payload.length := Nat.not_lt.2 hn
  rw [exec_reply_awaited hs hx, if_neg inLength, if_neg (not_not_intro rfl), if_neg]
  exact fun h => hf.elim (· h.1) (· h.2)

theorem exec_reply_good (hn : r.payload.length ≤ 528) (ht : r.src = x.target) (h0 : r.src ≠ 0) (hd : r.dst = s.straps.station) :
    exec (.reply r (checkWord (replyBits r))) s = .next ((replyRead r s).takeOutcome x (State.replyOutcome r)) := by
  have inLength : ¬Config.maxPayload < r.payload.length := Nat.not_lt.2 hn
  rw [exec_reply_awaited hs hx, if_neg inLength, if_neg (not_not_intro rfl), if_pos ⟨ht, hd⟩, heard_eq, if_neg h0]
  rfl

end

namespace State

section
variable {u : State} {x : Exchange} (ht : u.link.tenure = .fetch) (hx : u.link.exchange = some x)
include ht hx

theorem replyRefused_kept (hn : x.attempts < 8) :
    u.replyRefused = (u.emit (.answer false true)).tenureLeft .idle := by
  unfold replyRefused
  rw [endTenure_fetch (s := u.emit (.answer false true)) ht]
  exact exchangeAttempt_kept (s := (u.emit (.answer false true)).tenureLeft .idle) hx hn .refused

/-- R175: the eighth failed reply ends the exchange as REFUSED. -/
theorem replyRefused_eighth (hn : 8 ≤ x.attempts) :
    u.replyRefused = ((u.emit (.answer false true)).tenureLeft .idle).takeOutcome x .refused := by
  unfold replyRefused
  rw [endTenure_fetch (s := u.emit (.answer false true)) ht]
  exact exchangeAttempt_eighth (s := (u.emit (.answer false true)).tenureLeft .idle) hx hn .refused

end

/-- The exchange is over and the directory has taken its marks. -/
def outcomeMarked (x : Exchange) (o : ExchangeOutcome) (s : State) : State :=
  (s.mapLink fun l => { l with exchange := none, tenure := .none }).markOutcome x o

theorem outcomeMarked_fetches (x : Exchange) (o : ExchangeOutcome) (s : State) : (s.outcomeMarked x o).fetches = s.fetches := by
  cases o <;> rfl

theorem takeOutcome_detached {x : Exchange} (hd : x.detached = true) (o : ExchangeOutcome) (s : State) :
    s.takeOutcome x o = (s.outcomeMarked x o).takeDetached x o := if_pos hd

theorem takeOutcome_attached {x : Exchange} {f : Fetch} {s : State} (hd : x.detached = false)
    (hf : s.fetches.find? (fun e => e.key == x.key) = some f) (o : ExchangeOutcome) :
    s.takeOutcome x o = (s.outcomeMarked x o).takeAttached f o := by
  have entry : (s.outcomeMarked x o).fetchOf x.key = some f := by rw [fetchOf, outcomeMarked_fetches, hf]
  unfold takeOutcome
  simp only [hd, Bool.false_eq_true, if_false]
  change (match (s.outcomeMarked x o).fetchOf x.key with
    | some f => (s.outcomeMarked x o).takeAttached f o
    | none => s.outcomeMarked x o) = _
  rw [entry]

theorem find_key {k : Key} {f : Fetch} {l : List Fetch} (h : l.find? (fun e => e.key == k) = some f) : f.key = k := by
  simpa using List.find?_some h

theorem acceptable_iff (k : Key) (i : ImageRecord) : acceptable k i = true ↔ i.wellFormed = true ∧ i.key = k := by
  simp [acceptable]

/-- A reply of status 0 that brings no image of the key. -/
theorem not_acceptable {k : Key} {i : ImageRecord} (h : i.wellFormed = false ∨ i.key ≠ k) : acceptable k i = false := by
  rw [Bool.eq_false_iff, ne_eq, acceptable_iff]
  rintro ⟨hw, hk⟩
  exact h.elim (fun h => by simp [h] at hw) fun h => h hk

theorem takeDetached_discards {x : Exchange} {i : ImageRecord} {s : State}
    (h : acceptable x.key i = false ∨ s.cache.validNumber x.key ≠ none ∨ ∃ f ∈ s.fetches, f.key = x.key) :
    s.takeDetached x (.image (some i)) = s := by
  refine if_neg ?_
  simp only [Bool.and_eq_true, Option.isNone_iff_eq_none, fetchOf, List.find?_eq_none, beq_iff_eq]
  rintro ⟨⟨ha, hc⟩, hf⟩
  rcases h with h | h | ⟨f, hmem, hk⟩
  · simp [h] at ha
  · exact h hc
  · exact hf f hmem hk

theorem takeDetached_enters {x : Exchange} {i : ImageRecord} {s : State} (ha : acceptable x.key i = true)
    (hc : s.cache.validNumber x.key = none) (hf : ∀ f ∈ s.fetches, f.key ≠ x.key) :
    s.takeDetached x (.image (some i)) = (s.insertImage i (originOf x.role)).2 := by
  refine if_pos ?_
  simp only [Bool.and_eq_true, Option.isNone_iff_eq_none, fetchOf, List.find?_eq_none, beq_iff_eq]
  exact ⟨⟨ha, hc⟩, hf⟩

theorem replyOutcome_image {r : RawReply} (h : r.status = 0) : replyOutcome r = .image (readImage r.payload) := by
  simp only [replyOutcome, h]
theorem replyOutcome_defer {r : RawReply} (h : r.status = 1) : replyOutcome r = .defer := by simp only [replyOutcome, h]
theorem replyOutcome_damaged {r : RawReply} (h : r.status = 2) : replyOutcome r = .damaged := by simp only [replyOutcome, h]
theorem replyOutcome_notHeld {r : RawReply} (h : r.status = 3) : replyOutcome r = .notHeld := by simp only [replyOutcome, h]

end State

/-- An answer that was given before an exchange ended stands in the step's outputs. -/
theorem answer_of_takeOutcome {o : Output} {x : Exchange} {e : ExchangeOutcome} {s : State} (h : o ∈ s.out) :
    o ∈ (s.takeOutcome x e).out := (State.takeOutcome_holds x e s).out.subset h

/-- Settles O18, by the checks of a reply in their order, and by the outcomes of a detached exchange. -/
theorem badAndDeferReplies : Obligations.BadAndDeferReplies := by
  refine ⟨fun r check s x hs ht hx hn => ⟨fun hk hw => ?_, fun hk hw hf => ?_, fun hk hw => ?_, fun hk hw hf => ?_⟩,
    fun r check s x hs hx hn => ?_, fun r s x f hs hx hd hf hdef hn ht h0 hdst hst => ?_,
    fun r s u x hs hx hd hn ht h0 hdst hu => ⟨fun hst => ?_, fun i hst hi hwf hk => ⟨fun hc hf => ?_, fun hno => ?_⟩, fun hst => ?_⟩⟩
  · rw [exec_reply_wrongCheck hs hx hn hw, State.replyRefused_kept (u := s.fresh) ht hx hk]
    rfl
  · subst hw
    rw [exec_reply_foreign hs hx hn hf, heard_eq, State.replyRefused_kept (u := s.fresh.setDir _) ht hx hk]
    rfl
  · refine ⟨_, exec_reply_wrongCheck hs hx hn hw, ?_⟩
    rw [State.replyRefused_eighth (u := s.fresh) ht hx hk]
    obtain ⟨state, -, exchange, absent, given⟩ :=
      State.takeOutcome_ends x (o := .refused) (.inr rfl) .idle (s.fresh.emit (.answer false true))
    exact ⟨answer_of_takeOutcome (by simp [State.tenureLeft]), state, exchange, absent, given⟩
  · subst hw
    refine ⟨_, exec_reply_foreign hs hx hn hf, ?_⟩
    rw [heard_eq, State.replyRefused_eighth (u := s.fresh.setDir _) ht hx hk]
    obtain ⟨state, -, exchange, -, given⟩ := State.takeOutcome_ends x (o := .refused) (.inr rfl) .idle
      ((s.fresh.setDir (if r.src = 0 then s.dir else { s.dir with absent := s.dir.absent.set r.src false })).emit (.answer false true))
    exact ⟨answer_of_takeOutcome (by simp [State.tenureLeft]), state, exchange, given⟩
  · have overlong : Config.maxPayload < r.payload.length := hn
    rw [exec_reply_awaited hs hx, if_pos overlong, exec_disturbance, disturbed_attempt (s := s.fresh) (.inr (.inr hs))]
  · rw [exec_reply_good hs hx hn ht h0 hdst, State.replyOutcome_defer hst,
      State.takeOutcome_attached (s := replyRead r s) hd hf]
    simp only [State.takeAttached, if_pos hdef, State.find_key hf]
    rfl
  · subst hu
    rw [exec_reply_good hs hx hn ht h0 hdst]
    rcases hst with hst | hst | ⟨hst, hno⟩
    · rw [State.replyOutcome_defer hst, State.takeOutcome_detached hd]
      rfl
    · rw [State.replyOutcome_damaged hst, State.takeOutcome_detached hd]
      rfl
    · rw [State.replyOutcome_image hst, State.takeOutcome_detached hd]
      cases hi : readImage r.payload with
      | none => rfl
      | some i => exact congrArg _ (State.takeDetached_discards (.inl (State.not_acceptable (hno i hi))))
  · subst hu
    rw [exec_reply_good hs hx hn ht h0 hdst, State.replyOutcome_image hst, hi, State.takeOutcome_detached hd]
    exact congrArg _ (State.takeDetached_enters ((State.acceptable_iff _ _).2 ⟨hwf, hk⟩) hc hf)
  · subst hu
    rw [exec_reply_good hs hx hn ht h0 hdst, State.replyOutcome_image hst, hi, State.takeOutcome_detached hd]
    exact congrArg _ (State.takeDetached_discards (.inr hno))
  · subst hu
    rw [exec_reply_good hs hx hn ht h0 hdst, State.replyOutcome_notHeld hst, State.takeOutcome_detached hd]
    rfl

end Sys2Proof.Machine
end

section
/-! SUPPORT. The ends of a fetch (R43 to R45, R66, R71, R79): the image that enters the cache and is pinned, the placements that take it
or become SUBSTITUTED, the room event, and a failed attempt; and the timers (R72, R98, R130, R136, R183, R184). -/

namespace Sys2Proof.Machine

namespace Cache

theorem entry_insert (c : Cache) (r : ImageRecord) (o : Origin) (m : Nat) :
    (c.insert r o).2.entry m = if m = c.newNumber then some { key := r.key, record := r, state := .valid, pins := 0, origin := o }
      else c.entry m := by
  have other (x : Nat × CacheEntry) (hx : x ∈ (c.drop c.newNumber).entries) : x.1 ≠ c.newNumber := by
    simpa [drop] using (List.mem_filter.1 hx).2
  unfold insert entry
  simp only [find_insertSorted _ m _ _ other]
  split
  · rfl
  · rename_i hm
    exact (entry_drop c c.newNumber m).trans (if_neg hm)

theorem insert_ascending (c : Cache) (r : ImageRecord) (o : Origin) (h : c.entries.Pairwise fun a b => a.1 < b.1) :
    (c.insert r o).2.entries.Pairwise fun a b => a.1 < b.1 :=
  pairwise_insertSorted _ _ _ (h.filter _) fun x hx => by simpa [drop] using (List.mem_filter.1 hx).2

theorem newNumber_free {c : Cache} (hn : c.entries.length < 256) (h : c.entries.Pairwise fun a b => a.1 < b.1) :
    (∀ e ∈ c.entries, e.1 ≠ c.newNumber) ∧ ∀ m, m < c.newNumber → ∃ e ∈ c.entries, e.1 = m := by
  have number : c.newNumber = firstFree 0 c.entries := if_pos hn
  obtain ⟨free, -, least⟩ := firstFree_least 0 c.entries h fun _ _ => Nat.zero_le _
  exact number ▸ ⟨free, fun m => least m (Nat.zero_le m)⟩

theorem newNumber_evicts {c : Cache} {m : Nat} {rest : List Nat} (hn : 256 ≤ c.entries.length) (h : c.recency = m :: rest) :
    c.newNumber = m := by
  have number : c.newNumber = c.recency.headD 0 := if_neg (Nat.not_lt.2 hn)
  rw [number, h]
  rfl

theorem entry_pin (c : Cache) (n m : Nat) :
    (c.pin n).entry m = if m = n then (c.entry m).map fun e => { e with pins := e.pins + 1 } else c.entry m :=
  entry_update c n m fun e => { e with pins := e.pins + 1 }

end Cache

theorem Slots.put_get (x : Slots) (i : SlotId) : x.put i (x.get i) = x := by cases i <;> rfl

namespace State

/-! ## Placements that await the key of a fetch -/

theorem resolveAwaiting_eq (k : Key) (n : Nat) (r : ImageRecord) (alternate : Bool) (i : SlotId) (s : State) :
    s.resolveAwaiting k n r alternate i = { s with
      cache := (List.replicate (waiting k (s.slots.get i)) n).foldl (fun c m => c.pin m) s.cache
      slots := s.slots.put i (imageTaken k n r alternate (s.slots.get i)) } := by
  unfold resolveAwaiting imageTaken
  by_cases none : waiting k (s.slots.get i) = 0
  · have unhit : ((s.slot i).list.filter (Slot.awaits k)).length = 0 := none
    rw [if_pos unhit, if_pos none, none, Slots.put_get]
    rfl
  · have hit : ((s.slot i).list.filter (Slot.awaits k)).length ≠ 0 := none
    simp only [if_neg hit, if_neg none]
    cases alternate <;> cases i <;> rfl

theorem resolveAllAwaiting_eq (k : Key) (n : Nat) (r : ImageRecord) (alternate : Bool) (s : State) :
    s.resolveAllAwaiting k n r alternate = { s with
      cache := (List.replicate (waiting k s.slots.slot0 + waiting k s.slots.slot1) n).foldl (fun c m => c.pin m) s.cache
      slots := { s.slots with
        slot0 := imageTaken k n r alternate s.slots.slot0, slot1 := imageTaken k n r alternate s.slots.slot1 } } := by
  unfold resolveAllAwaiting
  rw [resolveAwaiting_eq k n r alternate .zero, resolveAwaiting_eq, ← List.replicate_append_replicate, List.foldl_append]
  rfl

theorem substituteAwaiting_eq (k : Key) (i : SlotId) (s : State) :
    s.substituteAwaiting k i = { s with slots := s.slots.put i (fetchFailed k (s.slots.get i)) } := by
  have hits : (s.slot i).list.any (Slot.awaits k) = true ↔ waiting k (s.slots.get i) ≠ 0 := by
    simp [waiting, List.filter_eq_nil_iff]
  unfold substituteAwaiting fetchFailed
  by_cases none : waiting k (s.slots.get i) = 0
  · rw [if_neg (fun h => hits.1 h none), if_pos none, Slots.put_get]
  · rw [if_pos (hits.2 none), if_neg none]
    cases i <;> rfl

/-! ## The room event -/

theorem waitsForRoom_iff (t : Slot) : t.waitsForRoom = true ↔ WaitsForRoom t := by simp [Slot.waitsForRoom, WaitsForRoom]

theorem waitsForRoom_false {t : Slot} (h : ¬WaitsForRoom t) : t.waitsForRoom = false :=
  Bool.eq_false_iff.2 fun hw => h ((waitsForRoom_iff t).1 hw)

theorem answerRoom_eq {s : State} {i : SlotId} (h : WaitsForRoom (s.slots.get i)) :
    s.answerRoom i = { s with slots := s.slots.put i (roomAnswered (s.slots.get i)) } := by
  unfold answerRoom roomAnswered
  rcases h.1 with state | state
  · have here : (s.slot i).state = .resolving := state
    have notAwaiting : (s.slots.get i).state ≠ .awaiting := by simp [state]
    simp only [here, if_neg notAwaiting]
    rfl
  · have here : (s.slot i).state = .awaiting := state
    simp only [here, state, if_true]
    rfl

theorem roomEvent_idle {s : State} (ho : ¬WaitsForRoom (s.slots.get s.slots.older))
    (hy : ¬WaitsForRoom (s.slots.get s.slots.older.other)) : s.roomEvent = s := by
  simp [roomEvent, waitsForRoom_false ho, waitsForRoom_false hy]

theorem roomEvent_one {s : State} {i : SlotId} (hi : WaitsForRoom (s.slots.get i)) (hn : ¬WaitsForRoom (s.slots.get i.other)) :
    s.roomEvent = { s with slots := s.slots.put i (roomAnswered (s.slots.get i)) } := by
  have hw : (s.slots.get i).waitsForRoom = true := (waitsForRoom_iff _).2 hi
  have hn := waitsForRoom_false hn
  rw [← answerRoom_eq hi]
  by_cases ho : i = s.slots.older
  · subst ho
    simp [roomEvent, hw, hn]
  · have hy : i = s.slots.older.other := by
      revert ho
      cases i <;> cases s.slots.older <;> decide
    have back : i.other = s.slots.older := by rw [hy]; cases s.slots.older <;> rfl
    rw [back] at hn
    simp [roomEvent, ← hy, hw, hn]

theorem roomEvent_both {s : State} (ho : WaitsForRoom (s.slots.get s.slots.older))
    (hy : WaitsForRoom (s.slots.get s.slots.older.other)) :
    s.roomEvent = { s with
      slots := (s.slots.put s.slots.older (roomAnswered (s.slots.get s.slots.older))).put s.slots.older.other
        (heldBack (if (s.slots.get s.slots.older).state = .resolving then 2 else 1) (s.slots.get s.slots.older.other)) } := by
  have hwo : (s.slot s.slots.older).waitsForRoom = true := (waitsForRoom_iff _).2 ho
  have hwy : (s.slot s.slots.older.other).waitsForRoom = true := (waitsForRoom_iff _).2 hy
  unfold roomEvent
  simp only [hwo, hwy, Bool.and_self, if_true, answerRoom_eq ho]
  have younger : ({ s with slots := s.slots.put s.slots.older (roomAnswered (s.slots.get s.slots.older)) } : State).slot
      s.slots.older.other = s.slots.get s.slots.older.other := by
    simp only [slot_eq, Slots.get_put, if_neg (SlotId.other_ne _)]
  rw [younger]
  unfold heldBack
  split <;> rfl

/-! ## Failed attempts -/

theorem finalFailure_eq (k : Key) (s : State) :
    s.finalFailure k = State.settle (State.roomEvent { s with
      fetches := s.fetches.filter (fun e => e.key != k)
      slots := { s.slots with slot0 := fetchFailed k s.slots.slot0, slot1 := fetchFailed k s.slots.slot1 } }) := by
  unfold finalFailure
  rw [substituteAwaiting_eq k .zero, substituteAwaiting_eq]
  rfl

theorem failedAttempt_retry {f : Fetch} {s : State} {u : Nat × TargetRole} (hn : f.failed < 2)
    (hc : s.dir.chooseTarget s.own f.tried f.key = some u) :
    s.failedAttempt f = s.updateFetch f.key fun e =>
      { e with state := .waitingLink, target := u.1, role := u.2, tried := f.tried ++ [u.1], failed := f.failed + 1, defers := 0 } := by
  unfold failedAttempt
  rw [if_neg (by omega), hc]

theorem failedAttempt_final {f : Fetch} {s : State} (h : 2 ≤ f.failed ∨ s.dir.chooseTarget s.own f.tried f.key = none) :
    s.failedAttempt f = s.finalFailure f.key := by
  unfold failedAttempt
  split
  · rfl
  · rw [h.resolve_left (by omega)]

/-- The reply statuses by which an entry's attempt fails. -/
theorem takeAttached_fails {r : RawReply} {f : Fetch} {s : State}
    (h : r.status = 2 ∨ r.status = 3 ∨ (r.status = 1 ∧ 4 ≤ f.defers) ∨
      (r.status = 0 ∧ ∀ i, readImage r.payload = some i → i.wellFormed = false ∨ i.key ≠ f.key)) :
    s.takeAttached f (replyOutcome r) = s.failedAttempt f := by
  rcases h with h | h | ⟨h, hd⟩ | ⟨h, hi⟩
  · rw [replyOutcome_damaged h]; rfl
  · rw [replyOutcome_notHeld h]; rfl
  · rw [replyOutcome_defer h]
    exact if_neg (Nat.not_lt.2 hd)
  · rw [replyOutcome_image h]
    cases hr : readImage r.payload with
    | none => rfl
    | some i =>
      have refused := not_acceptable (hi i hr)
      simp only [takeAttached, refused, Bool.false_eq_true, if_false]

end State

/-- Settles O19: the reply's outcome, and the equations of the cache, the placements and the room event. -/
theorem imageReplyEndsTheFetch : Obligations.ImageReplyEndsTheFetch := by
  refine ⟨fun r s x f i hs hx hd hf hn ht h0 hdst hst hi hw hk => ?_,
    fun k n r alternate s => State.resolveAllAwaiting_eq k n r alternate s,
    fun n r p => ⟨rfl, rfl, fun h => ?_, fun h => ?_⟩, fun c d r o n h => ?_, fun c n e h => ⟨?_, fun m hm => ?_, rfl⟩,
    fun s o ho => ?_⟩
  · have key : f.key = x.key := State.find_key hf
    have accepted : acceptable f.key i = true := (State.acceptable_iff _ _).2 ⟨hw, hk.trans key.symm⟩
    rw [exec_reply_good hs hx hn ht h0 hdst, State.replyOutcome_image hst, hi,
      State.takeOutcome_attached (s := replyRead r s) hd hf]
    simp only [State.takeAttached, accepted, if_true, ← key]
    rfl
  · simp [resolveWith, h]
  · simp [resolveWith, h]
  · obtain ⟨rfl, rfl⟩ : c.newNumber = n ∧ (c.insert r o).2 = d := ⟨congrArg Prod.fst h, congrArg Prod.snd h⟩
    refine ⟨Cache.newNumber_free, fun m rest hn hr => Cache.newNumber_evicts hn hr, c.insert_ascending r o, ?_, fun m hm => ?_, rfl⟩
    · rw [Cache.entry_insert, if_pos rfl]
    · rw [Cache.entry_insert, if_neg hm]
  · rw [Cache.entry_pin, if_pos rfl, h]
    rfl
  · rw [Cache.entry_pin, if_neg hm]
  · subst ho
    exact ⟨State.roomEvent_idle, fun i => State.roomEvent_one, State.roomEvent_both⟩

/-- Settles O20: each failing status is a failed attempt, which a new target or the final failure ends. -/
theorem failedAttempts : Obligations.FailedAttempts := by
  refine ⟨fun r s x f d hs hx hd hf hn ht h0 hdst hcase => ?_, fun k s => State.finalFailure_eq k s, fun k n d => rfl,
    fun p => ⟨rfl, rfl, rfl, fun h => ?_, fun h => ?_⟩⟩
  · have key : f.key = x.key := State.find_key hf
    have failing : r.status = 2 ∨ r.status = 3 ∨ (r.status = 1 ∧ 4 ≤ f.defers) ∨
        (r.status = 0 ∧ ∀ i, readImage r.payload = some i → i.wellFormed = false ∨ i.key ≠ f.key) := by
      rw [key]
      rcases hcase with ⟨damaged | deferred | image, -⟩ | ⟨notHeld, -⟩
      · exact .inl damaged
      · exact .inr (.inr (.inl deferred))
      · exact .inr (.inr (.inr image))
      · exact .inr (.inl notHeld)
    have fails : exec (.reply r (checkWord (replyBits r))) s =
        .next (((replyRead r s).outcomeMarked x (State.replyOutcome r)).failedAttempt f) := by
      rw [exec_reply_good hs hx hn ht h0 hdst, State.takeOutcome_attached (s := replyRead r s) hd hf,
        State.takeAttached_fails failing]
    have marked : (replyRead r s).outcomeMarked x (State.replyOutcome r) = { replyRead r s with
        link := { (replyRead r s).link with exchange := none, tenure := .none }, dir := d } := by
      rcases hcase with ⟨hst | ⟨hst, -⟩ | ⟨hst, -⟩, rfl⟩ | ⟨hst, rfl⟩
      · rw [State.replyOutcome_damaged hst]; rfl
      · rw [State.replyOutcome_defer hst]; rfl
      · rw [State.replyOutcome_image hst]; rfl
      · rw [State.replyOutcome_notHeld hst]; rfl
    rw [fails, marked]
    constructor
    · intro u hu hc
      rw [State.failedAttempt_retry hu (key ▸ hc), key]
      rfl
    · intro h
      rw [State.failedAttempt_final (key ▸ h), key]
      rfl
  · simp [substitute, h, boxAdvance]
  · simp [substitute, h]

/-- The ENROL of this reset, due since it, is offered next. -/
def enrolTaken (s : State) : State := { s with out := [], link := { s.link with enrolDue := false } }

theorem exec_enrolOffer {s : State} (hdue : s.link.enrolDue = true) (hl : s.link.listens = true) :
    exec .enrolOffer s = .next (enrolTaken s).offerEnrol := by
  have free : (s.fresh.link.enrolDue && s.fresh.link.listens) = true := by simp [hdue, hl]
  exact congrArg Host.Outcome.next (if_pos free)

/-- Settles O21: the timers, each by its condition, and the ENROL's offer with room and without. -/
theorem timersAndTheEnrolOffer : Obligations.TimersAndTheEnrolOffer := by
  refine ⟨fun s => ⟨fun k => rfl, fun h => ?_, fun h => ?_, fun he hr hb hlt => ?_⟩, fun s hdue hl hm => ⟨fun hq => ?_, fun hq => ?_⟩⟩
  · change execEnrolWaitExpiry s = _
    simp only [execEnrolWaitExpiry, State.fresh_eq, State.dir_setOut, h, if_true]
    rfl
  · change execCopyInterval s = _
    simp only [execCopyInterval, State.fresh_eq, State.patrol_setOut, h, if_true]
    rfl
  · have stays : s.patrol.isWithdrawn s.patrol.posBank = false := by
      rw [Bool.eq_false_iff, ne_eq, Patrol.isWithdrawn_iff]
      exact hb
    change execPatrolInterval s = _
    simp only [execPatrolInterval, State.fresh_eq, State.patrol_setOut, he, hr, Bool.and_self, if_true, State.mapPatrol_eq,
      Patrol.intervalOver, Patrol.allWithdrawn_false hb hlt, Bool.false_eq_true, if_false, State.settlePosition_rests stays]
    rfl
  · rw [exec_enrolOffer hdue hl, State.offerEnrol_room (s := enrolTaken s) hm hq]
    rfl
  · rw [exec_enrolOffer hdue hl, State.offerEnrol_full (s := enrolTaken s) hm hq]
    rfl

end Sys2Proof.Machine
end

section
/-! SUPPORT. The banks: their states under the patrol's walk and a withdrawal, the spare decision by its table, and the error buckets
(R125 to R127, R133, R135, R140). -/

namespace Sys2Proof.Machine

namespace Patrol

/-! ## The states of the banks -/

/-- A change of one bank's record. -/
theorem getElem?_setBank (b c : Nat) (f : Bank → Bank) (p : Patrol) :
    (p.setBank b f).banks[c]? = if c = b then p.banks[c]?.map f else p.banks[c]? := by
  simp only [setBank, List.getElem?_modify, eq_comm (a := b)]
  split <;> simp

theorem bankState_eq (p : Patrol) (b : Nat) : p.bankState b = (p.banks[b]?.map Bank.state).getD .good := by
  unfold bankState
  rw [List.getD_eq_getElem?_getD]
  cases p.banks[b]? <;> rfl

/-- A bank that does not exist reads GOOD. -/
theorem exists_of_bankState {p : Patrol} {b : Nat} (h : p.bankState b ≠ .good) : b < p.banks.length := by
  refine Nat.lt_of_not_le fun hb => h ?_
  rw [bankState_eq, List.getElem?_eq_none hb]
  rfl

theorem bankState_setBank {f : Bank → Bank} {x : BankState} (hf : ∀ k, (f k).state = x) (b c : Nat) (p : Patrol) :
    (p.setBank b f).bankState c = if c = b ∧ b < p.banks.length then x else p.bankState c := by
  rw [bankState_eq, getElem?_setBank, bankState_eq]
  by_cases hc : c = b
  · subst hc
    by_cases hlt : c < p.banks.length
    · simp [hlt, hf]
    · simp [hlt]
  · simp [hc]

theorem bankState_nextBank (p : Patrol) (c : Nat) : p.nextBank.bankState c = p.bankState c := by
  unfold nextBank
  split
  · rfl
  · dsimp only
    split
    · rfl
    · exact bankState_completePass _ c

/-- The walk changes counts, never a bank's state. -/
theorem bankState_settlePosition (p : Patrol) (c : Nat) : p.settlePosition.bankState c = p.bankState c := by
  unfold settlePosition
  generalize p.banks.length = n
  induction n generalizing p with
  | zero => rfl
  | succ n ih =>
    unfold skipWithdrawn
    split
    · rw [ih, bankState_nextBank]
    · rfl

theorem skipWithdrawn_on {p : Patrol} (hb : p.bankState p.posBank ≠ .withdrawn) (n : Nat) : skipWithdrawn n p = p := by
  cases n with
  | zero => rfl
  | succ n =>
    have stays : p.isWithdrawn p.posBank = false := Bool.eq_false_iff.2 fun h => hb ((isWithdrawn_iff _ _).1 h)
    simp only [skipWithdrawn, stays, Bool.false_and, Bool.false_eq_true, if_false]

theorem settlePosition_on {p : Patrol} (hb : p.bankState p.posBank ≠ .withdrawn) : p.settlePosition = p := skipWithdrawn_on hb _

theorem nextBank_up {p : Patrol} (hlt : p.posBank + 1 < p.banks.length) :
    p.nextBank = { p with posBank := p.posBank + 1, posCell := 0 } := if_pos hlt

/-- The walk leaves a WITHDRAWN bank for the next one. -/
theorem settlePosition_next {p : Patrol} (hw : p.bankState p.posBank = .withdrawn) (hlt : p.posBank + 1 < p.banks.length)
    (hn : p.bankState (p.posBank + 1) ≠ .withdrawn) : p.settlePosition = { p with posBank := p.posBank + 1, posCell := 0 } := by
  obtain ⟨n, length⟩ : ∃ n, p.banks.length = n + 1 := ⟨p.banks.length - 1, by omega⟩
  unfold settlePosition
  rw [length]
  simp only [skipWithdrawn, (isWithdrawn_iff _ _).2 hw, allWithdrawn_false hn hlt, Bool.not_false, Bool.and_self, if_true,
    nextBank_up hlt]
  exact skipWithdrawn_on (p := { p with posBank := p.posBank + 1, posCell := 0 }) hn n

end Patrol

namespace State

/-! ## Withdrawals -/

theorem notifyAuthorities_quiet (n : Notice) (s : State) : Quiet s (s.notifyAuthorities n) := by
  unfold notifyAuthorities
  generalize List.range s.straps.authLimit.val = ks
  induction ks generalizing s with
  | nil => exact .refl s
  | cons k ks ih => exact (notify_quiet _ _ s).trans (ih _)

theorem notifyAuthorities_noticed {s : State} (hm : s.link.state ≠ .mute) (n : Notice) :
    s.notifyAuthorities n = (List.range s.straps.authLimit.val).foldl (fun t k => noticed (k + 1) n t) s := by
  unfold notifyAuthorities
  generalize List.range s.straps.authLimit.val = ks
  induction ks generalizing s with
  | nil => rfl
  | cons k ks ih =>
    have still : (s.notify (k + 1) n).link.state ≠ .mute := (notify_quiet _ _ s).linkState ▸ hm
    simp only [List.foldl_cons]
    rw [ih still, notify_noticed hm]

theorem leaveWithdrawn_bankState (s : State) (c : Nat) : s.leaveWithdrawn.patrol.bankState c = s.patrol.bankState c := by
  unfold leaveWithdrawn
  split
  · exact Patrol.bankState_settlePosition _ c
  · rfl

theorem leaveWithdrawn_on {s : State} (h : s.patrol.bankState s.patrol.posBank ≠ .withdrawn) : s.leaveWithdrawn = s := by
  unfold leaveWithdrawn
  rw [mapPatrol_eq, Patrol.settlePosition_on h]
  exact ite_self _

theorem leaveWithdrawn_stopped {s : State} (h : s.patrol.enabled = false ∨ s.patrol.stepWaits = true) : s.leaveWithdrawn = s := by
  unfold leaveWithdrawn
  rcases h with h | h <;> simp [h]

theorem leaveWithdrawn_next {s : State} (he : s.patrol.enabled = true) (hs : s.patrol.stepWaits = false)
    (hw : s.patrol.bankState s.patrol.posBank = .withdrawn) (hlt : s.patrol.posBank + 1 < s.patrol.banks.length)
    (hn : s.patrol.bankState (s.patrol.posBank + 1) ≠ .withdrawn) :
    s.leaveWithdrawn = { s with patrol := { s.patrol with posBank := s.patrol.posBank + 1, posCell := 0 } } := by
  have walks : (s.patrol.enabled && !s.patrol.stepWaits) = true := by simp [he, hs]
  unfold leaveWithdrawn
  rw [if_pos walks, mapPatrol_eq, Patrol.settlePosition_next hw hlt hn]
  rfl

/-- Bank `b` is WITHDRAWN: its LOADING records have left, and this station is struck and the ranges are listed. -/
def bankLeft (b : Nat) (s : State) : State :=
  { s with
    patrol := { s.patrol with banks := s.patrol.banks.modify b (fun k => { k with state := .withdrawn }) }
    store := { s.store with
      index := s.store.index.filter (fun r => !(r.bank == b && r.state == .loading))
      writes := s.store.writes.map (fun w =>
        if ∃ r ∈ s.store.index, r.bank = b ∧ r.state = .loading ∧ r.key = w.key then { w with live := false } else w) }
    dir := { s.dir with
      entries := s.dir.entries.map (fun e => if listedFor b s e then e.strike s.straps.station else e)
      outgoing := s.dir.outgoing ++ (s.dir.entries.filter (fun e => listedFor b s e)).map DirEntry.range } }

/-- The LOADING records of bank `b` have left. -/
def loadsLeft (b : Nat) (s : State) : State :=
  (s.mapPatrol fun p => p.setBank b fun k => { k with state := .withdrawn }).mapStore fun st =>
    st.removeWhere fun r => r.bank == b && r.state == .loading

theorem loadsLeft_validIn (b : Nat) (r : KeyRange) (s : State) : (s.loadsLeft b).validIn b r = s.validIn b r := by
  simp only [loadsLeft, validIn, mapStore_eq, store_setStore, mapPatrol_eq, store_setPatrol, Store.removeWhere, List.any_filter]
  congr 1
  funext x
  cases x.state <;> simp

theorem loadsLeft_validCount (b : Nat) (s : State) : (s.loadsLeft b).validCount b = s.validCount b := by
  simp only [loadsLeft, validCount, mapStore_eq, store_setStore, mapPatrol_eq, store_setPatrol, Store.removeWhere, List.filter_filter]
  congr 2
  funext x
  cases x.state <;> simp

theorem strikesOwn_loadsLeft (b : Nat) (s : State) :
    Directory.strikesOwn s.own ((s.loadsLeft b).validIn b) = listedFor b s := by
  funext e
  simp only [Directory.strikesOwn, loadsLeft_validIn]
  rfl

theorem loadsLeft_withdrawOwn (b : Nat) (s : State) :
    ((s.loadsLeft b).mapDir fun d => d.withdrawOwn s.own ((s.loadsLeft b).validIn b)) = s.bankLeft b := by
  have writes : (s.loadsLeft b).store.writes = (s.bankLeft b).store.writes := by
    refine List.map_congr_left fun w _ => ite_of_iff ?_ rfl rfl
    simp [and_assoc]
  have same : (s.loadsLeft b).store = (s.bankLeft b).store :=
    congrArg (fun w => { s.store with index := (s.bankLeft b).store.index, writes := w }) writes
  unfold Directory.withdrawOwn
  rw [strikesOwn_loadsLeft]
  exact congrArg (fun st => (s.bankLeft b).setStore st) same

/-- A withdrawal, with the records and ranges that its notices count taken before its effects. -/
theorem withdrawBank_eq (b : Nat) (s : State) :
    s.withdrawBank b = ((s.bankLeft b).offerOutgoing.notifyAuthorities (.withdrawn b
      (s.store.index.filter fun r => r.state == .valid && r.bank == b).length
      (s.dir.entries.filter (fun e => listedFor b s e)).length)).leaveWithdrawn := by
  have count : (s.bankLeft b).offerOutgoing.validCount b = s.validCount b := by
    refine Eq.trans ?_ (loadsLeft_validCount b s)
    unfold validCount
    rw [(offerOutgoing_quiet _).index]
    rfl
  have ranges : (s.loadsLeft b).dir.ranges s.own ((s.loadsLeft b).validIn b) =
      (s.dir.entries.filter (fun e => listedFor b s e)).length := by
    unfold Directory.ranges
    rw [strikesOwn_loadsLeft]
    rfl
  change (((((s.loadsLeft b).mapDir fun d => d.withdrawOwn s.own ((s.loadsLeft b).validIn b)).offerOutgoing).notifyAuthorities
    (.withdrawn b ((((s.loadsLeft b).mapDir fun d => d.withdrawOwn s.own ((s.loadsLeft b).validIn b)).offerOutgoing).validCount b)
      ((s.loadsLeft b).dir.ranges s.own ((s.loadsLeft b).validIn b)))).leaveWithdrawn) = _
  rw [loadsLeft_withdrawOwn, count, ranges]
  rfl

theorem withdrawBank_bankState (b c : Nat) (s : State) :
    (s.withdrawBank b).patrol.bankState c = if c = b ∧ b < s.patrol.banks.length then .withdrawn else s.patrol.bankState c := by
  rw [withdrawBank_eq, leaveWithdrawn_bankState, (notifyAuthorities_quiet _ _).patrol, (offerOutgoing_quiet _).patrol]
  exact Patrol.bankState_setBank (f := fun k => { k with state := .withdrawn }) (fun _ => rfl) b c s.patrol

/-- A withdrawal changes the banks and the walk's position alone in the Patrol and Spare Unit. -/
theorem withdrawBank_spare (b : Nat) (s : State) : (s.withdrawBank b).patrol.spare = s.patrol.spare := by
  have walked (t : State) : t.leaveWithdrawn.patrol.spare = t.patrol.spare := by
    unfold leaveWithdrawn
    split
    · exact (Patrol.settlePosition_walked _).spare.1
    · rfl
  rw [withdrawBank_eq, walked, (notifyAuthorities_quiet _ _).patrol, (offerOutgoing_quiet _).patrol]
  rfl

/-! ## The banks that wait, withdrawn in ascending order -/

theorem withdrawWaiting_append (as bs : List Nat) (s : State) :
    withdrawWaiting (as ++ bs) s = withdrawWaiting bs (withdrawWaiting as s) := by
  induction as generalizing s with
  | nil => rfl
  | cons a as ih => exact ih _

theorem withdrawWaiting_skip {bs : List Nat} {s : State} (h : ∀ c ∈ bs, s.patrol.bankState c ≠ .atThreshold) :
    withdrawWaiting bs s = s := by
  induction bs with
  | nil => rfl
  | cons b bs ih =>
    obtain ⟨hb, rest⟩ := List.forall_mem_cons.1 h
    simp only [withdrawWaiting, if_neg hb]
    exact ih rest

theorem withdrawWaiting_bankState (bs : List Nat) (c : Nat) (s : State) :
    (withdrawWaiting bs s).patrol.bankState c =
      if c ∈ bs ∧ s.patrol.bankState c = .atThreshold then .withdrawn else s.patrol.bankState c := by
  induction bs generalizing s with
  | nil => simp [withdrawWaiting]
  | cons b bs ih =>
    unfold withdrawWaiting
    rw [ih]
    by_cases hb : s.patrol.bankState b = .atThreshold
    · have inside : b < s.patrol.banks.length := Patrol.exists_of_bankState (by simp [hb])
      rw [if_pos hb, withdrawBank_bankState]
      by_cases hc : c = b
      · subst hc
        simp [inside, hb]
      · simp [hc]
    · rw [if_neg hb]
      by_cases hc : c = b
      · subst hc
        simp [hb]
      · simp [hc]

/-! ## The spare decision -/

theorem spareDecision_off {s : State} (h : s.patrol.sparing = false) : s.spareDecision = s := by simp [spareDecision, h]

theorem spareDecision_target {s : State} (h : s.patrol.spare = .target) : s.spareDecision = s := by simp [spareDecision, h]

theorem spareDecision_free {s : State} {b : Nat} (hon : s.patrol.sparing = true) (hf : s.patrol.spare = .free)
    (hb : b < s.patrol.banks.length) (hat : s.patrol.bankState b = .atThreshold)
    (hlow : ∀ c, c < b → s.patrol.bankState c ≠ .atThreshold) : s.spareDecision = s.mapPatrol (Patrol.beginCopy b) := by
  simp only [spareDecision, hon, hf, lowestAtThreshold_eq hb hat hlow, if_true]

theorem spareDecision_withdraws {s : State} (hon : s.patrol.sparing = true) (h : s.patrol.spare = .inUse ∨ s.patrol.spare = .absent) :
    s.spareDecision = withdrawWaiting (List.range s.patrol.banks.length) s := by
  rcases h with h | h <;> simp only [spareDecision, hon, h, if_true]

/-- With no spare to take, every AT-THRESHOLD bank is withdrawn and no other. -/
theorem spareDecision_bankState {s : State} (hon : s.patrol.sparing = true) (h : s.patrol.spare = .inUse ∨ s.patrol.spare = .absent)
    (c : Nat) : s.spareDecision.patrol.bankState c =
      if s.patrol.bankState c = .atThreshold then .withdrawn else s.patrol.bankState c := by
  have inside (hc : s.patrol.bankState c = .atThreshold) : c < s.patrol.banks.length :=
    Patrol.exists_of_bankState (by simp [hc])
  rw [spareDecision_withdraws hon h, withdrawWaiting_bankState]
  refine ite_of_iff ⟨fun hc => hc.2, fun hc => ⟨List.mem_range.2 (inside hc), hc⟩⟩ rfl rfl

/-- The lowest AT-THRESHOLD bank is withdrawn first. -/
theorem spareDecision_lowest {s : State} {b : Nat} (hon : s.patrol.sparing = true)
    (h : s.patrol.spare = .inUse ∨ s.patrol.spare = .absent) (hb : b < s.patrol.banks.length)
    (hat : s.patrol.bankState b = .atThreshold) (hlow : ∀ c, c < b → s.patrol.bankState c ≠ .atThreshold) :
    s.spareDecision = (s.withdrawBank b).spareDecision := by
  have spared := withdrawBank_spared b s
  have later (c : Nat) (hc : c ≤ b) : (s.withdrawBank b).patrol.bankState c ≠ .atThreshold := by
    rw [withdrawBank_bankState]
    split
    · simp
    · rename_i other
      exact hlow c (by omega)
  obtain ⟨above, banks⟩ : ∃ above, List.range s.patrol.banks.length = List.range b ++ b :: above := by
    obtain ⟨n, hn⟩ := Nat.exists_eq_add_of_lt hb
    rw [hn, Nat.add_assoc, List.range_add, List.range_succ_eq_map]
    exact ⟨_, rfl⟩
  rw [spareDecision_withdraws hon h, spareDecision_withdraws (spared.policy.2.2.1.trans hon) (by rwa [withdrawBank_spare]),
    spared.banks, banks, withdrawWaiting_append, withdrawWaiting_append, withdrawWaiting_skip fun c hc => hlow c (List.mem_range.1 hc),
    withdrawWaiting_skip (s := s.withdrawBank b) fun c hc => later c (Nat.le_of_lt (List.mem_range.1 hc))]
  simp only [withdrawWaiting, if_pos hat, if_neg (later b (Nat.le_refl b))]

/-! ## Error reports -/

theorem countReport_counts {p : Patrol} {b : Nat} {k : Bank} (hk : p.banks[b]? = some k) (hg : k.state = .good)
    (hn : k.count + 1 < p.threshold) : p.countReport b = { p with banks := p.banks.set b { k with count := k.count + 1 } } := by
  unfold Patrol.countReport Patrol.setBank
  rw [modify_eq_set _ hk]
  simp only [hg, if_pos hn]

theorem countReport_freezes {p : Patrol} {b : Nat} {k : Bank} (hk : p.banks[b]? = some k) (hg : k.state = .good)
    (hn : p.threshold ≤ k.count + 1) :
    p.countReport b = { p with banks := p.banks.set b { count := k.count + 1, state := .atThreshold } } := by
  unfold Patrol.countReport Patrol.setBank
  rw [modify_eq_set _ hk]
  simp only [hg, if_neg (Nat.not_lt.2 hn)]

theorem bankState_set {p : Patrol} {b : Nat} (hb : b < p.banks.length) (k : Bank) :
    Patrol.bankState { p with banks := p.banks.set b k } b = k.state := by
  rw [Patrol.bankState_eq, List.getElem?_set_self hb]
  rfl

theorem reportError_counts {s : State} {b : Nat} {k : Bank} (hk : s.patrol.banks[b]? = some k) (hg : k.state = .good)
    (hn : k.count + 1 < s.patrol.threshold) :
    s.reportError b true = { s with patrol := { s.patrol with banks := s.patrol.banks.set b { k with count := k.count + 1 } } } := by
  have good : s.patrol.bankState b = .good := (bankState_of_getElem? hk).trans hg
  have inside : b < s.patrol.banks.length := (List.getElem?_eq_some_iff.1 hk).1
  simp only [reportError, good, mapPatrol_eq, patrol_setPatrol, countReport_counts hk hg hn, bankState_set inside, hg]
  rfl

theorem reportError_freezes {s : State} {b : Nat} {k : Bank} (hk : s.patrol.banks[b]? = some k) (hg : k.state = .good)
    (hn : s.patrol.threshold ≤ k.count + 1) :
    s.reportError b true = State.spareDecision
      { s with patrol := { s.patrol with banks := s.patrol.banks.set b { count := k.count + 1, state := .atThreshold } } } := by
  have good : s.patrol.bankState b = .good := (bankState_of_getElem? hk).trans hg
  have inside : b < s.patrol.banks.length := (List.getElem?_eq_some_iff.1 hk).1
  simp only [reportError, good, mapPatrol_eq, patrol_setPatrol, countReport_freezes hk hg hn, bankState_set inside]
  rfl

end State

/-- Settles O32: the table of the spare decision, the four steps of a withdrawal, and the walk that leaves the bank. -/
theorem spareDecisionByTheTable : Obligations.SpareDecisionByTheTable := by
  refine ⟨fun s => ⟨State.spareDecision_off, State.spareDecision_target, State.spareDecision_none s, fun b => State.spareDecision_free,
    fun hon h => ⟨fun b => ?_, fun b => State.spareDecision_lowest hon h⟩⟩, fun b s struck hm hstruck => ?_,
    fun s => ⟨State.leaveWithdrawn_on, State.leaveWithdrawn_stopped, State.leaveWithdrawn_next⟩⟩
  · rw [State.spareDecision_bankState hon h]
    constructor
    · split <;> simp_all
    · exact fun hb => if_pos hb
  · subst hstruck
    have quiet := State.offerOutgoing_quiet (s.bankLeft b)
    rw [State.withdrawBank_eq, State.notifyAuthorities_noticed (quiet.linkState ▸ hm), quiet.straps]
    rfl

/-- Settles O33. -/
theorem errorBuckets : Obligations.ErrorBuckets := by
  refine fun b s => ⟨rfl, fun hg => ?_, fun k hk hg hn => State.reportError_counts hk hg hn, fun k hk hg hn hoff => ?_,
    fun k hk hg hn => State.reportError_freezes hk hg hn, fun p hp => ?_, fun p hp => ?_⟩
  · simp [State.reportError, hg]
  · rw [State.reportError_freezes hk hg hn]
    exact State.spareDecision_off hoff
  · exact if_neg (Nat.not_le.2 hp)
  · exact if_pos hp

end Sys2Proof.Machine
end

section
/-! SUPPORT. The fields of a STORE-POLICY, each by what it does to the Patrol and Spare Unit and when it is refused, and the frame that
carries them (R128 to R132). -/

namespace Sys2Proof.Machine

namespace Patrol

section
variable {p q : Patrol} {v b : Nat}

/-! ## The fields -/

theorem setThreshold_taken (h1 : 1 ≤ v) (h2 : v ≤ 255) : p.setThreshold v = some { p with
    threshold := v, banks := p.banks.map fun k => if k.state == .good && v ≤ k.count then { k with state := .atThreshold } else k } := by
  simp [setThreshold, h1, h2]

theorem setThreshold_refused (h : v = 0 ∨ 255 < v) : p.setThreshold v = none := by
  unfold setThreshold
  refine if_neg ?_
  simp only [Bool.and_eq_true, decide_eq_true_eq]
  omega

theorem setDrip_taken (h1 : 1 ≤ v) (h2 : v ≤ 15) : p.setDrip v = some { p with drip := v } := by simp [setDrip, h1, h2]

theorem setDrip_refused (h : v = 0 ∨ 15 < v) : p.setDrip v = none := by
  unfold setDrip
  refine if_neg ?_
  simp only [Bool.and_eq_true, decide_eq_true_eq]
  omega

theorem setSparing_on (p : Patrol) : p.setSparing 1 = some { p with sparing := true } := rfl

/-- Off changes the setting alone when there is no copy to abort. -/
theorem setSparing_off (h : p.sparing = false ∨ p.copySource = none) : p.setSparing 0 = some { p with sparing := false } := by
  cases hon : p.sparing with
  | false =>
    have same : { p with sparing := false } = p := by rw [← hon]
    simp [setSparing, hon, same]
  | true => simp [setSparing, hon, abortCopy, h.resolve_left (by simp [hon])]

theorem setSparing_aborts (hon : p.sparing = true) (hc : p.copySource = some b) : p.setSparing 0 = some { p with
    sparing := false, spare := .free, copySource := none, copyProgress := none, copyStepWaits := false, copyIntervalRuns := false
    banks := p.banks.modify b (fun k => { k with state := .atThreshold }) } := by
  simp [setSparing, hon, abortCopy, hc, setBank]

theorem setEnabled_same (h : v = if p.enabled then 1 else 0) : p.setEnabled v = some p := by
  subst h
  cases he : p.enabled <;> simp [setEnabled, he]

theorem setEnabled_off (he : p.enabled = true) :
    p.setEnabled 0 = some { p with enabled := false, intervalRuns := false, stepWaits := false } := by simp [setEnabled, he]

theorem setEnabled_on (he : p.enabled = false) :
    p.setEnabled 1 = some (settlePosition { p with enabled := true, intervalRuns := true }) := by simp [setEnabled, he]

theorem setThaw_taken (hb : b < p.banks.length) (h : p.bankState b = .good ∨ p.bankState b = .atThreshold ∨ p.bankState b = .spared) :
    p.setThaw b = some { p with banks := p.banks.modify b (fun _ => { count := 0, state := .good }) } := by
  rcases h with h | h | h <;> simp [setThaw, hb, h, setBank]

theorem setThaw_refused (h : p.banks.length ≤ b ∨ p.bankState b = .copying ∨ p.bankState b = .withdrawn) : p.setThaw b = none := by
  unfold setThaw
  rcases h with h | h | h
  · exact if_neg (Nat.not_lt.2 h)
  · rw [h]
    exact ite_self _
  · rw [h]
    exact ite_self _

theorem setForce_taken (hb : b < p.banks.length) (h : p.bankState b = .good ∨ p.bankState b = .spared) :
    p.setForce b = some { p with banks := p.banks.modify b (fun k => { k with state := .atThreshold }) } := by
  rcases h with h | h <;> simp [setForce, hb, h, setBank]

theorem setForce_leaves (hb : b < p.banks.length) (h : p.bankState b = .atThreshold ∨ p.bankState b = .withdrawn) :
    p.setForce b = some p := by
  rcases h with h | h <;> simp [setForce, hb, h]

theorem setForce_refused (h : p.banks.length ≤ b ∨ p.bankState b = .copying) : p.setForce b = none := by
  unfold setForce
  rcases h with h | h
  · exact if_neg (Nat.not_lt.2 h)
  · rw [h]
    exact ite_self _

/-! ## One field alone -/

theorem applyPolicy_threshold (v : Option Nat) (p : Patrol) : p.applyPolicy { noFields with threshold := v } = field setThreshold v p :=
  Option.bind_fun_some _

theorem applyPolicy_drip (v : Option Nat) (p : Patrol) : p.applyPolicy { noFields with drip := v } = field setDrip v p :=
  Option.bind_fun_some _

theorem applyPolicy_sparing (v : Option Nat) (p : Patrol) : p.applyPolicy { noFields with sparing := v } = field setSparing v p :=
  Option.bind_fun_some _

theorem applyPolicy_patrol (v : Option Nat) (p : Patrol) : p.applyPolicy { noFields with patrol := v } = field setEnabled v p :=
  Option.bind_fun_some _

theorem applyPolicy_thaw (v : Option Nat) (p : Patrol) : p.applyPolicy { noFields with thaw := v } = field setThaw v p :=
  Option.bind_fun_some _

theorem applyPolicy_force (v : Option Nat) (p : Patrol) : p.applyPolicy { noFields with force := v } = field setForce v p := rfl

/-! ## What fields leave -/

/-- No bank is added or removed, and a COPYING or WITHDRAWN bank stays so. -/
def Holds (p q : Patrol) : Prop :=
  q.banks.length = p.banks.length ∧ ∀ c, (p.bankState c = .copying ∨ p.bankState c = .withdrawn) → q.bankState c = p.bankState c

theorem Holds.refl (p : Patrol) : p.Holds p := ⟨rfl, fun _ _ => rfl⟩

theorem Holds.trans {r : Patrol} (h : p.Holds q) (k : q.Holds r) : p.Holds r :=
  ⟨k.1.trans h.1, fun c hc => (k.2 c (by rwa [h.2 c hc])).trans (h.2 c hc)⟩

theorem Holds.of_banks (h : q.banks = p.banks) : p.Holds q :=
  ⟨congrArg List.length h, fun c _ => by unfold bankState; rw [h]⟩

theorem Holds.of_setBank {f : Bank → Bank} {x : BankState} (hf : ∀ k, (f k).state = x)
    (h : p.bankState b ≠ .copying ∧ p.bankState b ≠ .withdrawn) : p.Holds (p.setBank b f) := by
  refine ⟨List.length_modify .., fun c hc => ?_⟩
  rw [bankState_setBank hf]
  refine if_neg fun hcb => ?_
  rw [hcb.1] at hc
  exact hc.elim h.1 h.2

theorem setThreshold_holds (h : p.setThreshold v = some q) : p.Holds q := by
  unfold setThreshold at h
  split at h
  · cases h
    refine ⟨List.length_map .., fun c hc => ?_⟩
    rw [bankState_eq] at hc ⊢
    rw [bankState_eq, List.getElem?_map]
    cases hk : p.banks[c]? with
    | none => rfl
    | some k =>
      simp only [hk, Option.map_some, Option.getD_some] at hc ⊢
      rcases hc with hc | hc <;> simp [hc]
  · cases h

theorem setDrip_holds (h : p.setDrip v = some q) : p.Holds q := by
  unfold setDrip at h
  split at h
  · cases h
    exact .of_banks rfl
  · cases h

theorem setSparing_length (h : p.setSparing v = some q) : q.banks.length = p.banks.length := by
  unfold setSparing abortCopy at h
  repeat' split at h
  all_goals cases h
  all_goals simp [setBank]

theorem setSparing_holds (hv : v ≠ 0) (hb : v ≤ 1) (h : p.setSparing v = some q) : p.Holds q := by
  obtain rfl : v = 1 := by omega
  cases h
  exact .of_banks rfl

theorem settlePosition_holds (p : Patrol) : p.Holds p.settlePosition :=
  ⟨(settlePosition_walked p).banks, fun c _ => bankState_settlePosition p c⟩

theorem setEnabled_holds (h : p.setEnabled v = some q) : p.Holds q := by
  unfold setEnabled at h
  repeat' split at h
  all_goals cases h
  · exact .refl _
  · exact settlePosition_holds { p with enabled := true, intervalRuns := true }
  · exact .of_banks rfl
  · exact .refl _

theorem setThaw_holds (h : p.setThaw b = some q) : p.Holds q := by
  unfold setThaw at h
  repeat' split at h
  all_goals cases h
  all_goals exact .of_setBank (f := fun _ => { count := 0, state := .good }) (fun _ => rfl) (by simp [*])

theorem field_holds {f : Nat → Patrol → Option Patrol} {x : Option Nat} (hf : ∀ v, x = some v → f v p = some q → p.Holds q)
    (h : field f x p = some q) : p.Holds q := by
  cases x with
  | none =>
    cases h
    exact .refl _
  | some v => exact hf v rfl h

/-! ## The six fields in their order -/

theorem applyPolicy_fields (f : PolicyFrame) (p : Patrol) : p.applyPolicy f =
    (p.applyPolicy { noFields with threshold := f.threshold }).bind fun p =>
      (p.applyPolicy { noFields with drip := f.drip }).bind fun p =>
        (p.applyPolicy { noFields with sparing := f.sparing }).bind fun p =>
          (p.applyPolicy { noFields with patrol := f.patrol }).bind fun p =>
            (p.applyPolicy { noFields with thaw := f.thaw }).bind fun p => p.applyPolicy { noFields with force := f.force } := by
  simp only [applyPolicy_threshold, applyPolicy_drip, applyPolicy_sparing, applyPolicy_patrol, applyPolicy_thaw, applyPolicy_force]
  rfl

/-- A frame that is taken: the unit before THAW and before FORCE. -/
theorem applyPolicy_taken {f : PolicyFrame} (h : p.applyPolicy f = some q) :
    ∃ a c, a.banks.length = p.banks.length ∧ (policyBad f = false → f.sparing ≠ some 0 → p.Holds a) ∧
      field setThaw f.thaw a = some c ∧ field setForce f.force c = some q := by
  simp only [applyPolicy, Option.bind_eq_some_iff] at h
  obtain ⟨p1, h1, p2, h2, p3, h3, p4, h4, p5, h5, h6⟩ := h
  have begun : p.Holds p2 := (field_holds (fun _ _ => setThreshold_holds) h1).trans (field_holds (fun _ _ => setDrip_holds) h2)
  have walk : p3.Holds p4 := field_holds (fun _ _ => setEnabled_holds) h4
  refine ⟨p4, p5, ?_, fun hbad hs => begun.trans ((field_holds (fun v hv hq => ?_) h3).trans walk), h5, h6⟩
  · refine walk.1.trans (Eq.trans ?_ begun.1)
    cases hs : f.sparing with
    | none =>
      rw [hs] at h3
      cases h3
      rfl
    | some v =>
      rw [hs] at h3
      exact setSparing_length h3
  · have small : v ≤ 1 := by simpa [policyBad, hv, enableBad] using (Bool.or_eq_false_iff.1 hbad).1
    exact setSparing_holds (fun h0 => hs (by rw [hv, h0])) small hq

/-- THAW and FORCE name banks of the unit that are not COPYING, and THAW none that is WITHDRAWN, unless sparing has been set off. -/
theorem applyPolicy_numbers {f : PolicyFrame} (hb : f.thaw = some b ∨ f.force = some b) (hn : p.banks.length ≤ b) :
    p.applyPolicy f = none := by
  refine Option.eq_none_iff_forall_ne_some.2 fun q h => ?_
  obtain ⟨a, c, length, -, thaws, forces⟩ := applyPolicy_taken h
  have kept : a.Holds c := field_holds (fun _ _ => setThaw_holds) thaws
  rcases hb with hb | hb
  · rw [hb, field, setThaw_refused (.inl (length ▸ hn))] at thaws
    cases thaws
  · rw [hb, field, setForce_refused (.inl (by rw [kept.1, length]; exact hn))] at forces
    cases forces

theorem applyPolicy_states {f : PolicyFrame} (hbad : policyBad f = false) (hs : f.sparing ≠ some 0)
    (h : (f.thaw = some b ∧ (p.bankState b = .copying ∨ p.bankState b = .withdrawn)) ∨
      (f.force = some b ∧ p.bankState b = .copying)) : p.applyPolicy f = none := by
  refine Option.eq_none_iff_forall_ne_some.2 fun q hq => ?_
  obtain ⟨a, c, -, held, thaws, forces⟩ := applyPolicy_taken hq
  have held := held hbad hs
  have kept : a.Holds c := field_holds (fun _ _ => setThaw_holds) thaws
  rcases h with ⟨hb, hst⟩ | ⟨hb, hst⟩
  · rw [hb, field, setThaw_refused (.inr (by rwa [held.2 b hst]))] at thaws
    cases thaws
  · have copying : c.bankState b = .copying := ((held.trans kept).2 b (.inl hst)).trans hst
    rw [hb, field, setForce_refused (.inr copying)] at forces
    cases forces

theorem applyPolicy_values {f : PolicyFrame} (h : (f.threshold = some v ∧ (v = 0 ∨ 255 < v)) ∨ (f.drip = some v ∧ (v = 0 ∨ 15 < v))) :
    p.applyPolicy f = none := by
  refine Option.eq_none_iff_forall_ne_some.2 fun q hq => ?_
  simp only [applyPolicy, Option.bind_eq_some_iff] at hq
  obtain ⟨p1, h1, p2, h2, -⟩ := hq
  rcases h with ⟨hf, hv⟩ | ⟨hf, hv⟩
  · rw [hf, field, setThreshold_refused hv] at h1
    cases h1
  · rw [hf, field, setDrip_refused hv] at h2
    cases h2

end

end Patrol

/-! ## The frame -/

section
variable {h : Hdr} {s : State} {f : PolicyFrame} {p : Patrol}

theorem receivePolicy_refused (ha : Arrives h s) (hf : FromAuthority h s)
    (hr : policyBad f = true ∨ h.dst = 0 ∨ s.patrol.applyPolicy f = none) : s.receivePolicy h f = answers false (arrived h s) := by
  cases hb : policyBad f with
  | true => exact State.receive_refused ha (.inl hb) _
  | false =>
    refine (State.receive_library ha hf hb _).trans ?_
    have hr := hr.resolve_left (by simp [hb])
    have turned : (arrived h s).takePolicy h f = (arrived h s, false) := by
      unfold State.takePolicy
      by_cases hd : h.dst = 0
      · exact if_pos hd
      · rw [if_neg hd]
        have none : (arrived h s).patrol.applyPolicy f = none := hr.resolve_left hd
        rw [none]
    rw [turned]

theorem receivePolicy_taken (ha : ArrivesHere h s) (hf : FromAuthority h s) (hb : policyBad f = false)
    (hp : s.patrol.applyPolicy f = some p) :
    s.receivePolicy h f = answers true (if policyDecides f s.patrol then State.spareDecision { arrived h s with patrol := p }
      else { arrived h s with patrol := p }) := by
  have taken : (arrived h s).patrol.applyPolicy f = some p := hp
  have here : h.dst ≠ 0 := ha.2.2.2
  rw [State.receivePolicy_here ha hf hb]
  unfold State.takePolicy
  rw [if_neg here, taken]
  rfl

theorem receivePolicy_quiet (ha : ArrivesHere h s) (hf : FromAuthority h s) (hb : policyBad f = false)
    (hp : s.patrol.applyPolicy f = some p) (hd : policyDecides f s.patrol = false) :
    s.receivePolicy h f = answers true { arrived h s with patrol := p } := by
  rw [receivePolicy_taken ha hf hb hp, hd]
  rfl

theorem receivePolicy_decides (ha : ArrivesHere h s) (hf : FromAuthority h s) (hb : policyBad f = false)
    (hp : s.patrol.applyPolicy f = some p) (hd : policyDecides f s.patrol = true) :
    s.receivePolicy h f = answers true (State.spareDecision { arrived h s with patrol := p }) := by
  rw [receivePolicy_taken ha hf hb hp, hd]
  rfl

end

/-- Settles O28: each field alone, taken or refused by the unit's rule for it. -/
theorem dripPatrolAndThawFields : Obligations.DripPatrolAndThawFields := by
  refine fun h s ha hf => ⟨fun v h1 h2 => congrArg Host.Outcome.next ?_, fun v hv => congrArg Host.Outcome.next ?_,
    congrArg Host.Outcome.next ?_, fun he => congrArg Host.Outcome.next ?_, fun he hb hn => congrArg Host.Outcome.next ?_,
    fun v hv => congrArg Host.Outcome.next ?_, fun b hb hs => congrArg Host.Outcome.next ?_,
    fun b hb => congrArg Host.Outcome.next ?_⟩
  · exact receivePolicy_quiet ha hf rfl ((Patrol.applyPolicy_drip (some v) _).trans (Patrol.setDrip_taken h1 h2)) rfl
  · exact receivePolicy_refused (State.arrives_of_here ha) hf
      (.inr (.inr ((Patrol.applyPolicy_drip (some v) _).trans (Patrol.setDrip_refused hv))))
  · cases he : s.patrol.enabled with
    | false =>
      exact receivePolicy_quiet ha hf rfl ((Patrol.applyPolicy_patrol (some 0) _).trans (Patrol.setEnabled_same (by simp [he]))) rfl
    | true => exact receivePolicy_quiet ha hf rfl ((Patrol.applyPolicy_patrol (some 0) _).trans (Patrol.setEnabled_off he)) rfl
  · exact receivePolicy_quiet ha hf rfl ((Patrol.applyPolicy_patrol (some 1) _).trans (Patrol.setEnabled_same (by simp [he]))) rfl
  · refine receivePolicy_quiet ha hf rfl ((Patrol.applyPolicy_patrol (some 1) _).trans ((Patrol.setEnabled_on he).trans ?_)) rfl
    exact congrArg some (Patrol.settlePosition_on (p := { s.patrol with enabled := true, intervalRuns := true }) hb)
  · exact receivePolicy_refused (State.arrives_of_here ha) hf (.inl (by simp [policyBad, enableBad, noFields, hv]))
  · exact receivePolicy_quiet ha hf rfl ((Patrol.applyPolicy_thaw (some b) _).trans (Patrol.setThaw_taken hb hs)) rfl
  · exact receivePolicy_refused (State.arrives_of_here ha) hf
      (.inr (.inr ((Patrol.applyPolicy_thaw (some b) _).trans (Patrol.setThaw_refused hb))))

/-- What the spare decision after a field leaves as it was, with the frame's answer as the step's only output. -/
theorem spareDecision_leaves (s t : State) (h : Spared s t) (hout : s.out = []) :
    (answers true t).out = [.answer true false] ∧ t.patrol.threshold = s.patrol.threshold ∧
      t.store.memory = s.store.memory ∧ t.slots = s.slots ∧ t.cache = s.cache ∧ t.lines = s.lines :=
  ⟨by simp [answers, h.out, hout], h.policy.1, (congrArg Store.memory h.store :), h.slots, h.cache, h.lines⟩

/-- Settles O29: the threshold and FORCE, each followed by the spare decision. -/
theorem thresholdAndForce : Obligations.ThresholdAndForce := by
  refine ⟨fun h v s ha hf h1 h2 => ?_, fun h v s ha hf hv => congrArg Host.Outcome.next ?_,
    fun h b s ha hf hb => ?_, fun h b s ha hf hb => congrArg Host.Outcome.next ?_⟩
  · have taken : exec (.threshold h v) s = .next _ := congrArg Host.Outcome.next (receivePolicy_decides ha hf rfl
      ((Patrol.applyPolicy_threshold (some v) _).trans (Patrol.setThreshold_taken h1 h2)) rfl)
    refine ⟨fun hoff => taken.trans ?_, taken, _, taken, ?_⟩
    · exact congrArg (fun t => Host.Outcome.next (answers true t)) (State.spareDecision_off hoff)
    · exact spareDecision_leaves _ _ (State.spareDecision_spared _) rfl
  · exact receivePolicy_refused (State.arrives_of_here ha) hf
      (.inr (.inr ((Patrol.applyPolicy_threshold (some v) _).trans (Patrol.setThreshold_refused hv))))
  · have decides {p : Patrol} (hp : s.patrol.setForce b = some p) :
        exec (.force h b) s = .next (answers true (State.spareDecision { arrived h s with patrol := p })) :=
      congrArg Host.Outcome.next (receivePolicy_decides ha hf rfl ((Patrol.applyPolicy_force (some b) _).trans hp) rfl)
    have off {p : Patrol} (hp : p.sparing = false) :
        Host.Outcome.next (answers true (State.spareDecision { arrived h s with patrol := p })) =
          (.next (answers true { arrived h s with patrol := p }) : Host.Outcome State Fault Refusal) :=
      congrArg (fun t => Host.Outcome.next (answers true t)) (State.spareDecision_off hp)
    exact ⟨fun hoff hst => (decides (Patrol.setForce_taken hb hst)).trans (off hoff),
      fun hst => decides (Patrol.setForce_taken hb hst),
      fun hoff hst => (decides (Patrol.setForce_leaves hb hst)).trans (off hoff),
      fun hst => decides (Patrol.setForce_leaves hb hst),
      fun hst => congrArg Host.Outcome.next (receivePolicy_refused (State.arrives_of_here ha) hf
        (.inr (.inr ((Patrol.applyPolicy_force (some b) _).trans (Patrol.setForce_refused (.inr hst))))))⟩
  · exact receivePolicy_refused (State.arrives_of_here ha) hf
      (.inr (.inr ((Patrol.applyPolicy_force (some b) _).trans (Patrol.setForce_refused (.inl hb)))))

/-- Settles O30: sparing off and on, with the spare decision that on from off calls for. -/
theorem sparingField : Obligations.SparingField := by
  intro h s ha hf
  have quiet {v : Nat} {p : Patrol} (hv : v ≤ 1) (hp : s.patrol.setSparing v = some p) (hd : v = 0 ∨ s.patrol.sparing = true) :
      exec (.sparingEnable h v) s = .next (answers true { arrived h s with patrol := p }) := by
    refine congrArg Host.Outcome.next (receivePolicy_quiet ha hf ?_ ((Patrol.applyPolicy_sparing (some v) _).trans hp) ?_)
    · simpa [policyBad, enableBad, noFields] using hv
    · rcases hd with rfl | hd <;> simp [policyDecides, noFields, *]
  have decides (hoff : s.patrol.sparing = false) : exec (.sparingEnable h 1) s = .next (answers true (State.spareDecision
      { arrived h s with patrol := { s.patrol with sparing := true } })) :=
    congrArg Host.Outcome.next (receivePolicy_decides ha hf rfl
      ((Patrol.applyPolicy_sparing (some 1) _).trans (Patrol.setSparing_on _)) (by simp [policyDecides, noFields, hoff]))
  refine ⟨fun b hon hc => quiet (by omega) (Patrol.setSparing_aborts hon hc) (.inl rfl),
    fun hon hc => quiet (by omega) (Patrol.setSparing_off (.inr hc)) (.inl rfl), fun hon => ?_, fun hoff => ?_,
    fun v hv => congrArg Host.Outcome.next ?_, decides, fun hoff hno => ?_, fun b hoff hfree hb hat hlow => ?_⟩
  · rw [quiet (by omega) (Patrol.setSparing_on _) (.inr hon), ← hon]
    rfl
  · rw [quiet (by omega) (Patrol.setSparing_off (.inl hoff)) (.inl rfl), ← hoff]
    rfl
  · exact receivePolicy_refused (State.arrives_of_here ha) hf (.inl (by simp [policyBad, enableBad, noFields, hv]))
  · rw [decides hoff]
    exact congrArg (fun t => Host.Outcome.next (answers true t)) (State.spareDecision_none
      ({ arrived h s with patrol := { s.patrol with sparing := true } }) hno)
  · rw [decides hoff]
    exact congrArg (fun t => Host.Outcome.next (answers true t)) (State.spareDecision_free
      (s := { arrived h s with patrol := { s.patrol with sparing := true } }) rfl hfree hb hat hlow)

theorem modify_modify {α : Type} (f g : α → α) (b : Nat) (l : List α) :
    (l.modify b f).modify b g = l.modify b fun a => g (f a) := by
  refine List.ext_getElem? fun i => ?_
  simp only [List.getElem?_modify]
  cases l[i]? with
  | none => rfl
  | some x => split <;> simp [*]

/-- Sparing off first aborts the copy of the bank that is then thawed. -/
theorem applyPolicy_offThaw {p : Patrol} {b : Nat} (hon : p.sparing = true) (hc : p.copySource = some b) (hb : b < p.banks.length) :
    p.applyPolicy { noFields with sparing := some 0, thaw := some b } = some { p with
      sparing := false, spare := .free, copySource := none, copyProgress := none, copyStepWaits := false, copyIntervalRuns := false
      banks := p.banks.modify b (fun _ => { count := 0, state := .good }) } := by
  have aborted := Patrol.setSparing_aborts hon hc
  have thaws := Patrol.setThaw_taken (b := b) (p := { p with
      sparing := false, spare := .free, copySource := none, copyProgress := none, copyStepWaits := false, copyIntervalRuns := false
      banks := p.banks.modify b (fun k => { k with state := .atThreshold }) }) (by simpa using hb)
    (.inr (.inl ((Patrol.bankState_setBank (f := fun k => { k with state := .atThreshold }) (fun _ => rfl) b b p).trans
      (if_pos ⟨rfl, hb⟩))))
  simp only [Patrol.applyPolicy, noFields, Patrol.field, Option.bind_some, aborted, thaws, modify_modify]

/-- A thawed bank that is then forced. -/
theorem applyPolicy_thawForce {p : Patrol} {b : Nat} (hb : b < p.banks.length)
    (h : p.bankState b = .good ∨ p.bankState b = .atThreshold ∨ p.bankState b = .spared) :
    p.applyPolicy { noFields with thaw := some b, force := some b } =
      some { p with banks := p.banks.modify b (fun _ => { count := 0, state := .atThreshold }) } := by
  have thawed := Patrol.setThaw_taken hb h
  have forces := Patrol.setForce_taken (b := b) (p := { p with banks := p.banks.modify b (fun _ => { count := 0, state := .good }) })
    (by simpa using hb) (.inl ((Patrol.bankState_setBank (f := fun _ => { count := 0, state := .good }) (fun _ => rfl) b b p).trans
      (if_pos ⟨rfl, hb⟩)))
  simp only [Patrol.applyPolicy, noFields, Patrol.field, Option.bind_some, thawed, forces, modify_modify]

/-- Settles O31: the frame taken whole or refused whole, its fields in their order, and each field's own rule. -/
theorem storePolicyIsTakenWhole : Obligations.StorePolicyIsTakenWhole := by
  refine ⟨fun h s hf => ⟨fun f ha hb hd => ?_, fun f v ha hv hbig => ?_, fun f ha hb hp => ?_,
    fun f p ha hb hp => ⟨fun hd => ?_, fun ht hfo hs => ?_⟩, fun f b ha hb hn hlt => ?_, fun f v ha hv => ?_,
    fun f b ha hb hs hst => ?_,
    fun b ha hon hc hb => ?_, fun b ha hb hst => ?_, fun ha => ?_⟩, Patrol.applyPolicy_fields, fun p => ⟨rfl, fun v h1 h2 => ?_,
    fun v hv => ?_, fun v h1 h2 => ?_, fun v hv => ?_, ?_, fun h => ?_, fun b hon hc => ?_, fun he => ⟨?_, ?_⟩, fun he => ⟨?_, ?_⟩,
    Patrol.settlePosition_on, Patrol.settlePosition_next, fun b hb h => ?_, fun b h => ?_, fun b hb h => ?_, fun b hb h => ?_,
    fun b h => ?_⟩⟩
  · exact congrArg Host.Outcome.next (receivePolicy_refused ha hf (.inr (.inl hd)))
  · refine congrArg Host.Outcome.next (receivePolicy_refused ha hf (.inl ?_))
    rcases hv with hv | hv <;> simp [policyBad, enableBad, hv, hbig]
  · exact congrArg Host.Outcome.next (receivePolicy_refused (State.arrives_of_here ha) hf (.inr (.inr hp)))
  · refine congrArg Host.Outcome.next (receivePolicy_decides ha hf hb hp ?_)
    simpa [policyDecides, Option.isSome_iff_ne_none, or_assoc] using hd
  · refine congrArg Host.Outcome.next (receivePolicy_quiet ha hf hb hp ?_)
    rcases hs with hs | hs <;> simp [policyDecides, ht, hfo, hs]
  · exact congrArg Host.Outcome.next (receivePolicy_refused (State.arrives_of_here ha) hf (.inr (.inr (Patrol.applyPolicy_numbers hn hlt))))
  · exact congrArg Host.Outcome.next (receivePolicy_refused (State.arrives_of_here ha) hf (.inr (.inr (Patrol.applyPolicy_values hv))))
  · exact congrArg Host.Outcome.next (receivePolicy_refused (State.arrives_of_here ha) hf
      (.inr (.inr (Patrol.applyPolicy_states hb hs hst))))
  · exact congrArg Host.Outcome.next (receivePolicy_quiet ha hf rfl (applyPolicy_offThaw hon hc hb) rfl)
  · exact congrArg Host.Outcome.next (receivePolicy_decides ha hf rfl (applyPolicy_thawForce hb hst) rfl)
  · exact congrArg Host.Outcome.next (receivePolicy_quiet (p := s.patrol) ha hf rfl rfl rfl)
  · refine (Patrol.applyPolicy_threshold (some v) p).trans ((Patrol.setThreshold_taken h1 h2).trans ?_)
    simp
  · exact (Patrol.applyPolicy_threshold (some v) p).trans (Patrol.setThreshold_refused hv)
  · exact (Patrol.applyPolicy_drip (some v) p).trans (Patrol.setDrip_taken h1 h2)
  · exact (Patrol.applyPolicy_drip (some v) p).trans (Patrol.setDrip_refused hv)
  · exact (Patrol.applyPolicy_sparing (some 1) p).trans (Patrol.setSparing_on p)
  · exact (Patrol.applyPolicy_sparing (some 0) p).trans (Patrol.setSparing_off h)
  · exact (Patrol.applyPolicy_sparing (some 0) p).trans (Patrol.setSparing_aborts hon hc)
  · exact (Patrol.applyPolicy_patrol (some 1) p).trans (Patrol.setEnabled_same (by simp [he]))
  · exact (Patrol.applyPolicy_patrol (some 0) p).trans (Patrol.setEnabled_off he)
  · exact (Patrol.applyPolicy_patrol (some 0) p).trans (Patrol.setEnabled_same (by simp [he]))
  · exact (Patrol.applyPolicy_patrol (some 1) p).trans (Patrol.setEnabled_on he)
  · exact (Patrol.applyPolicy_thaw (some b) p).trans (Patrol.setThaw_taken hb h)
  · exact (Patrol.applyPolicy_thaw (some b) p).trans (Patrol.setThaw_refused h)
  · exact (Patrol.applyPolicy_force (some b) p).trans (Patrol.setForce_taken hb h)
  · exact (Patrol.applyPolicy_force (some b) p).trans (Patrol.setForce_leaves hb h)
  · exact (Patrol.applyPolicy_force (some b) p).trans (Patrol.setForce_refused h)

end Sys2Proof.Machine
end

section
/-! SUPPORT. Resets: the state in which a station reset makes its spare decision, and what that decision leaves of an empty directory
(R122, R123, R138, R141, R166, R181 to R183). -/

namespace Sys2Proof.Machine

/-! ## Before the spare decision -/

/-- The cell writes that an access had begun when a station reset came. -/
def begunWrites (begun : Option Interrupted) (s : State) : List (Nat × Cell) :=
  match begun with
  | some x => (s.cellWrites x.access).take x.writes
  | none => []

/-- A station reset up to its spare decision, with the store and its patrol as given. -/
def resetWith (p : Straps) (found : AtReset) (st : Store) (pat : Patrol) (s : State) : State :=
  { straps := p, link := .afterReset p found.tenure, lines := [], tables := s.tables, slots := .afterReset, cache := .afterReset
    fetches := [], dir := .afterReset p, store := st, patrol := pat, seq := s.seq.afterStation, head := .none
    out := driven (begunWrites found.begun s) ++ (if s.head = .none then [] else [.abort]), pending := s.pending }

theorem endBegun_eq (begun : Option Interrupted) (s : State) : s.fresh.endBegun begun =
    { s with
      out := driven (begunWrites begun s)
      store := { s.store with memory := written (begunWrites begun s) s.store.memory } } := by
  cases begun with
  | none => rfl
  | some x => exact State.writeCells_eq _ _

theorem abortHead_eq (s : State) :
    s.abortHead = { s with head := .none, out := s.out ++ (if s.head = .none then [] else [.abort]) } := by
  unfold State.abortHead
  cases hh : s.head with
  | none => simp [← hh]
  | line => rfl
  | cut => rfl

/-- The store at a station reset that keeps it. -/
def storeKept (begun : Option Interrupted) (s : State) : Store :=
  { s.store with
    memory := written (begunWrites begun s) s.store.memory
    index := s.store.index.filter (fun r => r.state != .loading), writes := [], serve := none, reads := [] }

theorem exec_stationReset_kept {p : Straps} {s : State} (hb : p.banksLessOne = s.straps.banksLessOne) (hs : p.spare = s.straps.spare)
    (found : AtReset) : exec (.stationReset p found) s =
      .next (resetWith p found (storeKept found.begun s) s.patrol.afterStation s).spareDecision := by
  have same : memoryChanged s.straps p = false := by simp [memoryChanged, hb, hs]
  rw [exec_stationReset, endBegun_eq, abortHead_eq]
  simp only [State.stationReset, State.resetStore, same]
  rfl

theorem exec_stationReset_changed {p : Straps} {s : State} (h : p.banksLessOne ≠ s.straps.banksLessOne ∨ p.spare ≠ s.straps.spare)
    (found : AtReset) : exec (.stationReset p found) s =
      .next (resetWith p found (.afterPowerOn p (s.store.epoch + 1)) (.afterPowerOn p) s).spareDecision := by
  have changed : memoryChanged s.straps p = true := by
    simp only [memoryChanged, Bool.or_eq_true, bne_iff_ne]
    exact h.imp Ne.symm Ne.symm
  rw [exec_stationReset, endBegun_eq, abortHead_eq]
  simp only [State.stationReset, State.resetStore, changed]
  rfl

/-- Either way a station reset ends with the spare decision. -/
theorem exec_stationReset_decides (p : Straps) (found : AtReset) (s : State) :
    ∃ st pat, exec (.stationReset p found) s = .next (resetWith p found st pat s).spareDecision := by
  by_cases h : p.banksLessOne = s.straps.banksLessOne ∧ p.spare = s.straps.spare
  · exact ⟨_, _, exec_stationReset_kept h.1 h.2 found⟩
  · exact ⟨_, _, exec_stationReset_changed (Classical.not_and_iff_not_or_not.1 h) found⟩

/-! ## A spare decision with an empty directory -/

namespace State

theorem notify_dir (d : Nat) (n : Notice) (s : State) : (s.notify d n).dir = s.dir := by
  rw [notify_offered]
  unfold offeredNotice
  split
  · rfl
  · unfold noticed
    split <;> rfl

theorem notifyAuthorities_dir (n : Notice) (s : State) : (s.notifyAuthorities n).dir = s.dir := by
  unfold notifyAuthorities
  generalize List.range s.straps.authLimit.val = ks
  induction ks generalizing s with
  | nil => rfl
  | cons k ks ih => exact (ih _).trans (notify_dir _ _ s)

theorem leaveWithdrawn_outside (s : State) : s.leaveWithdrawn.dir = s.dir ∧ s.leaveWithdrawn.store = s.store := by
  unfold leaveWithdrawn
  split <;> exact ⟨rfl, rfl⟩

/-- A withdrawal strikes no entry of an empty directory and has nothing to list. -/
theorem withdrawBank_dir {s : State} (he : s.dir.entries = []) (ho : s.dir.outgoing = []) (b : Nat) : (s.withdrawBank b).dir = s.dir := by
  have left : (s.bankLeft b).dir = s.dir := by
    change { s.dir with
      entries := s.dir.entries.map (fun e => if listedFor b s e then e.strike s.straps.station else e)
      outgoing := s.dir.outgoing ++ (s.dir.entries.filter (fun e => listedFor b s e)).map DirEntry.range } = s.dir
    rw [he, ho, List.filter_nil]
    exact (congrArg (fun e => { s.dir with entries := e, outgoing := [] }) he.symm).trans
      (congrArg (fun o => { s.dir with outgoing := o }) ho.symm)
  have nothing : (s.bankLeft b).offerOutgoing = s.bankLeft b := by
    unfold offerOutgoing
    rw [left, ho]
    rfl
  rw [withdrawBank_eq, (leaveWithdrawn_outside _).1, notifyAuthorities_dir, nothing, left]

theorem withdrawWaiting_dir (bs : List Nat) {s : State} (he : s.dir.entries = []) (ho : s.dir.outgoing = []) :
    (withdrawWaiting bs s).dir = s.dir := by
  induction bs generalizing s with
  | nil => rfl
  | cons b bs ih =>
    unfold withdrawWaiting
    split
    · have same := withdrawBank_dir he ho b
      exact (ih (by rw [same, he]) (by rw [same, ho])).trans same
    · exact ih he ho

/-- The three things that a spare decision can do. -/
theorem spareDecision_cases (s : State) :
    s.spareDecision = s ∨ (∃ b, s.spareDecision = s.mapPatrol (Patrol.beginCopy b)) ∨
      s.spareDecision = withdrawWaiting (List.range s.patrol.banks.length) s := by
  unfold spareDecision
  split
  · split
    · split
      · exact .inr (.inl ⟨_, rfl⟩)
      · exact .inl rfl
    · exact .inl rfl
    all_goals exact .inr (.inr rfl)
  · exact .inl rfl

theorem spareDecision_dir {s : State} (he : s.dir.entries = []) (ho : s.dir.outgoing = []) : s.spareDecision.dir = s.dir := by
  rcases spareDecision_cases s with h | ⟨b, h⟩ | h
  · rw [h]
  · rw [h]
    rfl
  · rw [h, withdrawWaiting_dir _ he ho]

/-! ## A spare decision and the store's index -/

theorem withdrawBank_index (b : Nat) (s : State) : (s.withdrawBank b).store.index.Sublist s.store.index := by
  rw [withdrawBank_eq, (leaveWithdrawn_outside _).2, notifyAuthorities_index, (offerOutgoing_quiet _).index]
  exact List.filter_sublist

theorem withdrawWaiting_index (bs : List Nat) (s : State) : (withdrawWaiting bs s).store.index.Sublist s.store.index := by
  induction bs generalizing s with
  | nil => exact .refl _
  | cons b bs ih =>
    unfold withdrawWaiting
    split
    · exact (ih _).trans (withdrawBank_index b s)
    · exact ih s

theorem spareDecision_index (s : State) : s.spareDecision.store.index.Sublist s.store.index := by
  rcases spareDecision_cases s with h | ⟨b, h⟩ | h
  · simp only [h, List.Sublist.refl]
  · rw [h]
    exact .refl _
  · rw [h]
    exact withdrawWaiting_index _ s

end State

/-- What either reset empties: everything but the store, its patrol, the script tables and the sequencer's page data. -/
structure Emptied (p : Straps) (tenure : Bool) (s t : State) : Prop where
  straps  : t.straps = p
  pending : t.pending = s.pending
  lines   : t.lines = []
  fetches : t.fetches = []
  cache   : t.cache = .afterReset
  slots   : t.slots = .afterReset
  head    : t.head = .none
  dir     : t.dir = .afterReset p
  link    : { t.link with queue := [] } = .afterReset p tenure
  seq     : ∃ q : Sequencer, { t.seq with acc := q.acc } = q.afterStation

theorem emptied_powerOn (p : Straps) (tenure : Bool) (epoch : Nat) (s : State) :
    Emptied p tenure s ((State.powerOn p tenure epoch).setPending s.pending) := by
  constructor
  case seq => exact ⟨.afterPowerOn, rfl⟩
  all_goals rfl

theorem emptied_resetWith (p : Straps) (found : AtReset) (st : Store) (pat : Patrol) (s : State) :
    Emptied p found.tenure s (resetWith p found st pat s).spareDecision := by
  have spared := State.spareDecision_spared (resetWith p found st pat s)
  exact ⟨spared.straps, spared.pending, spared.lines, spared.fetches, spared.cache, spared.slots, spared.head,
    State.spareDecision_dir rfl rfl, spared.link, ⟨s.seq, spared.seq⟩⟩

/-- Settles O3: either reset's empty blocks, and the power-on values. -/
theorem resetsEmptyTheWorkingState : Obligations.ResetsEmptyTheWorkingState := by
  refine ⟨fun p tenure begun s c hc => ?_, fun p tenure s => ⟨_, rfl, ?_⟩⟩
  · obtain ⟨t, next, emptied⟩ : ∃ t, exec c s = .next t ∧ Emptied p tenure s t := by
      rcases hc with rfl | rfl
      · exact ⟨_, rfl, emptied_powerOn p tenure _ s⟩
      · obtain ⟨st, pat, decides⟩ := exec_stationReset_decides p { tenure := tenure, begun := begun } s
        exact ⟨_, decides, emptied_resetWith p { tenure := tenure, begun := begun } st pat s⟩
    obtain ⟨q, seq⟩ := emptied.seq
    have link := emptied.link
    refine ⟨t, next, emptied.straps, emptied.pending, emptied.lines, emptied.fetches, emptied.cache, emptied.slots, emptied.head, ?_⟩
    rw [emptied.dir]
    exact ⟨rfl, rfl, fun x hx => List.eq_of_mem_replicate hx, rfl, rfl, rfl, rfl, (congrArg Link.state link :),
      (congrArg Link.listens link :), (congrArg Link.tenure link :), (congrArg Link.exchange link :), (congrArg Link.enrolDue link :),
      (congrArg Link.enrolWaits link :), (congrArg Sequencer.state seq :), (congrArg Sequencer.cutPending seq :),
      (congrArg Sequencer.stopPending seq :), (congrArg Sequencer.expiryHeld seq :), (congrArg Sequencer.closing seq :),
      (congrArg Sequencer.cutRecord seq :), (congrArg Sequencer.proof seq :), (congrArg Sequencer.page seq :),
      (congrArg Sequencer.owner seq :), (congrArg (fun q => q.alarm.autoCut) seq :), (congrArg Sequencer.closeTimer seq :)⟩
  · refine ⟨rfl, rfl, List.length_replicate .., fun x hx => ?_, ?_⟩
    · rw [List.eq_of_mem_replicate hx]
      rfl
    · repeat' constructor

/-! ## The spare decision of a reset -/

theorem afterStation_noCopy {p : Patrol} (h : p.copySource = none) : p.afterStation =
    { p with intervalRuns := p.enabled, stepWaits := false, copyIntervalRuns := false, copyStepWaits := false } := by
  simp [Patrol.afterStation, Patrol.abortCopy, h]

/-- A copy that a reset aborts leaves its bank AT-THRESHOLD and the spare FREE. -/
theorem afterStation_aborts {p : Patrol} {b : Nat} (h : p.copySource = some b) : p.afterStation =
    { p with
      banks := p.banks.modify b (fun k => { k with state := .atThreshold })
      spare := .free, copySource := none, copyProgress := none
      intervalRuns := p.enabled, stepWaits := false, copyIntervalRuns := false, copyStepWaits := false } := by
  simp [Patrol.afterStation, Patrol.abortCopy, h, Patrol.setBank]

/-- The first write of a LOAD write is its own cell's. -/
theorem begunWrites_loadWrite {s : State} {w : LoadWrite} {rest : List LoadWrite} (hw : s.store.writes = w :: rest)
    (hl : w.live = true) :
    begunWrites (some { access := .loadWrite, writes := 1 }) s = [(s.store.address w.bank w.cell, .data w.bytes)] := by
  simp only [begunWrites, State.cellWrites, hw, hl, if_true]
  rfl

/-- The banks after a copy begins. -/
theorem bankState_beginCopy (b c : Nat) (p : Patrol) :
    (p.beginCopy b).bankState c = if c = b ∧ b < p.banks.length then .copying else p.bankState c :=
  Patrol.bankState_setBank (f := fun k => { k with state := .copying }) (fun _ => rfl) b c p

theorem bankState_afterStation_noCopy {p : Patrol} (h : p.copySource = none) (c : Nat) :
    p.afterStation.bankState c = p.bankState c := by
  rw [afterStation_noCopy h]
  rfl

theorem bankState_afterStation_aborts {p : Patrol} {b : Nat} (h : p.copySource = some b) (c : Nat) :
    p.afterStation.bankState c = if c = b ∧ b < p.banks.length then .atThreshold else p.bankState c := by
  rw [afterStation_aborts h]
  exact Patrol.bankState_setBank (f := fun k => { k with state := .atThreshold }) (fun _ => rfl) b c p

theorem bankState_afterPowerOn (p : Straps) (c : Nat) : (Patrol.afterPowerOn p).bankState c = .good := by
  rw [Patrol.bankState_eq]
  cases hk : (Patrol.afterPowerOn p).banks[c]? with
  | none => rfl
  | some k =>
    rw [List.eq_of_mem_replicate (List.mem_of_getElem? hk)]
    rfl

/-- Settles O4: what is kept, the write and the copy under way, the decision by the spare's state, and the straps that change. -/
theorem stationResetKeeps : Obligations.StationResetKeeps := by
  refine ⟨fun p tenure begun s cs hb hs hc hat hcs => ?_, fun p tenure s w rest hb hs hw hl => ?_,
    fun p tenure begun s b c hb hs hon hc hlt hcase hclt hlow => ?_, fun p tenure begun s hb hs hc => ?_,
    fun p tenure begun s cs hch hcs => ?_⟩
  · have kept : (resetWith p { tenure := tenure, begun := begun } (storeKept begun s) s.patrol.afterStation s).spareDecision =
        resetWith p { tenure := tenure, begun := begun } (storeKept begun s) s.patrol.afterStation s := by
      refine State.spareDecision_none _ fun c => ?_
      change s.patrol.afterStation.bankState c ≠ _
      rw [afterStation_noCopy hc]
      exact hat c
    refine ⟨_, (exec_stationReset_kept hb hs _).trans (congrArg _ kept), rfl, ?_, afterStation_noCopy hc, rfl, rfl, rfl, rfl, rfl, rfl,
      rfl, ?_⟩
    · subst hcs
      cases begun <;> rfl
    · subst hcs
      cases begun <;> rfl
  · have spared := State.spareDecision_spared (resetWith p { tenure := tenure, begun := some { access := .loadWrite, writes := 1 } }
      (storeKept (some { access := .loadWrite, writes := 1 }) s) s.patrol.afterStation s)
    refine ⟨_, exec_stationReset_kept hb hs _, (congrArg Store.memory spared.store :).trans ?_,
      List.eq_nil_of_length_eq_zero spared.writes, fun r hr => ?_⟩
    · exact congrArg (fun cs => written cs s.store.memory) (begunWrites_loadWrite hw hl)
    · have kept := (State.spareDecision_index _).subset hr
      simpa using (List.mem_filter.1 kept).2
  · have length : s.patrol.afterStation.banks.length = s.patrol.banks.length := by simp [afterStation_aborts hc]
    have state (d : Nat) := bankState_afterStation_aborts hc d
    have decided := State.spareDecision_free
      (s := resetWith p { tenure := tenure, begun := begun } (storeKept begun s) s.patrol.afterStation s) (b := c)
      (by simp [resetWith, afterStation_aborts hc, hon]) (by simp [resetWith, afterStation_aborts hc])
      (length ▸ hclt) ?_ fun d hd => ?_
    · refine ⟨_, (exec_stationReset_kept hb hs _).trans (congrArg _ decided), rfl, rfl, rfl, ?_, rfl, fun hne => ?_⟩
      · exact (bankState_beginCopy c c _).trans (if_pos ⟨rfl, length ▸ hclt⟩)
      · refine (bankState_beginCopy c b _).trans ((if_neg fun h => hne h.1).trans ((state b).trans (if_pos ⟨rfl, hlt⟩)))
    · refine (state c).trans ?_
      by_cases hcb : c = b
      · exact if_pos ⟨hcb, hlt⟩
      · exact (if_neg fun h => hcb h.1).trans (hcase.resolve_left hcb)
    · obtain ⟨hdb, hdat⟩ := hlow d hd
      exact fun h => hdat (((if_neg fun h => hdb h.1).symm.trans (state d).symm).trans h)
  · have state (d : Nat) := bankState_afterStation_noCopy hc d
    have length : s.patrol.afterStation.banks.length = s.patrol.banks.length := by simp [afterStation_noCopy hc]
    have spare : s.patrol.afterStation.spare = s.patrol.spare := by simp [afterStation_noCopy hc]
    have sparing : s.patrol.afterStation.sparing = s.patrol.sparing := by simp [afterStation_noCopy hc]
    refine ⟨_, exec_stationReset_kept hb hs _, fun hoff => ?_, fun b hon hfree hlt hat hlow => ?_, fun hon hno b => ?_⟩
    · rw [State.spareDecision_off (sparing.trans hoff)]
      change s.patrol.afterStation.banks = _ ∧ s.patrol.afterStation.spare = _ ∧ s.patrol.afterStation.copySource = _
      rw [afterStation_noCopy hc]
      exact ⟨rfl, rfl, hc⟩
    · rw [State.spareDecision_free (b := b) (sparing.trans hon) (spare.trans hfree) (length ▸ hlt) ((state b).trans hat)
        fun c hcb => (state c).symm ▸ hlow c hcb]
      refine ⟨rfl, rfl, rfl, rfl, fun c => (bankState_beginCopy b c _).trans (ite_of_iff ?_ rfl (state c))⟩
      exact ⟨fun h => h.1, fun h => ⟨h, length ▸ hlt⟩⟩
    · rw [State.spareDecision_bankState (sparing.trans hon) (hno.imp spare.trans spare.trans)]
      exact ite_of_iff (iff_of_eq (congrArg (· = _) (state b))) rfl (state b)
  · have kept : (resetWith p { tenure := tenure, begun := begun } (.afterPowerOn p (s.store.epoch + 1)) (.afterPowerOn p) s).spareDecision =
        resetWith p { tenure := tenure, begun := begun } (.afterPowerOn p (s.store.epoch + 1)) (.afterPowerOn p) s := by
      refine State.spareDecision_none _ fun c => ?_
      change (Patrol.afterPowerOn p).bankState c ≠ _
      rw [bankState_afterPowerOn]
      decide
    refine ⟨_, (exec_stationReset_changed hch _).trans (congrArg _ kept), rfl, rfl, rfl, rfl, rfl, rfl, rfl, rfl, rfl, rfl, ?_⟩
    subst hcs
    cases begun <;> rfl

end Sys2Proof.Machine
end

section
/-! SUPPORT. The Directory Unit: an ANNOUNCE refused, ignored or taken, the order of its entries, the outgoing withdrawal list, and the
target of a key (R64, R92 to R97, R101, R102). -/

namespace Sys2Proof.Machine

namespace Directory

/-! ## What an ANNOUNCE finds -/

section
variable {a : AnnounceFrame} {d : Directory}

theorem announceOld_iff :
    d.announceOld a = true ↔ ∃ e ∈ d.entries, e.range.overlaps (announceRange a) = true ∧ a.version ≤ e.version := by
  simp [announceOld, overlapped]

theorem announceOld_newer (h : ∀ e ∈ d.entries, e.range.overlaps (announceRange a) = true → e.version < a.version) :
    d.announceOld a = false := by
  rw [Bool.eq_false_iff, ne_eq, announceOld_iff]
  rintro ⟨e, he, ho, hv⟩
  exact absurd (h e he ho) (Nat.not_lt.2 hv)

theorem announceNoRoom_iff : d.announceNoRoom a = true ↔
    a.ways ≠ [] ∧ 64 < d.entries.length - (d.entries.filter fun e => e.range.overlaps (announceRange a)).length + 1 := by
  rw [announceNoRoom, overlapped, Config.directoryCapacity, Bool.and_eq_true, decide_eq_true_iff, Bool.not_eq_true',
    Bool.eq_false_iff, ne_eq, List.isEmpty_iff]

/-- The entries that stay are those beside the overlapped ones. -/
theorem announceNoRoom_fits (h : a.ways = [] ∨ (d.entries.filter fun e => !e.range.overlaps (announceRange a)).length < 64) :
    d.announceNoRoom a = false := by
  rw [Bool.eq_false_iff, ne_eq, announceNoRoom_iff]
  rintro ⟨hw, hn⟩
  have fits := h.resolve_left hw
  have beside := State.filter_not_length (fun e : DirEntry => e.range.overlaps (announceRange a)) d.entries
  omega

theorem removeOverlapped_eq : d.removeOverlapped a = { d with
    entries := d.entries.filter (fun e => !e.range.overlaps (announceRange a))
    outgoing := d.outgoing.filter (fun r => d.entries.all fun e => !e.range.overlaps (announceRange a) || e.range != r) } := by
  have same (r : KeyRange) : (!((d.overlapped a).map DirEntry.range).contains r) =
      d.entries.all fun e => !e.range.overlaps (announceRange a) || e.range != r := by
    rw [Bool.eq_iff_iff]
    simp only [overlapped, Bool.not_eq_true', List.contains_eq_mem, decide_eq_false_iff_not, List.mem_map, List.mem_filter,
      List.all_eq_true, Bool.or_eq_true, bne_iff_ne, not_exists, not_and, and_imp]
    refine forall₂_congr fun e _ => ?_
    cases e.range.overlaps (announceRange a) <;> simp
  unfold removeOverlapped
  simp only [same]

end

/-! ## The order of the entries -/

theorem insertEntry_eq (e : DirEntry) (es : List DirEntry) :
    insertEntry e es = es.takeWhile (fun x => decide (x.first.ordinal ≤ e.first.ordinal)) ++
      e :: es.dropWhile (fun x => decide (x.first.ordinal ≤ e.first.ordinal)) := by
  induction es with
  | nil => rfl
  | cons x es ih =>
    unfold insertEntry
    by_cases hlt : e.first.ordinal < x.first.ordinal
    · simp [hlt, Nat.not_le.2 hlt]
    · simp [hlt, Nat.not_lt.1 hlt, ih]

theorem mem_insertEntry {e x : DirEntry} {es : List DirEntry} : x ∈ insertEntry e es ↔ x = e ∨ x ∈ es := by
  rw [insertEntry_eq, List.mem_append, List.mem_cons, or_left_comm, ← List.mem_append, List.takeWhile_append_dropWhile]

theorem insertEntry_ascending {e : DirEntry} {es : List DirEntry} (h : es.Pairwise fun x y => x.first.ordinal < y.first.ordinal)
    (hne : ∀ x ∈ es, x.first.ordinal ≠ e.first.ordinal) :
    (insertEntry e es).Pairwise fun x y => x.first.ordinal < y.first.ordinal := by
  induction es with
  | nil => simp [insertEntry]
  | cons x es ih =>
    obtain ⟨hx, rest⟩ := List.pairwise_cons.1 h
    unfold insertEntry
    split
    · rename_i hlt
      refine List.pairwise_cons.2 ⟨fun y hy => ?_, h⟩
      rcases List.mem_cons.1 hy with rfl | hy
      · exact hlt
      · exact Nat.lt_trans hlt (hx y hy)
    · rename_i hlt
      refine List.pairwise_cons.2 ⟨fun y hy => ?_, ih rest fun y hy => hne y (List.mem_cons_of_mem _ hy)⟩
      rcases mem_insertEntry.1 hy with rfl | hy
      · exact Nat.lt_of_le_of_ne (Nat.not_lt.1 hlt) (hne x (List.mem_cons_self ..))
      · exact hx y hy

/-! ## Targets -/

theorem mayAsk_iff {own holder : Nat} {tried : List Nat} {struck : Bool} :
    mayAsk own tried holder struck = true ↔ holder ≠ 0 ∧ struck = false ∧ holder ≠ own ∧ holder ∉ tried := by
  simp [mayAsk, and_assoc]

theorem mem_candidates {own : Nat} {tried : List Nat} {w : Way} {u : Nat × TargetRole} : u ∈ candidates own tried w ↔
    (u = (w.primary, .primary) ∧ mayAsk own tried w.primary w.primaryStruck = true) ∨
      (u = (w.alternate, .alternate) ∧ mayAsk own tried w.alternate w.alternateStruck = true) := by
  unfold candidates
  rw [List.mem_append]
  refine or_congr ?_ ?_ <;> split <;> simp [*]

theorem chooseTarget_of_way {own : Nat} {tried : List Nat} {d : Directory} {k : Key} {w : Way} (hw : d.wayOf k = some w) :
    d.chooseTarget own tried k =
      ((candidates own tried w).find? fun t => !d.isAbsent t.1).or (candidates own tried w).head? := by
  simp only [chooseTarget, hw]
  cases (candidates own tried w).find? fun t => !d.isAbsent t.1 <;> rfl

theorem chooseTarget_candidate {own : Nat} {tried : List Nat} {d : Directory} {k : Key} {w : Way} {u : Nat × TargetRole}
    (hw : d.wayOf k = some w) (h : d.chooseTarget own tried k = some u) : u ∈ candidates own tried w := by
  rw [chooseTarget_of_way hw, Option.or_eq_some_iff] at h
  exact h.elim List.mem_of_find?_eq_some fun h => List.mem_of_head? h.2

end Directory

/-- Settles O25: the candidates of the way, the first without an ABSENT mark first. -/
theorem targetIsTheFirstUnmarkedCandidate : Obligations.TargetIsTheFirstUnmarkedCandidate := by
  refine fun own tried d k w hw => ⟨fun u hu => ?_, fun hp ha => ?_, fun hp ha hp' ha' => ?_, fun hp ha h => ?_, fun hp hp' => ?_,
    fun hp hp' => ?_⟩
  · rcases Directory.mem_candidates.1 (Directory.chooseTarget_candidate hw hu) with ⟨rfl, hm⟩ | ⟨rfl, hm⟩ <;>
      obtain ⟨h0, hs, hown, htried⟩ := Directory.mayAsk_iff.1 hm
    · exact ⟨h0, hown, htried, .inl ⟨rfl, rfl, hs⟩⟩
    · exact ⟨h0, hown, htried, .inr ⟨rfl, rfl, hs⟩⟩
  · simp [Directory.chooseTarget_of_way hw, Directory.candidates, hp, ha]
  · simp [Directory.chooseTarget_of_way hw, Directory.candidates, hp, ha, hp', ha']
  · rcases h with h | h
    · simp [Directory.chooseTarget_of_way hw, Directory.candidates, hp, ha, h]
    · cases hq : Directory.mayAsk own tried w.alternate w.alternateStruck <;>
        simp [Directory.chooseTarget_of_way hw, Directory.candidates, hp, ha, h, hq]
  · cases ha : d.isAbsent w.alternate <;> simp [Directory.chooseTarget_of_way hw, Directory.candidates, hp, hp', ha]
  · simp [Directory.chooseTarget_of_way hw, Directory.candidates, hp, hp']

/-! ## ANNOUNCE -/

namespace State

theorem takeFlag_taken (a : AnnounceFrame) (s : State) : s.takeFlag a = flagTaken a s := by
  unfold takeFlag flagTaken
  split <;> rfl

section
variable {a : AnnounceFrame} {s : State}

theorem takeAnnounce_invalid (hv : Directory.announceValid a = false) : s.takeAnnounce a = (s, false) := by simp [takeAnnounce, hv]

theorem takeAnnounce_old (hv : Directory.announceValid a = true) (ho : s.dir.announceOld a = true) :
    s.takeAnnounce a = (flagTaken a s, true) := by simp [takeAnnounce, hv, ho, takeFlag_taken]

theorem takeAnnounce_noRoom (hv : Directory.announceValid a = true) (ho : s.dir.announceOld a = false)
    (hr : s.dir.announceNoRoom a = true) : s.takeAnnounce a = (s, false) := by simp [takeAnnounce, hv, ho, hr]

theorem takeAnnounce_applies (hv : Directory.announceValid a = true) (ho : s.dir.announceOld a = false)
    (hr : s.dir.announceNoRoom a = false) : s.takeAnnounce a = (flagTaken a (s.applyAnnounce a), true) := by
  simp [takeAnnounce, hv, ho, hr, takeFlag_taken]

theorem newEntryStruck_iff : s.newEntryStruck a = true ↔ HoldsWithdrawn a s := by
  have own : s.own = s.straps.station := rfl
  simp [newEntryStruck, HoldsWithdrawn, DirEntry.heldBy, Directory.newEntry, Way.holds, Patrol.isWithdrawn_iff, and_assoc, own]

end

/-- The overlapped entries have left, with their items of the outgoing withdrawal list. -/
def announceCleared (a : AnnounceFrame) (s : State) : State :=
  { s with dir := { s.dir with
    entries := s.dir.entries.filter (fun e => !e.range.overlaps (Directory.announceRange a))
    outgoing := s.dir.outgoing.filter (fun r =>
      s.dir.entries.all fun e => !e.range.overlaps (Directory.announceRange a) || e.range != r) } }

theorem mapDir_removeOverlapped (a : AnnounceFrame) (s : State) : s.mapDir (Directory.removeOverlapped a) = s.announceCleared a :=
  congrArg (fun d => s.setDir d) Directory.removeOverlapped_eq

theorem applyAnnounce_leaves {a : AnnounceFrame} (hw : a.ways = []) (s : State) : s.applyAnnounce a = s.announceCleared a := by
  simp only [applyAnnounce, mapDir_removeOverlapped, hw, List.isEmpty_nil, if_true]

theorem applyAnnounce_enters {a : AnnounceFrame} (hw : a.ways ≠ []) (s : State) : s.applyAnnounce a =
    ((s.announceCleared a).mapDir
      (Directory.insertNew s.own a ((s.announceCleared a).newEntryStruck a))).offerOutgoing := by
  have ways : ¬a.ways.isEmpty = true := by simpa using hw
  simp only [applyAnnounce, mapDir_removeOverlapped, if_neg ways]
  rfl

/-! ## The outgoing withdrawal list -/

theorem offer_withdraw_dir (rs : List KeyRange) (s : State) : (s.offer (.withdraw rs)).1.dir = s.dir := by
  unfold offer
  repeat' split
  all_goals rfl

/-- Each frame placed shortens the list, so that its length is fuel enough. -/
theorem offerWithdraws_fuel (n m : Nat) (s : State) (hn : s.dir.outgoing.length ≤ n) (hm : s.dir.outgoing.length ≤ m) :
    offerWithdraws n s = offerWithdraws m s := by
  induction n generalizing m s with
  | zero =>
    have empty : s.dir.outgoing = [] := List.length_eq_zero_iff.1 (Nat.le_zero.1 hn)
    cases m <;> simp [offerWithdraws, empty]
  | succ n ih =>
    cases m with
    | zero =>
      have empty : s.dir.outgoing = [] := List.length_eq_zero_iff.1 (Nat.le_zero.1 hm)
      simp [offerWithdraws, empty]
    | succ m =>
      unfold offerWithdraws
      by_cases empty : s.dir.outgoing.isEmpty = true
      · rw [if_pos empty, if_pos empty]
      · rw [if_neg empty, if_neg empty]
        dsimp only
        split
        · have shorter : ((s.offer (.withdraw (s.dir.outgoing.take Config.withdrawRanges))).1.dir.outgoing.drop
              Config.withdrawRanges).length < s.dir.outgoing.length := by
            have held : s.dir.outgoing.length ≠ 0 := by simpa using empty
            rw [offer_withdraw_dir, List.length_drop]
            simp only [Config.withdrawRanges]
            omega
          exact ih m _ (by simp only [mapDir_eq, dir_setDir]; omega) (by simp only [mapDir_eq, dir_setDir]; omega)
        · rfl

theorem offerOutgoing_empty {s : State} (h : s.dir.outgoing = []) : s.offerOutgoing = s := by
  unfold offerOutgoing
  rw [h]
  rfl

theorem offerOutgoing_full {s : State} (hm : s.link.state ≠ .mute) (hq : 12 ≤ s.link.queue.length) : s.offerOutgoing = s := by
  unfold offerOutgoing
  cases s.dir.outgoing.length with
  | zero => rfl
  | succ n =>
    simp only [offerWithdraws, offer_full hm hq, Bool.false_eq_true, if_false]
    exact ite_self _

theorem offerOutgoing_room {s : State} (hm : s.link.state ≠ .mute) (hq : s.link.queue.length < 12) (ho : s.dir.outgoing ≠ []) :
    s.offerOutgoing = State.offerOutgoing { s with
      dir := { s.dir with outgoing := s.dir.outgoing.drop 16 }
      link := { s.link with
        queue := State.insertTx { frame := .withdraw (s.dir.outgoing.take 16), attempts := 0, onLink := false } s.link.queue } } := by
  obtain ⟨n, length⟩ : ∃ n, s.dir.outgoing.length = n + 1 := ⟨s.dir.outgoing.length - 1, by
    have := List.length_pos_iff.2 ho
    omega⟩
  have listed : ¬s.dir.outgoing.isEmpty = true := by simpa using ho
  unfold offerOutgoing
  rw [length]
  simp only [offerWithdraws, if_neg listed, offer_room hm hq, if_true]
  refine offerWithdraws_fuel _ _ _ ?_ (Nat.le_refl _)
  change (s.dir.outgoing.drop 16).length ≤ n
  rw [List.length_drop]
  omega

end State

theorem exec_announce {h : Hdr} {a : AnnounceFrame} {s : State} (ha : Arrives h s) (hf : FromAuthority h s)
    (hfirst : a.first.index ≤ 4095) (hlast : a.last.index ≤ 4095) :
    exec (.announce h a) s =
      .next (answers (State.takeAnnounce a (arrived h s)).2 (State.takeAnnounce a (arrived h s)).1) := by
  have form : (!(a.first.indexOk && a.last.indexOk)) = false := by simp [Key.indexOk, hfirst, hlast]
  exact congrArg _ (State.receive_library ha hf form (State.takeAnnounce a))

/-- Settles O22: the three ends of an ANNOUNCE that leave the entries as they are. -/
theorem announceRefusedOrIgnored : Obligations.AnnounceRefusedOrIgnored := by
  refine fun h a s ha hf hfirst hlast => ⟨fun hv => ?_, fun hv ho => ?_, fun hv hnew hw hn => ?_⟩
  · rw [exec_announce ha hf hfirst hlast, State.takeAnnounce_invalid hv]
  · rw [exec_announce ha hf hfirst hlast, State.takeAnnounce_old (s := arrived h s) hv (Directory.announceOld_iff.2 ho)]
    rfl
  · rw [exec_announce ha hf hfirst hlast, State.takeAnnounce_noRoom (s := arrived h s) hv (Directory.announceOld_newer hnew)
      (Directory.announceNoRoom_iff.2 ⟨hw, hn⟩)]

/-- Settles O23: the ANNOUNCE taken, the place of its entry, and the offer of what it lists. -/
theorem announceReplacesTheOverlapped : Obligations.AnnounceReplacesTheOverlapped := by
  refine ⟨fun h a s kept listed ha hf hfirst hlast hv hnew hkept hlisted hroom => ?_,
    fun e es => ⟨Directory.insertEntry_eq e es, Directory.insertEntry_ascending⟩,
    fun s => ⟨State.offerOutgoing_empty, State.offerOutgoing_full, State.offerOutgoing_room⟩⟩
  subst hkept hlisted
  have taken : exec (.announce h a) s = .next (answers true (flagTaken a ((arrived h s).applyAnnounce a))) := by
    rw [exec_announce ha hf hfirst hlast, State.takeAnnounce_applies (s := arrived h s) hv (Directory.announceOld_newer hnew)
      (Directory.announceNoRoom_fits hroom)]
  have struck : ((arrived h s).announceCleared a).newEntryStruck a = true ↔ HoldsWithdrawn a s := State.newEntryStruck_iff
  refine ⟨fun hw => ?_, fun hw hno => ?_, fun hw hholds => ?_⟩
  · rw [taken, State.applyAnnounce_leaves hw]
    rfl
  · rw [taken, State.applyAnnounce_enters hw, Bool.eq_false_iff.2 fun h => hno (struck.1 h)]
    rfl
  · rw [taken, State.applyAnnounce_enters hw, struck.2 hholds]
    rfl

end Sys2Proof.Machine
end

section
/-! SUPPORT. The Image Cache at an INVALIDATE (R46, R47, R81, R84, R85): the counts of its entries, the slots that refer to a STALE one,
and what follows at once, which neither makes a VALID entry nor ends a fetch. -/

namespace Sys2Proof.Machine

namespace Cache

/-! ## No entry becomes VALID -/

/-- Every entry of the later cache was one of the earlier, with its key and its state. -/
def Within (c d : Cache) : Prop := ∀ e ∈ d.entries, ∃ f ∈ c.entries, f.2.key = e.2.key ∧ f.2.state = e.2.state

theorem Within.refl (c : Cache) : c.Within c := fun e he => ⟨e, he, rfl, rfl⟩

theorem Within.trans {b c d : Cache} (h : b.Within c) (k : c.Within d) : b.Within d := by
  intro e he
  obtain ⟨f, hf, hk, hs⟩ := k e he
  obtain ⟨g, hg, hk', hs'⟩ := h f hf
  exact ⟨g, hg, hk'.trans hk, hs'.trans hs⟩

theorem within_update (n : Nat) (f : CacheEntry → CacheEntry) (c : Cache) (hf : ∀ e, (f e).key = e.key ∧ (f e).state = e.state) :
    c.Within (c.update n f) := by
  intro e he
  obtain ⟨g, hg, rfl⟩ := List.mem_map.1 he
  refine ⟨g, hg, ?_⟩
  split
  · exact ⟨(hf g.2).1.symm, (hf g.2).2.symm⟩
  · exact ⟨rfl, rfl⟩

theorem within_pin (n : Nat) (c : Cache) : c.Within (c.pin n) :=
  within_update n (fun e => { e with pins := e.pins + 1 }) c fun _ => ⟨rfl, rfl⟩

theorem within_drop (n : Nat) (c : Cache) : c.Within (c.drop n) := fun e he => ⟨e, (List.mem_filter.1 he).1, rfl, rfl⟩

theorem within_unpin (n : Nat) (c : Cache) : c.Within (c.unpin n) := by
  unfold unpin
  split
  · exact .refl c
  · split
    · exact within_update n (fun e => { e with pins := e.pins - 1 }) c fun _ => ⟨rfl, rfl⟩
    · split
      · exact within_drop n c
      · exact within_update n (fun e => { e with pins := 0 }) c fun _ => ⟨rfl, rfl⟩

theorem within_unpinAll (ns : List Nat) (c : Cache) : c.Within (c.unpinAll ns) := by
  induction ns generalizing c with
  | nil => exact .refl c
  | cons n ns ih => exact (within_unpin n c).trans (ih _)

/-- No VALID entry of a span is held. -/
def Cleared (sp : Span) (c : Cache) : Prop := ∀ e ∈ c.entries, sp.covers e.2.key = true → e.2.state = .stale

theorem Cleared.within {sp : Span} {c d : Cache} (h : c.Cleared sp) (k : c.Within d) : d.Cleared sp := by
  intro e he hc
  obtain ⟨f, hf, hk, hs⟩ := k e he
  exact hs ▸ h f hf (hk ▸ hc)

theorem cleared_invalidate (sp : Span) (c : Cache) : (c.invalidate sp).Cleared sp := by
  intro e he hc
  obtain ⟨f, hf, rfl⟩ := List.mem_map.1 he
  split at hc
  · rename_i covers
    simp [covers]
  · contradiction

/-! ## Unpins -/

section
variable {c : Cache} {n : Nat} {e : CacheEntry} (he : c.entry n = some e)
include he

theorem unpin_counts (hp : 1 < e.pins) : c.unpin n = c.update n fun e => { e with pins := e.pins - 1 } := by
  simp only [unpin, he, if_pos hp]

theorem unpin_last_valid (hp : e.pins ≤ 1) (hv : e.state = .valid) : c.unpin n =
    { c.update n fun e => { e with pins := 0 } with recency := (c.recency.filter fun m => m != n) ++ [n] } := by
  simp only [unpin, he, if_neg (Nat.not_lt.2 hp), hv]

theorem unpin_last_stale (hp : e.pins ≤ 1) (hs : e.state = .stale) : c.unpin n = c.drop n := by
  simp only [unpin, he, if_neg (Nat.not_lt.2 hp), hs]

theorem entry_unpin_other {m : Nat} (hm : m ≠ n) : (c.unpin n).entry m = c.entry m := by
  rcases Nat.lt_or_ge 1 e.pins with hp | hp
  · rw [unpin_counts he hp, entry_update, if_neg hm]
  · cases hs : e.state with
    | valid =>
      rw [unpin_last_valid he hp hs]
      exact (entry_update c n m fun e => { e with pins := 0 }).trans (if_neg hm)
    | stale => rw [unpin_last_stale he hp hs, entry_drop, if_neg hm]

end

theorem mem_madeStale {sp : Span} {c : Cache} {n : Nat} :
    n ∈ c.madeStale sp ↔ ∃ e, (n, e) ∈ c.entries ∧ sp.covers e.key = true ∧ e.state = .valid ∧ 0 < e.pins := by
  simp only [madeStale, List.mem_map, List.mem_filter, Bool.and_eq_true, decide_eq_true_eq, beq_iff_eq, and_assoc]
  constructor
  · rintro ⟨⟨m, e⟩, he, covers, valid, pins, rfl⟩
    exact ⟨e, he, covers, valid, pins⟩
  · rintro ⟨e, he, covers, valid, pins⟩
    exact ⟨(n, e), he, covers, valid, pins, rfl⟩

end Cache

namespace State

/-! ## What follows an event on the slots keeps -/

/-- The cache gains no entry and the fetch list loses none. -/
structure Gathers (s t : State) : Prop where
  cache   : s.cache.Within t.cache
  fetches : ∀ f ∈ s.fetches, f ∈ t.fetches

namespace Gathers

theorem of {s t : State} (hc : t.cache = s.cache) (hf : t.fetches = s.fetches) : Gathers s t :=
  ⟨hc ▸ .refl _, fun _ h => hf ▸ h⟩

theorem refl (s : State) : Gathers s s := .of rfl rfl

theorem trans {s t u : State} (h : Gathers s t) (k : Gathers t u) : Gathers s u :=
  ⟨h.cache.trans k.cache, fun f hf => k.fetches f (h.fetches f hf)⟩

end Gathers

theorem spared_gathers {s t : State} (h : Spared s t) : Gathers s t := .of h.cache h.fetches

theorem resolveAt_gathers (i p n) (s : State) : Gathers s (s.resolveAt i p n) := by
  unfold resolveAt
  split
  · exact ⟨Cache.within_pin n s.cache, fun _ h => h⟩
  · exact .refl s

theorem secondStep_gathers (i k) (s : State) : Gathers s (s.secondStep i k) := by
  unfold secondStep
  split <;> exact .of rfl rfl

theorem thirdStep_gathers (i p k) (s : State) : Gathers s (s.thirdStep i p k) := by
  unfold thirdStep
  split
  · exact .of rfl rfl
  · split
    · exact .of rfl rfl
    · split
      · unfold fetchFor
        split
        · exact resolveAt_gathers _ _ _ s
        · exact ⟨.refl _, fun f h => List.mem_append_left _ h⟩
      · exact .of rfl rfl

theorem visit_gathers (i p k) (s : State) : Gathers s (s.visit i p k) := by
  unfold visit
  split
  · exact resolveAt_gathers _ _ _ s
  · split
    · exact secondStep_gathers _ _ s
    · exact thirdStep_gathers _ _ _ s

theorem passOn_gathers (i) (s : State) : Gathers s (s.passOn i) := .of rfl rfl

theorem walk_gathers (n i) (s : State) : Gathers s (walk n i s) := by
  induction n generalizing s with
  | zero => exact .refl s
  | succ n ih =>
    simp only [walk]
    split
    · exact .refl s
    · split
      · exact .refl s
      · split
        · split
          · exact ((visit_gathers _ _ _ s).trans (passOn_gathers _ _)).trans (ih _)
          · exact visit_gathers _ _ _ s
        · exact (passOn_gathers _ s).trans (ih _)

theorem releaseHeld_gathers (j) (s : State) : Gathers s (s.releaseHeld j) := by
  unfold releaseHeld
  dsimp only
  repeat' split
  all_goals exact .of rfl rfl

theorem passEnded_gathers (i) (s : State) : Gathers s (s.passEnded i) := by
  unfold passEnded
  split
  · exact .refl s
  · exact releaseHeld_gathers _ s
  · exact .of rfl rfl

theorem passesOver_gathers (i) (s : State) : Gathers s (s.passesOver i) := by
  unfold passesOver
  split
  · exact .refl s
  · exact releaseHeld_gathers _ s

theorem offerSlot_gathers (i) (s : State) : Gathers s (s.offerSlot i) := by
  unfold offerSlot
  split
  · dsimp only
    split
    · exact (spared_gathers (offer_spared _ s)).trans (.of rfl rfl)
    · exact .refl s
  · exact .refl s

theorem finishLine_gathers (i o w g) (s : State) : Gathers s (s.finishLine i o w g) := by
  unfold finishLine
  dsimp only
  split
  · exact .refl s
  · refine Gathers.trans ⟨?_, ?_⟩ ((offerSlot_gathers _ _).trans (passesOver_gathers _ _))
    · exact Cache.within_unpinAll _ s.cache
    · exact fun _ h => h

theorem measureSlot_gathers (i) (s : State) : Gathers s (s.measureSlot i) := by
  unfold measureSlot
  dsimp only
  split
  · exact .refl s
  · split
    · exact .of rfl rfl
    · exact finishLine_gathers _ _ _ _ s

theorem endPass_gathers (i) (s : State) : Gathers s (s.endPass i) := by
  unfold endPass
  dsimp only
  split
  · exact (passesOver_gathers _ s).trans (measureSlot_gathers _ _)
  · exact (passesOver_gathers _ s).trans (.of rfl rfl)

theorem beginPass_gathers (i) (s : State) : Gathers s (s.putSlot i (s.slot i).beginPass) := .of rfl rfl

theorem passes_gathers (n i) (s : State) : Gathers s (passes n i s) := by
  induction n generalizing s with
  | zero => exact .refl s
  | succ n ih =>
    simp only [passes]
    have walked := walk_gathers ((s.slot i).list.length - ((s.slot i).pass.map Pass.pos).getD 0) i s
    split
    · exact walked
    · split
      · split
        · split
          · exact walked.trans (.of rfl rfl)
          · exact ((walked.trans (beginPass_gathers i _)).trans (passEnded_gathers _ _)).trans (ih _)
        · exact walked.trans (endPass_gathers _ _)
      · exact walked

theorem runSlot_gathers (i) (s : State) : Gathers s (s.runSlot i) := by
  unfold runSlot
  split
  · split
    · exact passes_gathers _ _ s
    · exact .refl s
  · split
    · exact measureSlot_gathers _ s
    · exact .refl s
  all_goals exact .refl s

theorem dispatch_gathers (s : State) : Gathers s s.dispatch := by
  unfold dispatch takeReady
  repeat' split
  · refine Gathers.trans ?_ (spared_gathers (notify_spared _ _ _))
    exact .of rfl rfl
  all_goals exact .of rfl rfl

theorem leaveProof_gathers (s : State) : Gathers s s.leaveProof := by
  unfold leaveProof
  repeat' split
  all_goals exact .of rfl rfl

theorem settle_gathers (s : State) : Gathers s s.settle :=
  ((((leaveProof_gathers s).trans (runSlot_gathers _ _)).trans (dispatch_gathers _)).trans (runSlot_gathers _ _)).trans
    (dispatch_gathers _)

theorem staleSlot_gathers (ns i) (s : State) : Gathers s (s.staleSlot ns i) := by
  unfold staleSlot
  dsimp only
  split
  · split
    · exact .of rfl rfl
    · split
      · split <;> exact ⟨Cache.within_unpinAll _ s.cache, fun _ h => h⟩
      · exact .refl s
  · exact .refl s

theorem takeInvalidate_quiet (sp) (s : State) : Quiet s (s.takeInvalidate sp) :=
  (((mapCache_quiet _ s).trans (staleSlot_quiet _ _ _)).trans (staleSlot_quiet _ _ _)).trans (settle_quiet _)

/-! ## The slots that refer to a STALE entry -/

/-- Positions do not enter the y offsets. -/
theorem withY_map_unplaced (a b : Option Int) (l : List Placement) :
    withY a ((withY b l).map fun p => { p with x := none }) = withY a (l.map fun p => { p with x := none }) := by
  induction l generalizing a b with
  | nil => rfl
  | cons p l ih =>
    by_cases hb : p.isBase = true
    · have still : ({ p with x := none } : Placement).isBase = true := hb
      simp only [withY, hb, if_true, List.map_cons, still, ih]
    · have still (y : Option Int) : ¬({ p with x := none, y := y } : Placement).isBase = true := hb
      simp only [withY, if_neg hb, List.map_cons, if_neg (still _), ih]

/-- A slot whose line is in assembly and refers to entries that became STALE: those placements are UNRESOLVED, and the line is taken
through its passes again. -/
def reassembled (ns : List Nat) (t : Slot) : Slot :=
  match t.state with
  | .resolving => { t with
      list := withY (some 0) (t.list.map (released ns)), pass := t.pass.map fun p => { p with again := true } }
  | .ready => { t with
      state := .resolving, list := withY (some 0) (t.list.map fun p => { released ns p with x := none })
      pass := some { pos := 0, again := false, wait := .running }, measured := none
      flags := { t.flags with squeezed := false, unjustified := false } }
  | _ => { t with
      state := .resolving, list := withY (some 0) (t.list.map (released ns))
      pass := some { pos := 0, again := false, wait := .running } }

section
variable {ns : List Nat} {i : SlotId} {s : State}

theorem any_refersTo : (s.slot i).list.any (refersTo ns) = true ↔ ∃ p ∈ (s.slots.get i).list, refersTo ns p = true := by
  simp

/-- No placement of the slot refers to the entries. -/
theorem staleSlot_untouched (h : ∀ p ∈ (s.slots.get i).list, refersTo ns p = false) : s.staleSlot ns i = s := by
  have none : ¬(s.slot i).list.any (refersTo ns) = true := by
    rw [any_refersTo]
    rintro ⟨p, hp, hr⟩
    simp [h p hp] at hr
  exact if_neg none

theorem staleSlot_ended (h : (s.slots.get i).state = .empty ∨ (s.slots.get i).state = .reporting) : s.staleSlot ns i = s := by
  have hs : (s.slot i).state = .empty ∨ (s.slot i).state = .reporting := h
  unfold staleSlot Slot.inAssembly
  rcases hs with hs | hs
  · simp only [hs]
    exact ite_self _
  · simp only [hs]
    exact ite_self _

variable (hr : ∃ p ∈ (s.slots.get i).list, refersTo ns p = true)
include hr

theorem staleSlot_exposing (hs : (s.slots.get i).state = .exposing) :
    s.staleSlot ns i = { s with
      slots := s.slots.put i { s.slots.get i with flags := (s.slots.get i).flags.or { staleImage := true } } } := by
  have exposing : (s.slot i).state = .exposing := hs
  refine (if_pos (any_refersTo.2 hr)).trans ?_
  exact if_pos exposing

theorem staleSlot_assembly (hs : InAssembly (s.slots.get i)) :
    s.staleSlot ns i = { s with
      cache := s.cache.unpinAll (((s.slots.get i).list.filter (refersTo ns)).filterMap Placement.ref)
      slots := s.slots.put i (reassembled ns (s.slots.get i)) } := by
  have notExposing : (s.slot i).state ≠ .exposing := by rcases hs with h | h | h <;> simp [h]
  have assembly : (s.slot i).inAssembly = true := by rcases hs with h | h | h <;> simp [Slot.inAssembly, h]
  refine ((if_pos (any_refersTo.2 hr)).trans ((if_neg notExposing).trans (if_pos assembly))).trans ?_
  unfold reassembled
  rcases hs with h | h | h
  · have here : (s.slot i).state = .resolving := h
    simp only [h, here, Slot.withList]
    rfl
  · have here : (s.slot i).state = .awaiting := h
    simp only [h, here, Slot.withList]
    rfl
  · have here : (s.slot i).state = .ready := h
    have positions : withY (some 0) ((s.slots.get i).list.map fun p => { released ns p with x := none }) =
        withY (some 0) ((withY (some 0) ((s.slots.get i).list.map (released ns))).map fun p => { p with x := none }) := by
      rw [withY_map_unplaced, List.map_map]
      rfl
    simp only [h, here, Slot.withList, positions]
    rfl

end

end State

theorem exec_invalidate {h : Hdr} {sp : Span} {s : State} (ha : Arrives h s) (hf : FromAuthority h s) (hfirst : sp.first ≤ 4095)
    (hlast : sp.last ≤ 4095) : exec (.invalidate h sp) s = .next (answers true ((arrived h s).takeInvalidate sp)) := by
  have form : (!sp.indexOk) = false := by simp [Span.indexOk, hfirst, hlast]
  exact congrArg _ (State.receive_library ha hf form fun s => (s.takeInvalidate sp, true))

/-- Settles O27: the step's own work, the entries, the unpins, and each slot by its state. -/
theorem invalidateLeavesNoValidEntry : Obligations.InvalidateLeavesNoValidEntry := by
  refine ⟨fun h sp s ha hf hfirst hlast => ⟨⟨_, exec_invalidate ha hf hfirst hlast, ?_⟩, exec_invalidate ha hf hfirst hlast⟩,
    fun sp c => ⟨rfl, fun n => Cache.mem_madeStale⟩, fun c n ns => ⟨rfl, rfl, fun hn => ?_, fun e he =>
      ⟨fun m => Cache.entry_unpin_other he, fun hp => ?_, fun hp hv => ?_, fun hp hs => ?_⟩⟩, fun ns i s t ht => ?_⟩
  · have gathers : State.Gathers ((arrived h s).setCache (s.cache.invalidate sp)) ((arrived h s).takeInvalidate sp) :=
      ((State.staleSlot_gathers ..).trans (State.staleSlot_gathers ..)).trans (State.settle_gathers _)
    have quiet : Quiet (arrived h s) ((arrived h s).takeInvalidate sp) := State.takeInvalidate_quiet sp _
    refine ⟨by simp [answers], (Cache.cleared_invalidate sp s.cache).within gathers.cache, quiet.index, quiet.memory,
      (congrArg Directory.entries quiet.dir :), gathers.fetches⟩
  · simp [Cache.unpin, hn]
  · rw [Cache.unpin_counts he hp, Cache.entry_update, if_pos rfl, he]
    exact ⟨rfl, rfl⟩
  · rw [Cache.unpin_last_valid he hp hv]
    exact ⟨((Cache.entry_update c n n fun e => { e with pins := 0 }).trans (if_pos rfl)).trans (by rw [he]; rfl), rfl⟩
  · rw [Cache.unpin_last_stale he hp hs, Cache.entry_drop, if_pos rfl]
    exact ⟨rfl, rfl⟩
  · subst ht
    refine ⟨State.staleSlot_untouched, State.staleSlot_ended, fun hr => ⟨State.staleSlot_exposing hr, fun hs => ?_, fun hs => ?_,
      fun hs => ?_⟩⟩
    · rw [State.staleSlot_assembly hr (.inl hs)]
      simp only [State.reassembled, hs]
    · rw [State.staleSlot_assembly hr (.inr (.inl hs))]
      simp only [State.reassembled, hs]
    · rw [State.staleSlot_assembly hr (.inr (.inr hs))]
      simp only [State.reassembled, hs]

end Sys2Proof.Machine
end

section
/-! SUPPORT. What loads a station: the header and the commit of a script table (R21, R24), and the pieces of a LOAD, the room that it is
given, and its writes (R109 to R114). -/

namespace Sys2Proof.Machine

/-! ## Script tables -/

namespace ScriptTable

section
variable {f : HeaderFields} {t : ScriptTable}

theorem header_empties (h0 : f.codeCount = 0) (hl : f.ligCount ≤ 64) (hw : f.spaceWidth ≤ 2000) : header f t = some .blank := by
  simp [header, h0, hl, hw]

theorem header_begins (h1 : 1 ≤ f.codeCount) (h2 : f.codeCount ≤ 256) (hl : f.ligCount ≤ 64) (hw : f.spaceWidth ≤ 2000) :
    header f t = some
      { state := .loading, codeBase := f.codeBase, codeCount := f.codeCount, spaceCode := f.spaceCode
        spaceWidth := f.spaceWidth, entries := [], ligCount := f.ligCount, ligatures := [], nextClass := some 0
        nextLig := some 0 } := by
  have codes : f.codeCount ≠ 0 := by omega
  simp [header, codes, h2, hl, hw]

theorem header_refused (h : 256 < f.codeCount ∨ 64 < f.ligCount ∨ 2000 < f.spaceWidth) : header f t = none := by
  refine if_neg ?_
  simp only [Bool.and_eq_true, decide_eq_true_eq]
  omega

end

section
variable {t : ScriptTable}

theorem commit_finished (hs : t.state = .loading) (hc : t.nextClass = some t.codeCount) (hl : t.nextLig = some t.ligCount) :
    commit t = some { t with state := .complete, nextClass := none, nextLig := none } := by simp [commit, hs, hc, hl]

theorem commit_unfinished (hs : t.state = .loading) (h : t.nextClass ≠ some t.codeCount ∨ t.nextLig ≠ some t.ligCount) :
    commit t = none := by
  simp only [commit, hs]
  exact if_neg fun done => h.elim (· done.1) (· done.2)

theorem commit_complete (hs : t.state = .complete) : commit t = some t := by simp [commit, hs]

theorem commit_empty (hs : t.state = .empty) : commit t = none := by simp [commit, hs]

end

end ScriptTable

section
variable {h : Hdr} {n : Nat} {s : State} {f : ScriptTable → Option ScriptTable} (ha : Arrives h s) (hauth : FromAuthority h s)
  (hn : n < 16)
include ha hauth hn

omit hn in
theorem receive_header_refused (hf : ∀ t, f t = none) :
    s.receive h false true (State.takePiece n f) = answers false (arrived h s) := by
  have refused : State.takePiece n f (arrived h s) = (arrived h s, false) := by simp [State.takePiece, hf]
  rw [State.receive_library ha hauth rfl, refused]

/-- A header does not read the table that it replaces, so its table may stand anywhere below 16. -/
theorem receive_header_taken {u : ScriptTable} (hf : ∀ t, f t = some u) :
    s.receive h false true (State.takePiece n f) = answers true { arrived h s with tables := s.tables.set n u } := by
  have taken : State.takePiece n f (arrived h s) = ((arrived h s).setTables (s.tables.set n u), true) := by
    simp [State.takePiece, Config.scriptTables, hn, hf]
  rw [State.receive_library ha hauth rfl, taken]
  rfl

end

theorem set_of_getElem? {α : Type} {l : List α} {n : Nat} {a : α} (h : l[n]? = some a) : l.set n a = l := by
  obtain ⟨hn, rfl⟩ := List.getElem?_eq_some_iff.1 h
  exact List.set_getElem_self hn

/-- Settles O34: the header's three ends and the commit's by the table's state. -/
theorem headerAndCommit : Obligations.HeaderAndCommit := by
  refine ⟨fun h n f s ha hf hn => ⟨fun ⟨h0, hl, hw⟩ => congrArg Host.Outcome.next ?_, fun ⟨h1, h2, hl, hw⟩ =>
    congrArg Host.Outcome.next ?_, fun hbad => congrArg Host.Outcome.next ?_⟩, fun h n s t ha hf hn ht =>
    ⟨fun hs hc hl => congrArg Host.Outcome.next ?_, fun hs hbad => congrArg Host.Outcome.next ?_,
      fun hs => congrArg Host.Outcome.next ?_, fun hs => congrArg Host.Outcome.next ?_⟩⟩
  · exact receive_header_taken ha hf hn fun _ => ScriptTable.header_empties h0 hl hw
  · exact receive_header_taken ha hf hn fun _ => ScriptTable.header_begins h1 h2 hl hw
  · exact receive_header_refused ha hf fun _ => ScriptTable.header_refused hbad
  · exact State.receive_piece_taken ha hf hn ht (ScriptTable.commit_finished hs hc hl)
  · exact State.receive_piece_refused ha hf hn ht (ScriptTable.commit_unfinished hs hbad)
  · rw [State.receive_piece_taken ha hf hn ht (ScriptTable.commit_complete hs), set_of_getElem? ht]
    rfl
  · exact State.receive_piece_refused ha hf hn ht (ScriptTable.commit_empty hs)

/-! ## Room for a record -/

/-- The bank that an allocation takes is the first with a run. -/
theorem allocate_some {ix : List StoreRecord} {n b c : Nat} {bs : List Nat} (h : allocate ix n bs = some (b, c)) :
    ∃ before after, bs = before ++ b :: after ∧ findRun ix b n 1024 0 = some c ∧ ∀ a ∈ before, findRun ix a n 1024 0 = none := by
  induction bs with
  | nil => cases h
  | cons a bs ih =>
    unfold allocate at h
    cases hr : findRun ix a n Config.cellsPerBank 0 with
    | some f =>
      simp only [hr, Option.some.injEq, Prod.mk.injEq] at h
      obtain ⟨rfl, rfl⟩ := h
      exact ⟨[], bs, rfl, hr, by simp⟩
    | none =>
      simp only [hr] at h
      obtain ⟨before, after, rfl, run, none⟩ := ih h
      exact ⟨a :: before, after, rfl, run, List.forall_mem_cons.2 ⟨hr, none⟩⟩

theorem allocate_none {ix : List StoreRecord} {n : Nat} {bs : List Nat} (h : allocate ix n bs = none) :
    ∀ b ∈ bs, findRun ix b n 1024 0 = none := by
  induction bs with
  | nil => simp
  | cons a bs ih =>
    unfold allocate at h
    cases hr : findRun ix a n Config.cellsPerBank 0 with
    | some f => simp [hr] at h
    | none =>
      simp only [hr] at h
      exact List.forall_mem_cons.2 ⟨hr, ih h⟩

theorem runFree_of_findRun_none {ix : List StoreRecord} {b n : Nat} (hn : 1 ≤ n) (h : findRun ix b n 1024 0 = none) (c : Nat) :
    runFree ix b n c = false := by
  by_cases hc : c < 1024
  · exact findRun_none ix b n 1024 0 h c (Nat.zero_le c) (by omega)
  · rw [Bool.eq_false_iff, ne_eq, runFree_iff]
    omega

theorem Patrol.mem_openBanks {p : Patrol} {b : Nat} : b ∈ p.openBanks ↔ b < p.banks.length ∧ p.bankState b ≠ .withdrawn := by
  simp [Patrol.openBanks, Bool.eq_false_iff, Patrol.isWithdrawn_iff]

theorem Patrol.openBanks_ascending (p : Patrol) : p.openBanks.Pairwise (· < ·) := (List.pairwise_lt_range).filter _

/-- R109: the lowest run of the lowest bank that is not WITHDRAWN. -/
theorem allocate_lowest {ix : List StoreRecord} {n b c : Nat} {p : Patrol} (hn : 1 ≤ n) (h : allocate ix n p.openBanks = some (b, c)) :
    b < p.banks.length ∧ p.bankState b ≠ .withdrawn ∧ c + n ≤ 1024 ∧
      (∀ r ∈ ix, ∀ k, k < n → r.holdsCell b (c + k) = false) ∧ (∀ c', c' < c → runFree ix b n c' = false) ∧
      ∀ b', b' < b → p.bankState b' ≠ .withdrawn → ∀ c', runFree ix b' n c' = false := by
  obtain ⟨before, after, banks, run, none⟩ := allocate_some h
  obtain ⟨free, -, lowest⟩ := findRun_some ix b n 1024 0 c run
  obtain ⟨fits, cells⟩ := (runFree_iff ix b n c).1 free
  obtain ⟨hlt, hopen⟩ := Patrol.mem_openBanks.1 (banks ▸ List.mem_append_right before (List.mem_cons_self ..))
  refine ⟨hlt, hopen, fits, cells, fun c' => lowest c' (Nat.zero_le c'), fun b' hb' hw => runFree_of_findRun_none hn (none b' ?_)⟩
  have ascending := banks ▸ p.openBanks_ascending
  have listed : b' ∈ before ++ b :: after := banks ▸ Patrol.mem_openBanks.2 ⟨Nat.lt_trans hb' hlt, hw⟩
  refine (List.mem_append.1 listed).resolve_right fun later => ?_
  rcases List.mem_cons.1 later with rfl | later
  · exact Nat.lt_irrefl _ hb'
  · exact Nat.lt_asymm hb' ((List.pairwise_cons.1 (List.pairwise_append.1 ascending).2.1).1 b' later)

theorem writesFull_false {st : Store} : st.writesFull = false ↔ st.writes.length < 4 := by
  simp only [Store.writesFull, decide_eq_false_iff_not]
  exact Nat.not_le

/-! ## LOAD piece 0 -/

namespace State

/-- R110: what lets a LOAD piece 0 begin a record. -/
theorem load0Ok_iff (h : Hdr) (f : LoadFields) (bytes : List Byte) (s : State) : s.load0Ok h f bytes = true ↔
    (h.dst ≠ 0 ∧ f.advanceWidth ≤ 2000 ∧ -1000 ≤ f.originX ∧ f.originX ≤ 1000 ∧ -1000 ≤ f.originY ∧ f.originY ≤ 1000 ∧
      8 ≤ f.imageLength ∧ f.imageLength ≤ 512 ∧ f.pieceCount = (f.imageLength + 63) / 64 ∧
      bytes.length = (if 1 < f.pieceCount then 64 else f.imageLength) ∧ s.store.writes.length < 4) := by
  have size : pieceBytes f.imageLength f.pieceCount 0 = if 1 < f.pieceCount then 64 else f.imageLength := by
    unfold pieceBytes
    split <;> omega
  simp [load0Ok, fieldsInRange, cellsFor, size, writesFull_false, and_assoc]

section
variable {h : Hdr} {f : LoadFields} {bytes : List Byte} {s : State} (hok : s.load0Ok h f bytes = true)
include hok

theorem takeLoad0_noIndexRoom (hn : 2048 ≤ (s.store.index.filter fun r => r.key != f.key).length) :
    s.takeLoad0 h f bytes = (s.notify h.src (.loadRefused f.key .noIndexRoom), true) := by
  simp only [takeLoad0, hok, if_true]
  exact if_pos hn

variable (hn : (s.store.index.filter fun r => r.key != f.key).length < 2048)
include hn

theorem takeLoad0_noCellRoom
    (hr : allocate (s.store.index.filter fun r => r.key != f.key) f.pieceCount s.patrol.openBanks = none) :
    s.takeLoad0 h f bytes = (s.notify h.src (.loadRefused f.key .noCellRoom), true) := by
  simp only [takeLoad0, hok, if_true, hr]
  exact if_neg (Nat.not_le.2 hn)

theorem takeLoad0_enters {b c : Nat}
    (hr : allocate (s.store.index.filter fun r => r.key != f.key) f.pieceCount s.patrol.openBanks = some (b, c)) :
    s.takeLoad0 h f bytes =
      (s.mapStore fun st => enterRecord (newRecord f b c) bytes (st.removeWhere fun r => r.key == f.key), true) := by
  simp only [takeLoad0, hok, if_true, hr]
  exact if_neg (Nat.not_le.2 hn)

end

theorem takeLoad0_refused {h : Hdr} {f : LoadFields} {bytes : List Byte} {s : State} (hok : ¬s.load0Ok h f bytes = true) :
    s.takeLoad0 h f bytes = (s, false) := if_neg hok

end State

namespace Store

/-- Nothing is removed where no record is meant. -/
theorem removeWhere_none {p : StoreRecord → Bool} {st : Store} (h : ∀ r ∈ st.index, p r = false) : st.removeWhere p = st := by
  have index : (st.index.filter fun r => !p r) = st.index := List.filter_eq_self.2 fun r hr => by simp [h r hr]
  have writes : (st.writes.map fun w => if st.index.any (fun r => p r && r.key == w.key) then { w with live := false } else w) =
      st.writes := by
    refine List.map_id'' (fun w => if_neg ?_) st.writes
    rw [List.any_eq_true]
    rintro ⟨r, hr, hp⟩
    simp [h r hr] at hp
  unfold removeWhere
  rw [index, writes]

/-- The record of a key is removed, and its pending writes are dead. -/
theorem removeWhere_key {k : Key} {st : Store} (h : ∃ r ∈ st.index, r.key = k) : (st.removeWhere fun r => r.key == k) = { st with
    index := st.index.filter fun r => r.key != k
    writes := st.writes.map fun w => if w.key = k then { w with live := false } else w } := by
  have writes : (st.writes.map fun w => if st.index.any (fun r => r.key == k && r.key == w.key) then { w with live := false } else w) =
      st.writes.map fun w => if w.key = k then { w with live := false } else w := by
    refine List.map_congr_left fun w _ => ite_of_iff ?_ rfl rfl
    simp only [List.any_eq_true, Bool.and_eq_true, beq_iff_eq]
    exact ⟨fun ⟨r, _, hk, hw⟩ => hw.symm.trans hk, fun hw => h.imp fun r hr => ⟨hr.1, hr.2, hr.2.trans hw.symm⟩⟩
  exact congrArg (fun w => { st with index := st.index.filter fun r => r.key != k, writes := w }) writes

theorem removeWhere_span (sp : Span) (st : Store) : (st.removeWhere fun r => sp.covers r.key) = { st with
    index := st.index.filter fun r => !sp.covers r.key
    writes := st.writes.map fun w =>
      if sp.covers w.key = true ∧ ∃ r ∈ st.index, r.key = w.key then { w with live := false } else w } := by
  have writes : (st.writes.map fun w =>
      if st.index.any (fun r => sp.covers r.key && r.key == w.key) then { w with live := false } else w) = st.writes.map fun w =>
        if sp.covers w.key = true ∧ ∃ r ∈ st.index, r.key = w.key then { w with live := false } else w := by
    refine List.map_congr_left fun w _ => ite_of_iff ?_ rfl rfl
    simp only [List.any_eq_true, Bool.and_eq_true, beq_iff_eq]
    exact ⟨fun ⟨r, hr, hc, hk⟩ => ⟨hk ▸ hc, r, hr, hk⟩, fun ⟨hc, r, hr, hk⟩ => ⟨r, hr, hk ▸ hc, hk⟩⟩
  exact congrArg (fun w => { st with index := st.index.filter fun r => !sp.covers r.key, writes := w }) writes

end Store

section
variable {h : Hdr} {s : State} (ha : Arrives h s) (hf : FromAuthority h s)
include ha hf

theorem exec_loadPiece0 {f : LoadFields} (hk : f.key.index ≤ 4095) (bytes : List Byte) : exec (.loadPiece0 h f bytes) s =
    .next (answers ((arrived h s).takeLoad0 h f bytes).2 ((arrived h s).takeLoad0 h f bytes).1) :=
  congrArg Host.Outcome.next (State.receive_library ha hf (by simp [Key.indexOk, hk]) (State.takeLoad0 h f bytes))

theorem exec_loadPiece {k : Key} (hk : k.index ≤ 4095) (n count : Nat) (bytes : List Byte) : exec (.loadPiece h k n count bytes) s =
    .next (answers ((arrived h s).takeLoad h k n count bytes).2 ((arrived h s).takeLoad h k n count bytes).1) :=
  congrArg Host.Outcome.next (State.receive_library ha hf (by simp [Key.indexOk, hk]) (State.takeLoad h k n count bytes))

end

/-- Settles O36: piece 0 by the room that it finds, and what an allocation finds. -/
theorem loadPieceZeroBeginsARecord : Obligations.LoadPieceZeroBeginsARecord := by
  refine ⟨fun h f bytes s ha hf hk => ⟨fun hok => ⟨fun b c hnone hn hr => ?_, fun b c hsome hn hr => ?_, fun hn => ?_, fun hn hr => ?_⟩,
    fun hok => ?_⟩, fun ix n p hn => ⟨fun b c h => allocate_lowest hn h, fun h b hb hw => ?_⟩⟩
  · have hok := (State.load0Ok_iff h f bytes (arrived h s)).2 hok
    have others : (s.store.index.filter fun r => r.key != f.key) = s.store.index :=
      List.filter_eq_self.2 fun r hr => by simpa using hnone r hr
    rw [exec_loadPiece0 ha hf hk, State.takeLoad0_enters (s := arrived h s) hok (others.symm ▸ hn) (others.symm ▸ hr)]
    simp only [State.mapStore_eq]
    rw [Store.removeWhere_none (st := (arrived h s).store) fun r hr => by simpa using hnone r hr]
    rfl
  · have hok := (State.load0Ok_iff h f bytes (arrived h s)).2 hok
    rw [exec_loadPiece0 ha hf hk, State.takeLoad0_enters (s := arrived h s) hok hn hr]
    simp only [State.mapStore_eq]
    rw [Store.removeWhere_key (st := (arrived h s).store) hsome]
    rfl
  · have hok := (State.load0Ok_iff h f bytes (arrived h s)).2 hok
    rw [exec_loadPiece0 ha hf hk, State.takeLoad0_noIndexRoom (s := arrived h s) hok hn,
      State.notify_noticed (State.arrived_notMute h s)]
  · have hok := (State.load0Ok_iff h f bytes (arrived h s)).2 hok
    rw [exec_loadPiece0 ha hf hk, State.takeLoad0_noCellRoom (s := arrived h s) hok hn hr,
      State.notify_noticed (State.arrived_notMute h s)]
  · rw [exec_loadPiece0 ha hf hk, State.takeLoad0_refused (s := arrived h s) fun h' => hok ((State.load0Ok_iff ..).1 h')]
  · exact runFree_of_findRun_none hn (allocate_none h b (Patrol.mem_openBanks.2 ⟨hb, hw⟩))

/-! ## LOAD pieces 1 to 7 -/

/-- R112: what lets a piece join the record of its key. -/
theorem pieceOk_iff (r : StoreRecord) (n count bytes : Nat) : State.pieceOk r n count bytes = true ↔
    r.state = .loading ∧ count = r.cellCount ∧ 1 ≤ n ∧ n < r.cellCount ∧ (∃ e, r.nextPiece = some e ∧ n ≤ e) ∧
      bytes = (if n + 1 < r.cellCount then 64 else r.imageLength - 64 * (r.cellCount - 1)) := by
  cases hp : r.nextPiece <;> simp [State.pieceOk, hp, pieceBytes, and_assoc]

/-- Settles O37: a piece taken or refused by the record of its key, and the records that a DISCARD removes. -/
theorem loadPiecesAndDiscard : Obligations.LoadPiecesAndDiscard := by
  refine ⟨fun h k n count bytes s ha hf hk => ⟨fun r e hr hd hst hc h1 hn he hne hb hw => ?_, fun hbad => ?_⟩,
    fun h sp s ha hf hfirst hlast => ?_⟩
  · have fits : State.pieceOk r n count bytes.length = true := (pieceOk_iff ..).2 ⟨hst, hc, h1, hn, ⟨e, he, hne⟩, hb⟩
    have joins : (arrived h s).takeLoad h k n count bytes = ((arrived h s).mapStore fun st =>
        { st with
          index := updateRecord k (State.nextAfter n) st.index
          writes := st.writes ++ [{ key := k, bank := r.bank, cell := r.firstCell + n, bytes := bytes, live := true }] }, true) := by
      have found : findRecord k (arrived h s).store.index = some r := hr
      have room : (arrived h s).store.writesFull = false := writesFull_false.2 hw
      simp [State.takeLoad, found, fits, room, hd]
    have index : updateRecord k (State.nextAfter n) s.store.index = s.store.index.map (fun x =>
        if x.key = k ∧ x.nextPiece = some n then { x with nextPiece := some (n + 1) } else x) := by
      refine List.map_congr_left fun x _ => ?_
      unfold State.nextAfter
      by_cases hx : x.key = k <;> simp [hx]
    rw [exec_loadPiece ha hf hk, joins, ← index]
    rfl
  · have refused : (arrived h s).takeLoad h k n count bytes = (arrived h s, false) := by
      unfold State.takeLoad
      split
      · rename_i r hr
        have hr : findRecord k s.store.index = some r := hr
        refine if_neg fun ok => ?_
        simp only [Bool.and_eq_true, bne_iff_ne, Bool.not_eq_true', writesFull_false, pieceOk_iff] at ok
        obtain ⟨⟨here, state, pieces, first, last, ⟨e, next, order⟩, size⟩, room⟩ := ok
        rcases hbad with hd | hno | hfull | ⟨x, hx, hbad⟩
        · exact here hd
        · simp [hr] at hno
        · exact Nat.not_lt.2 hfull room
        · obtain rfl : r = x := Option.some.inj (hr.symm.trans hx)
          rcases hbad with hst | hc | rfl | hn | ⟨e', he', hlt⟩ | hb
          · exact hst state
          · exact hc pieces
          · omega
          · omega
          · obtain rfl : e = e' := Option.some.inj (next.symm.trans he')
            omega
          · exact hb size
      · rfl
    rw [exec_loadPiece ha hf hk, refused]
  · have form : (!sp.indexOk) = false := by simp [Span.indexOk, hfirst, hlast]
    refine congrArg Host.Outcome.next ((State.receive_library ha hf form _).trans ?_)
    simp only [State.mapStore_eq, Store.removeWhere_span]
    rfl

/-! ## LOAD writes -/

namespace State

theorem writeLoad_eq (w : LoadWrite) (s : State) : s.writeLoad w = { s with
    out := s.out ++ driven (s.loadWrites w)
    store := { s.store with memory := written (s.loadWrites w) s.store.memory } } := by
  rw [← writeCells_eq]
  have still : (s.writeCell (s.store.address w.bank w.cell) (.data w.bytes)).patrol = s.patrol := rfl
  simp only [writeLoad, loadWrites, still]
  split <;> rfl

/-- R112: the record is VALID once its last pending write is made and every piece has been taken. -/
theorem completeRecord_eq (k : Key) (st : Store) : completeRecord k st = { st with
    index := if ∃ x ∈ st.writes, x.key = k ∧ x.live = true then st.index
      else st.index.map fun r => if r.key = k ∧ r.state = .loading ∧ r.nextPiece = some r.cellCount then
        { r with state := .valid, nextPiece := none } else r } := by
  unfold completeRecord
  by_cases pending : ∃ x ∈ st.writes, x.key = k ∧ x.live = true
  · rw [if_pos pending, if_pos (by simpa using pending)]
  · rw [if_neg pending, if_neg (by simpa using pending)]
    refine congrArg (fun ix => { st with index := ix }) (List.map_congr_left fun r _ => ?_)
    by_cases hk : r.key = k <;> simp [hk]

end State

theorem exec_loadWrite {s : State} {w : LoadWrite} {rest : List LoadWrite} (hw : s.store.writes = w :: rest)
    (hs : s.store.serve = none) : exec .loadWrite s = .next (s.fresh.takeWrite w rest) := by
  change execLoadWrite s = _
  simp [execLoadWrite, Store.mayWrite, hw, hs]

/-- Settles O38: the write dropped, or made in its cell and in the spare's, and the record that it completes. -/
theorem loadWriteReachesItsCell : Obligations.LoadWriteReachesItsCell := by
  refine fun s w rest hw hs => ⟨fun hl => ?_, fun hl => ⟨written (s.loadWrites w) s.store.memory, driven (s.loadWrites w), ?_, ?_⟩⟩
  · rw [exec_loadWrite hw hs]
    unfold State.takeWrite
    simp only [hl]
    rfl
  · rw [exec_loadWrite hw hs]
    unfold State.takeWrite
    simp only [hl, if_true, State.writeLoad_eq, State.mapStore_eq, State.completeRecord_eq]
    rfl
  · by_cases passed : s.patrol.copySource = some w.bank ∧ w.cell < s.patrol.copyProgress.getD 0
    · have both : s.loadWrites w = [(s.store.address w.bank w.cell, .data w.bytes),
          (cellAddress Config.spareBank w.cell, .data w.bytes)] := by simp only [State.loadWrites, if_pos passed]
      rw [both]
      refine ⟨?_, fun _ => ⟨Memory.read_write_same .., fun a ha hspare => ?_⟩, fun h => absurd passed h⟩
      · by_cases same : s.store.address w.bank w.cell = cellAddress Config.spareBank w.cell
        · rw [same]
          exact Memory.read_write_same ..
        · exact (Memory.read_write_other _ _ _ _ same).trans (Memory.read_write_same ..)
      · exact (Memory.read_write_other _ _ _ _ hspare).trans (Memory.read_write_other _ _ _ _ ha)
    · have one : s.loadWrites w = [(s.store.address w.bank w.cell, .data w.bytes)] := by simp only [State.loadWrites, if_neg passed]
      rw [one]
      exact ⟨Memory.read_write_same .., fun h => absurd h passed, fun _ a ha => Memory.read_write_other _ _ _ _ ha⟩

end Sys2Proof.Machine
end

section
/-! SUPPORT. A cell that a copy step reads, what it gives to the spare, and what follows it (R116, R117, R125, R136, R139). -/

namespace Sys2Proof.Machine

/-! ## What a copy step and a patrol step share -/

theorem noticed_setPatrol (d : Nat) (n : Notice) (p : Patrol) (s : State) :
    (noticed d n s).setPatrol p = noticed d n (s.setPatrol p) := by
  by_cases room : s.link.queue.length < 12
  · have still : (s.setPatrol p).link.queue.length < 12 := room
    simp only [noticed, if_pos room, if_pos still]
    rfl
  · have still : ¬(s.setPatrol p).link.queue.length < 12 := room
    simp only [noticed, if_neg room, if_neg still]
    rfl

theorem noticed_patrol (d : Nat) (n : Notice) (s : State) : (noticed d n s).patrol = s.patrol := by
  unfold noticed
  split <;> rfl

namespace State

theorem reportError_notGood {b : Nat} {s : State} (h : s.patrol.bankState b ≠ .good) (held : Bool) : s.reportError b held = s := by
  simp [reportError, h]

theorem reportCell_held {r : StoreRecord} (hl : r.state ≠ .loading) (b : Nat) (s : State) :
    s.reportCell b (some r) = s.reportError b true := by
  have data : (r.state != .loading) = true := by simpa using hl
  simp only [reportCell, data]

/-- A cell that holds no data is not counted. -/
theorem reportCell_notHeld {x : Option StoreRecord} (h : x = none ∨ ∃ r, x = some r ∧ r.state = .loading) (b : Nat) (s : State) :
    s.reportCell b x = s := by
  rcases h with rfl | ⟨r, rfl, hl⟩
  · rfl
  · simp [reportCell, hl, reportError]

/-- A record that is not VALID is not poisoned again. -/
theorem poison_notValid {k : Key} {r : StoreRecord} {s : State} (h : findRecord k s.store.index = some r) (hv : r.state ≠ .valid) :
    s.poison k = s := by simp only [poison, h, if_neg hv]

theorem poison_noticed {k : Key} {r : StoreRecord} {s : State} (h : findRecord k s.store.index = some r) (hv : r.state = .valid)
    (hm : s.link.state ≠ .mute) : s.poison k = noticed 0 (.poisoned k r.bank) { s with store := { s.store with
      index := s.store.index.map (fun x => if x.key = k then { x with state := .poisoned } else x) } } := by
  rw [poison_poisoned h hv]
  exact if_neg hm

/-- What a poisoned record's notice leaves. -/
theorem poisoned_leaves (k : Key) (b : Nat) (s : State) :
    (poisoned k b s).store.memory = s.store.memory ∧ (poisoned k b s).patrol = s.patrol ∧
      (poisoned k b s).store.index = s.store.index.map (fun x => if x.key = k then { x with state := .poisoned } else x) ∧
      (poisoned k b s).cache = s.cache ∧ (poisoned k b s).dir = s.dir ∧ (poisoned k b s).slots = s.slots := by
  unfold poisoned
  rw [← notify_offered]
  have quiet := notify_quiet 0 (.poisoned k b) (s.setStore { s.store with
    index := s.store.index.map (fun x => if x.key = k then { x with state := .poisoned } else x) })
  have spared := notify_spared 0 (.poisoned k b) (s.setStore { s.store with
    index := s.store.index.map (fun x => if x.key = k then { x with state := .poisoned } else x) })
  exact ⟨quiet.memory, quiet.patrol, quiet.index, spared.cache, notify_dir _ _ _, spared.slots⟩

/-! ## A copy step -/

section
variable {b c : Nat} {cond : CellCond} {s : State}

theorem copyCell_free (h : ∀ r ∈ s.store.index, r.holdsCell b c = false) :
    s.copyCell b c cond = s.writeCell (cellAddress Config.spareBank c) zeroCell := by
  simp only [copyCell, cellHolder_free h]

variable {r : StoreRecord} (hr : cellHolder s.store.index b c = some r)
include hr

theorem copyCell_clean (hc : readCond s.store.memory (s.store.address b c) cond = .clean) : s.copyCell b c cond =
    s.writeCell (cellAddress Config.spareBank c) (.data (cellBytes s.store.memory s.store.epoch (s.store.address b c))) := by
  simp only [copyCell, hr, hc]

/-- A CORRECTED cell of a bank that is not GOOD is not counted. -/
theorem copyCell_corrected (hc : readCond s.store.memory (s.store.address b c) cond = .corrected)
    (hb : s.patrol.bankState b ≠ .good) : s.copyCell b c cond =
      (s.writeCell (s.store.address b c) (.data (cellBytes s.store.memory s.store.epoch (s.store.address b c)))).writeCell
        (cellAddress Config.spareBank c) (.data (cellBytes s.store.memory s.store.epoch (s.store.address b c))) := by
  have uncounted (t : State) (ht : t.patrol = s.patrol) : t.reportCell b (some r) = t := reportError_notGood (ht ▸ hb) _
  simp only [copyCell, hr, hc]
  rw [uncounted]
  rfl

theorem copyCell_uncorrectable (hc : readCond s.store.memory (s.store.address b c) cond = .uncorrectable) :
    s.copyCell b c cond = (s.writeCell (cellAddress Config.spareBank c) .marked).poison r.key := by
  simp only [copyCell, hr, hc]

end

end State

theorem exec_copyStep {s : State} {b c : Nat} (hb : s.patrol.copySource = some b) (hc : s.patrol.copyProgress = some c)
    (hw : s.patrol.copyStepWaits = true) (hs : s.store.serve = none) (hws : s.store.writes = []) (hr : s.store.reads = [])
    (cond : CellCond) : exec (.copyStep cond) s = .next ((s.fresh.copyCell b c cond).copyEnd b c) := by
  change execCopyStep cond s = _
  simp [execCopyStep, Store.mayCopy, hb, hc, hw, hs, hws, hr]

/-- The outcomes of a copy step's cell, with the state that each leaves. -/
def CopyGives (cond : CellCond) (s : State) (b c a z : Nat) (bytes : List Byte) (u : State) : Prop :=
  ((∀ r ∈ s.store.index, r.holdsCell b c = false) ∧
      u = { s with out := [.cell z zeroCell], store := { s.store with memory := s.store.memory.write z zeroCell } }) ∨
    ∃ r, cellHolder s.store.index b c = some r ∧
      ((readCond s.store.memory a cond = .clean ∧
          u = { s with out := [.cell z (.data bytes)], store := { s.store with memory := s.store.memory.write z (.data bytes) } }) ∨
        (readCond s.store.memory a cond = .corrected ∧ s.patrol.bankState b ≠ .good ∧
          u = { s with
            out := [.cell a (.data bytes), .cell z (.data bytes)]
            store := { s.store with memory := (s.store.memory.write a (.data bytes)).write z (.data bytes) } }) ∨
        (readCond s.store.memory a cond = .uncorrectable ∧ findRecord r.key s.store.index = some r ∧ r.state ≠ .valid ∧
          u = { s with out := [.cell z .marked], store := { s.store with memory := s.store.memory.write z .marked } }) ∨
        (readCond s.store.memory a cond = .uncorrectable ∧ findRecord r.key s.store.index = some r ∧ r.state = .valid ∧
          s.link.state ≠ .mute ∧
          u = noticed 0 (.poisoned r.key r.bank) { s with
            out := [.cell z .marked]
            store := { s.store with
              memory := s.store.memory.write z .marked
              index := s.store.index.map (fun x => if x.key = r.key then { x with state := .poisoned } else x) } }))

theorem copyCell_gives {cond : CellCond} {s u : State} {b c : Nat}
    (h : CopyGives cond s b c (s.store.address b c) (cellAddress Config.spareBank c)
      (cellBytes s.store.memory s.store.epoch (s.store.address b c)) u) : s.fresh.copyCell b c cond = u := by
  rcases h with ⟨free, rfl⟩ | ⟨r, hr, ⟨hc, rfl⟩ | ⟨hc, hb, rfl⟩ | ⟨hc, hf, hv, rfl⟩ | ⟨hc, hf, hv, hm, rfl⟩⟩
  · exact State.copyCell_free (s := s.fresh) free
  · exact State.copyCell_clean (s := s.fresh) hr hc
  · exact State.copyCell_corrected (s := s.fresh) hr hc hb
  · exact (State.copyCell_uncorrectable (s := s.fresh) hr hc).trans (State.poison_notValid hf hv)
  · exact (State.copyCell_uncorrectable (s := s.fresh) hr hc).trans (State.poison_noticed hf hv hm)

theorem copyEnd_next {c : Nat} (hc : c < 1023) (b : Nat) (s : State) : s.copyEnd b c = { s with
    patrol := { s.patrol with copyProgress := some (c + 1), copyStepWaits := false, copyIntervalRuns := true } } := by
  have more : c + 1 < Config.cellsPerBank := Nat.succ_lt_succ hc
  exact if_pos more

/-- The copy of bank `b` is complete: the bank map names the spare bank, and the spare is IN-USE (R139). -/
def copied (b : Nat) (s : State) : State :=
  { s with
    store := { s.store with map := s.store.map.set b Config.spareBank }
    patrol := { s.patrol with
      banks := s.patrol.banks.modify b (fun k => { k with state := .spared })
      spare := .inUse, copySource := none, copyProgress := none, copyStepWaits := false, copyIntervalRuns := false } }

theorem copyEnd_last {s : State} (hm : s.link.state ≠ .mute) (b : Nat) :
    s.copyEnd b 1023 = State.spareDecision (noticed 0 (.spared b) (copied b s)) := by
  have last : ¬1023 + 1 < Config.cellsPerBank := by decide
  have completes : s.completeCopy b = ((copied b s).notify 0 (.spared b)).spareDecision := rfl
  refine (if_neg last).trans ?_
  rw [completes, State.notify_noticed (s := copied b s) hm]

/-- Settles O40: what the cell gives, then the next cell or the completion. -/
theorem copyStepsCopyTheBank : Obligations.CopyStepsCopyTheBank := by
  have steps {cond : CellCond} {s u : State} {b c : Nat} (hb : s.patrol.copySource = some b) (hc : s.patrol.copyProgress = some c)
      (hw : s.patrol.copyStepWaits = true) (hs : s.store.serve = none) (hws : s.store.writes = []) (hr : s.store.reads = [])
      (h : CopyGives cond s b c (s.store.address b c) (cellAddress Config.spareBank c)
        (cellBytes s.store.memory s.store.epoch (s.store.address b c)) u) : exec (.copyStep cond) s = .next (u.copyEnd b c) := by
    rw [exec_copyStep hb hc hw hs hws hr, copyCell_gives h]
  refine ⟨fun cond s b c hb hc hw hs hws hr hlt => ⟨fun free => ?_, fun r hh hcl => ?_, fun r hh hng hco => ?_, fun r hh hf hu => ?_⟩,
    fun cond s b hb hc hw hs hws hr hm free hat => ?_, fun cond s u b c a z bytes hb hc hw hs hws hr ha hz hbytes h =>
    ⟨fun hlt => ?_, fun hlast hm => ?_⟩⟩
  · rw [steps hb hc hw hs hws hr (.inl ⟨free, rfl⟩), copyEnd_next hlt]
  · rw [steps hb hc hw hs hws hr (.inr ⟨r, hh, .inl ⟨hcl, rfl⟩⟩), copyEnd_next hlt]
  · rw [steps hb hc hw hs hws hr (.inr ⟨r, hh, .inr (.inl ⟨hco, hng, rfl⟩)⟩), copyEnd_next hlt]
  · have cell := State.copyCell_uncorrectable (s := s.fresh) hh hu
    refine ⟨_, (exec_copyStep hb hc hw hs hws hr cond).trans (congrArg _ ((congrArg _ cell).trans (copyEnd_next hlt b _))), ?_⟩
    by_cases hv : r.state = .valid
    · have poisons := State.poison_poisoned (s := s.fresh.writeCell (cellAddress Config.spareBank c) .marked) hf hv
      obtain ⟨memory, patrol, index, cache, dir, slots⟩ :=
        State.poisoned_leaves r.key r.bank (s.fresh.writeCell (cellAddress Config.spareBank c) .marked)
      rw [poisons]
      refine ⟨memory, congrArg (fun p : Patrol =>
        { p with copyProgress := some (c + 1), copyStepWaits := false, copyIntervalRuns := true }) patrol, index.trans ?_, cache, dir,
        slots⟩
      simp only [hv, true_and]
      rfl
    · rw [State.poison_notValid (s := s.fresh.writeCell (cellAddress Config.spareBank c) .marked) hf hv]
      exact ⟨rfl, rfl, (List.map_id'' (fun x => if_neg fun h => hv h.1) _).symm, rfl, rfl, rfl⟩
  · rw [steps hb hc hw hs hws hr (.inl ⟨free, rfl⟩)]
    refine congrArg _ ((copyEnd_last ?_ b).trans (State.spareDecision_none _ fun x => ?_))
    · exact hm
    rw [noticed_patrol]
    have state := Patrol.bankState_setBank (f := fun k => { k with state := .spared }) (fun _ => rfl) b x s.patrol
    refine fun at_ => absurd (state.symm.trans at_) ?_
    split
    · decide
    · exact hat x
  · subst ha hz hbytes
    rw [steps hb hc hw hs hws hr h, copyEnd_next hlt]
  · subst ha hz hbytes hlast
    have link := (State.copyCell_accessed b 1023 cond s.fresh).spared.link
    rw [copyCell_gives h] at link
    have notMute : u.link.state ≠ .mute := fun mute => hm ((congrArg Link.state link).symm.trans mute)
    rw [steps hb hc hw hs hws hr h, copyEnd_last notMute]
    rfl

end Sys2Proof.Machine
end

section
/-! SUPPORT. The patrol's walk: the position after a step, and what a step finds at its cell (R116, R117, R125, R133, R134). -/

namespace Sys2Proof.Machine

namespace Patrol

/-! ## The position after a step -/

section
variable {p : Patrol}

theorem afterStep_of {q : Patrol} (h : p.advance.settlePosition = q) :
    p.afterStep = { q with stepWaits := false, intervalRuns := true } := by
  unfold afterStep
  rw [h]

theorem advance_cell (hc : p.posCell < 1023) : p.advance = { p with posCell := p.posCell + 1 } := by
  have more : p.posCell + 1 < Config.cellsPerBank := Nat.succ_lt_succ hc
  exact if_pos more

theorem advance_bank (hc : p.posCell = 1023) : p.advance = p.nextBank.settlePosition := by
  have last : ¬p.posCell + 1 < Config.cellsPerBank := by rw [hc]; decide
  exact if_neg last

theorem afterStep_cell (hc : p.posCell < 1023) (hb : p.bankState p.posBank ≠ .withdrawn) :
    p.afterStep = { p with posCell := p.posCell + 1, stepWaits := false, intervalRuns := true } := by
  refine afterStep_of (q := { p with posCell := p.posCell + 1 }) ?_
  rw [advance_cell hc]
  exact settlePosition_on (p := { p with posCell := p.posCell + 1 }) hb

/-- From cell 0 of the next bank up to one that is not WITHDRAWN. -/
theorem skipWithdrawn_above {b : Nat} (hlt : p.posBank < b) (hb : b < p.banks.length) (hw : p.bankState b ≠ .withdrawn)
    (hall : ∀ c, p.posBank < c → c < b → p.bankState c = .withdrawn) {n : Nat} (hn : b ≤ p.posBank + 1 + n) :
    skipWithdrawn n p.nextBank = { p with posBank := b, posCell := 0 } := by
  rw [nextBank_up (by omega), skipWithdrawn_up n { p with posBank := p.posBank + 1, posCell := 0 } b hb hw hlt
    (by simp only; omega) (fun c h => hall c h) (.inr rfl)]
  simp

/-- From cell 0 of the next bank past the last one to the lowest that is not WITHDRAWN. -/
theorem nextBank_wraps {b : Nat} (hp : p.posBank < p.banks.length) (hb : b ≤ p.posBank) (hw : p.bankState b ≠ .withdrawn)
    (hlow : ∀ c, c < b → p.bankState c = .withdrawn)
    (hall : ∀ c, p.posBank < c → c < p.banks.length → p.bankState c = .withdrawn) :
    p.nextBank.settlePosition = { p.completePass with posBank := b, posCell := 0 } := by
  have inside : b < p.banks.length := Nat.lt_of_le_of_lt hb hp
  unfold settlePosition
  rw [(nextBank_walked p).banks]
  by_cases hlt : p.posBank + 1 < p.banks.length
  · rw [nextBank_up hlt, skipWithdrawn_wrap _ { p with posBank := p.posBank + 1, posCell := 0 } b hlt inside hw
      (fun c h => hall c h) hlow (by simp only; omega), completePass_position]
  · have wraps : p.nextBank = { p.completePass with posBank := 0, posCell := 0 } := by
      have some_open : ¬allWithdrawn { p with posBank := 0, posCell := 0 } = true := by
        rw [allWithdrawn_false (p := { p with posBank := 0, posCell := 0 }) hw inside]
        exact Bool.false_ne_true
      exact (if_neg hlt).trans ((if_neg some_open).trans (completePass_position p 0 0))
    have state (c : Nat) : bankState { p.completePass with posBank := 0, posCell := 0 } c = p.bankState c := bankState_completePass p c
    rw [wraps, skipWithdrawn_up _ _ b (by simpa [length_completePass] using inside) (by rwa [state]) (Nat.zero_le b)
      (by simp only; omega) (fun c _ h => (state c).trans (hlow c h)) (.inr rfl)]
    simp

theorem settlePosition_withdrawn {n : Nat} (hn : p.banks.length = n + 1) (hp : p.bankState p.posBank = .withdrawn) {b : Nat}
    (hb : b < p.banks.length) (hw : p.bankState b ≠ .withdrawn) : p.settlePosition = skipWithdrawn n p.nextBank := by
  unfold settlePosition
  rw [hn]
  simp only [skipWithdrawn, (isWithdrawn_iff _ _).2 hp, allWithdrawn_false hw hb, Bool.not_false, Bool.and_self, if_true]

end

/-- R133: the move after a step that leaves its bank. -/
theorem afterStep_leaves {p : Patrol} (hp : p.posBank < p.banks.length)
    (hc : p.posCell = 1023 ∨ (p.posCell < 1023 ∧ p.bankState p.posBank = .withdrawn)) :
    (∀ b, p.posBank < b → b < p.banks.length → p.bankState b ≠ .withdrawn →
      (∀ c, p.posBank < c → c < b → p.bankState c = .withdrawn) →
      p.afterStep = { p with posBank := b, posCell := 0, stepWaits := false, intervalRuns := true }) ∧
    ∀ b, b ≤ p.posBank → p.bankState b ≠ .withdrawn → (∀ c, c < b → p.bankState c = .withdrawn) →
      (∀ c, p.posBank < c → c < p.banks.length → p.bankState c = .withdrawn) →
      p.afterStep = { p.completePass with posBank := b, posCell := 0, stepWaits := false, intervalRuns := true } := by
  obtain ⟨n, length⟩ : ∃ n, p.banks.length = n + 1 := ⟨p.banks.length - 1, by omega⟩
  refine ⟨fun b hlt hb hw hall => afterStep_of (q := { p with posBank := b, posCell := 0 }) ?_,
    fun b hb hw hlow hall => afterStep_of (q := { p.completePass with posBank := b, posCell := 0 }) ?_⟩
  · have stands : settlePosition { p with posBank := b, posCell := 0 } = { p with posBank := b, posCell := 0 } := settlePosition_on hw
    rcases hc with hc | ⟨hc, hpw⟩
    · have up : p.nextBank.settlePosition = { p with posBank := b, posCell := 0 } :=
        skipWithdrawn_above hlt hb hw hall (by rw [(nextBank_walked p).banks]; omega)
      rw [advance_bank hc, up, stands]
    · rw [advance_cell hc, settlePosition_withdrawn (p := { p with posCell := p.posCell + 1 }) length hpw hb hw]
      exact skipWithdrawn_above (p := { p with posCell := p.posCell + 1 }) hlt hb hw hall (by simp only; omega)
  · have stands : settlePosition { p.completePass with posBank := b, posCell := 0 } = { p.completePass with posBank := b, posCell := 0 } :=
      settlePosition_on (bankState_completePass p b ▸ hw)
    rcases hc with hc | ⟨hc, hpw⟩
    · rw [advance_bank hc, nextBank_wraps hp hb hw hlow hall, stands]
    · have all (c : Nat) (h1 : p.posBank ≤ c) (h2 : c < p.banks.length) : p.bankState c = .withdrawn := by
        rcases Nat.eq_or_lt_of_le h1 with rfl | h1
        · exact hpw
        · exact hall c h1 h2
      have below : b ≠ p.posBank := fun h => hw (h ▸ hpw)
      rw [advance_cell hc]
      refine (skipWithdrawn_wrap p.banks.length { p with posCell := p.posCell + 1 } b hp (by simp only; omega) hw all hlow
        (by simp only; omega)).trans ?_
      exact congrArg (fun q : Patrol => { q with posBank := b, posCell := 0 }) (completePass_position p p.posBank (p.posCell + 1))

end Patrol

/-! ## What a step finds -/

namespace State

section
variable {b c : Nat} {cond : CellCond} {s : State}

theorem patrolCell_clean (hc : readCond s.store.memory (s.store.address b c) cond = .clean) : s.patrolCell b c cond = s := by
  simp only [patrolCell, hc]

theorem patrolCell_corrected (hc : readCond s.store.memory (s.store.address b c) cond = .corrected) : s.patrolCell b c cond =
    (s.writeCell (s.store.address b c) (.data (cellBytes s.store.memory s.store.epoch (s.store.address b c)))).reportCell b
      (cellHolder s.store.index b c) := by
  simp only [patrolCell, hc]

variable (hc : readCond s.store.memory (s.store.address b c) cond = .uncorrectable)
include hc

theorem patrolCell_free (h : ∀ r ∈ s.store.index, r.holdsCell b c = false) :
    s.patrolCell b c cond = s.writeCell (s.store.address b c) zeroCell := by
  simp only [patrolCell, hc, cellHolder_free h]

theorem patrolCell_held {r : StoreRecord} (hr : cellHolder s.store.index b c = some r) : s.patrolCell b c cond = s.poison r.key := by
  simp only [patrolCell, hc, hr]

end

end State

theorem exec_patrolStep {s : State} (hw : s.patrol.stepWaits = true) (hcopy : s.patrol.copyStepWaits = false)
    (hs : s.store.serve = none) (hws : s.store.writes = []) (hr : s.store.reads = [])
    (hb : s.patrol.bankState s.patrol.posBank ≠ .withdrawn) (cond : CellCond) : exec (.patrolStep cond) s =
      .next ((s.fresh.patrolCell s.patrol.posBank s.patrol.posCell cond).mapPatrol Patrol.afterStep) := by
  change execPatrolStep cond s = _
  simp [execPatrolStep, Store.mayCopy, hw, hcopy, hs, hws, hr, not_isWithdrawn hb]

/-- The outcomes of a patrol step's cell, with the state that each leaves. -/
def PatrolGives (cond : CellCond) (s : State) (b c a : Nat) (bytes : List Byte) (u : State) : Prop :=
  (readCond s.store.memory a cond = .clean ∧ u = { s with out := [] }) ∨
    (readCond s.store.memory a cond = .corrected ∧
      ((∀ r ∈ s.store.index, r.holdsCell b c = false) ∨ ∃ r, cellHolder s.store.index b c = some r ∧ r.state = .loading) ∧
      u = { s with
        out := [.cell a (.data bytes)], store := { s.store with memory := s.store.memory.write a (.data bytes) } }) ∨
    (readCond s.store.memory a cond = .corrected ∧ (∃ r, cellHolder s.store.index b c = some r ∧ r.state ≠ .loading) ∧
      u = State.reportError b true { s with
        out := [.cell a (.data bytes)], store := { s.store with memory := s.store.memory.write a (.data bytes) } }) ∨
    (readCond s.store.memory a cond = .uncorrectable ∧ (∀ r ∈ s.store.index, r.holdsCell b c = false) ∧
      u = { s with out := [.cell a zeroCell], store := { s.store with memory := s.store.memory.write a zeroCell } }) ∨
    ∃ r, readCond s.store.memory a cond = .uncorrectable ∧ cellHolder s.store.index b c = some r ∧
      findRecord r.key s.store.index = some r ∧
      ((r.state ≠ .valid ∧ u = { s with out := [] }) ∨
        (r.state = .valid ∧ s.link.state ≠ .mute ∧
          u = noticed 0 (.poisoned r.key r.bank) { s with
            out := []
            store := { s.store with
              index := s.store.index.map (fun x => if x.key = r.key then { x with state := .poisoned } else x) } }))

theorem patrolCell_gives {cond : CellCond} {s u : State} {b c : Nat}
    (h : PatrolGives cond s b c (s.store.address b c) (cellBytes s.store.memory s.store.epoch (s.store.address b c)) u) :
    s.fresh.patrolCell b c cond = u := by
  rcases h with ⟨hc, rfl⟩ | ⟨hc, hn, rfl⟩ | ⟨hc, ⟨r, hr, hl⟩, rfl⟩ | ⟨hc, free, rfl⟩ | ⟨r, hc, hr, hf, ⟨hv, rfl⟩ | ⟨hv, hm, rfl⟩⟩
  · exact State.patrolCell_clean (s := s.fresh) hc
  · refine (State.patrolCell_corrected (s := s.fresh) hc).trans (State.reportCell_notHeld (hn.imp State.cellHolder_free id) b _)
  · refine (State.patrolCell_corrected (s := s.fresh) hc).trans ?_
    rw [show cellHolder s.fresh.store.index b c = some r from hr, State.reportCell_held hl]
    rfl
  · exact State.patrolCell_free (s := s.fresh) hc free
  · exact (State.patrolCell_held (s := s.fresh) hc hr).trans (State.poison_notValid hf hv)
  · exact (State.patrolCell_held (s := s.fresh) hc hr).trans (State.poison_noticed hf hv hm)

/-- A CORRECTED cell has been written back (R116). -/
def cellRewritten (b c : Nat) (s : State) : State :=
  let written : Cell := .data (cellBytes s.store.memory s.store.epoch (s.store.address b c))
  { s with
    out := [.cell (s.store.address b c) written], store := { s.store with memory := s.store.memory.write (s.store.address b c) written } }

/-- A CORRECTED cell that is FREE or LOADING, or of a bank that is not GOOD, is not counted (R125). -/
theorem patrolCell_uncounted {cond : CellCond} {s : State} {b c : Nat}
    (hc : readCond s.store.memory (s.store.address b c) cond = .corrected)
    (hn : (∀ r ∈ s.store.index, r.holdsCell b c = false) ∨ (∃ r, cellHolder s.store.index b c = some r ∧ r.state = .loading) ∨
      s.patrol.bankState b ≠ .good) : s.fresh.patrolCell b c cond = cellRewritten b c s := by
  refine (State.patrolCell_corrected (s := s.fresh) hc).trans ?_
  rcases hn with free | loading | notGood
  · exact State.reportCell_notHeld (.inl (State.cellHolder_free free)) b _
  · exact State.reportCell_notHeld (.inr loading) b _
  · exact State.reportError_notGood (s := cellRewritten b c s) notGood _

/-- A CORRECTED cell with data, counted below the threshold (R125). -/
theorem patrolCell_counted {cond : CellCond} {s : State} {b c : Nat} {r : StoreRecord} {k : Bank}
    (hc : readCond s.store.memory (s.store.address b c) cond = .corrected) (hr : cellHolder s.store.index b c = some r)
    (hl : r.state ≠ .loading) (hk : s.patrol.banks[b]? = some k) (hg : k.state = .good) (hn : k.count + 1 < s.patrol.threshold) :
    s.fresh.patrolCell b c cond = { cellRewritten b c s with
      patrol := { s.patrol with banks := s.patrol.banks.set b { k with count := k.count + 1 } } } := by
  refine (patrolCell_gives (.inr (.inr (.inl ⟨hc, ⟨r, hr, hl⟩, rfl⟩)))).trans ?_
  exact State.reportError_counts (s := cellRewritten b c s) hk hg hn

/-- Settles O41: what the cell gives, then the move of the walk. -/
theorem patrolStepWalksTheCells : Obligations.PatrolStepWalksTheCells := by
  have steps {cond : CellCond} {s u : State} (hw : s.patrol.stepWaits = true) (hcopy : s.patrol.copyStepWaits = false)
      (hs : s.store.serve = none) (hws : s.store.writes = []) (hr : s.store.reads = [])
      (hb : s.patrol.bankState s.patrol.posBank ≠ .withdrawn)
      (h : PatrolGives cond s s.patrol.posBank s.patrol.posCell (s.store.address s.patrol.posBank s.patrol.posCell)
        (cellBytes s.store.memory s.store.epoch (s.store.address s.patrol.posBank s.patrol.posCell)) u) :
      exec (.patrolStep cond) s = .next { u with patrol := u.patrol.afterStep } := by
    rw [exec_patrolStep hw hcopy hs hws hr hb, patrolCell_gives h]
    rfl
  have moved {q : Patrol} {u : State} (h : u.patrol.afterStep = q) :
      Host.Outcome.next { u with patrol := u.patrol.afterStep } = (.next { u with patrol := q } : Host.Outcome State Fault Refusal) := by
    rw [h]
  refine ⟨fun cond s hw hcopy hs hws hr hb => ⟨fun hcl => ⟨fun hc => ?_, fun hc hlt hn => ?_, fun hc hlast h0 hp => ?_⟩,
    fun hco hc m o hm ho => ⟨fun hn => ?_, fun r k hh hl hk hg hcount => ?_⟩,
    fun hu hc => ⟨fun free => ?_, fun r hh hf hv => ?_, fun r hh hf hv hm => ?_⟩⟩,
    fun cond s u b c a bytes hw hcopy hs hws hr hpb hpc hb ha hbytes h => ?_,
    fun p hp => ⟨Patrol.afterStep_cell, Patrol.afterStep_leaves hp⟩⟩
  · exact (steps hw hcopy hs hws hr hb (.inl ⟨hcl, rfl⟩)).trans (moved (Patrol.afterStep_cell hc hb))
  · refine (steps hw hcopy hs hws hr hb (.inl ⟨hcl, rfl⟩)).trans (moved ?_)
    exact (Patrol.afterStep_leaves (by omega) (.inl hc)).1 _ (by omega) hlt hn fun c h1 h2 => by omega
  · refine (steps hw hcopy hs hws hr hb (.inl ⟨hcl, rfl⟩)).trans (moved ?_)
    refine ((Patrol.afterStep_leaves (p := s.patrol) (by omega) (.inl hc)).2 0 (Nat.zero_le _) h0 (fun c h => by omega)
      fun c h1 h2 => by omega).trans ?_
    have pass : s.patrol.completePass = { s.patrol with passes := s.patrol.passes + 1 } := if_neg (Nat.not_le.2 hp)
    rw [pass]
  · subst hm ho
    rw [exec_patrolStep hw hcopy hs hws hr hb, patrolCell_uncounted hco hn]
    exact moved (u := cellRewritten s.patrol.posBank s.patrol.posCell s) (Patrol.afterStep_cell hc hb)
  · subst hm ho
    have inside : s.patrol.posBank < s.patrol.banks.length := (List.getElem?_eq_some_iff.1 hk).1
    have counted : Patrol.bankState { s.patrol with banks := s.patrol.banks.set s.patrol.posBank { k with count := k.count + 1 } }
        s.patrol.posBank ≠ .withdrawn := by
      rw [State.bankState_set inside, hg]
      decide
    rw [exec_patrolStep hw hcopy hs hws hr hb, patrolCell_counted hco hh hl hk hg hcount]
    exact moved (u := { cellRewritten s.patrol.posBank s.patrol.posCell s with patrol := { s.patrol with
      banks := s.patrol.banks.set s.patrol.posBank { k with count := k.count + 1 } } }) (Patrol.afterStep_cell hc counted)
  · exact (steps hw hcopy hs hws hr hb (.inr (.inr (.inr (.inl ⟨hu, free, rfl⟩))))).trans (moved (Patrol.afterStep_cell hc hb))
  · exact (steps hw hcopy hs hws hr hb (.inr (.inr (.inr (.inr ⟨r, hu, hh, hf, .inl ⟨hv, rfl⟩⟩))))).trans
      (moved (Patrol.afterStep_cell hc hb))
  · have cell := steps (cond := cond) hw hcopy hs hws hr hb (.inr (.inr (.inr (.inr ⟨r, hu, hh, hf, .inr ⟨hv, hm, rfl⟩⟩))))
    refine cell.trans (congrArg Host.Outcome.next ?_)
    rw [noticed_patrol]
    exact (noticed_setPatrol ..).trans (congrArg (fun p => noticed 0 (.poisoned r.key r.bank) { s with
      out := []
      store := { s.store with
        index := s.store.index.map (fun x => if x.key = r.key then { x with state := .poisoned } else x) }
      patrol := p }) (Patrol.afterStep_cell hc hb))
  · subst hpb hpc ha hbytes
    exact steps hw hcopy hs hws hr hb h

end Sys2Proof.Machine
end

section
/-! SUPPORT. A local read (R39 to R42, R72, R80, R118): what its cells give, the fetch that it cancels, the placement that it serves, and
the steps of a pass that it goes back to. -/

namespace Sys2Proof.Machine

namespace State

/-! ## The steps of a pass -/

theorem storeHolds_iff {k : Key} {s : State} : s.storeHolds k = true ↔
    ∃ r, findRecord k s.store.index = some r ∧ r.state = .valid ∧ s.patrol.bankState r.bank ≠ .withdrawn := by
  unfold storeHolds
  cases hf : findRecord k s.store.index <;> simp [Bool.eq_false_iff, Patrol.isWithdrawn_iff]

section
variable {i : SlotId} {pos : Nat} {k : Key} {s : State}

theorem fetches_any : (s.fetches.any fun f => f.key == k) = true ↔ ∃ f ∈ s.fetches, f.key = k := by simp

theorem thirdStep_present (h : ∃ f ∈ s.fetches, f.key = k) : s.thirdStep i pos k = s.setPlacement i pos await :=
  if_pos (fetches_any.2 h)

theorem resolveAt_eq {n : Nat} {e : CacheEntry} (h : s.cache.entry n = some e) : s.resolveAt i pos n = { s with
    cache := s.cache.pin n
    slots := s.slots.put i { s.slots.get i with list := withY (some 0) ((s.slots.get i).list.modify pos (resolveWith n e.record)) } } := by
  simp only [resolveAt, h]
  rfl

section
variable (hno : ∀ f ∈ s.fetches, f.key ≠ k)
include hno

theorem thirdStep_absent : s.thirdStep i pos k =
    match s.dir.chooseTarget s.own [] k with
    | none => (s.setPlacement i pos substitute).setFlags i { substituted := true }
    | some t => if s.fetches.length < Config.fetchCapacity then s.fetchFor i pos k t else s.setPlacement i pos waitRoom :=
  if_neg fun h => by
    obtain ⟨f, hf, hk⟩ := fetches_any.1 h
    exact hno f hf hk

theorem thirdStep_noTarget (ht : s.dir.chooseTarget s.straps.station [] k = none) :
    s.thirdStep i pos k = (s.setPlacement i pos substitute).setFlags i { substituted := true } := by
  have none : s.dir.chooseTarget s.own [] k = none := ht
  rw [thirdStep_absent hno, none]

variable {u : Nat × TargetRole} (ht : s.dir.chooseTarget s.straps.station [] k = some u)
include ht

theorem thirdStep_full (hn : 8 ≤ s.fetches.length) : s.thirdStep i pos k = s.setPlacement i pos waitRoom := by
  have target : s.dir.chooseTarget s.own [] k = some u := ht
  rw [thirdStep_absent hno, target]
  exact if_neg (Nat.not_lt.2 hn)

theorem thirdStep_room (hn : s.fetches.length < 8) : s.thirdStep i pos k = s.fetchFor i pos k u := by
  have target : s.dir.chooseTarget s.own [] k = some u := ht
  rw [thirdStep_absent hno, target]
  exact if_pos hn

end

theorem fetchFor_created {u : Nat × TargetRole} (h : s.cache.validNumber k = none) :
    s.fetchFor i pos k u = (s.createFetch k u).setPlacement i pos await := by simp only [fetchFor, h]

theorem fetchFor_held {u : Nat × TargetRole} {n : Nat} (h : s.cache.validNumber k = some n) :
    s.fetchFor i pos k u = s.resolveAt i pos n := by simp only [fetchFor, h]

theorem visit_held {n : Nat} (h : s.cache.validNumber k = some n) : s.visit i pos k = s.resolveAt i pos n := by simp only [visit, h]

theorem visit_stored (h : s.cache.validNumber k = none) (hs : s.storeHolds k = true) : s.visit i pos k = s.secondStep i k := by
  simp only [visit, h, hs, if_true]

theorem visit_third (h : s.cache.validNumber k = none) (hs : ¬s.storeHolds k = true) : s.visit i pos k = s.thirdStep i pos k := by
  simp only [visit, h, if_neg hs]

theorem secondStep_requests (h : ∀ r ∈ s.store.reads, r.slot ≠ i) : s.secondStep i k = s.queueRead i k := by
  refine if_neg ?_
  simpa using h

theorem secondStep_held (h : ∃ r ∈ s.store.reads, r.slot = i) : s.secondStep i k = s.setPass i fun p => { p with wait := .readHeld } := by
  refine if_pos ?_
  simpa using h

theorem requestHeld_none (h : ∀ p, (s.slots.get i).pass = some p → p.wait ≠ .readHeld) : s.requestHeld i = s := by
  unfold requestHeld
  split
  · rename_i p hp
    exact if_neg (h p hp)
  · rfl

theorem requestHeld_requests {p : Pass} {pl : Placement} (hp : (s.slots.get i).pass = some p) (hw : p.wait = .readHeld)
    (hl : (s.slots.get i).list[p.pos]? = some pl) (hk : pl.key = some k) : s.requestHeld i = { s with
      store := { s.store with reads := s.store.reads ++ [{ slot := i, key := k, live := true }] }
      slots := s.slots.put i { s.slots.get i with pass := some { p with wait := .reading } } } := by
  have pass : (s.slot i).pass = some p := hp
  have key : ((s.slot i).list[p.pos]?).bind Placement.key = some k := by simp [hl, hk]
  simp only [requestHeld, pass, hw, if_true, key]
  unfold queueRead setPass
  simp [hp]
  rfl

/-- A pass that has moved on waits on nothing. -/
theorem requestHeld_passOn (i : SlotId) (s : State) : (s.passOn i).requestHeld i = s.passOn i := by
  refine requestHeld_none fun p hp => ?_
  have moved : ((s.passOn i).slots.get i).pass = (s.slots.get i).pass.map fun p => { p with pos := p.pos + 1, wait := .running } := by
    cases i <;> rfl
  rw [moved] at hp
  obtain ⟨p', -, rfl⟩ := Option.map_eq_some_iff.1 hp
  simp

theorem atReading_reading {p : Pass} (hp : (s.slots.get i).pass = some p) (hw : p.wait = .reading) (f : Nat → State → State) :
    s.atReading i f = (f p.pos s).passOn i := by
  have pass : (s.slot i).pass = some p := hp
  simp only [atReading, pass, hw, if_true]

end

/-! ## The fetch that an image cancels -/

theorem cancelFetch_none {i : ImageRecord} {s : State} (h : ∀ f ∈ s.fetches, f.key ≠ i.key) (n : Nat) : s.cancelFetch i n = s := by
  have none : s.fetchOf i.key = none := by simpa [fetchOf] using h
  simp only [cancelFetch, none]

theorem cancelFetch_some {i : ImageRecord} {s : State} {f : Fetch} (h : s.fetches.find? (fun e => e.key == i.key) = some f) (n : Nat) :
    s.cancelFetch i n = State.roomEvent (State.resolveAllAwaiting i.key n i false { s with
      fetches := s.fetches.filter (fun e => e.key != i.key)
      link := if f.state = .exchanging then
        { s.link with exchange := s.link.exchange.map (fun x => { x with detached := true }) } else s.link }) := by
  have found : s.fetchOf i.key = some f := h
  simp only [cancelFetch, found]
  split <;> rfl

/-- The slot's pass waits for its local read at a position. -/
def Reading (pos : Nat) (t : Slot) : Prop := t.state = .resolving ∧ ∃ p, t.pass = some p ∧ p.pos = pos ∧ p.wait = .reading

theorem Reading.imageTaken {pos : Nat} {t : Slot} (h : Reading pos t) (k : Key) (n : Nat) (r : ImageRecord) (b : Bool) :
    Reading pos (imageTaken k n r b t) := by
  unfold Machine.imageTaken
  split <;> exact h

theorem Reading.again {pos : Nat} {t u : Slot} (h : Reading pos t) (hs : u.state = t.state)
    (hp : u.pass = t.pass.map fun p => { p with again := true }) : Reading pos u := by
  obtain ⟨state, p, pass, position, wait⟩ := h
  exact ⟨hs.trans state, { p with again := true }, by rw [hp, pass]; rfl, position, wait⟩

theorem Reading.roomAnswered {pos : Nat} {t : Slot} (h : Reading pos t) : Reading pos (roomAnswered t) := by
  unfold Machine.roomAnswered
  rw [if_neg (by simp [h.1])]
  exact h.again rfl rfl

theorem Reading.heldBack {pos : Nat} {t : Slot} (h : Reading pos t) (n : Nat) : Reading pos (heldBack n t) :=
  h.again rfl (if_pos h.1)

theorem Reading.put {pos : Nat} {x : Slots} {i j : SlotId} {v : Slot} (h : Reading pos (x.get i)) (hv : j = i → Reading pos v) :
    Reading pos ((x.put j v).get i) := by
  rw [Slots.get_put]
  split
  · rename_i hij
    exact hv hij.symm
  · exact h

/-- A room event keeps a pass that waits for its local read at its position. -/
theorem roomEvent_reading {pos : Nat} {i : SlotId} {s : State} (h : Reading pos (s.slots.get i)) :
    Reading pos (s.roomEvent.slots.get i) := by
  have answered (j : SlotId) : Reading pos ((s.slots.put j (roomAnswered (s.slots.get j))).get i) :=
    h.put fun hj => hj ▸ h.roomAnswered
  by_cases ho : WaitsForRoom (s.slots.get s.slots.older) <;> by_cases hy : WaitsForRoom (s.slots.get s.slots.older.other)
  · rw [roomEvent_both ho hy]
    exact (answered _).put fun hj => hj ▸ h.heldBack _
  · rw [roomEvent_one ho hy]
    exact answered _
  · have back : s.slots.older.other.other = s.slots.older := by cases s.slots.older <;> rfl
    rw [roomEvent_one hy (by rwa [back])]
    exact answered _
  · rw [roomEvent_idle ho hy]
    exact h

theorem cancelFetch_reading {pos : Nat} {i : SlotId} {s : State} (h : Reading pos (s.slots.get i)) (r : ImageRecord) (n : Nat) :
    Reading pos ((s.cancelFetch r n).slots.get i) := by
  cases hf : s.fetches.find? fun e => e.key == r.key with
  | none =>
    rw [cancelFetch_none (by simpa using hf)]
    exact h
  | some f =>
    rw [cancelFetch_some hf, resolveAllAwaiting_eq]
    refine roomEvent_reading ?_
    cases i <;> exact h.imageTaken _ _ _ _

/-! ## The read taken -/

/-- The read is outstanding no more. -/
def readTaken (rest : List ReadRequest) (s : State) : State := { s with out := [], store := { s.store with reads := rest } }

/-- The image serves the reading placement of a line that is still there, and the slots go on. -/
def imageServed (q : ReadRequest) (i : ImageRecord) (n : Nat) (s : State) : State :=
  ((if q.live then (s.cancelFetch i n).atReading q.slot fun pos => resolveAt q.slot pos n else s.cancelFetch i n).requestHeld
    q.slot).settle

/-- Without an image the reading placement goes to its third step. -/
def imageMissed (q : ReadRequest) (s : State) : State :=
  ((if q.live then s.atReading q.slot fun pos => thirdStep q.slot pos q.key else s).requestHeld q.slot).settle

theorem findRecord_key {k : Key} {ix : List StoreRecord} {r : StoreRecord} (h : findRecord k ix = some r) : r.key = k := by
  simpa using List.find?_some h

section
variable {q : ReadRequest} {rest : List ReadRequest} {conds : List CellCond} {s : State}

theorem takeRead_image {i : ImageRecord} (h : (readTaken rest s).localImage q.key conds = some i) :
    s.fresh.takeRead q rest conds = imageServed q i (((readTaken rest s).localAccess q.key conds).readEntry i).1
      (((readTaken rest s).localAccess q.key conds).readEntry i).2 := by
  have image : (s.fresh.mapStore fun st => { st with reads := rest }).localImage q.key conds = some i := h
  simp only [takeRead, image]
  rfl

theorem takeRead_noImage (h : (readTaken rest s).localImage q.key conds = none) :
    s.fresh.takeRead q rest conds = imageMissed q ((readTaken rest s).localAccess q.key conds) := by
  have image : (s.fresh.mapStore fun st => { st with reads := rest }).localImage q.key conds = none := h
  simp only [takeRead, image]
  rfl

theorem takeRead_unheld (h : ¬s.storeHolds q.key = true) : s.fresh.takeRead q rest conds = imageMissed q (readTaken rest s) := by
  have away : ¬(readTaken rest s).storeHolds q.key = true := h
  have image : (readTaken rest s).localImage q.key conds = none := by
    unfold localImage
    split
    · exact if_neg away
    · rfl
  have access : (readTaken rest s).localAccess q.key conds = readTaken rest s := by
    unfold localAccess
    split
    · exact if_neg away
    · rfl
  rw [takeRead_noImage image, access]

variable {r : StoreRecord} (hr : findRecord q.key s.store.index = some r) (hv : r.state = .valid)
  (hb : s.patrol.bankState r.bank ≠ .withdrawn)
include hr hv hb

/-- With an UNCORRECTABLE cell the record becomes POISONED, and there is no image. -/
theorem takeRead_poisons (hu : .uncorrectable ∈ s.store.recordConds r conds) :
    s.fresh.takeRead q rest conds = imageMissed q (poisoned q.key r.bank (cellsRead r conds (readTaken rest s))) := by
  have held : (readTaken rest s).storeHolds q.key = true := storeHolds_iff.2 ⟨r, hr, hv, hb⟩
  have found : findRecord q.key (readTaken rest s).store.index = some r := hr
  have hu : .uncorrectable ∈ (readTaken rest s).store.recordConds r conds := hu
  have bad : ((readTaken rest s).store.recordConds r conds).contains .uncorrectable = true := by simpa using hu
  have image : (readTaken rest s).localImage q.key conds = none := by
    simp only [localImage, found, held, if_true, imageRead, bad]
  have access : (readTaken rest s).localAccess q.key conds = poisoned q.key r.bank (cellsRead r conds (readTaken rest s)) := by
    simp only [localAccess, found, held, if_true]
    exact readRecord_poisoned (s := readTaken rest s) conds hr hv hu
  rw [takeRead_noImage image, access]

/-- With every cell CLEAN or CORRECTED the image is used under the VALID entry of its key, held already or new. -/
theorem takeRead_serves (hu : .uncorrectable ∉ s.store.recordConds r conds) {n : Nat} {c : Cache}
    (hc : (s.cache.validNumber q.key = some n ∧ c = s.cache) ∨
      (s.cache.validNumber q.key = none ∧ s.cache.insert (s.store.imageOf r) .localStore = (n, c))) :
    s.fresh.takeRead q rest conds =
      imageServed q (s.store.imageOf r) n { cellsRead r conds (readTaken rest s) with cache := c } := by
  have held : (readTaken rest s).storeHolds q.key = true := storeHolds_iff.2 ⟨r, hr, hv, hb⟩
  have found : findRecord q.key (readTaken rest s).store.index = some r := hr
  have hu : .uncorrectable ∉ (readTaken rest s).store.recordConds r conds := hu
  have sound : ¬((readTaken rest s).store.recordConds r conds).contains .uncorrectable = true := by simpa using hu
  have image : (readTaken rest s).localImage q.key conds = some (s.store.imageOf r) := by
    simp only [localImage, found, held, if_true, imageRead, if_neg sound]
    rfl
  have access : (readTaken rest s).localAccess q.key conds = cellsRead r conds (readTaken rest s) := by
    simp only [localAccess, found, held, if_true]
    exact readRecord_read r conds (readTaken rest s) hu
  have cache : (cellsRead r conds (readTaken rest s)).cache = s.cache := by
    rw [← readRecord_read r conds (readTaken rest s) hu]
    exact (readRecord_accessed r conds (readTaken rest s)).spared.cache
  have key : (s.store.imageOf r).key = q.key := findRecord_key hr
  have entry : (cellsRead r conds (readTaken rest s)).readEntry (s.store.imageOf r) =
      (n, { cellsRead r conds (readTaken rest s) with cache := c }) := by
    unfold readEntry
    rw [cache, key]
    rcases hc with ⟨hn, rfl⟩ | ⟨hn, hi⟩
    · rw [hn, ← cache]
    · rw [hn]
      simp only [insertImage, cache, hi]
      rfl
  rw [takeRead_image image, access, entry]

end

/-! ### What the slot does -/

section
variable {q : ReadRequest} {i : ImageRecord} {n : Nat} {s : State} {p : Pass}

theorem imageServed_gone (hl : q.live = false) : imageServed q i n s = State.settle (State.requestHeld q.slot (s.cancelFetch i n)) := by
  simp [imageServed, hl]

theorem imageServed_reading (hl : q.live = true) (hs : (s.slots.get q.slot).state = .resolving)
    (hp : (s.slots.get q.slot).pass = some p) (hw : p.wait = .reading) : imageServed q i n s =
      State.settle (State.passOn q.slot (State.resolveAt q.slot p.pos n (State.cancelFetch i n s))) := by
  obtain ⟨-, p', pass, position, wait⟩ := cancelFetch_reading (pos := p.pos) (i := q.slot) ⟨hs, p, hp, rfl, hw⟩ i n
  simp only [imageServed, hl, if_true, atReading_reading pass wait, requestHeld_passOn, position]

/-- With no fetch to cancel, the slot's own state does not matter. -/
theorem imageServed_noFetch (hl : q.live = true) (hf : ∀ f ∈ s.fetches, f.key ≠ i.key) (hp : (s.slots.get q.slot).pass = some p)
    (hw : p.wait = .reading) : imageServed q i n s = State.settle (State.passOn q.slot (State.resolveAt q.slot p.pos n s)) := by
  simp only [imageServed, hl, if_true, cancelFetch_none hf, atReading_reading hp hw, requestHeld_passOn]

theorem imageMissed_gone (hl : q.live = false) : imageMissed q s = State.settle (State.requestHeld q.slot s) := by
  simp [imageMissed, hl]

theorem imageMissed_reading (hl : q.live = true) (hp : (s.slots.get q.slot).pass = some p) (hw : p.wait = .reading) :
    imageMissed q s = State.settle (State.passOn q.slot (State.thirdStep q.slot p.pos q.key s)) := by
  simp only [imageMissed, hl, if_true, atReading_reading hp hw, requestHeld_passOn]

end

end State

theorem exec_localRead {s : State} {q : ReadRequest} {rest : List ReadRequest} (hq : s.store.reads = q :: rest)
    (hs : s.store.serve = none) (hw : s.store.writes = []) (conds : List CellCond) :
    exec (.localRead conds) s = .next (s.fresh.takeRead q rest conds) := by
  change execLocalRead conds s = _
  simp [execLocalRead, Store.mayRead, hq, hs, hw]

namespace State

theorem passOn_put (i : SlotId) (v : Slot) (s : State) : ({ s with slots := s.slots.put i v } : State).passOn i =
    { s with slots := s.slots.put i { v with pass := v.pass.map fun p => { p with pos := p.pos + 1, wait := .running } } } := by
  cases i <;> rfl

section
variable {q : ReadRequest} {i : ImageRecord} {n : Nat} {s : State} {p : Pass}

theorem imageServed_rest (hl : q.live = false) (hf : ∀ f ∈ s.fetches, f.key ≠ i.key) (hr : SlotsRest s)
    (hp : (s.slots.get q.slot).pass = none) : imageServed q i n s = s := by
  rw [imageServed_gone hl, cancelFetch_none hf, requestHeld_none fun p h => absurd (hp.symm.trans h) (by simp), settle_rest hr]

theorem imageServed_placed {e : CacheEntry} (hl : q.live = true) (hf : ∀ f ∈ s.fetches, f.key ≠ i.key)
    (hp : (s.slots.get q.slot).pass = some p) (hw : p.wait = .reading) (he : s.cache.entry n = some e) :
    imageServed q i n s = State.settle { s with
      cache := s.cache.pin n
      slots := s.slots.put q.slot { s.slots.get q.slot with
        list := withY (some 0) ((s.slots.get q.slot).list.modify p.pos (resolveWith n e.record))
        pass := some { p with pos := p.pos + 1, wait := .running } } } := by
  rw [imageServed_noFetch hl hf hp hw, resolveAt_eq he]
  refine congrArg settle ((passOn_put q.slot _ { s with cache := s.cache.pin n }).trans ?_)
  simp only [hp]
  rfl

theorem imageMissed_noTarget (hl : q.live = true) (hf : ∀ f ∈ s.fetches, f.key ≠ q.key)
    (ht : s.dir.chooseTarget s.straps.station [] q.key = none) (hp : (s.slots.get q.slot).pass = some p) (hw : p.wait = .reading) :
    imageMissed q s = State.settle { s with
      slots := s.slots.put q.slot { s.slots.get q.slot with
        list := withY (some 0) ((s.slots.get q.slot).list.modify p.pos substitute)
        flags := (s.slots.get q.slot).flags.or { substituted := true }
        pass := some { p with pos := p.pos + 1, wait := .running } } } := by
  rw [imageMissed_reading hl hp hw, thirdStep_noTarget hf ht]
  have pass : (s.slots.get q.slot).pass.map (fun p => { p with pos := p.pos + 1, wait := .running }) =
    some { p with pos := p.pos + 1, wait := .running } := by rw [hp]; rfl
  rw [← pass]
  cases q.slot <;> rfl

theorem imageMissed_held {pl : Placement} {k : Key} (hl : q.live = false) (hp : (s.slots.get q.slot).pass = some p)
    (hw : p.wait = .readHeld) (hpl : (s.slots.get q.slot).list[p.pos]? = some pl) (hk : pl.key = some k) :
    imageMissed q s = State.settle { s with
      store := { s.store with reads := s.store.reads ++ [{ slot := q.slot, key := k, live := true }] }
      slots := s.slots.put q.slot { s.slots.get q.slot with pass := some { p with wait := .reading } } } := by
  rw [imageMissed_gone hl, requestHeld_requests hp hw hpl hk]

end

theorem reported_spared (b n : Nat) (s : State) : Spared s (reported b n s) := by
  induction n generalizing s with
  | zero => exact .refl s
  | succ n ih => exact (reportError_spared b true s).trans (ih _)

theorem cellsRead_slots (r : StoreRecord) (conds : List CellCond) (s : State) : (cellsRead r conds s).slots = s.slots :=
  (reported_spared _ _ _).slots

/-- A read that finds no cell CORRECTED changes nothing. -/
theorem cellsRead_uncorrected {r : StoreRecord} {conds : List CellCond} {s : State} (h : .corrected ∉ s.store.recordConds r conds) :
    cellsRead r conds s = s := by
  have writes : s.recordWrites r conds = [] := by
    refine List.map_eq_nil_iff.2 (List.filter_eq_nil_iff.2 fun y hy => ?_)
    have other : y.2 ≠ .corrected := fun hc => h (hc ▸ (List.of_mem_zip hy).2)
    simpa using other
  unfold cellsRead
  rw [writes, List.count_eq_zero.2 h]
  simp [reported, driven, written]

end State

/-- No VALID record of the key is held in a bank that is not WITHDRAWN. -/
theorem not_storeHolds {k : Key} {s : State} (h : findRecord k s.store.index = none ∨ ∃ r, findRecord k s.store.index = some r ∧
    (r.state ≠ .valid ∨ s.patrol.bankState r.bank = .withdrawn)) : ¬s.storeHolds k = true := by
  rw [State.storeHolds_iff]
  rintro ⟨r, hr, hv, hb⟩
  rcases h with h | ⟨x, hx, hn⟩
  · simp [hr] at h
  · obtain rfl : r = x := Option.some.inj (hr.symm.trans hx)
    exact hn.elim (· hv) hb

theorem findRecord_cases {k : Key} {ix : List StoreRecord} {P : StoreRecord → Prop} (h : ∀ r, findRecord k ix = some r → P r) :
    findRecord k ix = none ∨ ∃ r, findRecord k ix = some r ∧ P r := by
  cases hr : findRecord k ix with
  | none => exact .inl rfl
  | some r => exact .inr ⟨r, rfl, h r hr⟩

section
variable {s : State} {q : ReadRequest} {rest : List ReadRequest} (hq : s.store.reads = q :: rest) (hs : s.store.serve = none)
  (hw : s.store.writes = []) (conds : List CellCond)
include hq hs hw

theorem localRead_unheld (hno : findRecord q.key s.store.index = none ∨ ∃ r, findRecord q.key s.store.index = some r ∧
    (r.state ≠ .valid ∨ s.patrol.bankState r.bank = .withdrawn)) :
    exec (.localRead conds) s = .next (State.imageMissed q (State.readTaken rest s)) :=
  (exec_localRead hq hs hw conds).trans (congrArg Host.Outcome.next (State.takeRead_unheld (not_storeHolds hno)))

variable {r : StoreRecord} (hr : findRecord q.key s.store.index = some r) (hv : r.state = .valid)
  (hb : s.patrol.bankState r.bank ≠ .withdrawn)
include hr hv hb

theorem localRead_poisons (hu : .uncorrectable ∈ s.store.recordConds r conds) : exec (.localRead conds) s =
    .next (State.imageMissed q (poisoned q.key r.bank (cellsRead r conds (State.readTaken rest s)))) :=
  (exec_localRead hq hs hw conds).trans (congrArg Host.Outcome.next (State.takeRead_poisons hr hv hb hu))

section
variable (hu : .uncorrectable ∉ s.store.recordConds r conds)
include hu

theorem localRead_inserts (hn : s.cache.validNumber q.key = none) : exec (.localRead conds) s =
    .next (State.imageServed q (s.store.imageOf r) (s.cache.insert (s.store.imageOf r) .localStore).1
      { cellsRead r conds (State.readTaken rest s) with cache := (s.cache.insert (s.store.imageOf r) .localStore).2 }) :=
  (exec_localRead hq hs hw conds).trans (congrArg Host.Outcome.next (State.takeRead_serves hr hv hb hu (.inr ⟨hn, rfl⟩)))

theorem localRead_uses {n : Nat} (hn : s.cache.validNumber q.key = some n) : exec (.localRead conds) s =
    .next (State.imageServed q (s.store.imageOf r) n (cellsRead r conds (State.readTaken rest s))) := by
  have cache : (cellsRead r conds (State.readTaken rest s)).cache = s.cache := by
    rw [← State.readRecord_read r conds (State.readTaken rest s) hu]
    exact (State.readRecord_accessed r conds (State.readTaken rest s)).spared.cache
  have kept : ({ cellsRead r conds (State.readTaken rest s) with cache := s.cache } : State) =
    cellsRead r conds (State.readTaken rest s) := by rw [← cache]
  rw [exec_localRead hq hs hw conds, State.takeRead_serves hr hv hb hu (.inl ⟨hn, rfl⟩), kept]

end

/-- A read whose cells are all CLEAN, for a key that has neither a VALID entry nor a fetch. -/
theorem localRead_clean (hclean : ∀ c ∈ s.store.recordConds r conds, c = .clean) (hn : s.cache.validNumber q.key = none)
    (hf : ∀ f ∈ s.fetches, f.key ≠ q.key) :
    (q.live = false → SlotsRest s → (s.slots.get q.slot).pass = none →
      exec (.localRead conds) s = .next { s with
        out := [], store := { s.store with reads := rest }
        cache := (s.cache.insert (s.store.imageOf r) .localStore).2 }) ∧
    (∀ p, q.live = true → (s.slots.get q.slot).pass = some p → p.wait = .reading →
      exec (.localRead conds) s = .next (State.settle { s with
        out := [], store := { s.store with reads := rest }
        cache := (s.cache.insert (s.store.imageOf r) .localStore).2.pin (s.cache.insert (s.store.imageOf r) .localStore).1
        slots := s.slots.put q.slot { s.slots.get q.slot with
          list := withY (some 0) ((s.slots.get q.slot).list.modify p.pos
            (resolveWith (s.cache.insert (s.store.imageOf r) .localStore).1 (s.store.imageOf r)))
          pass := some { p with pos := p.pos + 1, wait := .running } } })) := by
  have sound : .uncorrectable ∉ s.store.recordConds r conds := fun h => by simpa using hclean _ h
  have noFetch : ∀ f ∈ s.fetches, f.key ≠ (s.store.imageOf r).key := fun f h same => hf f h (same.trans (State.findRecord_key hr))
  have clean : cellsRead r conds (State.readTaken rest s) = State.readTaken rest s := State.cellsRead_clean hclean
  rw [localRead_inserts hq hs hw conds hr hv hb sound hn, clean]
  have entry : (s.cache.insert (s.store.imageOf r) .localStore).2.entry (s.cache.insert (s.store.imageOf r) .localStore).1 =
      some { key := (s.store.imageOf r).key, record := s.store.imageOf r, state := .valid, pins := 0, origin := .localStore } :=
    (Cache.entry_insert ..).trans (if_pos rfl)
  generalize s.cache.insert (s.store.imageOf r) .localStore = placed at entry ⊢
  obtain ⟨n, c⟩ := placed
  refine ⟨fun hl hrest hp => congrArg Host.Outcome.next ?_, fun p hl hp hwait => congrArg Host.Outcome.next ?_⟩
  · exact State.imageServed_rest (s := { State.readTaken rest s with cache := c }) hl noFetch hrest hp
  · have placed := State.imageServed_placed (s := { State.readTaken rest s with cache := c }) hl noFetch hp hwait entry
    exact placed

end

/-- Settles O39: the read by what its cells give and by its line, then the steps that it goes back to and the fetch that it cancels. -/
theorem localReadServesItsPlacement : Obligations.LocalReadServesItsPlacement := by
  refine ⟨fun conds s q rest hq hs hw => ⟨fun r hr hv hb hclean hn hf => localRead_clean hq hs hw conds hr hv hb hclean hn hf,
    fun p hno hl hp hwait ht hf => ?_, fun r p hr hv hb hl hst hp hwait => ⟨fun hu hn hcount => ?_, fun hu hc hm => ?_⟩,
    fun r image u hr hv hb himage hu => ⟨fun p hl hst hp hwait => ⟨fun hsound => ⟨fun n hn => ?_, fun n c hn hi => ?_⟩, fun hbad => ?_⟩,
      fun hl => ⟨fun hsound => ⟨fun n hn => ?_, fun n c hn hi => ?_⟩, fun hbad => ?_⟩⟩,
    fun hno => ⟨fun hl => ?_, fun p hl hp hwait => ?_, fun p pl k hl hp hwait hpl hk => ?_⟩⟩,
    fun i pos k s t ht => ?_, fun i n s => ⟨fun h => State.cancelFetch_none h n, fun f h => State.cancelFetch_some h n⟩⟩
  · exact (localRead_unheld hq hs hw conds hno).trans
      (congrArg Host.Outcome.next ((State.imageMissed_noTarget (s := State.readTaken rest s) hl hf ht hp hwait).trans rfl))
  · refine (localRead_inserts hq hs hw conds hr hv hb hu hn).trans (congrArg Host.Outcome.next ?_)
    rw [State.cellsRead_counted]
    · exact State.imageServed_reading hl hst hp hwait
    · exact hcount
  · have uncorrected : cellsRead r conds (State.readTaken rest s) = State.readTaken rest s := State.cellsRead_uncorrected hc
    have told : poisoned q.key r.bank (State.readTaken rest s) = noticed 0 (.poisoned q.key r.bank) _ := if_neg hm
    obtain ⟨-, -, -, -, -, slots⟩ := State.poisoned_leaves q.key r.bank (State.readTaken rest s)
    rw [localRead_poisons hq hs hw conds hr hv hb hu, uncorrected, State.imageMissed_reading hl (by rwa [slots]) hwait, told]
    rfl
  · subst himage hu
    exact (localRead_uses hq hs hw conds hr hv hb hsound hn).trans (congrArg Host.Outcome.next
      (State.imageServed_reading hl (by rwa [State.cellsRead_slots]) (by rwa [State.cellsRead_slots]) hwait))
  · subst himage hu
    refine (localRead_inserts hq hs hw conds hr hv hb hsound hn).trans (congrArg Host.Outcome.next ?_)
    rw [hi]
    refine State.imageServed_reading hl ?_ ?_ hwait
    · exact (congrArg (fun x : Slots => (x.get q.slot).state) (State.cellsRead_slots r conds _)).trans hst
    · exact (congrArg (fun x : Slots => (x.get q.slot).pass) (State.cellsRead_slots r conds _)).trans hp
  · subst himage hu
    obtain ⟨-, -, -, -, -, slots⟩ := State.poisoned_leaves q.key r.bank (cellsRead r conds (State.readTaken rest s))
    refine (localRead_poisons hq hs hw conds hr hv hb hbad).trans (congrArg Host.Outcome.next ?_)
    exact State.imageMissed_reading hl (by rwa [slots, State.cellsRead_slots]) hwait
  · subst himage hu
    exact (localRead_uses hq hs hw conds hr hv hb hsound hn).trans (congrArg Host.Outcome.next (State.imageServed_gone hl))
  · subst himage hu
    refine (localRead_inserts hq hs hw conds hr hv hb hsound hn).trans (congrArg Host.Outcome.next ?_)
    rw [hi]
    exact State.imageServed_gone hl
  · subst himage hu
    exact (localRead_poisons hq hs hw conds hr hv hb hbad).trans (congrArg Host.Outcome.next (State.imageMissed_gone hl))
  · exact (localRead_unheld hq hs hw conds hno).trans (congrArg Host.Outcome.next (State.imageMissed_gone hl))
  · exact (localRead_unheld hq hs hw conds hno).trans
      (congrArg Host.Outcome.next (State.imageMissed_reading (s := State.readTaken rest s) hl hp hwait))
  · exact (localRead_unheld hq hs hw conds hno).trans
      (congrArg Host.Outcome.next ((State.imageMissed_held (s := State.readTaken rest s) hl hp hwait hpl hk).trans rfl))
  · subst ht
    refine ⟨fun h => State.thirdStep_present h, fun hno => ⟨fun ht => ?_, fun u hu => ⟨fun hn => State.thirdStep_full hno hu hn,
        fun hn hc => ?_, fun n hn hc => ?_⟩⟩, fun n e he => State.resolveAt_eq he, fun n hn => State.visit_held hn,
      fun hn => ⟨fun hs => ⟨fun hr => ?_, fun hr => ?_⟩, fun hs => ?_⟩, State.requestHeld_none,
      fun p pl hp hw hpl hk => State.requestHeld_requests hp hw hpl hk⟩
    · exact (State.thirdStep_noTarget hno ht).trans (by cases i <;> rfl)
    · exact (State.thirdStep_room hno hu hn).trans ((State.fetchFor_created hc).trans rfl)
    · exact (State.thirdStep_room hno hu hn).trans (State.fetchFor_held hc)
    · exact ((State.visit_stored hn (State.storeHolds_iff.2 hs)).trans (State.secondStep_requests hr)).trans rfl
    · exact ((State.visit_stored hn (State.storeHolds_iff.2 hs)).trans (State.secondStep_held hr)).trans rfl
    · exact State.visit_third hn (not_storeHolds (findRecord_cases hs))

end Sys2Proof.Machine
end

section
/-! SUPPORT. Lines (R4, R13, R14): the request of a LINE frame in form. -/

namespace Sys2Proof.Machine

theorem modeOf_isSome {n : Nat} : (modeOf n).isSome ↔ n ≤ 3 := by
  rcases n with _ | _ | _ | _ | n <;> simp [modeOf]

theorem dirOf_isSome {n : Nat} : (dirOf n).isSome ↔ n ≤ 1 := by
  rcases n with _ | _ | n <;> simp [dirOf]

theorem runOf_some {r : RunFrame} {x : Run} : runOf r = some x ↔
    (r.table ≤ 15 ∧ 8 ≤ r.size ∧ r.size ≤ 240 ∧ 1 ≤ r.codes.length ∧ r.codes.length ≤ 120) ∧
      dirOf r.dir = some x.dir ∧ x = { table := r.table, dir := x.dir, face := r.face, size := r.size, codes := r.codes } := by
  unfold runOf
  cases hd : dirOf r.dir with
  | none => simp
  | some d =>
    have range : (decide (r.table < 16) && decide (8 ≤ r.size) && decide (r.size ≤ 240) && decide (1 ≤ r.codes.length) &&
        decide (r.codes.length ≤ 120)) = true ↔
        r.table ≤ 15 ∧ 8 ≤ r.size ∧ r.size ≤ 240 ∧ 1 ≤ r.codes.length ∧ r.codes.length ≤ 120 := by
      simp [Nat.lt_succ_iff, and_assoc]
    simp only [range, Option.ite_none_right_eq_some, Option.some.injEq]
    refine and_congr_right fun _ => ⟨?_, ?_⟩
    · rintro rfl
      exact ⟨rfl, rfl⟩
    · rintro ⟨rfl, hx⟩
      exact hx.symm

theorem allSome_cons {α β : Type} {f : α → Option β} {x : α} {xs : List α} {ys : List β} :
    allSome f (x :: xs) = some ys ↔ ∃ z zs, f x = some z ∧ allSome f xs = some zs ∧ ys = z :: zs := by
  cases hx : f x with
  | none => simp [allSome, hx]
  | some y =>
    cases hxs : allSome f xs with
    | none => simp [allSome, hx, hxs]
    | some zs => simp [allSome, hx, hxs, eq_comm]

theorem allSome_each {α β : Type} {f : α → Option β} {xs : List α} {ys : List β} (h : allSome f xs = some ys) :
    ∀ x ∈ xs, ∃ y, f x = some y := by
  induction xs generalizing ys with
  | nil => exact fun x hx => absurd hx List.not_mem_nil
  | cons x xs ih =>
    obtain ⟨z, zs, hz, hzs, -⟩ := allSome_cons.1 h
    exact List.forall_mem_cons.2 ⟨⟨z, hz⟩, ih hzs⟩

theorem allSome_exists {α β : Type} {f : α → Option β} {xs : List α} (h : ∀ x ∈ xs, ∃ y, f x = some y) :
    ∃ ys, allSome f xs = some ys := by
  induction xs with
  | nil => exact ⟨[], rfl⟩
  | cons x xs ih =>
    obtain ⟨y, hy⟩ := h x (.head _)
    obtain ⟨ys, hys⟩ := ih fun z hz => h z (.tail _ hz)
    exact ⟨y :: ys, by simp [allSome, hy, hys]⟩

/-- The runs of a request have the fields of the frame's runs. -/
theorem runs_fields {rs : List RunFrame} {xs : List Run} (h : allSome runOf rs = some xs) :
    xs.map (fun r => (r.table, some r.dir, r.face, r.size, r.codes)) =
      rs.map (fun r => (r.table, dirOf r.dir, r.face, r.size, r.codes)) := by
  induction rs generalizing xs with
  | nil =>
    obtain rfl : [] = xs := Option.some.inj h
    rfl
  | cons r rs ih =>
    obtain ⟨z, zs, hr, hrs, rfl⟩ := allSome_cons.1 h
    obtain ⟨-, hd, hx⟩ := runOf_some.1 hr
    rw [List.map_cons, List.map_cons, ih hrs, hx, hd]

theorem runOf_exists {r : RunFrame} : (∃ x, runOf r = some x) ↔
    r.table ≤ 15 ∧ r.dir ≤ 1 ∧ 8 ≤ r.size ∧ r.size ≤ 240 ∧ 1 ≤ r.codes.length ∧ r.codes.length ≤ 120 := by
  constructor
  · rintro ⟨x, hx⟩
    obtain ⟨⟨table, range⟩, hd, -⟩ := runOf_some.1 hx
    exact ⟨table, dirOf_isSome.1 (by simp [hd]), range⟩
  · rintro ⟨table, dir, range⟩
    obtain ⟨d, hd⟩ := Option.isSome_iff_exists.1 (dirOf_isSome.2 dir)
    exact ⟨{ table := r.table, dir := d, face := r.face, size := r.size, codes := r.codes }, runOf_some.2 ⟨⟨table, range⟩, hd, rfl⟩⟩

theorem request_range (l : LineFrame) : (1 ≤ l.measure && l.measure ≤ 32767 && 1 ≤ l.leading && l.leading ≤ 4095 && l.squeeze ≤ 15
      && 1 ≤ l.runs.length && l.runs.length ≤ 8 && (l.runs.map fun r => r.codes.length).sum ≤ 120 : Bool) = true ↔
    1 ≤ l.measure ∧ l.measure ≤ 32767 ∧ 1 ≤ l.leading ∧ l.leading ≤ 4095 ∧ l.squeeze ≤ 15 ∧
      1 ≤ l.runs.length ∧ l.runs.length ≤ 8 ∧ (l.runs.map fun r => r.codes.length).sum ≤ 120 := by
  simp [and_assoc]

/-- A LINE in form has its request. -/
theorem requestOf_inForm {l : LineFrame} (h : LineInForm l) (src : Nat) : ∃ m d rs, modeOf l.mode = some m ∧
    dirOf l.baseDir = some d ∧ allSome runOf l.runs = some rs ∧ requestOf src l = some
      ({ number := l.number, requester := src, measure := l.measure, leading := l.leading, mode := m, baseDir := d
         squeeze := l.squeeze }, rs) := by
  obtain ⟨hm1, hm2, hl1, hl2, hmode, hdir, hsq, hr1, hr2, hsum, hruns⟩ := h
  obtain ⟨m, hm⟩ := Option.isSome_iff_exists.1 (modeOf_isSome.2 hmode)
  obtain ⟨d, hd⟩ := Option.isSome_iff_exists.1 (dirOf_isSome.2 hdir)
  obtain ⟨rs, hrs⟩ := allSome_exists fun r hr => runOf_exists.2 (hruns r hr)
  refine ⟨m, d, rs, hm, hd, hrs, ?_⟩
  simp only [requestOf, hm, hd, hrs, (request_range l).2 ⟨hm1, hm2, hl1, hl2, hsq, hr1, hr2, hsum⟩, if_true]

theorem inForm_of_requestOf {l : LineFrame} {src : Nat} {q : LineHeader × List Run} (h : requestOf src l = some q) : LineInForm l := by
  unfold requestOf at h
  split at h
  · rename_i m d rs hm hd hrs
    rw [Option.ite_none_right_eq_some] at h
    obtain ⟨hm1, hm2, hl1, hl2, hsq, hr1, hr2, hsum⟩ := (request_range l).1 h.1
    refine ⟨hm1, hm2, hl1, hl2, modeOf_isSome.1 (by simp [hm]), dirOf_isSome.1 (by simp [hd]), hsq, hr1, hr2, hsum, fun r hr => ?_⟩
    exact runOf_exists.1 (allSome_each hrs r hr)
  · simp at h

namespace State

theorem acceptsLine_iff {h : Hdr} {s : State} : s.acceptsLine h = true ↔
    s.straps.head = true ∧ s.seq.page = .opened ∧ s.seq.owner = some h.src ∧ s.lines.length < 6 ∧ h.dst ≠ 0 := by
  have room : decide (s.lines.length < Config.queueCapacity) = true ↔ s.lines.length < 6 := decide_eq_true_iff
  simp only [acceptsLine, Bool.and_eq_true, room, beq_iff_eq, bne_iff_ne, and_assoc]

theorem takeLine_accepted {h : Hdr} {l : LineFrame} {s : State} {q : LineHeader × List Run} (hq : requestOf h.src l = some q)
    (ha : s.acceptsLine h = true) :
    s.takeLine h l = ({ s with lines := s.lines ++ [{ header := q.1, runs := q.2, mark := none }] }, true) := by
  simp only [takeLine, hq, ha, if_true]
  rfl

theorem takeLine_refused {h : Hdr} {l : LineFrame} {s : State} (hn : ¬(LineInForm l ∧ s.acceptsLine h = true)) :
    s.takeLine h l = (s, false) := by
  unfold takeLine
  split
  · rename_i q hq
    exact if_neg fun ha => hn ⟨inForm_of_requestOf hq, ha⟩
  · rfl

end State

/-- Settles O42: a line in form has its request, and a line that has one is in form. -/
theorem lineIsAcceptedByTheOwnersPage : Obligations.LineIsAcceptedByTheOwnersPage := by
  refine fun h l s ha => ⟨fun ⟨hform, hpage⟩ => ?_, fun hn => ?_⟩
  · obtain ⟨m, d, rs, hm, hd, hrs, hq⟩ := requestOf_inForm hform h.src
    refine ⟨{ header :=
        { number := l.number, requester := h.src, measure := l.measure, leading := l.leading, mode := m, baseDir := d
          squeeze := l.squeeze }, runs := rs, mark := none }, congrArg Host.Outcome.next ?_, rfl, rfl, rfl, rfl, rfl, rfl, hm, hd,
      runs_fields hrs⟩
    have accepted := State.takeLine_accepted (s := arrived h s) hq (State.acceptsLine_iff.2 hpage)
    rw [State.receive_plain ha rfl, accepted]
    rfl
  · refine congrArg Host.Outcome.next ?_
    have refused : State.takeLine h l (arrived h s) = (arrived h s, false) :=
      State.takeLine_refused fun ⟨hform, hpage⟩ => hn ⟨hform, State.acceptsLine_iff.1 hpage⟩
    rw [State.receive_plain ha rfl, refused]

end Sys2Proof.Machine
end

section
/-! SUPPORT. The line take and the steps of shaping (R16, R28 to R37). -/

namespace Sys2Proof.Machine

/-! ## The line take -/

namespace State

theorem namesLoading_iff {e : QueueEntry} {s : State} :
    s.namesLoading e = true ↔ ∃ r ∈ e.runs, (s.tables.getD r.table .blank).state = .loading := by
  simp [namesLoading]

theorem emptySlot_some {i : SlotId} {s : State} (h : i = .zero ∧ s.slots.slot0.state = .empty ∨
    i = .one ∧ s.slots.slot0.state ≠ .empty ∧ s.slots.slot1.state = .empty) : s.emptySlot = some i := by
  rcases h with ⟨rfl, h0⟩ | ⟨rfl, h0, h1⟩
  · exact if_pos h0
  · exact (if_neg h0).trans (if_pos h1)

end State

theorem exec_lineTake_takes {s : State} {i : SlotId} {e : QueueEntry} (hi : s.emptySlot = some i) (he : s.queueHead = some e)
    (hd : s.dir.state = .operational) (hl : ¬s.namesLoading e = true) : exec .lineTake s = .next (s.fresh.slotTakes i e) := by
  have slot : s.fresh.emptySlot = some i := hi
  have head : s.fresh.queueHead = some e := he
  have due : s.fresh.dir.state = .operational ∧ (!s.fresh.namesLoading e) = true := ⟨hd, Bool.eq_false_iff.2 hl ▸ rfl⟩
  change execLineTake s = _
  simp only [execLineTake, slot, head, if_pos due]

theorem exec_lineTake_waits {s : State} {e : QueueEntry} (he : s.queueHead = some e)
    (hn : s.dir.state ≠ .operational ∨ s.namesLoading e = true) : exec .lineTake s = .next (unchanged s) := by
  have head : s.fresh.queueHead = some e := he
  have waits : ¬(s.fresh.dir.state = .operational ∧ (!s.fresh.namesLoading e) = true) := by
    rintro ⟨hd, hl⟩
    refine hn.elim (· hd) fun h => ?_
    have loading : s.fresh.namesLoading e = true := h
    exact absurd hl (by rw [loading]; decide)
  change execLineTake s = _
  cases hs : s.fresh.emptySlot with
  | none =>
    simp only [execLineTake, hs]
    rfl
  | some i =>
    simp only [execLineTake, head, hs, if_neg waits]
    rfl

/-! ## Codes and forms (R28 to R30) -/

theorem lookupCode_space {t : ScriptTable} {code : Nat} (ht : t.state = .complete) (hc : code = t.spaceCode) :
    lookupCode t code = .space := (if_pos ht).trans (if_pos hc)

theorem lookupCode_covered {t : ScriptTable} {code : Nat} {e : CodeEntry} (ht : t.state = .complete) (hc : code ≠ t.spaceCode)
    (hl : t.codeBase ≤ code) (hu : code < t.codeBase + t.codeCount) (he : t.entries[code - t.codeBase]? = some e) :
    lookupCode t code = .covered e := by
  have counted : code - t.codeBase < t.codeCount := by omega
  simp only [lookupCode, if_pos ht, if_neg hc, if_pos hl, if_pos counted, he]

theorem lookupCode_uncovered {t : ScriptTable} {code : Nat} (h : t.state ≠ .complete ∨
    (code ≠ t.spaceCode ∧ (code < t.codeBase ∨ t.codeBase + t.codeCount ≤ code))) : lookupCode t code = .uncovered := by
  by_cases ht : t.state = .complete
  · obtain ⟨hc, hr⟩ := h.resolve_left (not_not_intro ht)
    by_cases hl : t.codeBase ≤ code
    · have beyond : ¬code - t.codeBase < t.codeCount := by omega
      simp only [lookupCode, if_pos ht, if_neg hc, if_pos hl, if_neg beyond]
    · simp only [lookupCode, if_pos ht, if_neg hc, if_neg hl]
  · exact if_neg ht

/-- The class of the next code joins before when the nearest code after, marks passed over, is DUAL or RIGHT. -/
theorem nextJoins_nextClass (ks : List CodeKind) : nextJoins (nextClass ks) =
    ((ks.find? fun x => x.cls != .mark).any fun x => x.cls == .dual || x.cls == .right) := by
  induction ks with
  | nil => rfl
  | cons k ks ih =>
    unfold nextClass
    by_cases hk : k.cls = .mark
    · simp [hk, ih]
    · simp [hk, nextJoins]

/-- A code as it stands after form choice. -/
def formOf (before after : Bool) : CodeKind → Shaped
  | .space => .space
  | .uncovered => .uncovered
  | .covered e => if e.cls = .mark then .mark e.isolated else .glyph (chosenForm e before after)

theorem chooseForms_cons (prev : Bool) (k : CodeKind) (ks : List CodeKind) : chooseForms prev (k :: ks) =
    formOf prev (nextJoins (nextClass ks)) k :: chooseForms (if k.cls = .mark then prev else k.cls == .dual) ks := by
  cases k with
  | space => rfl
  | uncovered => rfl
  | covered e => by_cases he : e.cls = .mark <;> simp [chooseForms, formOf, CodeKind.cls, he]

/-- The form at a position, when the code before the list is DUAL as `prev` says. -/
theorem chooseForms_getElem? (prev : Bool) (ks : List CodeKind) (j : Nat) : (chooseForms prev ks)[j]? =
    ks[j]?.map (formOf (((ks.take j).reverse.find? fun x => x.cls != .mark).elim prev fun x => x.cls == .dual)
      (nextJoins (nextClass (ks.drop (j + 1))))) := by
  induction ks generalizing prev j with
  | nil => rfl
  | cons k ks ih =>
    rw [chooseForms_cons]
    cases j with
    | zero => rfl
    | succ j =>
      simp only [List.getElem?_cons_succ, ih, List.take_succ_cons, List.reverse_cons, List.find?_append, List.drop_succ_cons]
      by_cases hk : k.cls = .mark <;> cases ((ks.take j).reverse.find? fun x => x.cls != .mark) <;> simp [hk]

theorem formOf_eq (before after : Bool) (k : CodeKind) : formOf before after k = match k with
    | .space => .space
    | .uncovered => .uncovered
    | .covered e =>
      match e.cls, before, after with
      | .mark, _, _ => .mark e.isolated
      | .none, _, _ | .right, false, _ | .dual, false, false => .glyph e.isolated
      | .right, true, _ | .dual, true, false => .glyph e.final
      | .dual, false, true => .glyph e.initial
      | .dual, true, true => .glyph e.medial := by
  cases k with
  | space => rfl
  | uncovered => rfl
  | covered e => cases he : e.cls <;> cases before <;> cases after <;> simp [formOf, chosenForm, he]

/-! ## Ligatures (R31) -/

theorem ligatureOf_first {t : ScriptTable} {a b n : Nat} {l : LigEntry} (hn : t.ligatures[n]? = some l) (ha : l.first = a)
    (hb : l.second = b)
    (hf : ∀ (m : Nat) (l' : LigEntry), m < n → t.ligatures[m]? = some l' → l'.first ≠ a ∨ l'.second ≠ b) :
    ligatureOf t a b = some l.ligature := by
  obtain ⟨hlt, rfl⟩ := List.getElem?_eq_some_iff.1 hn
  have found : t.ligatures.find? (fun l => l.first == a && l.second == b) = some t.ligatures[n] := by
    refine List.find?_eq_some_iff_getElem.2 ⟨by simp [ha, hb], n, hlt, rfl, fun m hm => ?_⟩
    have other := hf m _ hm (List.getElem?_eq_getElem (Nat.lt_trans hm hlt))
    simpa [Classical.not_and_iff_not_or_not] using other
  rw [ligatureOf, found, Option.map_some]

theorem ligatureOf_none {t : ScriptTable} {a b : Nat} (h : ∀ l ∈ t.ligatures, l.first ≠ a ∨ l.second ≠ b) : ligatureOf t a b = none := by
  have absent : t.ligatures.find? (fun l => l.first == a && l.second == b) = none :=
    List.find?_eq_none.2 fun l hl => by simpa [Decidable.imp_iff_not_or] using h l hl
  rw [ligatureOf, absent, Option.map_none]

section
variable {t : ScriptTable} {a b : Nat} {rest : List Shaped}

theorem formLigatures_pair {g : Nat} (h : ligatureOf t a b = some g) :
    formLigatures t (.glyph a :: .glyph b :: rest) = .ligature g :: formLigatures t rest := by
  rw [formLigatures, h]

theorem formLigatures_apart (h : ligatureOf t a b = none) :
    formLigatures t (.glyph a :: .glyph b :: rest) = .glyph a :: formLigatures t (.glyph b :: rest) := by
  rw [formLigatures, h]

theorem formLigatures_other {x y : Shaped} (h : (∀ g, x ≠ .glyph g) ∨ (∀ g, y ≠ .glyph g)) :
    formLigatures t (x :: y :: rest) = x.formed :: formLigatures t (y :: rest) := by
  rw [formLigatures]
  rintro a b rfl rfl
  exact h.elim (· a rfl) (· b rfl)

end

/-! ## Clusters (R32, R33) -/

/-- A list that begins with no mark closes the open cluster. -/
theorem attachMarks_closes {c : ProtoCluster} {rest : List Formed} (h : ∀ i r, rest ≠ .mark i :: r) :
    attachMarks (some c) rest = { attachMarks none rest with clusters := c :: (attachMarks none rest).clusters } := by
  cases rest with
  | nil => rfl
  | cons f r =>
    cases f with
    | mark i => exact absurd rfl (h i r)
    | space => rfl
    | uncovered => rfl
    | glyph i => rfl
    | ligature i => rfl

/-- Marks join the open cluster up to its third, and those beyond are dropped. -/
theorem attachMarks_marks {rest : List Formed} (h : ∀ i r, rest ≠ .mark i :: r) (ms : List Nat) (c : ProtoCluster)
    (hc : c.marks.length ≤ 3) : attachMarks (some c) (ms.map Formed.mark ++ rest) =
      { clusters := { c with marks := (c.marks ++ ms).take 3 } :: (attachMarks none rest).clusters
        uncovered := (attachMarks none rest).uncovered
        overflow := decide (3 < (c.marks ++ ms).length) || (attachMarks none rest).overflow } := by
  induction ms generalizing c with
  | nil =>
    have few : ¬3 < c.marks.length := Nat.not_lt.2 hc
    simp [attachMarks_closes h, List.take_of_length_le hc, few]
  | cons i ms ih =>
    rw [List.map_cons, List.cons_append, attachMarks]
    by_cases hr : c.marks.length < 3
    · rw [if_pos hr, ih _ (by rw [List.length_append]; exact hr)]
      simp
    · have full : c.marks.length = 3 := by omega
      rw [if_neg hr, ih c hc]
      simp [full]

/-- The cluster that a code begins: a mark without a base begins a SUBSTITUTE. -/
def clusterOf : Formed → ProtoCluster
  | .glyph i => { role := .base, index := some i, marks := [] }
  | .ligature i => { role := .ligature, index := some i, marks := [] }
  | .space => { role := .space, index := none, marks := [] }
  | .uncovered | .mark _ => { role := .substitute, index := none, marks := [] }

theorem attachMarks_base {f : Formed} {rest : List Formed} (hf : ∀ i, f ≠ .mark i) (h : ∀ i r, rest ≠ .mark i :: r) (ms : List Nat) :
    attachMarks none (f :: (ms.map Formed.mark ++ rest)) =
      { clusters := { clusterOf f with marks := ms.take 3 } :: (attachMarks none rest).clusters
        uncovered := f == .uncovered || (attachMarks none rest).uncovered
        overflow := decide (3 < ms.length) || (attachMarks none rest).overflow } := by
  have joined := attachMarks_marks h ms (clusterOf f) (by cases f <;> exact Nat.zero_le 3)
  have bare : (clusterOf f).marks = [] := by cases f <;> rfl
  rw [bare, List.nil_append] at joined
  cases f with
  | mark i => exact absurd rfl (hf i)
  | space => exact joined.trans rfl
  | glyph i => exact joined.trans rfl
  | ligature i => exact joined.trans rfl
  | uncovered => exact congrArg (fun a : Attached => { a with uncovered := true }) joined

theorem attachMarks_baseless {rest : List Formed} (h : ∀ i r, rest ≠ .mark i :: r) (ms : List Nat) (i : Nat) :
    attachMarks none (.mark i :: (ms.map Formed.mark ++ rest)) =
      { clusters := { role := .substitute, index := none, marks := ms.take 3 } :: (attachMarks none rest).clusters
        uncovered := true, overflow := decide (3 < ms.length) || (attachMarks none rest).overflow } :=
  congrArg (fun a : Attached => { a with uncovered := true })
    (attachMarks_marks h ms { role := .substitute, index := none, marks := [] } (Nat.zero_le 3))

theorem numberClusters_mapIdx (t : ScriptTable) (face size n : Nat) (cs : List ProtoCluster) :
    numberClusters t face size n cs = cs.mapIdx fun j x => clusterPlacements t face size (n + j) x := by
  induction cs generalizing n with
  | nil => rfl
  | cons c cs ih =>
    rw [numberClusters, ih, List.mapIdx_cons]
    simp [Nat.add_comm, Nat.add_left_comm]

theorem clusterPlacements_eq (t : ScriptTable) (face size n : Nat) (c : ProtoCluster) : clusterPlacements t face size n c =
    (match c.role with
      | .space => newPlacement n size .space none .resolved (some (advanceAt t.spaceWidth size))
      | .base => newPlacement n size .base (c.index.map fun i => { face := face, index := i }) .unresolved none
      | .ligature => newPlacement n size .ligature (c.index.map fun i => { face := face, index := i }) .unresolved none
      | .substitute | .mark => newPlacement n size .substitute none .substituted (some (5 * size))) ::
    c.marks.map fun i => newPlacement n size .mark (some { face := face, index := i }) .unresolved none := by
  unfold clusterPlacements basePlacement
  cases c.role <;> rfl

/-! ## The visual order (R34) -/

theorem groupRuns_cons (r : LaidRun) (rs : List LaidRun) : groupRuns (r :: rs) = match groupRuns rs with
    | [] => [[r]]
    | [] :: gs => [r] :: gs
    | (x :: g) :: gs => if x.dir = r.dir then (r :: x :: g) :: gs else [r] :: (x :: g) :: gs := rfl

/-- Each group has another direction than the next one. -/
def GroupsApart (gs : List (List LaidRun)) : Prop :=
  ∀ (j : Nat) (g g' : List LaidRun), gs[j]? = some g → gs[j + 1]? = some g' → ∀ a ∈ g, ∀ b ∈ g', a.dir ≠ b.dir

theorem groupsApart_short {gs : List (List LaidRun)} (h : gs.length ≤ 1) : GroupsApart gs := by
  intro j g g' _ hg'
  obtain ⟨hlt, -⟩ := List.getElem?_eq_some_iff.1 hg'
  omega

theorem groupsApart_cons {g g' : List LaidRun} {gs : List (List LaidRun)} :
    GroupsApart (g :: g' :: gs) ↔ (∀ a ∈ g, ∀ b ∈ g', a.dir ≠ b.dir) ∧ GroupsApart (g' :: gs) := by
  constructor
  · exact fun h => ⟨h 0 g g' rfl rfl, fun j x y hx hy => h (j + 1) x y hx hy⟩
  · rintro ⟨first, later⟩ j x y hx hy
    cases j with
    | zero =>
      obtain rfl : g = x := Option.some.inj hx
      obtain rfl : g' = y := Option.some.inj hy
      exact first
    | succ j => exact later j x y hx hy

/-- The groups are those of consecutive runs of one direction, none of them empty. -/
theorem groupRuns_groups (runs : List LaidRun) :
    (groupRuns runs).flatten = runs ∧ (∀ g ∈ groupRuns runs, g ≠ [] ∧ ∀ a ∈ g, ∀ b ∈ g, a.dir = b.dir) ∧
      GroupsApart (groupRuns runs) := by
  induction runs with
  | nil => exact ⟨rfl, by simp [groupRuns], groupsApart_short (Nat.zero_le _)⟩
  | cons r rs ih =>
    obtain ⟨whole, alike, apart⟩ := ih
    rw [groupRuns_cons]
    cases hg : groupRuns rs with
    | nil =>
      rw [hg] at whole
      exact ⟨by simp [← whole], by simp, groupsApart_short (Nat.le_refl _)⟩
    | cons g gs =>
      rw [hg] at whole alike apart
      cases g with
      | nil => exact absurd rfl (alike [] (.head _)).1
      | cons x g =>
        have same : ∀ a ∈ x :: g, a.dir = x.dir := fun a ha => (alike _ (.head _)).2 a ha x (.head _)
        by_cases hx : x.dir = r.dir
        · simp only [if_pos hx]
          have joined : ∀ a ∈ r :: x :: g, a.dir = r.dir := List.forall_mem_cons.2 ⟨rfl, fun a ha => (same a ha).trans hx⟩
          refine ⟨by simp [← whole], List.forall_mem_cons.2 ⟨⟨by simp, fun a ha b hb => (joined a ha).trans (joined b hb).symm⟩,
            fun g' hg' => alike g' (.tail _ hg')⟩, ?_⟩
          cases gs with
          | nil => exact groupsApart_short (Nat.le_refl _)
          | cons g' gs =>
            obtain ⟨first, chain⟩ := groupsApart_cons.1 apart
            exact groupsApart_cons.2 ⟨fun a ha b hb => (joined a ha).trans hx.symm ▸ first x (.head _) b hb, chain⟩
        · simp only [if_neg hx]
          refine ⟨by simp [← whole], List.forall_mem_cons.2 ⟨by simp, alike⟩, groupsApart_cons.2 ⟨fun a ha b hb => ?_, apart⟩⟩
          rw [List.mem_singleton.1 ha, same b hb]
          exact Ne.symm hx

theorem orderGroup_eq {base : Dir} {g : List LaidRun} (h : ∀ a ∈ g, ∀ b ∈ g, a.dir = b.dir) :
    orderGroup base g = if ∀ r ∈ g, r.dir = base then g else g.reverse := by
  cases g with
  | nil => rfl
  | cons r g =>
    have all : r.dir = base ↔ ∀ x ∈ r :: g, x.dir = base :=
      ⟨fun hr x hx => (h x hx r (.head _)).trans hr, fun ha => ha r (.head _)⟩
    exact ite_of_iff all rfl rfl

theorem layoutLine_eq (base : Dir) (runs : List LaidRun) (gs : List (List LaidRun))
    (hgs : gs = (groupRuns runs).map fun g => if ∀ r ∈ g, r.dir = base then g else g.reverse) :
    layoutLine base runs = (((if base = .rtl then gs.reverse else gs).flatten.map fun r =>
      if r.dir = .rtl then r.clusters.reverse else r.clusters).flatten).flatten := by
  have ordered : (groupRuns runs).map (orderGroup base) = gs :=
    hgs ▸ List.map_congr_left fun g hg => orderGroup_eq ((groupRuns_groups runs).2.1 g hg).2
  have run : orderRun = fun r : LaidRun => if r.dir = .rtl then r.clusters.reverse else r.clusters := by
    funext r
    cases hr : r.dir <;> simp [orderRun, hr]
  unfold layoutLine
  rw [ordered, run]
  cases base <;> rfl

/-- Settles O43: the take by what it waits on, then each step of shaping. -/
theorem lineTakeShapesTheHeadOfTheQueue : Obligations.LineTakeShapesTheHeadOfTheQueue := by
  refine ⟨fun s e he => ⟨fun i hd hl hi => ?_, fun hn => exec_lineTake_waits he (hn.imp_right State.namesLoading_iff.2)⟩,
    fun t code => ⟨lookupCode_space, fun e ht hc hl hu he => lookupCode_covered ht hc hl hu he, lookupCode_uncovered⟩,
    fun ks j k before after hk hb ha => ?_,
    fun t a b x y rest => ⟨fun n l hn ha hb hf => formLigatures_pair (ligatureOf_first hn ha hb hf),
      fun h => formLigatures_apart (ligatureOf_none h), formLigatures_other, rfl, rfl⟩,
    fun f ms rest hf h => ⟨(attachMarks_base hf h ms).trans (by cases f <;> rfl), attachMarks_baseless h ms⟩,
    fun tables t n face size r rs c ht => ⟨?_, ht ▸ rfl, rfl, clusterPlacements_eq t face size n c⟩,
    fun tables noDirectory base runs => rfl, fun base runs => ?_⟩
  · have free : ¬s.namesLoading e = true := fun h => by
      obtain ⟨r, hr, hx⟩ := State.namesLoading_iff.1 h
      exact hl r hr hx
    exact (exec_lineTake_takes (State.emptySlot_some hi) he hd free).trans rfl
  · rw [chooseForms_getElem?, hk, Option.map_some, formOf_eq, nextJoins_nextClass, ha, hb]
    cases (ks.take j).reverse.find? fun x => x.cls != .mark <;> rfl
  · subst ht
    exact congrArg (fun cs => ({ dir := r.dir, clusters := cs } : LaidRun) :: _) (numberClusters_mapIdx _ _ _ _ _)
  · obtain ⟨whole, alike, apart⟩ := groupRuns_groups runs
    refine ⟨whole, alike, fun j g g' hj hj' => ?_, layoutLine_eq base runs⟩
    exact apart j g g' hj hj'

end Sys2Proof.Machine
end

section
/-! SUPPORT. The arithmetic of measurement: rounding, the squeeze, the additions of JUSTIFY, and positions (R5, R6, R12, R48 to R53). -/

namespace Sys2Proof.Machine

theorem advanceAt_rounds (w size : Nat) : 100 * advanceAt w size ≤ w * size + 50 ∧ w * size + 50 < 100 * (advanceAt w size + 1) := by
  unfold advanceAt
  omega

theorem offsetAt_rounds {v : Int} (hv : 0 ≤ v) (size : Nat) :
    100 * offsetAt v size ≤ v * size + 50 ∧ v * size + 50 < 100 * (offsetAt v size + 1) := by
  obtain ⟨w, rfl⟩ := Int.eq_ofNat_of_zero_le hv
  have rounds := advanceAt_rounds w size
  have offset : offsetAt w size = advanceAt w size := if_pos hv
  rw [offset]
  exact_mod_cast rounds

theorem offsetAt_negative {v : Int} (hv : v < 0) (size : Nat) : offsetAt v size = -offsetAt (-v) size := by
  have positive : 0 ≤ -v := by omega
  simp only [offsetAt, if_neg (Int.not_le.2 hv), if_pos positive, Int.natAbs_neg]

/-! ## The squeeze (R49) -/

/-- Each gap up to the limit that the rounds allow it: one more round for the gaps before place `j`. -/
def reducedTo (rounds j : Nat) (limits : List Nat) : List (Nat × Nat) :=
  limits.mapIdx fun k l => (l, min l (if k < j then rounds + 1 else rounds))

theorem reducedTo_cons (rounds j l : Nat) (ls : List Nat) : reducedTo rounds j (l :: ls) =
    (l, min l (if 0 < j then rounds + 1 else rounds)) :: reducedTo rounds (j - 1) ls := by
  have place (k : Nat) : k + 1 < j ↔ k < j - 1 := by omega
  simp only [reducedTo, List.mapIdx_cons, place]

theorem reducedTo_none (rounds : Nat) (ls : List Nat) : reducedTo rounds 0 ls = ls.map fun l => (l, min l rounds) :=
  List.ext_getElem? fun k => by simp [reducedTo]

theorem reducedTo_limits (rounds j : Nat) (ls : List Nat) : ∀ g ∈ reducedTo rounds j ls, g.2 ≤ g.1 := by
  intro g hg
  obtain ⟨k, hk, rfl⟩ := List.mem_mapIdx.1 hg
  exact Nat.min_le_left _ _

/-- A round reduces the gaps from the left, as far as the excess goes. -/
theorem squeezeRound_reduces (e rounds : Nat) (ls : List Nat) :
    ∃ j, (squeezeRound e (reducedTo rounds 0 ls)).2 = reducedTo rounds j ls := by
  induction ls generalizing e with
  | nil => exact ⟨0, rfl⟩
  | cons l ls ih =>
    rcases Nat.eq_zero_or_pos e with rfl | he
    · exact ⟨0, by rw [squeezeRound_zero]⟩
    · rw [reducedTo_cons]
      simp only [squeezeRound, Nat.zero_sub, Nat.lt_irrefl, if_false, he, decide_true, Bool.true_and, decide_eq_true_eq]
      split
      · obtain ⟨j, hj⟩ := ih (e - 1)
        refine ⟨j + 1, ?_⟩
        simp only [reducedTo_cons, hj, Nat.add_sub_cancel, Nat.succ_pos, if_true]
        congr 2
        omega
      · obtain ⟨j, hj⟩ := ih e
        refine ⟨j + 1, ?_⟩
        simp only [reducedTo_cons, hj, Nat.add_sub_cancel, Nat.succ_pos, if_true]
        congr 2
        omega

/-- An excess within the capacity is spent when the rounds reach every limit. -/
theorem squeezeRounds_spend (n e r : Nat) (ls : List Nat) (hl : ∀ l ∈ ls, l ≤ r + n)
    (he : e + ((reducedTo r 0 ls).map (·.2)).sum ≤ ls.sum) :
    ∃ rounds j, squeezeRounds n e (reducedTo r 0 ls) = reducedTo rounds j ls ∧
      ((reducedTo rounds j ls).map (·.2)).sum = e + ((reducedTo r 0 ls).map (·.2)).sum := by
  induction n generalizing e r with
  | zero =>
    have full : (reducedTo r 0 ls).map (·.2) = ls := by
      rw [reducedTo_none, List.map_map]
      exact (List.map_congr_left fun l hx => Nat.min_eq_left (hl l hx)).trans (List.map_id ls)
    rw [full] at he ⊢
    exact ⟨r, 0, rfl, by rw [full]; omega⟩
  | succ n ih =>
    obtain ⟨total, -, -, whole⟩ := squeezeRound_spec e (reducedTo r 0 ls) (reducedTo_limits r 0 ls)
    obtain ⟨j, hj⟩ := squeezeRound_reduces e r ls
    rw [squeezeRounds]
    rcases Nat.eq_zero_or_pos (squeezeRound e (reducedTo r 0 ls)).1 with spent | left
    · refine ⟨r, j, by rw [spent, squeezeRounds_zero, hj], ?_⟩
      rw [spent, hj] at total
      omega
    · have next : (squeezeRound e (reducedTo r 0 ls)).2 = reducedTo (r + 1) 0 ls := by
        rw [whole left, reducedTo_none, reducedTo_none, List.map_map]
        refine List.map_congr_left fun l _ => Prod.ext rfl ?_
        change min l (min l r + 1) = min l (r + 1)
        omega
      rw [next] at total ⊢
      obtain ⟨rounds, j, same, sum⟩ := ih (squeezeRound e (reducedTo r 0 ls)).1 (r + 1) (fun l h => by have := hl l h; omega) (by omega)
      exact ⟨rounds, j, same, sum.trans total⟩

theorem gapReductions_spend {squeeze e : Nat} {ps : List Placement} (he : e ≤ capacity squeeze ps) : ∃ rounds j,
    gapReductions squeeze e ps = (reducedTo rounds j (gapLimits squeeze ps)).map (·.2) ∧ (gapReductions squeeze e ps).sum = e := by
  have begun : (gapLimits squeeze ps).map (fun l => (l, 0)) = reducedTo 0 0 (gapLimits squeeze ps) := by
    simp [reducedTo_none]
  have nothing : ((reducedTo 0 0 (gapLimits squeeze ps)).map (·.2)).sum = 0 := by
    rw [reducedTo_none, List.map_map, (List.map_eq_replicate_iff (b := 0)).2 (by simp), List.sum_replicate_nat, Nat.mul_zero]
  have below : ∀ l ∈ gapLimits squeeze ps, l ≤ 0 + squeeze := by
    intro l hl
    obtain ⟨a, -, rfl⟩ := List.mem_map.1 hl
    omega
  obtain ⟨rounds, j, same, sum⟩ := squeezeRounds_spend squeeze e 0 _ below (by rw [nothing]; exact he)
  rw [nothing] at sum
  refine ⟨rounds, j, ?_, ?_⟩
  · rw [gapReductions, begun, same]
  · rw [gapReductions, begun, same, sum]
    rfl

theorem reducedTo_getD (rounds j k : Nat) (ls : List Nat) : ((reducedTo rounds j ls).map (·.2)).getD k 0 =
    min (ls.getD k 0) (if k < j then rounds + 1 else rounds) := by
  simp only [List.getD_eq_getElem?_getD, reducedTo, List.getElem?_map, List.getElem?_mapIdx]
  cases ls[k]? <;> simp

/-! ## JUSTIFY (R52) -/

/-- The leftmost SPACE clusters take the units that the division leaves. -/
theorem justifyAdditions_leftmost (q rest k : Nat) (ps : List Placement) {p : Placement} (hk : ps[k]? = some p) (hp : p.role = .space) :
    (justifyAdditions q rest ps).getD k 0 =
      q + if ((ps.take k).filter fun q => q.role == .space).length < rest then 1 else 0 := by
  induction ps generalizing rest k with
  | nil => simp at hk
  | cons p' ps ih =>
    rw [justifyAdditions]
    cases k with
    | zero =>
      obtain rfl : p' = p := by simpa using hk
      rw [if_pos hp]
      by_cases h0 : rest = 0
      · simp [h0]
      · simp [h0, Nat.pos_of_ne_zero h0]
    | succ k =>
      have hk : ps[k]? = some p := by simpa using hk
      by_cases hr : p'.role = .space
      · rw [if_pos hr]
        by_cases h0 : rest = 0
        · simpa [h0, hr] using ih 0 k hk
        · have shifted (n : Nat) : n + 1 < rest ↔ n < rest - 1 := by omega
          simpa [h0, hr, shifted] using ih (rest - 1) k hk
      · simpa [hr] using ih rest k hk

/-! ## Positions (R12, R53) -/

theorem withX_unplaced (x a : Int) (gs ds : List Nat) (ps : List Placement) :
    (withX x a gs ds ps).map (fun q => { q with x := none }) = ps.map fun p => { p with x := none } := by
  induction ps generalizing x a gs ds with
  | nil => rfl
  | cons p ps ih => by_cases hp : p.isBase = true <;> simp [withX, hp, ih]

theorem bases_base {p : Placement} (hp : p.isBase = true) (ps : List Placement) : bases (p :: ps) = p :: bases ps :=
  List.filter_cons_of_pos hp

theorem bases_mark {p : Placement} (hp : ¬p.isBase = true) (ps : List Placement) : bases (p :: ps) = bases ps :=
  List.filter_cons_of_neg hp

theorem withX_base {p : Placement} (hp : p.isBase = true) (x a : Int) (gs ds : List Nat) (ps : List Placement) :
    withX x a gs ds (p :: ps) =
      { p with x := some x } :: withX (x + p.width + ds.headD 0 - gs.headD 0) x gs.tail ds.tail ps := if_pos hp

theorem withX_mark {p : Placement} (hp : ¬p.isBase = true) (x a : Int) (gs ds : List Nat) (ps : List Placement) :
    withX x a gs ds (p :: ps) = { p with x := some (a + (p.origin.getD (0, 0)).1) } :: withX x a gs ds ps := if_neg hp

/-- The bases stand as in a line of bases alone. -/
theorem bases_withX (x a : Int) (gs ds : List Nat) (ps : List Placement) :
    bases (withX x a gs ds ps) = withX x a gs ds (bases ps) := by
  induction ps generalizing x a gs ds with
  | nil => rfl
  | cons p ps ih =>
    by_cases hp : p.isBase = true
    · rw [withX_base hp, bases_base hp, withX_base hp, bases_base (p := { p with x := some x }) hp, ih]
    · rw [withX_mark hp, bases_mark hp, bases_mark (p := { p with x := some (a + (p.origin.getD (0, 0)).1) }) hp, ih]

/-- In a line of bases each stands after the one before it. -/
theorem withX_next {bs : List Placement} (hb : ∀ p ∈ bs, p.isBase = true) {x y a : Int} {gs ds : List Nat} {j : Nat} {p q : Placement}
    (hp : (withX x a gs ds bs)[j]? = some p) (hq : (withX x a gs ds bs)[j + 1]? = some q) (hx : p.x = some y) :
    q.x = some (y + p.width + ds.getD j 0 - gs.getD j 0) := by
  induction bs generalizing x a gs ds j with
  | nil => simp [withX] at hp
  | cons b bs ih =>
    obtain ⟨base, bases⟩ := List.forall_mem_cons.1 hb
    rw [withX_base base] at hp hq
    cases j with
    | zero =>
      obtain rfl : { b with x := some x } = p := by simpa using hp
      obtain rfl : x = y := by simpa using hx
      cases bs with
      | nil => simp [withX] at hq
      | cons c cs =>
        rw [withX_base (bases c (.head _))] at hq
        obtain rfl : { c with x := some (x + b.width + ds.headD 0 - gs.headD 0) } = q := by simpa using hq
        cases ds <;> cases gs <;> rfl
    | succ j =>
      have next := ih bases (by simpa using hp) (by simpa using hq)
      cases ds <;> cases gs <;> simpa using next

/-- What follows a base is placed from where that base stands. -/
theorem withX_drop {x y a : Int} {gs ds : List Nat} {ps : List Placement} {j : Nat} {b : Placement}
    (hb : (withX x a gs ds ps)[j]? = some b) (hr : b.role ≠ .mark) (hx : b.x = some y) :
    ∃ x' gs' ds' ps', (withX x a gs ds ps).drop (j + 1) = withX x' y gs' ds' ps' := by
  induction ps generalizing x a gs ds j with
  | nil => simp [withX] at hb
  | cons p ps ih =>
    by_cases hp : p.isBase = true
    · rw [withX_base hp] at hb ⊢
      cases j with
      | zero =>
        obtain rfl : { p with x := some x } = b := by simpa using hb
        obtain rfl : x = y := by simpa using hx
        exact ⟨_, _, _, ps, rfl⟩
      | succ j => exact ih (by simpa using hb)
    · rw [withX_mark hp] at hb ⊢
      cases j with
      | zero =>
        obtain rfl : { p with x := some (a + (p.origin.getD (0, 0)).1) } = b := by simpa using hb
        exact absurd (by simpa [Placement.isBase] using hp) hr
      | succ j => exact ih (by simpa using hb)

/-- A mark after nothing but marks stands where the base does, by its origin. -/
theorem withX_marks {x y : Int} {gs ds : List Nat} {ps : List Placement} {n : Nat} {q : Placement}
    (hm : ∀ k, k < n → ∃ p, (withX x y gs ds ps)[k]? = some p ∧ p.role = .mark) (hq : (withX x y gs ds ps)[n]? = some q)
    (hr : q.role = .mark) : q.x = some (y + (q.origin.getD (0, 0)).1) := by
  induction ps generalizing n with
  | nil => simp [withX] at hq
  | cons p ps ih =>
    have first : p.role = .mark := by
      by_cases hp : p.isBase = true
      · rw [withX_base hp] at hm hq
        cases n with
        | zero =>
          obtain rfl : { p with x := some x } = q := by simpa using hq
          exact hr
        | succ n =>
          obtain ⟨b, hb, role⟩ := hm 0 (Nat.succ_pos n)
          obtain rfl : { p with x := some x } = b := by simpa using hb
          exact role
      · simpa [Placement.isBase] using hp
    have mark : ¬p.isBase = true := by simp [Placement.isBase, first]
    rw [withX_mark mark] at hm hq
    cases n with
    | zero =>
      obtain rfl : { p with x := some (y + (p.origin.getD (0, 0)).1) } = q := by simpa using hq
      rfl
    | succ n => exact ih (fun k hk => by simpa using hm (k + 1) (Nat.succ_lt_succ hk)) (by simpa using hq)

theorem positioned_places {m : Measurement} {ps qs : List Placement} (hqs : qs = positioned m ps) :
    qs.map (fun q => { q with x := none }) = ps.map (fun p => { p with x := none }) ∧
    (∀ q, (bases qs)[0]? = some q → q.x = some (m.start : Int)) ∧
    (∀ (j : Nat) (p q : Placement) (x : Int), (bases qs)[j]? = some p → (bases qs)[j + 1]? = some q → p.x = some x →
      q.x = some (x + p.width + m.additions.getD j 0 - m.gaps.getD j 0)) ∧
    ∀ (j n : Nat) (b q : Placement) (x : Int), qs[j]? = some b → b.role ≠ .mark → b.x = some x →
      (∀ k, k < n → ∃ p, qs[j + 1 + k]? = some p ∧ p.role = .mark) → qs[j + 1 + n]? = some q → q.role = .mark →
      q.x = some (x + (q.origin.getD (0, 0)).1) := by
  subst hqs
  have only : ∀ p ∈ bases ps, p.isBase = true := fun p hp => (List.mem_filter.1 hp).2
  refine ⟨withX_unplaced .., fun q hq => ?_, fun j p q x hp hq hx => ?_, fun j n b q x hb hr hx hm hq hmark => ?_⟩
  · rw [positioned, bases_withX] at hq
    cases hb : bases ps with
    | nil => simp [hb, withX] at hq
    | cons c cs =>
      rw [hb, withX_base (only c (hb ▸ .head _))] at hq
      obtain rfl : { c with x := some (m.start : Int) } = q := by simpa using hq
      rfl
  · rw [positioned, bases_withX] at hp hq
    exact withX_next only hp hq hx
  · obtain ⟨x', gs, ds, rest, after⟩ := withX_drop hb hr hx
    have place (k : Nat) : (positioned m ps)[j + 1 + k]? = (withX x' x gs ds rest)[k]? := by
      rw [← List.getElem?_drop]
      exact congrArg (·[k]?) after
    exact withX_marks (fun k hk => by simpa only [place] using hm k hk) (by rwa [← place]) hmark

/-! ## What measurement finds (R48 to R52) -/

section
variable {h : LineHeader} {ps : List Placement}

theorem measureLine_overfull (hw : h.measure < naturalWidth ps) : measureLine h ps =
    if naturalWidth ps - h.measure ≤ capacity h.squeeze ps then
      .fits { natural := naturalWidth ps, set := h.measure, start := 0
              gaps := gapReductions h.squeeze (naturalWidth ps - h.measure) ps, additions := [] } true false
    else .overset (naturalWidth ps) (naturalWidth ps - capacity h.squeeze ps) := if_neg (Nat.not_le.2 hw)

theorem measureLine_fits (hw : naturalWidth ps ≤ h.measure) : measureLine h ps = setInMode h ps := if_pos hw

theorem measureLine_squeezed (hw : h.measure < naturalWidth ps) (hc : naturalWidth ps - h.measure ≤ capacity h.squeeze ps) :
    ∃ m, measureLine h ps = .fits m true false ∧ m.natural = naturalWidth ps ∧ m.set = h.measure ∧ m.start = 0 ∧
      m.additions = [] ∧ m.gaps.sum = naturalWidth ps - h.measure ∧ m.gaps.length = (gapLimits h.squeeze ps).length ∧
      (∀ k, m.gaps.getD k 0 ≤ (gapLimits h.squeeze ps).getD k 0) ∧
      ∃ rounds j, ∀ k, m.gaps.getD k 0 = min ((gapLimits h.squeeze ps).getD k 0) (if k < j then rounds + 1 else rounds) := by
  obtain ⟨rounds, j, same, sum⟩ := gapReductions_spend hc
  have reduced (k : Nat) : (gapReductions h.squeeze (naturalWidth ps - h.measure) ps).getD k 0 =
      min ((gapLimits h.squeeze ps).getD k 0) (if k < j then rounds + 1 else rounds) := by rw [same, reducedTo_getD]
  refine ⟨_, (measureLine_overfull hw).trans (if_pos hc), rfl, rfl, rfl, rfl, sum, ?_, fun k => ?_, rounds, j, reduced⟩
  · rw [same]
    simp [reducedTo]
  · rw [reduced]
    exact Nat.min_le_left _ _

theorem measureLine_overset (hw : h.measure < naturalWidth ps) (hc : capacity h.squeeze ps < naturalWidth ps - h.measure) :
    measureLine h ps = .overset (naturalWidth ps) (naturalWidth ps - capacity h.squeeze ps) :=
  (measureLine_overfull hw).trans (if_neg (Nat.not_le.2 hc))

theorem measureLine_justified (hm : h.mode = .justify) (hw : naturalWidth ps ≤ h.measure) (hk : 1 ≤ spaceCount ps) :
    ∃ m, measureLine h ps = .fits m false false ∧ m.natural = naturalWidth ps ∧ m.set = h.measure ∧ m.start = 0 ∧ m.gaps = [] ∧
      m.additions.sum = h.measure - naturalWidth ps ∧ m.additions.length = (bases ps).length ∧
      ∀ k p, (bases ps)[k]? = some p →
        (p.role ≠ .space → m.additions.getD k 0 = 0) ∧
        (p.role = .space → m.additions.getD k 0 = (h.measure - naturalWidth ps) / spaceCount ps +
          if (((bases ps).take k).filter fun q => q.role == .space).length < (h.measure - naturalWidth ps) % spaceCount ps
          then 1 else 0) := by
  have spaces : spaceCount ps ≠ 0 := by omega
  have less := Nat.mod_lt (h.measure - naturalWidth ps) (Nat.pos_of_ne_zero spaces)
  obtain ⟨sum, count, each⟩ := justifyAdditions_spec ((h.measure - naturalWidth ps) / spaceCount ps) (bases ps)
    ((h.measure - naturalWidth ps) % spaceCount ps) (Nat.le_of_lt less)
  refine ⟨{
      natural := naturalWidth ps, set := h.measure, start := 0, gaps := []
      additions := justifyAdditions
        ((h.measure - naturalWidth ps) / spaceCount ps) ((h.measure - naturalWidth ps) % spaceCount ps) (bases ps) },
    (measureLine_fits hw).trans ?_, rfl, rfl, rfl, rfl, ?_, count, fun k p hp =>
      ⟨(each k p hp).1, fun space => justifyAdditions_leftmost _ _ k _ hp space⟩⟩
  · unfold setInMode
    simp only [hm, if_neg spaces]
  · refine sum.trans ?_
    rw [Nat.mul_comm]
    exact Nat.div_add_mod _ _

theorem measureLine_modes {x : Nat} (hw : naturalWidth ps ≤ h.measure) (hx : x = h.measure - naturalWidth ps) :
    (h.mode = .left → measureLine h ps =
      .fits { natural := naturalWidth ps, set := naturalWidth ps, start := 0, gaps := [], additions := [] } false false) ∧
    (h.mode = .right → measureLine h ps =
      .fits { natural := naturalWidth ps, set := naturalWidth ps, start := x, gaps := [], additions := [] } false false) ∧
    (h.mode = .centre → measureLine h ps =
      .fits { natural := naturalWidth ps, set := naturalWidth ps, start := x / 2, gaps := [], additions := [] } false false) ∧
    (h.mode = .justify → spaceCount ps = 0 → measureLine h ps =
      .fits { natural := naturalWidth ps, set := naturalWidth ps, start := if h.baseDir = .rtl then x else 0
              gaps := [], additions := [] } false true) := by
  subst hx
  rw [measureLine_fits hw]
  refine ⟨fun hm => ?_, fun hm => ?_, fun hm => ?_, fun hm hk => ?_⟩
  · simp only [setInMode, hm, setAt]
  · simp only [setInMode, hm, setAt]
  · simp only [setInMode, hm, setAt]
  · cases hd : h.baseDir <;> simp [setInMode, hm, setAt, hk, hd]

end

end Sys2Proof.Machine
end

section
/-! SUPPORT. What a slot does at the end of a pass, at its measurement and on its walk (R39, R45, R48 to R59). -/

namespace Sys2Proof.Machine

namespace State

section
variable {i : SlotId} {s : State}

theorem measureSlot_fits {h : LineHeader} {m : Measurement} {sq un : Bool} (hh : (s.slots.get i).header = some h)
    (hm : measureLine h (s.slots.get i).list = .fits m sq un) : s.measureSlot i = { s with
      slots := s.slots.put i { s.slots.get i with
        state := .ready, pass := none, list := positioned m (s.slots.get i).list, measured := some m
        flags := (s.slots.get i).flags.or { squeezed := sq, unjustified := un } } } := by
  simp only [measureSlot, slot_eq, hh, hm]
  rfl

theorem measureSlot_overset {h : LineHeader} {n w : Nat} (hh : (s.slots.get i).header = some h)
    (hm : measureLine h (s.slots.get i).list = .overset n w) : s.measureSlot i = s.finishLine i .overset (n, w) none := by
  simp only [measureSlot, slot_eq, hh, hm]

theorem finishLine_reports {h : LineHeader} (hh : (s.slots.get i).header = some h) (o : LineOutcome) (w : Nat × Nat) (g : Option Galley) :
    s.finishLine i o w g = State.passesOver i (State.offerSlot i { s with
      cache := s.cache.unpinAll ((s.slots.get i).list.filterMap Placement.ref)
      store := { s.store with reads := s.store.reads.map (fun r => if r.slot = i then { r with live := false } else r) }
      slots := s.slots.put i { Slot.vacant with
        state := .reporting, header := some h, flags := (s.slots.get i).flags
        report := some
          { number := h.number, outcome := o, natural := w.1, set := w.2, placements := (s.slots.get i).list.length
            substituted := ((s.slots.get i).list.filter fun p => p.state == .substituted).length
            flags := (s.slots.get i).flags, galley := g } } }) := by
  simp only [finishLine, slot_eq, hh]
  rfl

theorem endPass_done (h : (s.slots.get i).list.all Placement.done = true) : s.endPass i = State.measureSlot i (s.passesOver i) := by
  have done : ((s.passesOver i).slot i).list.all Placement.done = true := by rw [slot_eq, passesOver_self, h]
  exact if_pos done

theorem endPass_awaits (h : (s.slots.get i).list.all Placement.done = false) : s.endPass i = { s.passesOver i with
    slots := (s.passesOver i).slots.put i { s.slots.get i with state := .awaiting, pass := none } } := by
  have left : ¬((s.passesOver i).slot i).list.all Placement.done = true := by
    rw [slot_eq, passesOver_self, h]
    exact Bool.false_ne_true
  refine (if_neg left).trans ?_
  rw [slot_eq, passesOver_self]
  rfl

theorem releaseHeld_freed (j : SlotId) (s : State) : s.releaseHeld j = { s with slots := s.slots.put j (freed (s.slots.get j)) } := by
  unfold releaseHeld freed
  rw [slot_eq]
  dsimp only
  cases hs : (s.slots.get j).state with
  | awaiting => rfl
  | resolving =>
    cases hp : (s.slots.get j).pass with
    | none => rfl
    | some p =>
      by_cases hw : p.wait = .parked
      · simp only [if_pos hw, Slot.beginPass]
        rfl
      · simp only [if_neg hw, Slot.markAgain]
        rfl
  | empty => rfl
  | ready => rfl
  | exposing => rfl
  | reporting => rfl

theorem passesOver_free (h : (s.slots.get i.other).held = 0) : s.passesOver i = s := if_pos h

theorem passesOver_frees (h : 0 < (s.slots.get i.other).held) :
    s.passesOver i = { s with slots := s.slots.put i.other (freed (s.slots.get i.other)) } :=
  (if_neg (Nat.ne_of_gt h)).trans (releaseHeld_freed _ s)

theorem passEnded_free (h : (s.slots.get i.other).held = 0) : s.passEnded i = s := by
  unfold passEnded
  rw [slot_eq, h]

theorem passEnded_frees (h : (s.slots.get i.other).held = 1) :
    s.passEnded i = { s with slots := s.slots.put i.other (freed (s.slots.get i.other)) } := by
  unfold passEnded
  rw [slot_eq, h]
  exact releaseHeld_freed _ s

theorem passEnded_holds {n : Nat} (h : (s.slots.get i.other).held = n + 2) : s.passEnded i = { s with
    slots := s.slots.put i.other { s.slots.get i.other with held := n + 1 } } := by
  unfold passEnded
  rw [slot_eq, h]
  rfl

theorem runSlot_idle (h1 : (s.slots.get i).state ≠ .resolving) (h2 : (s.slots.get i).state ≠ .awaiting) : s.runSlot i = s := by
  unfold runSlot
  rw [slot_eq]
  cases hs : (s.slots.get i).state with
  | resolving => exact absurd hs h1
  | awaiting => exact absurd hs h2
  | empty => rfl
  | ready => rfl
  | exposing => rfl
  | reporting => rfl

theorem runSlot_awaiting (h : (s.slots.get i).state = .awaiting) :
    s.runSlot i = if (s.slots.get i).list.all Placement.done then s.measureSlot i else s := by
  simp only [runSlot, slot_eq, h]
  exact ite_of_iff Iff.rfl rfl rfl

theorem runSlot_resolving {p : Pass} (h : (s.slots.get i).state = .resolving) (hp : (s.slots.get i).pass = some p) :
    s.runSlot i = if p.wait = .running then State.passes 2 i s else s := by
  simp only [runSlot, slot_eq, h, hp, Option.map_some, Option.some.injEq]

/-! ## Passes and their walk -/

section
variable {fuel : Nat} {p : Pass} {u : State} (hp : (s.slots.get i).pass = some p)
  (hu : u = State.walk ((s.slots.get i).list.length - p.pos) i s)
include hp hu

theorem passes_walked : State.passes (fuel + 1) i s = match (u.slots.get i).pass with
    | none => u
    | some q =>
      if q.wait = .running then
        if q.again then
          if 0 < (u.slots.get i).held then u.setPass i fun p => { p with wait := .parked }
          else passes fuel i ((u.putSlot i (u.slot i).beginPass).passEnded i)
        else u.endPass i
      else u := by
  subst hu
  simp only [passes, slot_eq, hp, Option.map_some, Option.getD_some] <;> rfl

theorem passes_waits (h : ∀ q, (u.slots.get i).pass = some q → q.wait ≠ .running) : State.passes (fuel + 1) i s = u := by
  rw [passes_walked hp hu]
  cases hq : (u.slots.get i).pass with
  | none => rfl
  | some q => exact if_neg (h q hq)

variable {q : Pass} (hq : (u.slots.get i).pass = some q) (hw : q.wait = .running)
include hq hw

theorem passes_ends (ha : q.again = false) : State.passes (fuel + 1) i s = u.endPass i := by
  rw [passes_walked hp hu, hq]
  exact (if_pos hw).trans (if_neg (Bool.eq_false_iff.1 ha))

theorem passes_parks (ha : q.again = true) (hh : 0 < (u.slots.get i).held) : State.passes (fuel + 1) i s = { u with
    slots := u.slots.put i { u.slots.get i with pass := some { q with wait := .parked } } } := by
  rw [passes_walked hp hu, hq]
  refine (if_pos hw).trans ((if_pos ha).trans ((if_pos hh).trans ?_))
  unfold setPass
  rw [slot_eq, hq]
  rfl

theorem passes_repeats (ha : q.again = true) (hh : (u.slots.get i).held = 0) : State.passes (fuel + 1) i s =
    State.passes fuel i (State.passEnded i { u with
      slots := u.slots.put i { u.slots.get i with
        state := .resolving, pass := some { pos := 0, again := false, wait := .running } } }) := by
  have free : ¬0 < (u.slots.get i).held := by omega
  rw [passes_walked hp hu, hq]
  exact (if_pos hw).trans ((if_pos ha).trans (if_neg free))

end

section
variable {p : Pass} (hp : (s.slots.get i).pass = some p)
include hp

theorem walk_over (fuel : Nat) (hl : (s.slots.get i).list[p.pos]? = none) : State.walk fuel i s = s := by
  cases fuel with
  | zero => rfl
  | succ fuel => simp only [walk, slot_eq, hp, hl]

theorem passOn_moves : s.passOn i = { s with
    slots := s.slots.put i { s.slots.get i with pass := some { p with pos := p.pos + 1, wait := .running } } } := by
  unfold passOn setPass
  rw [slot_eq, hp]
  rfl

variable {pl : Placement} (hl : (s.slots.get i).list[p.pos]? = some pl)
include hl

theorem walk_visits {k : Key} (hs : pl.state = .unresolved) (hk : pl.key = some k) (fuel : Nat) : State.walk (fuel + 1) i s =
    if (((s.visit i p.pos k).slots.get i).pass.map Pass.wait) = some .running then
      State.walk fuel i (State.passOn i (s.visit i p.pos k)) else s.visit i p.pos k := by
  simp only [walk, slot_eq, hp, hl, hs, hk]
  exact ite_of_iff Iff.rfl rfl rfl

theorem walk_passes (hn : pl.state ≠ .unresolved ∨ pl.key = none) (fuel : Nat) : State.walk (fuel + 1) i s =
    State.walk fuel i { s with
      slots := s.slots.put i { s.slots.get i with pass := some { p with pos := p.pos + 1, wait := .running } } } := by
  rw [← passOn_moves hp]
  simp only [walk, slot_eq, hp, hl]
  split
  · rename_i hs hk
    exact (hn.elim (· hs) fun h => by simp [h] at hk).elim
  · rfl

end

end

end State

/-- Settles O44: the arithmetic, what measurement finds, the positions, and the slot at the ends and on the walk of its passes. -/
theorem measureArithmetic : Obligations.MeasureArithmetic := by
  refine ⟨⟨advanceAt_rounds, fun v size hv => offsetAt_rounds hv size, fun v size hv => offsetAt_negative hv size⟩,
    ⟨fun h ps => measureLine_squeezed, fun h ps => measureLine_overset, fun h ps => measureLine_justified,
      fun h ps x => measureLine_modes⟩, fun m ps qs => positioned_places, fun i s t ht => ?_, fun i s t fuel ht => ?_⟩
  · subst ht
    exact ⟨fun h m sq un => State.measureSlot_fits, fun h n w => State.measureSlot_overset,
      fun h o w g hh => State.finishLine_reports hh o w g, State.endPass_done, State.endPass_awaits,
      fun h => ⟨State.passesOver_free h, State.passEnded_free h⟩, State.passesOver_frees, State.passEnded_frees,
      fun n => State.passEnded_holds⟩
  · subst ht
    refine ⟨⟨State.runSlot_idle, fun ha hd => (State.runSlot_awaiting ha).trans (if_pos hd),
        fun ha hd => (State.runSlot_awaiting ha).trans (if_neg (Bool.eq_false_iff.1 hd)),
        fun p hr hp => ⟨fun hw => (State.runSlot_resolving hr hp).trans (if_neg hw),
          fun hw => (State.runSlot_resolving hr hp).trans (if_pos hw)⟩⟩,
      fun p u hp hu => ⟨State.passes_waits hp hu, fun q hq hw => ⟨State.passes_ends hp hu hq hw, State.passes_parks hp hu hq hw,
        State.passes_repeats hp hu hq hw⟩⟩,
      fun p hp => ⟨State.walk_over hp fuel, fun pl hl => ⟨fun k hs hk => ?_, fun hn => State.walk_passes hp hl hn fuel⟩⟩⟩
    exact ⟨fun hr => (State.walk_visits hp hl hs hk fuel).trans (if_pos hr),
      fun hr => (State.walk_visits hp hl hs hk fuel).trans (if_neg hr)⟩

end Sys2Proof.Machine
end

section
/-! SUPPORT. CONTROL frames and their commands, but for STATION-CLEAR (R146 to R157). -/

namespace Sys2Proof.Machine

namespace State

/-! ## The list of a CONTROL frame -/

theorem takeControl_taken {h : Hdr} {cs : List ControlCmd} {s : State} (hh : s.straps.head = true) (hd : h.dst ≠ 0)
    (h1 : 1 ≤ cs.length) (h6 : cs.length ≤ 6) (hr : ∀ c ∈ cs, commandInRange c = true) :
    s.takeControl h cs = (State.commands h.src 0 cs s, true) := by
  refine if_pos ?_
  simpa [hh, hd, h1, h6] using hr

theorem takeControl_refused {h : Hdr} {cs : List ControlCmd} {s : State}
    (hn : s.straps.head = false ∨ h.dst = 0 ∨ cs = [] ∨ 6 < cs.length ∨ ∃ c ∈ cs, commandInRange c = false) :
    s.takeControl h cs = (s, false) := by
  refine if_neg fun ht => ?_
  obtain ⟨⟨⟨⟨head, dst⟩, one⟩, six⟩, range⟩ : (((s.straps.head = true ∧ h.dst ≠ 0) ∧ 1 ≤ cs.length) ∧ cs.length ≤ 6) ∧
      ∀ c ∈ cs, commandInRange c = true := by simpa using ht
  rcases hn with hn | hn | rfl | hn | ⟨c, hc, hn⟩
  · simp [hn] at head
  · exact dst hn
  · simp at one
  · omega
  · simp [range c hc] at hn

section
variable {src n : Nat} {c : ControlCmd} {s : State}

theorem command_sender (hm : s.link.state ≠ .mute) (hs : s.maySend src c = false) :
    s.command src n c = noticed src (.commandRefused (commandCode c) n .sender) s :=
  (if_neg (Bool.eq_false_iff.1 hs)).trans (notify_noticed hm _ _)

theorem command_refused (hm : s.link.state ≠ .mute) (hs : s.maySend src c = true) (ht : s.takeCommand src c = none) :
    s.command src n c = noticed src (.commandRefused (commandCode c) n .state) s := by
  refine (if_pos hs).trans ?_
  rw [ht]
  exact notify_noticed hm _ _

theorem command_taken {t : State} (hs : s.maySend src c = true) (ht : s.takeCommand src c = some t) : s.command src n c = t := by
  refine (if_pos hs).trans ?_
  rw [ht]

theorem maySend_iff : s.maySend src c = true ↔
    ((∃ columns depth closeTime, c = .pageBegin columns depth closeTime) ∨ s.seq.owner = some src ∨
      (1 ≤ src ∧ src ≤ s.straps.authLimit.val) ∨ (s.seq.owner = none ∧ s.straps.authLimit = 0)) := by
  have free : (s.straps.authLimit.val == 0) = true ↔ s.straps.authLimit = 0 := beq_iff_eq.trans (Fin.ext_iff (b := 0)).symm
  have senders : (s.seq.owner == some src || s.straps.isAuthority src || (s.seq.owner.isNone && s.straps.authLimit.val == 0)) = true ↔
      s.seq.owner = some src ∨ (1 ≤ src ∧ src ≤ s.straps.authLimit.val) ∨ (s.seq.owner = none ∧ s.straps.authLimit = 0) := by
    simp only [Bool.or_eq_true, Bool.and_eq_true, free, Straps.isAuthority, beq_iff_eq, decide_eq_true_eq, Option.isNone_iff_eq_none,
      or_assoc]
  cases c with
  | pageBegin columns depth closeTime => exact iff_of_true rfl (.inl ⟨columns, depth, closeTime, rfl⟩)
  | _ => exact senders.trans (or_iff_right (by rintro ⟨_, _, _, h⟩; cases h)).symm

end

end State

theorem control_taken {h : Hdr} {cs : List ControlCmd} {s : State} (ha : Arrives h s) (hh : s.straps.head = true) (hd : h.dst ≠ 0)
    (h1 : 1 ≤ cs.length) (h6 : cs.length ≤ 6) (hc : ∀ c ∈ cs, commandInRange c = true ∧ commandBad c = false) :
    exec (.control h cs) s = .next (answers true (State.commands h.src 0 cs (arrived h s))) := by
  have good : cs.any commandBad = false := by simpa using fun c h => (hc c h).2
  have taken : State.takeControl h cs (arrived h s) = (State.commands h.src 0 cs (arrived h s), true) :=
    State.takeControl_taken hh hd h1 h6 fun c h => (hc c h).1
  refine congrArg Host.Outcome.next ((State.receive_plain ha good _).trans ?_)
  rw [taken]

theorem control_refused {h : Hdr} {cs : List ControlCmd} {s : State} (ha : Arrives h s) (hn : s.straps.head = false ∨ h.dst = 0 ∨
    cs = [] ∨ 6 < cs.length ∨ ∃ c ∈ cs, commandInRange c = false ∨ commandBad c = true) :
    exec (.control h cs) s = .next (answers false (arrived h s)) := by
  refine congrArg Host.Outcome.next ?_
  by_cases hb : cs.any commandBad = true
  · exact State.receive_refused ha (.inl hb) _
  · have bad : ∀ c ∈ cs, commandBad c = false := by simpa using hb
    have refused : State.takeControl h cs (arrived h s) = (arrived h s, false) := by
      refine State.takeControl_refused (hn.imp_right (.imp_right (.imp_right (.imp_right ?_))))
      rintro ⟨c, hc, out⟩
      exact ⟨c, hc, out.resolve_right (by simp [bad c hc])⟩
    refine (State.receive_plain ha (Bool.eq_false_iff.2 hb) _).trans ?_
    rw [refused]

section
variable {h : Hdr} {c : ControlCmd} {s : State}

theorem control_one (ha : ArrivesHere h s) (hh : s.straps.head = true) (hr : commandInRange c = true) (hb : commandBad c = false) :
    exec (.control h [c]) s = .next (answers true ((arrived h s).command h.src 0 c)) :=
  congrArg Host.Outcome.next (State.receiveControl_one (State.arrives_of_here ha) hh ha.2.2.2 c hr hb)

theorem control_does {t : State} (hc : Commanded h s) (hr : commandInRange c = true) (hb : commandBad c = false)
    (ht : (arrived h s).takeCommand h.src c = some t) : exec (.control h [c]) s = .next (answers true t) := by
  obtain ⟨ha, hh, -⟩ := id hc
  rw [control_one ha hh hr hb, State.command_taken (State.maySend_commanded hc c) ht]

theorem control_not (hc : Commanded h s) (hr : commandInRange c = true) (hb : commandBad c = false)
    (ht : (arrived h s).takeCommand h.src c = none) :
    exec (.control h [c]) s = .next (answers true (noticed h.src (.commandRefused (commandCode c) 0 .state) (arrived h s))) := by
  obtain ⟨ha, hh, -⟩ := id hc
  rw [control_one ha hh hr hb, State.command_refused (State.arrived_notMute h s) (State.maySend_commanded hc c) ht]

end

/-- Settles O45: the frame by its list, each command by its sender and its own rule. -/
theorem controlTakesItsListInOrder : Obligations.ControlTakesItsListInOrder := by
  refine ⟨fun h cs s ha => ⟨fun ⟨hh, hd, h1, h6, hc⟩ => control_taken ha hh hd h1 h6 hc, control_refused ha⟩,
    fun src n c cs s => ⟨rfl, rfl, State.command_sender, State.command_refused, fun t => State.command_taken⟩,
    fun src c s => State.maySend_iff, fun h c s ha hh hr hb hp ho hf hn => ?_, fun c d t => ?_, fun a => ?_, fun c hp ha => ?_,
    fun c => ?_, fun h s => ⟨fun _ _ _ => rfl, rfl, rfl, rfl, rfl, rfl, rfl, rfl, rfl, fun _ => rfl, rfl, rfl⟩⟩
  · have not : (arrived h s).maySend h.src c = false := by
      refine Bool.eq_false_iff.2 fun hm => ?_
      rcases State.maySend_iff.1 hm with ⟨_, _, _, rfl⟩ | owner | auth | ⟨free, none⟩
      · exact hp _ _ _ rfl
      · exact ho owner
      · exact hf auth
      · exact hn.elim (· free) (· none)
    rw [control_one ha hh hr hb, State.command_sender (State.arrived_notMute h s) not]
  · simp [commandInRange, and_assoc]
  · simp [commandInRange, and_assoc]
  · cases c with
    | pageBegin columns depth closeTime => exact absurd rfl (hp _ _ _)
    | alarmSet a => exact absurd rfl (ha a)
    | _ => rfl
  · cases c with
    | alarmSet a => simp [commandBad]
    | _ => simp [commandBad]

/-! ## The commands -/

/-- Settles O46: PAGE-BEGIN and PAGE-END by the branches of their rules. -/
theorem pagesBeginAndEnd : Obligations.PagesBeginAndEnd := by
  refine ⟨fun h c d t s ha hh h1 h2 h3 h4 => ?_, fun h s hc => ⟨fun hp => control_does hc rfl rfl (if_pos hp),
    fun hp => control_not hc rfl rfl (if_neg hp)⟩⟩
  have range : commandInRange (.pageBegin c d t) = true := by simp [commandInRange, h1, h2, h3, h4]
  have one : exec (.pageBegin h c d t) s = .next (answers true ((arrived h s).command h.src 0 (.pageBegin c d t))) :=
    control_one ha hh range rfl
  refine ⟨fun hp => ?_, fun hp => ?_⟩
  · have taken : State.takeCommand h.src (.pageBegin c d t) (arrived h s) = some _ := if_pos hp
    rw [one, State.command_taken rfl taken]
    rfl
  · have refused : State.takeCommand h.src (.pageBegin c d t) (arrived h s) = none := if_neg hp
    rw [one, State.command_refused (State.arrived_notMute h s) rfl refused]
    rfl

namespace State

section
variable {s : State}

/-! ### RUN and STOP -/

theorem takeRun_stopped (h : s.seq.state = .stopped) :
    s.takeRun = some (State.dispatch { s with seq := { s.seq with state := .running } }) := by
  simp only [takeRun, h]
  rfl

theorem takeRun_running (h : s.seq.state = .running ∨ ∃ i, s.seq.state = .proofWait i) : s.takeRun = some s := by
  rcases h with h | ⟨i, h⟩ <;> simp only [takeRun, h]

theorem takeRun_exposing (h : s.seq.state = .exposing) : s.takeRun = some (s.mapSeq fun q => { q with stopPending := false }) := by
  simp only [takeRun, h]

theorem takeRun_cutting {r : CutRecord} (h : s.seq.state = .cutting) (hr : s.seq.cutRecord = some r) :
    s.takeRun = some { s with
      seq := { s.seq with stopPending := false, cutRecord := some { r with runs := decide (r.kind ≠ .close) } } } := by
  have kind : (r.kind != .close) = decide (r.kind ≠ .close) := by cases r.kind <;> rfl
  simp only [takeRun, h, mapSeq_eq, hr, Option.map_some, kind]
  rfl

theorem takeRun_fault (h : s.seq.state = .fault) : s.takeRun = none := by simp only [takeRun, h]

theorem takeStop_running (h : s.seq.state = .running ∨ ∃ i, s.seq.state = .proofWait i) :
    s.takeStop = some { s with seq := { s.seq with state := .stopped } } := by
  rcases h with h | ⟨i, h⟩
  · simp only [takeStop, h]
    rfl
  · simp only [takeStop, h]
    rfl

theorem takeStop_exposing (h : s.seq.state = .exposing) : s.takeStop = some (s.mapSeq fun q => { q with stopPending := true }) := by
  simp only [takeStop, h]

theorem takeStop_cutting {r : CutRecord} (h : s.seq.state = .cutting) (hr : s.seq.cutRecord = some r) :
    s.takeStop = some { s with seq := { s.seq with stopPending := true, cutRecord := some { r with runs := false } } } := by
  simp only [takeStop, h, mapSeq_eq, hr, Option.map_some]
  rfl

theorem takeStop_stopped (h : s.seq.state = .stopped ∨ s.seq.state = .fault) : s.takeStop = some s := by
  rcases h with h | h <;> simp only [takeStop, h]

/-! ### CUT, proof and the alarm -/

theorem takeCut_cuts (h : s.seq.state = .stopped ∨ s.seq.state = .running ∨ ∃ i, s.seq.state = .proofWait i) :
    s.takeCut = some (s.sendCut .commanded (decide (s.seq.state ≠ .stopped))) := by
  rcases h with h | h | ⟨i, h⟩
  · simp only [takeCut, h]
    rfl
  · simp only [takeCut, h]
    rfl
  · simp only [takeCut, h]
    rfl

theorem takeCut_exposing (h : s.seq.state = .exposing) : s.takeCut = some (s.mapSeq fun q => { q with cutPending := true }) := by
  simp only [takeCut, h]

theorem takeCut_refused (h : s.seq.state = .cutting ∨ s.seq.state = .fault) : s.takeCut = none := by
  rcases h with h | h <;> simp only [takeCut, h]

theorem takeProofOff_waits {i : SlotId} (h : s.seq.state = .proofWait i) :
    s.takeProofOff = sent i { s with seq := { s.seq with proof := false } } := by
  simp only [takeProofOff, mapSeq_eq, seq_setSeq, h]
  rfl

theorem takeProofOff_other (h : ∀ i, s.seq.state ≠ .proofWait i) : s.takeProofOff = { s with seq := { s.seq with proof := false } } := by
  simp only [takeProofOff, mapSeq_eq, seq_setSeq]
  split
  · rename_i i hi
    exact absurd hi (h i)
  all_goals rfl

theorem takeProceed_waits {i : SlotId} (h : s.seq.state = .proofWait i) : s.takeProceed = some (sent i s) := by
  simp only [takeProceed, h]
  rfl

theorem takeProceed_other (h : ∀ i, s.seq.state ≠ .proofWait i) : s.takeProceed = none := by
  unfold takeProceed
  split
  · rename_i i hi
    exact absurd hi (h i)
  all_goals rfl

/-! ### The head of the slots -/

theorem inOrder_iff {t : Slot} : t.inOrder = true ↔ InAssembly t ∨ t.state = .exposing := by
  simp [Slot.inOrder, Slot.inAssembly, InAssembly, or_assoc]

theorem headSlot_older (h : InAssembly (s.slots.get s.slots.older) ∨ (s.slots.get s.slots.older).state = .exposing) :
    s.headSlot = some s.slots.older := if_pos (inOrder_iff.2 h)

theorem headSlot_notOlder (h : ¬(InAssembly (s.slots.get s.slots.older) ∨ (s.slots.get s.slots.older).state = .exposing)) :
    s.headSlot = if (s.slots.get s.slots.younger).inOrder then some s.slots.younger else none :=
  if_neg fun ho => h (inOrder_iff.1 ho)

theorem dispatch_stands (h : s.seq.state ≠ .running) : s.dispatch = s := if_neg h

theorem dispatch_head {i : SlotId} (h : s.seq.state = .running) (hi : s.headSlot = some i) :
    s.dispatch = if (s.slots.get i).state = .ready then s.takeReady i else s := by
  refine (if_pos h).trans ?_
  rw [hi]
  rfl

theorem dispatch_waits (h : ∀ i, s.headSlot = some i → (s.slots.get i).state ≠ .ready) : s.dispatch = s := by
  by_cases hs : s.seq.state = .running
  · cases hi : s.headSlot with
    | some i => exact (dispatch_head hs hi).trans (if_neg (h i hi))
    | none =>
      refine (if_pos hs).trans ?_
      rw [hi]
  · exact dispatch_stands hs

section
variable {i : SlotId} (hs : s.seq.state = .running) (hi : s.headSlot = some i) (hr : (s.slots.get i).state = .ready)
include hs hi hr

theorem dispatch_sends (hp : s.seq.proof = false) : s.dispatch = sent i s :=
  ((dispatch_head hs hi).trans (if_pos hr)).trans (if_neg (Bool.eq_false_iff.1 hp))

theorem dispatch_proofs {hd : LineHeader} (hh : (s.slots.get i).header = some hd) (hp : s.seq.proof = true) (hm : s.link.state ≠ .mute) :
    s.dispatch = noticed (s.seq.owner.getD 0) (.proofReady hd.number) { s with seq := { s.seq with state := .proofWait i } } := by
  refine ((dispatch_head hs hi).trans (if_pos hr)).trans ((if_pos hp).trans ?_)
  have number : ((s.slot i).header.map LineHeader.number).getD 0 = hd.number := by
    rw [slot_eq, hh]
    rfl
  rw [number]
  exact notify_noticed (s := { s with seq := { s.seq with state := .proofWait i } }) hm _ _

end

theorem leaveProof_other (h : ∀ i, s.seq.state ≠ .proofWait i) : s.leaveProof = s := by
  unfold leaveProof
  split
  · rename_i i hi
    exact absurd hi (h i)
  all_goals rfl

theorem leaveProof_waits {i : SlotId} (h : s.seq.state = .proofWait i) : s.leaveProof =
    if (s.slots.get i).state = .ready then s else { s with seq := { s.seq with state := .running } } := by
  simp only [leaveProof, h]
  rfl

end

end State

section
variable {h : Hdr} {s : State} (hc : Commanded h s)
include hc

/-- RUN in STOPPED takes the head of the slots as RUNNING does. -/
theorem run_stopped (hs : s.seq.state = .stopped) : exec (.run h) s =
    .next (answers true (State.dispatch { arrived h s with seq := { s.seq with state := .running } })) :=
  control_does hc rfl rfl (State.takeRun_stopped (s := arrived h s) hs)

theorem run_waits (hs : s.seq.state = .stopped) (hn : ∀ i, s.headSlot = some i → (s.slots.get i).state ≠ .ready) :
    exec (.run h) s = .next (answers true { arrived h s with seq := { s.seq with state := .running } }) := by
  rw [run_stopped hc hs]
  exact congrArg (fun u => Host.Outcome.next (answers true u))
    (State.dispatch_waits (s := { arrived h s with seq := { s.seq with state := .running } }) hn)

end

/-- Settles O47: RUN and STOP by the sequencer's state, the head of the slots, and what follows an event. -/
theorem runAndStop : Obligations.RunAndStop := by
  refine ⟨fun h s hc => ?_, fun c t hd hh => ?_, fun s u hu => ?_, fun s => ?_, fun s => ?_⟩
  · refine ⟨fun hs hn => run_waits hc hs fun i _ => hn i, fun i hs hi hn => run_waits hc hs fun j hj => ?_,
      fun i hs hi hr hp => ?_, fun i hd hs hi hr hp hh => ?_,
      fun hs => control_does hc rfl rfl (State.takeRun_running (s := arrived h s) hs),
      fun hs => control_does hc rfl rfl (State.takeRun_exposing (s := arrived h s) hs),
      fun r hs hr => control_does hc rfl rfl (State.takeRun_cutting (s := arrived h s) hs hr),
      fun hs => control_not hc rfl rfl (State.takeRun_fault (s := arrived h s) hs),
      fun hs => control_does hc rfl rfl (State.takeStop_running (s := arrived h s) hs),
      fun hs => control_does hc rfl rfl (State.takeStop_exposing (s := arrived h s) hs),
      fun r hs hr => control_does hc rfl rfl (State.takeStop_cutting (s := arrived h s) hs hr),
      fun hs => control_does hc rfl rfl (State.takeStop_stopped (s := arrived h s) hs)⟩
    · obtain rfl : i = j := Option.some.inj (hi.symm.trans hj)
      exact hn
    · rw [run_stopped hc hs]
      exact congrArg (fun u => Host.Outcome.next (answers true u))
        (State.dispatch_sends (s := { arrived h s with seq := { s.seq with state := .running } }) rfl hi hr hp)
    · rw [run_stopped hc hs]
      exact congrArg (fun u => Host.Outcome.next (answers true u))
        (State.dispatch_proofs (s := { arrived h s with seq := { s.seq with state := .running } }) rfl hi hr hh hp
          (State.arrived_notMute h s))
  · unfold State.lineTransfer
    rw [hh]
    refine congrArg (LineTransfer.mk _) (List.map_congr_left fun p _ => ?_)
    unfold State.headPlacement
    cases p.ref <;> rfl
  · subst hu
    rfl
  · exact ⟨State.leaveProof_other, fun i hi => ⟨fun hr => (State.leaveProof_waits hi).trans (if_pos hr),
        fun hr => (State.leaveProof_waits hi).trans (if_neg hr)⟩, State.dispatch_stands, State.dispatch_waits,
      fun i hd hs hi hr hh => ⟨State.dispatch_sends hs hi hr, State.dispatch_proofs hs hi hr hh⟩⟩
  · exact ⟨State.headSlot_older, fun ho => ⟨fun hy => (State.headSlot_notOlder ho).trans (if_pos (State.inOrder_iff.2 hy)),
      fun hy => (State.headSlot_notOlder ho).trans (if_neg fun h => hy (State.inOrder_iff.1 h))⟩⟩

/-- Settles O48: CUT and GALLEY-RESET by the sequencer's state. -/
theorem cutAndGalleyReset : Obligations.CutAndGalleyReset := by
  refine fun h s hc => ⟨fun hs => control_does hc rfl rfl (State.takeCut_cuts (s := arrived h s) hs),
    fun hs => control_does hc rfl rfl (State.takeCut_exposing (s := arrived h s) hs),
    fun hs => control_not hc rfl rfl (State.takeCut_refused (s := arrived h s) hs),
    fun hs => control_does hc rfl rfl (if_pos hs), fun hs => control_not hc rfl rfl (if_neg hs)⟩

/-- Settles O49: each command by its own rule. -/
theorem proofAlarmAndFlags : Obligations.ProofAlarmAndFlags := by
  refine fun h s hc => ⟨control_does hc rfl rfl rfl,
    fun hn => ⟨control_does hc rfl rfl (congrArg some (State.takeProofOff_other (s := arrived h s) hn)),
      control_not hc rfl rfl (State.takeProceed_other (s := arrived h s) hn)⟩,
    fun i hi => ⟨control_does hc rfl rfl (congrArg some (State.takeProofOff_waits (s := arrived h s) hi)),
      control_does hc rfl rfl (State.takeProceed_waits (s := arrived h s) hi)⟩,
    fun a h1 h2 h3 h4 => ?_, control_does hc rfl rfl rfl⟩
  have range : commandInRange (.alarmSet a) = true := by simp [commandInRange, h1, h2, h3]
  have good : commandBad (.alarmSet a) = false := by simpa [commandBad] using h4
  exact control_does hc range good rfl

end Sys2Proof.Machine
end

section
/-! SUPPORT. Outcomes given to lines: the reports that are offered one after another, as far as there is room, and what that leaves
(R17, R58 to R60, R177). -/

namespace Sys2Proof.Machine

/-! ## Reports offered in order -/

theorem placed_append (fs gs : List TxFrame) (q : List TxEntry) : placed (fs ++ gs) q = placed gs (placed fs q) := List.foldl_append ..

theorem gathered_append (fs gs : List TxFrame) (a : LineFlags) : gathered (fs ++ gs) a = gathered gs (gathered fs a) :=
  List.foldl_append ..

theorem placed_length (fs : List TxFrame) (q : List TxEntry) : (placed fs q).length = q.length + fs.length := by
  induction fs generalizing q with
  | nil => rfl
  | cons f fs ih =>
    rw [placed, List.foldl_cons, ← placed, ih, State.insertTx_length, List.length_cons]
    omega

/-- From `s` to `t` these reports are offered in order: a station that is not MUTE places as many as find room, and a MUTE one places each
and gives it up. Nothing else changes but the slots, the Line Queue, the cache's pins and the reads that are wanted. -/
structure Offers (fs : List TxFrame) (s t : State) : Prop where
  rest : { t with
    slots := s.slots, lines := s.lines, cache := s.cache, link := { t.link with queue := s.link.queue }
    store := { t.store with reads := s.store.reads }
    seq := { t.seq with acc := { t.seq.acc with line := s.seq.acc.line, reportLost := s.seq.acc.reportLost } } } = s
  room : s.link.state ≠ .mute → t.link.queue = placed (fs.take (12 - s.link.queue.length)) s.link.queue ∧
    t.seq.acc.line = gathered (fs.take (12 - s.link.queue.length)) s.seq.acc.line ∧ t.seq.acc.reportLost = s.seq.acc.reportLost
  mute : s.link.state = .mute → t.link.queue = s.link.queue ∧ t.seq.acc.line = gathered fs s.seq.acc.line ∧
    t.seq.acc.reportLost = (s.seq.acc.reportLost || !fs.isEmpty)

namespace Offers

theorem none {s t : State} (h : { t with
    slots := s.slots, lines := s.lines, cache := s.cache, store := { t.store with reads := s.store.reads } } = s) : Offers [] s t where
  rest := by rw [← h]
  room _ := by rw [List.take_nil, ← h]; exact ⟨rfl, rfl, rfl⟩
  mute _ := by rw [← h]; exact ⟨rfl, rfl, (Bool.or_false _).symm⟩

theorem refl (s : State) : Offers [] s s := none rfl

section
variable {fs : List TxFrame} {s t : State} (h : Offers fs s t)
include h

theorem linkState : t.link.state = s.link.state := (congrArg (fun u : State => u.link.state) h.rest :)
theorem fetches : t.fetches = s.fetches := (congrArg State.fetches h.rest :)
theorem dir : t.dir = s.dir := (congrArg State.dir h.rest :)
theorem head : t.head = s.head := (congrArg State.head h.rest :)
theorem out : t.out = s.out := (congrArg State.out h.rest :)
theorem tables : t.tables = s.tables := (congrArg State.tables h.rest :)
theorem patrol : t.patrol = s.patrol := (congrArg State.patrol h.rest :)
theorem straps : t.straps = s.straps := (congrArg State.straps h.rest :)
theorem index : t.store.index = s.store.index := (congrArg (fun u : State => u.store.index) h.rest :)
theorem memory : t.store.memory = s.store.memory := (congrArg (fun u : State => u.store.memory) h.rest :)
theorem seq : { t.seq with acc := { t.seq.acc with line := s.seq.acc.line, reportLost := s.seq.acc.reportLost } } = s.seq :=
  (congrArg State.seq h.rest :)
theorem seqState : t.seq.state = s.seq.state := (congrArg Sequencer.state h.seq :)

/-- The queue grows by the reports that find room. -/
theorem queue_length (hm : s.link.state ≠ .mute) :
    t.link.queue.length = s.link.queue.length + min (12 - s.link.queue.length) fs.length := by
  rw [(h.room hm).1, placed_length, List.length_take]

end

theorem trans {fs gs : List TxFrame} {s t u : State} (h : Offers fs s t) (k : Offers gs t u) : Offers (fs ++ gs) s u where
  rest := (congrArg (fun x : State => { x with
    slots := s.slots, lines := s.lines, cache := s.cache, link := { x.link with queue := s.link.queue }
    store := { x.store with reads := s.store.reads }
    seq := { x.seq with acc := { x.seq.acc with line := s.seq.acc.line, reportLost := s.seq.acc.reportLost } } }) k.rest).trans h.rest
  room hm := by
    have hm' : t.link.state ≠ .mute := h.linkState.symm ▸ hm
    have left : 12 - t.link.queue.length = 12 - s.link.queue.length - fs.length := by rw [h.queue_length hm]; omega
    obtain ⟨queue, line, lost⟩ := h.room hm
    obtain ⟨queue', line', lost'⟩ := k.room hm'
    rw [List.take_append, placed_append, gathered_append, ← queue, ← line, ← left]
    exact ⟨queue', line', lost'.trans lost⟩
  mute hm := by
    obtain ⟨queue, line, lost⟩ := h.mute hm
    obtain ⟨queue', line', lost'⟩ := k.mute (h.linkState.trans hm)
    refine ⟨queue'.trans queue, by rw [line', line, gathered_append], ?_⟩
    rw [lost', lost, Bool.or_assoc]
    cases fs <;> simp

end Offers

namespace State

theorem offer_offers (d : Nat) (r : LineReport) (s : State) : Offers [.report d r] s (s.offer (.report d r)).1 := by
  by_cases hm : s.link.state = .mute
  · rw [offer_mute hm]
    exact ⟨rfl, fun h => absurd hm h, fun _ => ⟨rfl, rfl, (Bool.or_true _).symm⟩⟩
  · rcases Nat.lt_or_ge s.link.queue.length 12 with hq | hq
    · rw [offer_room hm hq]
      refine ⟨rfl, fun _ => ?_, fun h => absurd h hm⟩
      have some : [TxFrame.report d r].take (12 - s.link.queue.length) = [.report d r] :=
        List.take_of_length_le (by rw [List.length_singleton]; omega)
      rw [some]
      exact ⟨rfl, rfl, rfl⟩
    · rw [offer_full hm hq]
      refine ⟨rfl, fun _ => ?_, fun h => absurd h hm⟩
      rw [Nat.sub_eq_zero_of_le hq]
      exact ⟨rfl, rfl, rfl⟩

/-- A report is placed when the station is MUTE or has room. -/
theorem offer_placed (f : TxFrame) (s : State) : (s.offer f).2 = true ↔ s.link.state = .mute ∨ s.link.queue.length < 12 := by
  by_cases hm : s.link.state = .mute
  · rw [offer_mute hm]
    exact iff_of_true rfl (.inl hm)
  · rcases Nat.lt_or_ge s.link.queue.length 12 with hq | hq
    · rw [offer_room hm hq]
      exact iff_of_true rfl (.inr hq)
    · rw [offer_full hm hq]
      exact iff_of_false Bool.false_ne_true fun h => h.elim hm (Nat.not_lt.2 hq)

/-! ## A line is given its outcome -/

/-- The report of a slot's line with an outcome (R56). -/
def lineReport (o : LineOutcome) (w : Nat × Nat) (g : Option Galley) (t : Slot) (hd : LineHeader) : LineReport :=
  { number := hd.number, outcome := o, natural := w.1, set := w.2, placements := t.list.length
    substituted := (t.list.filter fun p => p.state == .substituted).length, flags := t.flags, galley := g }

/-- The slot that keeps its report. -/
def reportingSlot (hd : LineHeader) (flags : LineFlags) (rep : LineReport) : Slot :=
  { Slot.vacant with state := .reporting, header := some hd, flags := flags, report := some rep }

/-- The slot as its pins and its reads are given up and its report is built. -/
def outcomeGiven (i : SlotId) (v : Slot) (s : State) : State :=
  { s with
    cache := s.cache.unpinAll ((s.slots.get i).list.filterMap Placement.ref)
    store := { s.store with reads := s.store.reads.map (fun r => if r.slot = i then { r with live := false } else r) }
    slots := s.slots.put i v }

section
variable {i : SlotId} {s : State}

theorem offerSlot_eq {rep : LineReport} {hd : LineHeader} (hs : (s.slots.get i).state = .reporting)
    (hr : (s.slots.get i).report = some rep) (hh : (s.slots.get i).header = some hd) :
    s.offerSlot i = if (s.offer (.report hd.requester rep)).2 then
      (s.offer (.report hd.requester rep)).1.setSlots (s.slots.vacate i) else s := by
  have slots := (offer_spared (.report hd.requester rep) s).slots
  unfold offerSlot
  simp only [slot_eq, hs, hr, hh, slots]

/-- The report of a REPORTING slot: placed, the slot is EMPTY; otherwise nothing changes. -/
theorem offerSlot_offers {rep : LineReport} {hd : LineHeader} (hs : (s.slots.get i).state = .reporting)
    (hr : (s.slots.get i).report = some rep) (hh : (s.slots.get i).header = some hd) :
    Offers [.report hd.requester rep] s (s.offerSlot i) ∧ (s.offerSlot i).lines = s.lines ∧ (s.offerSlot i).cache = s.cache ∧
      (s.link.state = .mute ∨ s.link.queue.length < 12 → (s.offerSlot i).slots = s.slots.vacate i) ∧
      (s.link.state ≠ .mute → 12 ≤ s.link.queue.length → (s.offerSlot i).slots = s.slots) := by
  have offers := offer_offers hd.requester rep s
  have spared := offer_spared (.report hd.requester rep) s
  rw [offerSlot_eq hs hr hh]
  by_cases hp : s.link.state = .mute ∨ s.link.queue.length < 12
  · rw [if_pos ((offer_placed _ s).2 hp)]
    exact ⟨offers.trans (.none rfl), spared.lines, spared.cache, fun _ => rfl, fun hm hq => (hp.elim hm (Nat.not_lt.2 hq)).elim⟩
  · obtain ⟨hm, hq⟩ := not_or.1 hp
    rw [if_neg (mt (offer_placed _ s).1 hp)]
    refine ⟨?_, rfl, rfl, fun h => absurd h hp, fun _ _ => rfl⟩
    rwa [offer_full hm (Nat.not_lt.1 hq)] at offers

theorem passesOver_other : (s.passesOver i).slots.get i.other =
    if (s.slots.get i.other).held = 0 then s.slots.get i.other else freed (s.slots.get i.other) := by
  split
  · rename_i h
    rw [passesOver_free h]
  · rename_i h
    rw [passesOver_frees (Nat.pos_of_ne_zero h)]
    exact Slots.get_put .. |>.trans (if_pos rfl)

theorem passesOver_offers : Offers [] s (s.passesOver i) := by
  by_cases h : (s.slots.get i.other).held = 0
  · rw [passesOver_free h]
    exact .refl s
  · rw [passesOver_frees (Nat.pos_of_ne_zero h)]
    exact .none rfl

theorem passesOver_keeps : (s.passesOver i).lines = s.lines ∧ (s.passesOver i).cache = s.cache := by
  by_cases h : (s.slots.get i.other).held = 0
  · rw [passesOver_free h]
    exact ⟨rfl, rfl⟩
  · rw [passesOver_frees (Nat.pos_of_ne_zero h)]
    exact ⟨rfl, rfl⟩

variable {hd : LineHeader} (hh : (s.slots.get i).header = some hd) (o : LineOutcome) (w : Nat × Nat) (g : Option Galley)
include hh

theorem finishLine_given : s.finishLine i o w g = State.passesOver i (State.offerSlot i
    (s.outcomeGiven i (reportingSlot hd (s.slots.get i).flags (lineReport o w g (s.slots.get i) hd)))) := finishLine_reports hh o w g

/-- A line is given its outcome: its report is offered, its slot is EMPTY or keeps the report, and the other slot is held back no more. -/
theorem finishLine_offers :
    Offers [.report hd.requester (lineReport o w g (s.slots.get i) hd)] s (s.finishLine i o w g) ∧
    (s.finishLine i o w g).lines = s.lines ∧
    (s.link.state = .mute ∨ s.link.queue.length < 12 → (s.finishLine i o w g).slots.get i = .vacant) ∧
    (s.link.state ≠ .mute → 12 ≤ s.link.queue.length → (s.finishLine i o w g).slots.get i =
      reportingSlot hd (s.slots.get i).flags (lineReport o w g (s.slots.get i) hd)) ∧
    (s.finishLine i o w g).slots.get i.other =
      if (s.slots.get i.other).held = 0 then s.slots.get i.other else freed (s.slots.get i.other) := by
  rw [finishLine_given hh o w g]
  generalize lineReport o w g (s.slots.get i) hd = rep
  generalize hu : s.outcomeGiven i (reportingSlot hd (s.slots.get i).flags rep) = u
  have self : u.slots.get i = reportingSlot hd (s.slots.get i).flags rep := by
    rw [← hu]
    exact (Slots.get_put ..).trans (if_pos rfl)
  have other : u.slots.get i.other = s.slots.get i.other := by
    rw [← hu]
    exact (Slots.get_put ..).trans (if_neg i.other_ne)
  have begun : Offers [] s u := hu ▸ .none rfl
  have link : u.link = s.link := by rw [← hu]; rfl
  obtain ⟨offers, lines, -, placed, full⟩ := offerSlot_offers (s := u) (i := i) (rep := rep) (hd := hd) (by rw [self]; rfl)
    (by rw [self]; rfl) (by rw [self]; rfl)
  have beside : (u.offerSlot i).slots.get i.other = s.slots.get i.other := by
    by_cases hp : u.link.state = .mute ∨ u.link.queue.length < 12
    · rw [placed hp, Slots.get_vacate, if_neg i.other_ne, other]
    · obtain ⟨hm, hq⟩ := not_or.1 hp
      rw [full hm (Nat.not_lt.1 hq), other]
  refine ⟨(begun.trans offers).trans passesOver_offers, ?_, fun hp => ?_, fun hm hq => ?_, ?_⟩
  · rw [passesOver_keeps.1, lines, ← hu]
    rfl
  · rw [passesOver_self, placed (link ▸ hp), Slots.get_vacate, if_pos rfl]
  · rw [passesOver_self, full (link ▸ hm) (link ▸ hq), self]
  · rw [passesOver_other, beside]

end

end State
end Sys2Proof.Machine
end

section
/-! SUPPORT. Every line without an outcome is given one: the slots' lines, the older first, and then the Line Queue's (R17, R59, R60). -/

namespace Sys2Proof.Machine

/-- A slot as another slot's end of passes leaves it: its line is the same, and so is its state unless it is in assembly. -/
structure Carried (t u : Slot) : Prop where
  header   : u.header = t.header
  list     : u.list = t.list
  flags    : u.flags = t.flags
  measured : u.measured = t.measured
  assembly : InAssembly u ↔ InAssembly t
  state    : ¬InAssembly t → u.state = t.state

namespace Carried

theorem refl (t : Slot) : Carried t t := ⟨rfl, rfl, rfl, rfl, .rfl, fun _ => rfl⟩

theorem trans {t u v : Slot} (h : Carried t u) (k : Carried u v) : Carried t v where
  header := k.header.trans h.header
  list := k.list.trans h.list
  flags := k.flags.trans h.flags
  measured := k.measured.trans h.measured
  assembly := k.assembly.trans h.assembly
  state hn := (k.state (mt h.assembly.1 hn)).trans (h.state hn)

theorem of_state {t u : Slot} (hh : u.header = t.header) (hl : u.list = t.list) (hf : u.flags = t.flags) (hm : u.measured = t.measured)
    (hs : u.state = t.state) : Carried t u :=
  ⟨hh, hl, hf, hm, by simp only [InAssembly, hs], fun _ => hs⟩

theorem freed (t : Slot) : Carried t (freed t) := by
  unfold Machine.freed
  split
  · rename_i hs
    exact ⟨rfl, rfl, rfl, rfl, iff_of_true (.inl rfl) (.inr (.inl hs)), fun hn => absurd (.inr (.inl hs)) hn⟩
  · split <;> exact of_state rfl rfl rfl rfl rfl
  · exact of_state rfl rfl rfl rfl rfl

section
variable {t u : Slot} (h : Carried t u)
include h

theorem report (o : LineOutcome) (hd : LineHeader) : slotReport o u hd = slotReport o t hd := by
  simp only [slotReport, State.widthsOf, h.measured, h.list, h.flags]

theorem owes (m : ReportMark) : slotOwes m u = slotOwes m t := by
  have assembly : (u.state = .resolving ∨ u.state = .awaiting ∨ u.state = .ready) ↔
      (t.state = .resolving ∨ t.state = .awaiting ∨ t.state = .ready) := h.assembly
  simp only [slotOwes, h.header, h.report, assembly]

end
end Carried

theorem slotOwes_some {m : ReportMark} {t : Slot} {hd : LineHeader} (ha : InAssembly t) (hh : t.header = some hd) :
    slotOwes m t = [.report hd.requester (slotReport (outcomeOf m) t hd)] := by
  simp only [slotOwes, hh]
  exact if_pos ha

theorem slotOwes_none {m : ReportMark} {t : Slot} (ha : ¬InAssembly t) : slotOwes m t = [] := by
  unfold slotOwes
  split
  · exact if_neg ha
  · rfl

theorem header_of_assembly {s : State} (h : SlotsHeaded s) {i : SlotId} (ha : InAssembly (s.slots.get i)) :
    ∃ hd, (s.slots.get i).header = some hd :=
  Option.ne_none_iff_exists'.1 (h i fun he => by rcases ha with ha | ha | ha <;> simp [he] at ha)

theorem vacant_notAssembly : ¬InAssembly Slot.vacant := by simp [InAssembly, Slot.vacant]

theorem reportingSlot_notAssembly (hd : LineHeader) (flags : LineFlags) (rep : LineReport) :
    ¬InAssembly (State.reportingSlot hd flags rep) := by simp [InAssembly, State.reportingSlot]

namespace State

section
variable {s : State} {m : ReportMark} {i : SlotId}

theorem inAssembly_iff {t : Slot} : t.inAssembly = true ↔ InAssembly t := by
  simp [Slot.inAssembly, InAssembly, or_assoc]

theorem endAssembly_none (ha : ¬InAssembly (s.slots.get i)) (o : LineOutcome) : s.endAssembly o i = s :=
  if_neg (mt inAssembly_iff.1 ha)

theorem endAssembly_some (ha : InAssembly (s.slots.get i)) (o : LineOutcome) :
    s.endAssembly o i = s.finishLine i o (widthsOf (s.slots.get i)) none := if_pos (inAssembly_iff.2 ha)

/-- The slot's line ends if it is in assembly; the other slot's line is as it was. -/
theorem endAssembly_offers (h : InAssembly (s.slots.get i) → ∃ hd, (s.slots.get i).header = some hd) (m : ReportMark) :
    Offers (slotOwes m (s.slots.get i)) s (s.endAssembly (outcomeOf m) i) ∧
    (s.endAssembly (outcomeOf m) i).lines = s.lines ∧
    Carried (s.slots.get i.other) ((s.endAssembly (outcomeOf m) i).slots.get i.other) ∧
    ((s.slots.get i.other).held = 0 → (s.endAssembly (outcomeOf m) i).slots.get i.other = s.slots.get i.other) ∧
    ¬InAssembly ((s.endAssembly (outcomeOf m) i).slots.get i) := by
  by_cases ha : InAssembly (s.slots.get i)
  · obtain ⟨hd, hh⟩ := h ha
    rw [endAssembly_some ha, slotOwes_some ha hh]
    obtain ⟨offers, lines, placed, full, other⟩ := finishLine_offers hh (outcomeOf m) (widthsOf (s.slots.get i)) none
    refine ⟨offers, lines, ?_, fun hheld => other.trans (if_pos hheld), ?_⟩
    · rw [other]
      split
      · exact .refl _
      · exact .freed _
    · by_cases hp : s.link.state = .mute ∨ s.link.queue.length < 12
      · rw [placed hp]
        exact vacant_notAssembly
      · obtain ⟨hm, hq⟩ := not_or.1 hp
        rw [full hm (Nat.not_lt.1 hq)]
        exact reportingSlot_notAssembly hd _ _
  · rw [endAssembly_none ha, slotOwes_none ha]
    exact ⟨.refl s, rfl, .refl _, fun _ => rfl, ha⟩

/-- The slot of a line in assembly is EMPTY when its report is placed, and REPORTING with it when not. -/
theorem endAssembly_slot (ha : InAssembly (s.slots.get i)) {hd : LineHeader} (hh : (s.slots.get i).header = some hd) (m : ReportMark) :
    (s.link.state = .mute ∨ s.link.queue.length < 12 → (s.endAssembly (outcomeOf m) i).slots.get i = .vacant) ∧
    (s.link.state ≠ .mute → 12 ≤ s.link.queue.length → (s.endAssembly (outcomeOf m) i).slots.get i =
      reportingSlot hd (s.slots.get i).flags (slotReport (outcomeOf m) (s.slots.get i) hd)) := by
  rw [endAssembly_some ha]
  obtain ⟨-, -, placed, full, -⟩ := finishLine_offers hh (outcomeOf m) (widthsOf (s.slots.get i)) none
  exact ⟨placed, full⟩

theorem endAssembly_held (ha : InAssembly (s.slots.get i)) {hd : LineHeader} (hh : (s.slots.get i).header = some hd) (m : ReportMark) :
    ((s.endAssembly (outcomeOf m) i).slots.get i).held = 0 := by
  obtain ⟨placed, full⟩ := endAssembly_slot ha hh m
  by_cases hp : s.link.state = .mute ∨ s.link.queue.length < 12
  · rw [placed hp]
    rfl
  · obtain ⟨hm, hq⟩ := not_or.1 hp
    rw [full hm (Nat.not_lt.1 hq)]
    rfl

end

theorem slotId_cases (o i : SlotId) : i = o ∨ i = o.other := by cases o <;> cases i <;> simp [SlotId.other]

/-- The two slots' lines end, the older first. -/
theorem endBoth_offers {s : State} (h : SlotsHeaded s) (m : ReportMark) :
    Offers (slotsOwe m s) s (s.endBoth (outcomeOf m)) ∧ (s.endBoth (outcomeOf m)).lines = s.lines ∧
    (∀ i, ¬InAssembly ((s.endBoth (outcomeOf m)).slots.get i)) ∧
    (∀ i, ¬InAssembly (s.slots.get i) → Carried (s.slots.get i) ((s.endBoth (outcomeOf m)).slots.get i)) ∧
    ∀ (i : SlotId) (hd : LineHeader) (before : Nat), InAssembly (s.slots.get i) → (s.slots.get i).header = some hd →
      before = (if i = s.slots.older then 0 else (slotOwes m (s.slots.get s.slots.older)).length) →
      (s.link.state = .mute ∨ s.link.queue.length + before < 12 → (s.endBoth (outcomeOf m)).slots.get i = .vacant) ∧
      (s.link.state ≠ .mute → 12 ≤ s.link.queue.length + before → (s.endBoth (outcomeOf m)).slots.get i =
        reportingSlot hd (s.slots.get i).flags (slotReport (outcomeOf m) (s.slots.get i) hd)) := by
  have headed (i : SlotId) (ha : InAssembly (s.slots.get i)) := header_of_assembly h ha
  unfold endBoth slotsOwe
  dsimp only
  generalize s.slots.older = o
  generalize hu : s.endAssembly (outcomeOf m) o = u
  obtain ⟨offers, lines, carried, -, ended⟩ := hu ▸ endAssembly_offers (headed o) m
  have headed' (ha : InAssembly (u.slots.get o.other)) : ∃ hd, (u.slots.get o.other).header = some hd :=
    carried.header ▸ headed o.other (carried.assembly.1 ha)
  have back : o.other.other = o := by cases o <;> rfl
  have others := endAssembly_offers (i := o.other) headed' m
  rw [back, carried.owes] at others
  obtain ⟨offers', lines', carried', stays, ended'⟩ := others
  refine ⟨offers.trans offers', lines'.trans lines, ?_, ?_, ?_⟩
  · intro i
    rcases slotId_cases o i with rfl | rfl
    · exact mt carried'.assembly.1 ended
    · exact ended'
  · intro i ha
    rcases slotId_cases o i with rfl | rfl
    · obtain rfl : s = u := (endAssembly_none ha _).symm.trans hu
      exact carried'
    · rwa [endAssembly_none (mt carried.assembly.1 ha)]
  · intro i hd before ha hh hbefore
    rcases slotId_cases o i with rfl | rfl
    · obtain rfl : before = 0 := hbefore.trans (if_pos rfl)
      rw [stays (hu ▸ endAssembly_held ha hh m), ← hu]
      exact endAssembly_slot ha hh m
    · have count : before = (slotOwes m (s.slots.get o)).length := hbefore.trans (if_neg o.other_ne)
      obtain ⟨placed, full⟩ := endAssembly_slot (carried.assembly.2 ha) (carried.header.trans hh) m
      rw [carried.flags, carried.report] at full
      refine ⟨fun hp => placed ?_, fun hm hq => full (offers.linkState ▸ hm) ?_⟩
      · by_cases hm : s.link.state = .mute
        · exact .inl (offers.linkState.trans hm)
        · have room := hp.resolve_left hm
          exact .inr (by rw [offers.queue_length hm]; omega)
      · rw [offers.queue_length hm]
        omega

/-! ## The Line Queue's lines -/

/-- Every Line Queue entry without a report mark is given the outcome of a mark. -/
def unmarked (m : ReportMark) (e : QueueEntry) : Option ReportMark := if e.mark.isSome then none else some m

theorem entryReport_eq (m : ReportMark) (e : QueueEntry) :
    entryReport m e = .report e.header.requester (queueReport e m) := by cases m <;> rfl

theorem reportEntries_offers (m : ReportMark) (es : List QueueEntry) (s : State) :
    Offers ((es.filter fun e => e.mark == none).map (entryReport m)) s (reportEntries (unmarked m) es s).2 ∧
    (reportEntries (unmarked m) es s).2.slots = s.slots ∧ (reportEntries (unmarked m) es s).2.cache = s.cache ∧
    (s.link.state ≠ .mute → (reportEntries (unmarked m) es s).1 = leftQueued m (12 - s.link.queue.length) es) ∧
    (s.link.state = .mute → (reportEntries (unmarked m) es s).1 = es.filter fun e => e.mark != none) := by
  induction es generalizing s with
  | nil => exact ⟨.refl s, rfl, rfl, fun _ => rfl, fun _ => rfl⟩
  | cons e es ih =>
    cases hmark : e.mark with
    | some k =>
      have keeps : unmarked m e = none := if_pos (by simp [hmark])
      obtain ⟨offers, slots, cache, room, mute⟩ := ih s
      simp only [reportEntries, keeps]
      refine ⟨?_, slots, cache, fun hm => ?_, fun hm => ?_⟩
      · simpa [hmark] using offers
      · simp only [leftQueued, hmark, room hm]
      · simp only [mute hm, List.filter_cons, hmark]
        rfl
    | none =>
      have marks : unmarked m e = some m := if_neg (by simp [hmark])
      have spared := offer_spared (.report e.header.requester (queueReport e m)) s
      have offered := offer_offers e.header.requester (queueReport e m) s
      have owed : ((e :: es).filter fun e => e.mark == none).map (entryReport m) =
          [.report e.header.requester (queueReport e m)] ++ (es.filter fun e => e.mark == none).map (entryReport m) := by
        simp [hmark, entryReport_eq]
      obtain ⟨offers, slots, cache, room, mute⟩ := ih (s.offer (.report e.header.requester (queueReport e m))).1
      have entries : reportEntries (unmarked m) (e :: es) s =
          if (s.offer (.report e.header.requester (queueReport e m))).2 then
            reportEntries (unmarked m) es (s.offer (.report e.header.requester (queueReport e m))).1
          else ({ e with mark := some m } :: (reportEntries (unmarked m) es (s.offer (.report e.header.requester (queueReport e m))).1).1,
            (reportEntries (unmarked m) es (s.offer (.report e.header.requester (queueReport e m))).1).2) := by
        rw [reportEntries, marks]
      have second : (reportEntries (unmarked m) (e :: es) s).2 =
          (reportEntries (unmarked m) es (s.offer (.report e.header.requester (queueReport e m))).1).2 := by
        rw [entries]
        split <;> rfl
      rw [owed, second]
      refine ⟨offered.trans offers, slots.trans spared.slots, cache.trans spared.cache, fun hm => ?_, fun hm => ?_⟩
      · rw [entries]
        rcases Nat.lt_or_ge s.link.queue.length 12 with hq | hq
        · obtain ⟨n, hn⟩ := Nat.exists_eq_add_of_lt hq
          have left : 12 - s.link.queue.length = n + 1 := by omega
          rw [if_pos ((offer_placed _ s).2 (.inr hq)), room (offered.linkState ▸ hm), offered.queue_length hm, left]
          simp only [leftQueued, hmark, List.length_singleton]
          exact congrArg (leftQueued m · es) (by omega)
        · have full := offer_full hm hq (.report e.header.requester (queueReport e m))
          rw [full] at room
          rw [full, if_neg Bool.false_ne_true, room hm, Nat.sub_eq_zero_of_le hq]
          simp only [leftQueued, hmark]
      · rw [entries, if_pos ((offer_placed _ s).2 (.inl hm)), mute (offered.linkState.trans hm), List.filter_cons_of_neg (by simp [hmark])]

theorem leftQueued_marked (m : ReportMark) (n : Nat) (es : List QueueEntry) : ∀ e ∈ leftQueued m n es, e.mark ≠ none := by
  induction es generalizing n with
  | nil => simp [leftQueued]
  | cons e es ih =>
    unfold leftQueued
    split
    · rename_i k hk
      exact List.forall_mem_cons.2 ⟨by simp [hk], ih _⟩
    · exact List.forall_mem_cons.2 ⟨by simp, ih _⟩
    · exact ih _

theorem reportQueued_offers (m : ReportMark) (s : State) :
    Offers ((s.lines.filter fun e => e.mark == none).map (entryReport m)) s (s.reportQueued m) ∧
    (s.reportQueued m).slots = s.slots ∧ (s.reportQueued m).cache = s.cache ∧
    (s.link.state ≠ .mute → (s.reportQueued m).lines = leftQueued m (12 - s.link.queue.length) s.lines) ∧
    (s.link.state = .mute → (s.reportQueued m).lines = s.lines.filter fun e => e.mark != none) := by
  obtain ⟨offers, slots, cache, room, mute⟩ := reportEntries_offers m s.lines s
  have placed : Offers (((s.lines.filter fun e => e.mark == none).map (entryReport m)) ++ []) s (s.reportQueued m) :=
    offers.trans (.none rfl)
  rw [List.append_nil] at placed
  exact ⟨placed, slots, cache, room, mute⟩

/-! ## All of them -/

/-- Every line without an outcome is given one. -/
def linesOver (m : ReportMark) (s : State) : State := (s.endBoth (outcomeOf m)).reportQueued m

theorem linesOver_offers {s : State} (h : SlotsHeaded s) (m : ReportMark) : Offers (owed m s) s (s.linesOver m) := by
  obtain ⟨offers, lines, -⟩ := endBoth_offers h m
  obtain ⟨offers', -⟩ := reportQueued_offers m (s.endBoth (outcomeOf m))
  rw [lines] at offers'
  exact offers.trans offers'

theorem linesOver_slots {s : State} (h : SlotsHeaded s) (m : ReportMark) :
    (∀ i, ¬InAssembly ((s.linesOver m).slots.get i)) ∧
    ∀ i, ¬InAssembly (s.slots.get i) → Carried (s.slots.get i) ((s.linesOver m).slots.get i) := by
  obtain ⟨-, -, ended, carried, -⟩ := endBoth_offers h m
  obtain ⟨-, slots, -⟩ := reportQueued_offers m (s.endBoth (outcomeOf m))
  unfold linesOver
  rw [slots]
  exact ⟨ended, carried⟩

theorem linesOver_marked {s : State} (m : ReportMark) : ∀ e ∈ (s.linesOver m).lines, e.mark ≠ none := by
  obtain ⟨-, -, -, room, mute⟩ := reportQueued_offers m (s.endBoth (outcomeOf m))
  unfold linesOver
  by_cases hm : (s.endBoth (outcomeOf m)).link.state = .mute
  · rw [mute hm]
    exact fun e he => by simpa using (List.mem_filter.1 he).2
  · rw [room hm]
    exact leftQueued_marked m _ _

theorem linesOver_ended {s : State} (h : SlotsHeaded s) (m : ReportMark) (hm : s.link.state ≠ .mute) : LinesEnded m s (s.linesOver m) := by
  obtain ⟨offers, lines, -, -, slot⟩ := endBoth_offers h m
  obtain ⟨-, slots, -, room, -⟩ := reportQueued_offers m (s.endBoth (outcomeOf m))
  obtain ⟨queue, line, -⟩ := (linesOver_offers h m).room hm
  refine ⟨queue, line, fun i hd before ha hh hb => ?_, ?_⟩
  · unfold linesOver
    rw [slots]
    obtain ⟨placed, full⟩ := slot i hd before ha hh hb
    exact ⟨fun hq => placed (.inr hq), full hm⟩
  · unfold linesOver
    rw [room (offers.linkState ▸ hm), lines, offers.queue_length hm]
    exact congrArg (leftQueued m · s.lines) (by omega)

theorem linesOver_lost {s : State} (h : SlotsHeaded s) (m : ReportMark) (hm : s.link.state = .mute) : LinesLost m s (s.linesOver m) := by
  obtain ⟨offers, lines, -, -, slot⟩ := endBoth_offers h m
  obtain ⟨-, slots, -, -, mute⟩ := reportQueued_offers m (s.endBoth (outcomeOf m))
  obtain ⟨queue, line, lost⟩ := (linesOver_offers h m).mute hm
  refine ⟨queue, fun i ha => ?_, ?_, line, lost⟩
  · obtain ⟨hd, hh⟩ := header_of_assembly h ha
    unfold linesOver
    rw [slots]
    exact (slot i hd _ ha hh rfl).1 (.inl hm)
  · unfold linesOver
    rw [mute (offers.linkState.trans hm), lines]

/-! ## What is then due at once -/

/-- With no line in assembly nothing runs and nothing is sent: PROOF-WAIT is left, and that is all. -/
theorem settle_noAssembly {s : State} (h : ∀ i, ¬InAssembly (s.slots.get i)) : s.settle = s.leaveProof := by
  have slots : s.leaveProof.slots = s.slots := by
    unfold leaveProof
    repeat' split
    all_goals rfl
  have quiet : ∀ i, ¬InAssembly (s.leaveProof.slots.get i) := slots ▸ h
  have runs (i : SlotId) : s.leaveProof.runSlot i = s.leaveProof :=
    runSlot_idle (fun hs => quiet i (.inl hs)) fun hs => quiet i (.inr (.inl hs))
  have stays : s.leaveProof.dispatch = s.leaveProof := dispatch_notReady fun i hs => quiet i (.inr (.inr hs))
  unfold settle
  dsimp only
  rw [runs, stays, runs, stays]

theorem leaveProof_seq (s : State) : s.leaveProof = { s with seq := { s.seq with state := s.leaveProof.seq.state } } := by
  unfold leaveProof
  repeat' split
  all_goals rfl

theorem leaveProof_state {s : State} (h : ∀ i, (s.slots.get i).state ≠ .ready) :
    ((∀ i, s.seq.state ≠ .proofWait i) → s.leaveProof.seq.state = s.seq.state) ∧
      ((∃ i, s.seq.state = .proofWait i) → s.leaveProof.seq.state = .running) := by
  refine ⟨fun hn => by rw [leaveProof_other hn], fun ⟨i, hi⟩ => ?_⟩
  rw [leaveProof_waits hi, if_neg (h i)]

end State
end Sys2Proof.Machine
end

section
/-! SUPPORT. STATION-CLEAR and the expiry of a close: every line without an outcome ends (R59, R60, R75, R83, R158, R159, R165). -/

namespace Sys2Proof.Machine

namespace State

/-! ## A close expiry -/

/-- The page as a close expiry leaves it (R158, R159). -/
def pageClosing (s : State) : State :=
  { s with seq := { s.seq with
      page := .closed, closing := some (expiryCause s.seq.closing), closeTimer := 0, expiryHeld := false
      acc := { s.seq.acc with closed := true } } }

theorem expireClose_eq (s : State) : s.expireClose = (s.pageClosing.linesOver .closed).settle := rfl

theorem expireClose_expired {s : State} (h : SlotsHeaded s) : CloseExpired s s.expireClose := by
  have headed : SlotsHeaded s.pageClosing := h
  obtain ⟨ended, -⟩ := linesOver_slots headed .closed
  have offers := linesOver_offers headed .closed
  have marked := linesOver_marked (s := s.pageClosing) .closed
  have lines (hm : s.link.state ≠ .mute) : LinesEnded .closed s (s.pageClosing.linesOver .closed) := linesOver_ended headed .closed hm
  have lost (hm : s.link.state = .mute) : LinesLost .closed s (s.pageClosing.linesOver .closed) := linesOver_lost headed .closed hm
  rw [expireClose_eq, settle_noAssembly ended]
  generalize s.pageClosing.linesOver .closed = u at ended offers marked lines lost
  obtain ⟨stays, leaves⟩ := leaveProof_state fun i hr => ended i (.inr (.inr hr))
  rw [offers.seqState] at stays leaves
  rw [leaveProof_seq]
  have seq := offers.seq
  refine ⟨(congrArg Sequencer.page seq :), (congrArg Sequencer.closeTimer seq :), (congrArg Sequencer.expiryHeld seq :), fun hc => ?_,
    fun hc => ?_, lines, lost, (congrArg (fun q => q.acc.closed) seq :), ended, marked, (congrArg Sequencer.galley seq :),
    (congrArg Sequencer.owner seq :), offers.head, offers.out, offers.fetches, offers.index, offers.memory, stays, leaves⟩
  · have cause : u.seq.closing = some (expiryCause s.seq.closing) := (congrArg Sequencer.closing seq :)
    rcases hc with hc | hc <;> exact cause.trans (by rw [hc]; rfl)
  · have cause : u.seq.closing = some (expiryCause s.seq.closing) := (congrArg Sequencer.closing seq :)
    exact cause.trans (by rw [hc]; rfl)

/-! ## STATION-CLEAR -/

/-- The fetch list keeps its exchanging entry, and nothing waits for the room (R75). -/
theorem clearFetches_eq {s : State} (h : ∀ i, ¬InAssembly (s.slots.get i)) :
    (if (s.fetches.filter fun f => f.state == .exchanging).length < s.fetches.length then
      (s.setFetches (s.fetches.filter fun f => f.state == .exchanging)).roomEvent else s) =
        { s with fetches := s.fetches.filter fun f => f.state == .exchanging } := by
  have idle (i : SlotId) : ¬WaitsForRoom (s.slots.get i) := fun ⟨hs, _⟩ =>
    h i (hs.imp_right .inl)
  split
  · exact roomEvent_idle (idle _) (idle _)
  · rename_i hn
    have all : s.fetches.filter (fun f => f.state == .exchanging) = s.fetches :=
      List.Sublist.eq_of_length_le List.filter_sublist (Nat.not_lt.1 hn)
    rw [all]

/-- What an exposing slot refers to (R83). -/
def exposedRefs (s : State) : List Nat :=
  match s.exposingSlot with
  | some i => (s.slots.get i).list.filterMap Placement.ref
  | none => []

/-- STATION-CLEAR but for what is then due at once. -/
def fetchesCleared (s : State) : State := { s with fetches := s.fetches.filter fun f => f.state == .exchanging }

def cacheCleared (s : State) : State := { s with cache := s.cache.keepOnly s.exposedRefs }

theorem takeStationClear_eq {s : State} (h : SlotsHeaded s) :
    s.takeStationClear = (s.linesOver .cleared).fetchesCleared.cacheCleared.leaveProof := by
  obtain ⟨ended, -⟩ := linesOver_slots h .cleared
  have unfolded : s.takeStationClear = State.settle (cacheCleared
      (if ((s.linesOver .cleared).fetches.filter fun f => f.state == .exchanging).length < (s.linesOver .cleared).fetches.length then
        ((s.linesOver .cleared).setFetches ((s.linesOver .cleared).fetches.filter fun f => f.state == .exchanging)).roomEvent
      else s.linesOver .cleared)) := rfl
  rw [unfolded, clearFetches_eq ended]
  exact settle_noAssembly (s := (s.linesOver .cleared).fetchesCleared.cacheCleared) ended

theorem exposedRefs_none {s : State} (h : ∀ i, (s.slots.get i).state ≠ .exposing) : s.exposedRefs = [] := by
  have none : s.exposingSlot = none := (if_neg (h .zero)).trans (if_neg (h .one))
  unfold exposedRefs
  rw [none]

theorem exposingSlot_one {s : State} {i : SlotId} (hi : (s.slots.get i).state = .exposing)
    (ho : (s.slots.get i.other).state ≠ .exposing) : s.exposingSlot = some i := by
  cases i with
  | zero => exact if_pos hi
  | one => exact (if_neg ho).trans (if_pos hi)

theorem exposedRefs_one {s : State} {i : SlotId} (hi : (s.slots.get i).state = .exposing)
    (ho : (s.slots.get i.other).state ≠ .exposing) : s.exposedRefs = (s.slots.get i).list.filterMap Placement.ref := by
  unfold exposedRefs
  rw [exposingSlot_one hi ho]

theorem linesOver_cache {s : State} (h : ∀ i, ¬InAssembly (s.slots.get i)) (m : ReportMark) : (s.linesOver m).cache = s.cache := by
  obtain ⟨-, -, cache, -⟩ := reportQueued_offers m (s.endBoth (outcomeOf m))
  have both : s.endBoth (outcomeOf m) = s := by
    unfold endBoth
    dsimp only
    rw [endAssembly_none (h _), endAssembly_none (h _)]
  exact cache.trans (congrArg State.cache both)

end State

theorem keepOnly_nil (c : Cache) : c.keepOnly [] = { entries := [], recency := [] } := by simp [Cache.keepOnly]

theorem keepOnly_pins (refs : List Nat) (c : Cache) : ∀ e ∈ (c.keepOnly refs).entries, e.1 ∈ refs ∧ e.2.pins = refs.count e.1 := by
  intro e he
  obtain ⟨x, hx, rfl⟩ := List.mem_map.1 he
  exact ⟨by simpa using (List.mem_filter.1 hx).2, rfl⟩

/-- A slot that is not in assembly and not EXPOSING does not come to be EXPOSING as lines end. -/
theorem State.linesOver_exposing {s : State} (h : SlotsHeaded s) (m : ReportMark) (i : SlotId) :
    ((s.linesOver m).slots.get i).state = .exposing ↔ (s.slots.get i).state = .exposing := by
  by_cases ha : InAssembly (s.slots.get i)
  · obtain ⟨hd, hh⟩ := header_of_assembly h ha
    obtain ⟨-, -, -, -, slot⟩ := State.endBoth_offers h m
    obtain ⟨-, slots, -⟩ := State.reportQueued_offers m (s.endBoth (outcomeOf m))
    obtain ⟨placed, full⟩ := slot i hd _ ha hh rfl
    refine iff_of_false ?_ fun he => by rcases ha with ha | ha | ha <;> simp [he] at ha
    unfold State.linesOver
    rw [slots]
    by_cases hm : s.link.state = .mute
    · rw [placed (.inl hm)]
      simp [Slot.vacant]
    · rcases Nat.lt_or_ge (s.link.queue.length + if i = s.slots.older then 0 else (slotOwes m (s.slots.get s.slots.older)).length) 12
        with hq | hq
      · rw [placed (.inr hq)]
        simp [Slot.vacant]
      · rw [full hm hq]
        simp [State.reportingSlot]
  · obtain ⟨-, carried⟩ := State.linesOver_slots h m
    rw [(carried i ha).state ha]

/-- Settles O50: the command is taken, every line ends, and the fetch list and the cache keep what the exchange and the head use. -/
theorem stationClearEndsTheWork : Obligations.StationClearEndsTheWork := by
  refine fun h s hc headed => ?_
  have headed' : SlotsHeaded (arrived h s) := headed
  have taken : exec (.stationClear h) s = .next (answers true (arrived h s).takeStationClear) :=
    control_does hc rfl rfl (c := .stationClear) rfl
  rw [taken, State.takeStationClear_eq headed', State.leaveProof_seq]
  obtain ⟨ended, carried⟩ := State.linesOver_slots headed' .cleared
  have offers := State.linesOver_offers headed' .cleared
  have marked := State.linesOver_marked (s := arrived h s) .cleared
  have lines := State.linesOver_ended headed' .cleared (State.arrived_notMute h s)
  have exposing := State.linesOver_exposing headed' .cleared
  have cache (hn : ∀ i, ¬InAssembly (s.slots.get i)) : ((arrived h s).linesOver .cleared).cache = s.cache :=
    State.linesOver_cache (s := arrived h s) hn .cleared
  generalize (arrived h s).linesOver .cleared = u at ended carried offers marked lines exposing cache
  obtain ⟨stays, leaves⟩ := State.leaveProof_state (s := u.fetchesCleared.cacheCleared) fun i hr => ended i (.inr (.inr hr))
  have seqState : u.fetchesCleared.cacheCleared.seq.state = s.seq.state := offers.seqState
  rw [seqState] at stays leaves
  have notAssembly (i : SlotId) (hi : (s.slots.get i).state = .exposing) : ¬InAssembly ((arrived h s).slots.get i) := by
    simp [InAssembly, show ((arrived h s).slots.get i).state = .exposing from hi]
  have refs (i : SlotId) (hi : (s.slots.get i).state = .exposing) (ho : (s.slots.get i.other).state ≠ .exposing) :
      u.fetchesCleared.exposedRefs = (s.slots.get i).list.filterMap Placement.ref := by
    have same : u.fetchesCleared.exposedRefs = (u.slots.get i).list.filterMap Placement.ref :=
      State.exposedRefs_one (s := u.fetchesCleared) ((exposing i).2 hi) (mt (exposing i.other).1 ho)
    rw [same, (carried i (notAssembly i hi)).list]
    rfl
  have seq := offers.seq
  refine ⟨_, rfl, List.mem_append_right _ (.head _), lines, ended, marked, congrArg (List.filter _) offers.fetches, fun hn => ?_,
    fun i rs hi ho hrs => ?_, fun i hi => ⟨(exposing i).2 hi, (carried i (notAssembly i hi)).list⟩, offers.tables, offers.patrol,
    offers.index, offers.memory, (congrArg Directory.entries offers.dir :), (congrArg Directory.state offers.dir :), offers.head,
    (congrArg Sequencer.page seq :), (congrArg Sequencer.owner seq :), (congrArg Sequencer.columns seq :),
    (congrArg Sequencer.depth seq :), (congrArg Sequencer.galley seq :), (congrArg Sequencer.exposedSinceCut seq :),
    (congrArg Sequencer.cutPending seq :), (congrArg Sequencer.stopPending seq :), (congrArg Sequencer.proof seq :),
    (congrArg Sequencer.alarm seq :), (congrArg Sequencer.closeTimer seq :), stays, leaves⟩
  · have none : u.fetchesCleared.exposedRefs = [] := State.exposedRefs_none (s := u.fetchesCleared) fun i hi => hn i ((exposing i).1 hi)
    exact (congrArg u.cache.keepOnly none).trans (keepOnly_nil u.cache)
  · have kept : u.cache.keepOnly u.fetchesCleared.exposedRefs = u.cache.keepOnly rs := by rw [refs i hi ho, hrs]
    refine ⟨rfl, fun e he => keepOnly_pins rs u.cache e ?_, fun hn => ?_⟩
    · rw [← kept]
      exact he
    · refine (congrArg Cache.entries kept).trans ?_
      have both (j : SlotId) : ¬InAssembly (s.slots.get j) := by
        rcases State.slotId_cases i j with rfl | rfl
        · exact notAssembly j hi
        · exact hn
      rw [cache both]
      rfl

end Sys2Proof.Machine
end

section
/-! SUPPORT. The close timer and the end of a close (R158 to R160). -/

namespace Sys2Proof.Machine

namespace State

theorem timerRuns_iff {s : State} : s.timerRuns = true ↔
    0 < s.seq.closeTimer ∧ (s.seq.page = .opened ∨ (s.seq.page = .closed ∧ s.seq.closing ≠ none)) := by
  simp [timerRuns, Option.isSome_iff_ne_none]

theorem headBusy_iff {s : State} : s.headBusy = true ↔ s.seq.state = .exposing ∨ s.seq.state = .cutting := by simp [headBusy]

theorem drained_iff {s : State} : s.drained = true ↔ (∀ e ∈ s.lines, e.mark ≠ none) ∧
    (∀ i, ¬InAssembly (s.slots.get i) ∧ (s.slots.get i).state ≠ .exposing) ∧ s.seq.state ≠ .exposing ∧ s.seq.state ≠ .cutting := by
  have slot (t : Slot) : t.inOrder = false ↔ ¬InAssembly t ∧ t.state ≠ .exposing := by
    rw [Bool.eq_false_iff, ne_eq, inOrder_iff, not_or]
  have busy : s.headBusy = false ↔ s.seq.state ≠ .exposing ∧ s.seq.state ≠ .cutting := by
    rw [Bool.eq_false_iff, ne_eq, headBusy_iff, not_or]
  have both (P : Slot → Prop) : (∀ i, P (s.slots.get i)) ↔ P s.slots.slot0 ∧ P s.slots.slot1 :=
    ⟨fun h => ⟨h .zero, h .one⟩, fun h i => by
      cases i
      · exact h.1
      · exact h.2⟩
  rw [both fun t => ¬InAssembly t ∧ t.state ≠ .exposing]
  simp only [drained, Bool.and_eq_true, Bool.not_eq_true', slot, busy, List.all_eq_true, Option.isSome_iff_ne_none, and_assoc]

end State

theorem exec_closeTimerTick (s : State) :
    exec .closeTimerTick s = .next (if s.timerRuns then (unchanged s).timerFalls else unchanged s) := rfl

theorem exec_closeExpiry (s : State) : exec .closeExpiry s =
    .next (if s.timerRuns && s.seq.closeTimer == 1 && !s.headBusy then (unchanged s).expireClose else unchanged s) := rfl

theorem exec_closeComplete (s : State) : exec .closeComplete s =
    .next (if s.seq.closing.isSome && s.drained then (unchanged s).completeClose else unchanged s) := rfl

namespace State

theorem completeClose_cuts {s : State} (h : s.seq.state = .stopped ∨ s.seq.state = .running) :
    s.completeClose = s.sendCut .close false := by
  rcases h with h | h <;> simp only [completeClose, h]

theorem completeClose_fault {s : State} {cause : CloseCause} (h : s.seq.state = .fault) (hc : s.seq.closing = some cause) :
    s.completeClose = pageEnded cause s := by
  simp only [completeClose, h]
  exact endClose_pageEnded hc

/-- The close ends with its notice in the queue. -/
theorem pageEnded_room {s : State} (hm : s.link.state ≠ .mute) (hq : s.link.queue.length < 12) (cause : CloseCause) :
    pageEnded cause s = { s with
      link := { s.link with
        queue := State.insertTx
          { frame := .notice (s.seq.owner.getD 0) (.pageEnd cause s.seq.galley s.seq.acc), attempts := 0, onLink := false }
          s.link.queue }
      seq := { s.seq with closing := none, closeTimer := 0, expiryHeld := false } } := by
  have told : offeredNotice (s.seq.owner.getD 0) (.pageEnd cause s.seq.galley s.seq.acc) s = { s with link := { s.link with
      queue := State.insertTx
        { frame := .notice (s.seq.owner.getD 0) (.pageEnd cause s.seq.galley s.seq.acc), attempts := 0, onLink := false }
        s.link.queue } } := (if_neg hm).trans (if_pos hq)
  unfold pageEnded
  rw [told]

end State

/-- Settles O54: the timer by its count and the head, the expiry by the ends of its lines, and the end of a drained close. -/
theorem closeTimerExpiryAndEnd : Obligations.CloseTimerExpiryAndEnd := by
  refine ⟨fun s hp => ⟨fun ht => ?_, fun ht hb => ?_, fun ht he hc headed c hcmd => ?_⟩, fun s cause hc hl hs =>
    ⟨fun hq => ?_, fun hq => ?_, fun hq hm hroom => ?_⟩⟩
  · have runs : s.timerRuns = true := State.timerRuns_iff.2 ⟨by omega, hp⟩
    have more : ¬s.seq.closeTimer = 1 := by omega
    rw [exec_closeTimerTick, if_pos runs]
    exact congrArg Host.Outcome.next (if_neg more)
  · have runs : s.timerRuns = true := State.timerRuns_iff.2 ⟨by omega, hp⟩
    have busy : s.headBusy = true := State.headBusy_iff.2 hb
    rw [exec_closeTimerTick, if_pos runs, exec_closeExpiry, if_neg (by simp [busy])]
    exact ⟨congrArg Host.Outcome.next ((if_pos ht).trans (if_pos busy)), rfl⟩
  · have runs : s.timerRuns = true := State.timerRuns_iff.2 ⟨by omega, hp⟩
    have free : ¬s.headBusy = true := fun hb => (State.headBusy_iff.1 hb).elim he hc
    refine ⟨(unchanged s).expireClose, ?_, State.expireClose_expired (s := unchanged s) headed⟩
    rcases hcmd with rfl | rfl
    · rw [exec_closeTimerTick, if_pos runs]
      exact congrArg Host.Outcome.next ((if_pos ht).trans (if_neg free))
    · rw [exec_closeExpiry, if_pos (by simp [runs, ht, free])]
  all_goals
    have completes (he : s.seq.state ≠ .exposing) (hcut : s.seq.state ≠ .cutting) :
        exec .closeComplete s = .next (unchanged s).completeClose := by
      have drained : s.drained = true := State.drained_iff.2 ⟨hl, hs, he, hcut⟩
      rw [exec_closeComplete, if_pos (by simp [hc, drained])]
  · rw [completes (by rcases hq with hq | hq <;> simp [hq]) (by rcases hq with hq | hq <;> simp [hq]),
      State.completeClose_cuts (s := unchanged s) hq]
    rfl
  · rw [completes (by simp [hq]) (by simp [hq]), State.completeClose_fault (s := unchanged s) hq hc]
  · rw [completes (by simp [hq]) (by simp [hq]), State.completeClose_fault (s := unchanged s) hq hc,
      State.pageEnded_room (s := unchanged s) hm hroom]
    rfl

end Sys2Proof.Machine
end

section
/-! SUPPORT. CUT-DONE (R154, R158, R160). -/

namespace Sys2Proof.Machine

namespace State

theorem leaveProof_left {s : State} (h : ∀ i, (s.slots.get i).state ≠ .ready) : s.leaveProof.leaveProof = s.leaveProof := by
  refine leaveProof_other fun i hi => ?_
  obtain ⟨stays, leaves⟩ := leaveProof_state h
  by_cases hw : ∃ j, s.seq.state = .proofWait j
  · simp [leaves hw] at hi
  · have other : ∀ j, s.seq.state ≠ .proofWait j := fun j hj => hw ⟨j, hj⟩
    rw [stays other] at hi
    exact other i hi

/-- An expiry leaves nothing that is due at once. -/
theorem settle_expireClose {s : State} (h : SlotsHeaded s) : s.expireClose.settle = s.expireClose := by
  obtain ⟨ended, -⟩ := linesOver_slots (s := s.pageClosing) h .closed
  have slots : (s.pageClosing.linesOver .closed).leaveProof.slots = (s.pageClosing.linesOver .closed).slots := by rw [leaveProof_seq]
  rw [expireClose_eq, settle_noAssembly ended, settle_noAssembly (slots ▸ ended), leaveProof_left fun i hr => ended i (.inr (.inr hr))]

theorem takeHeldExpiry_none {s : State} (h : s.seq.expiryHeld = false) : s.takeHeldExpiry = s := if_neg (by simp [h])

theorem takeHeldExpiry_takes {s : State} (h : s.seq.expiryHeld = true) (he : s.seq.state ≠ .exposing) (hc : s.seq.state ≠ .cutting) :
    s.takeHeldExpiry = s.expireClose := by
  have free : ¬s.headBusy = true := fun hb => (headBusy_iff.1 hb).elim he hc
  exact if_pos (by simp [h, free])

/-- A held expiry that is taken is taken whole. -/
theorem takeHeldExpiry_expired {s : State} (h : SlotsHeaded s) (hx : s.seq.expiryHeld = true) (he : s.seq.state ≠ .exposing)
    (hc : s.seq.state ≠ .cutting) : CloseExpired s s.takeHeldExpiry.settle := by
  rw [takeHeldExpiry_takes hx he hc, settle_expireClose h]
  exact expireClose_expired h

/-- What a notice that is offered leaves, but for the transmit queue and the accumulator. -/
theorem offeredNotice_spared (d : Nat) (n : Notice) (s : State) : Spared s (offeredNotice d n s) :=
  notify_offered d n s ▸ notify_spared d n s

theorem pageEnded_slots (cause : CloseCause) (s : State) : (pageEnded cause s).slots = s.slots := (offeredNotice_spared ..).slots

/-- The sequencer at the end of a close, but for the accumulator. -/
theorem pageEnded_seq (cause : CloseCause) (s : State) : { (pageEnded cause s).seq with acc := s.seq.acc } =
    { s.seq with closing := none, closeTimer := 0, expiryHeld := false } :=
  congrArg (fun q : Sequencer => { q with closing := none, closeTimer := 0, expiryHeld := false })
    (offeredNotice_spared (s.seq.owner.getD 0) (.pageEnd cause s.seq.galley s.seq.acc) s).seq

theorem pageEnded_rest {cause : CloseCause} {s : State} (h : SlotsRest s) : SlotsRest (pageEnded cause s) := by
  obtain ⟨slots, seq⟩ := h
  have state : (pageEnded cause s).seq.state = s.seq.state := (congrArg Sequencer.state (pageEnded_seq cause s) :)
  exact ⟨fun i => pageEnded_slots cause s ▸ slots i, fun i => state ▸ seq i⟩

end State

/-- The state in which a cut leaves the sequencer (R154). -/
def cutLeft (r : CutRecord) (s : State) : State :=
  { s with
    out := [], head := .none
    seq := { s.seq with
      state := if r.runs = true ∧ r.kind ≠ .close then .running else .stopped
      galley := if r.renumbers = true then { page := (s.seq.galley.page + 1) % 65536, column := 0, line := 0 } else s.seq.galley
      exposedSinceCut := false, stopPending := false, cutRecord := none } }

theorem cutLeft_state (r : CutRecord) (s : State) : (cutLeft r s).seq.state = .running ∨ (cutLeft r s).seq.state = .stopped := by
  have state : (cutLeft r s).seq.state = if r.runs = true ∧ r.kind ≠ .close then .running else .stopped := rfl
  rw [state]
  split
  · exact .inl rfl
  · exact .inr rfl

theorem exec_cutDone {s : State} {r : CutRecord} (hh : s.head = .cut) (hs : s.seq.state = .cutting) (hr : s.seq.cutRecord = some r) :
    exec .cutDone s = .next (State.settle (State.takeHeldExpiry (if r.kind = .close then (cutLeft r s).endClose else cutLeft r s))) := by
  have state : (if r.runs && r.kind != .close then SeqState.running else .stopped) =
      if r.runs = true ∧ r.kind ≠ .close then .running else .stopped := ite_of_iff (by simp) rfl rfl
  have made : (s.fresh.setHead .none).mapSeq (State.cutMade r) = cutLeft r s := by
    unfold State.cutMade
    rw [state]
    rfl
  change execCutDone s = _
  simp only [execCutDone, State.fresh_eq, State.head_setOut, State.seq_setOut, hh, hs, hr, State.cutEnds]
  rw [← State.fresh_eq, made]

/-- Settles O52: the cut by its kind, and a held expiry before what is due at once. -/
theorem cutDoneMakesTheCut : Obligations.CutDoneMakesTheCut := by
  intro s u r hh hs hr hu
  obtain rfl : u = cutLeft r s := hu
  have done := exec_cutDone hh hs hr
  have notHead : (cutLeft r s).seq.state ≠ .exposing ∧ (cutLeft r s).seq.state ≠ .cutting ∧
      ∀ i, (cutLeft r s).seq.state ≠ .proofWait i := by
    rcases cutLeft_state r s with h | h <;> simp [h]
  obtain ⟨notExposing, notCutting, notProof⟩ := notHead
  refine ⟨fun hk hx => ?_, fun hk hx headed => ?_, fun cause hk hc => ?_⟩
  · rw [done, if_neg hk, State.takeHeldExpiry_none (s := cutLeft r s) hx]
    refine ⟨rfl, fun rest => congrArg Host.Outcome.next (State.settle_rest ⟨rest.1, notProof⟩)⟩
  · rw [done, if_neg hk]
    exact ⟨_, rfl, State.takeHeldExpiry_expired (s := cutLeft r s) headed hx notExposing notCutting⟩
  · have closes : (cutLeft r s).endClose = pageEnded cause (cutLeft r s) := State.endClose_pageEnded hc
    have seq := State.pageEnded_seq cause (cutLeft r s)
    rw [done, if_pos hk, closes, State.takeHeldExpiry_none (congrArg Sequencer.expiryHeld seq :)]
    refine ⟨rfl, fun rest hm => ?_⟩
    have restLeft : SlotsRest (cutLeft r s) := ⟨rest.1, notProof⟩
    rw [State.settle_rest (State.pageEnded_rest restLeft)]
    have stopped : (cutLeft r s).seq.state = .stopped := if_neg fun h => h.2 hk
    refine ⟨_, rfl, (State.offeredNotice_spared ..).head, (congrArg Sequencer.state seq :).trans stopped,
      (congrArg Sequencer.closing seq :), (congrArg Sequencer.closeTimer seq :), (congrArg Sequencer.expiryHeld seq :),
      (congrArg Sequencer.exposedSinceCut seq :), (congrArg Sequencer.page seq :), (congrArg Sequencer.galley seq :), fun hq => ?_⟩
    rw [State.pageEnded_room (s := cutLeft r s) hm hq]
    rfl

end Sys2Proof.Machine
end

section
/-! SUPPORT. What the passes of a slot leave of the head, of the transmit queue and of the other slot, and what `settle` leaves of a
sequencer that is not RUNNING (R39, R45, R150). -/

namespace Sys2Proof.Machine

/-- The slot as it was, but for the passes that hold it back. -/
def SameLine (t u : Slot) : Prop := ∃ n, u = { t with held := n }

namespace SameLine

theorem refl (t : Slot) : SameLine t t := ⟨t.held, rfl⟩

theorem trans {t u v : Slot} (h : SameLine t u) (k : SameLine u v) : SameLine t v := by
  obtain ⟨m, rfl⟩ := h
  obtain ⟨n, rfl⟩ := k
  exact ⟨n, rfl⟩

theorem state {t u : Slot} (h : SameLine t u) : u.state = t.state := by
  obtain ⟨n, rfl⟩ := h
  rfl

theorem assembly {t u : Slot} (h : SameLine t u) : InAssembly u ↔ InAssembly t := by
  obtain ⟨n, rfl⟩ := h
  rfl

theorem freed {t : Slot} (h : ¬InAssembly t) : SameLine t (freed t) := by
  refine ⟨0, ?_⟩
  unfold Machine.freed
  split
  · rename_i hs
    exact absurd (.inr (.inl hs)) h
  · rename_i hs _
    exact absurd (.inl hs) h
  · rfl

end SameLine

/-- From `s` to `t` slot `i` works: nothing leaves the transmit queue, nothing is sent to the head, and the other slot's line, unless it is
in assembly, is as it was. -/
structure SlotWorks (i : SlotId) (s t : State) : Prop where
  head   : t.head = s.head
  queue  : ∀ x ∈ s.link.queue, x ∈ t.link.queue
  beside : ¬InAssembly (s.slots.get i.other) → SameLine (s.slots.get i.other) (t.slots.get i.other)

namespace SlotWorks

section
variable {i : SlotId} {s t u : State}

theorem of (hh : t.head = s.head) (hq : t.link = s.link) (ho : t.slots.get i.other = s.slots.get i.other) : SlotWorks i s t :=
  ⟨hh, fun _ hx => hq ▸ hx, fun _ => ho ▸ .refl _⟩

theorem refl (i : SlotId) (s : State) : SlotWorks i s s := of rfl rfl rfl

theorem trans (h : SlotWorks i s t) (k : SlotWorks i t u) : SlotWorks i s u where
  head := k.head.trans h.head
  queue x hx := k.queue x (h.queue x hx)
  beside hn := (h.beside hn).trans (k.beside (mt (h.beside hn).assembly.1 hn))

end
end SlotWorks

namespace State

theorem putSlot_works (i : SlotId) (v : Slot) (s : State) : SlotWorks i s (s.putSlot i v) :=
  .of rfl rfl ((Slots.get_put ..).trans (if_neg i.other_ne))

theorem resolveAt_works (i p n) (s : State) : SlotWorks i s (s.resolveAt i p n) := by
  unfold resolveAt
  split
  · refine SlotWorks.trans ?_ (putSlot_works i _ _)
    exact .of rfl rfl rfl
  · exact .refl i s

theorem secondStep_works (i k) (s : State) : SlotWorks i s (s.secondStep i k) := by
  unfold secondStep
  split
  · exact putSlot_works i _ s
  · refine SlotWorks.trans ?_ (putSlot_works i _ _)
    exact .of rfl rfl rfl

theorem thirdStep_works (i p k) (s : State) : SlotWorks i s (s.thirdStep i p k) := by
  unfold thirdStep
  split
  · exact putSlot_works i _ s
  · split
    · exact (putSlot_works i _ s).trans (putSlot_works i _ _)
    · split
      · unfold fetchFor
        split
        · exact resolveAt_works i _ _ s
        · refine SlotWorks.trans ?_ (putSlot_works i _ _)
          exact .of rfl rfl rfl
      · exact putSlot_works i _ s

theorem visit_works (i p k) (s : State) : SlotWorks i s (s.visit i p k) := by
  unfold visit
  split
  · exact resolveAt_works i _ _ s
  · split
    · exact secondStep_works i _ s
    · exact thirdStep_works i _ _ s

theorem passOn_works (i) (s : State) : SlotWorks i s (s.passOn i) := putSlot_works i _ s

theorem walk_works (n i) (s : State) : SlotWorks i s (walk n i s) := by
  induction n generalizing s with
  | zero => exact .refl i s
  | succ n ih =>
    simp only [walk]
    split
    · exact .refl i s
    · split
      · exact .refl i s
      · split
        · split
          · exact ((visit_works i _ _ s).trans (passOn_works i _)).trans (ih _)
          · exact visit_works i _ _ s
        · exact (passOn_works i s).trans (ih _)

/-- The other slot is held back no more. -/
theorem freed_works (i : SlotId) (s : State) :
    SlotWorks i s { s with slots := s.slots.put i.other (freed (s.slots.get i.other)) } where
  head := rfl
  queue _ hx := hx
  beside hn := by
    have self : (s.slots.put i.other (freed (s.slots.get i.other))).get i.other = freed (s.slots.get i.other) :=
      (Slots.get_put ..).trans (if_pos rfl)
    exact (congrArg (SameLine (s.slots.get i.other)) self).mpr (.freed hn)

theorem passesOver_works (i) (s : State) : SlotWorks i s (s.passesOver i) := by
  by_cases h : (s.slots.get i.other).held = 0
  · rw [passesOver_free h]
    exact .refl i s
  · rw [passesOver_frees (Nat.pos_of_ne_zero h)]
    exact freed_works i s

theorem passEnded_works (i) (s : State) : SlotWorks i s (s.passEnded i) := by
  match hh : (s.slots.get i.other).held with
  | 0 =>
    rw [passEnded_free hh]
    exact .refl i s
  | 1 =>
    rw [passEnded_frees hh]
    exact freed_works i s
  | n + 2 =>
    rw [passEnded_holds hh]
    refine ⟨rfl, fun _ hx => hx, fun _ => ?_⟩
    have self : (s.slots.put i.other { s.slots.get i.other with held := n + 1 }).get i.other =
      { s.slots.get i.other with held := n + 1 } := (Slots.get_put ..).trans (if_pos rfl)
    exact ⟨n + 1, self⟩

theorem mem_placed {x : TxEntry} {q : List TxEntry} (fs : List TxFrame) (hx : x ∈ q) : x ∈ placed fs q := by
  induction fs generalizing q with
  | nil => exact hx
  | cons f fs ih => exact ih ((mem_insertTx ..).2 (.inr hx))

theorem offers_queue {fs : List TxFrame} {s t : State} (h : Offers fs s t) : ∀ x ∈ s.link.queue, x ∈ t.link.queue := by
  intro x hx
  by_cases hm : s.link.state = .mute
  · rwa [(h.mute hm).1]
  · rw [(h.room hm).1]
    exact mem_placed _ hx

theorem finishLine_works (i o w g) (s : State) : SlotWorks i s (s.finishLine i o w g) := by
  cases hh : (s.slots.get i).header with
  | none =>
    have same : s.finishLine i o w g = s := by
      unfold finishLine
      simp only [slot_eq, hh]
    rw [same]
    exact .refl i s
  | some hd =>
    obtain ⟨offers, -, -, -, other⟩ := finishLine_offers hh o w g
    refine ⟨offers.head, offers_queue offers, fun hn => ?_⟩
    rw [other]
    split
    · exact .refl _
    · exact .freed hn

theorem measureSlot_works (i) (s : State) : SlotWorks i s (s.measureSlot i) := by
  unfold measureSlot
  dsimp only
  split
  · exact .refl i s
  · split
    · exact putSlot_works i _ s
    · exact finishLine_works i _ _ _ s

theorem endPass_works (i) (s : State) : SlotWorks i s (s.endPass i) := by
  unfold endPass
  dsimp only
  split
  · exact (passesOver_works i s).trans (measureSlot_works i _)
  · exact (passesOver_works i s).trans (putSlot_works i _ _)

theorem passes_works (n i) (s : State) : SlotWorks i s (passes n i s) := by
  induction n generalizing s with
  | zero => exact .refl i s
  | succ n ih =>
    simp only [passes]
    have walked := walk_works ((s.slot i).list.length - ((s.slot i).pass.map Pass.pos).getD 0) i s
    split
    · exact walked
    · split
      · split
        · split
          · exact walked.trans (putSlot_works i _ _)
          · exact ((walked.trans (putSlot_works i _ _)).trans (passEnded_works i _)).trans (ih _)
        · exact walked.trans (endPass_works i _)
      · exact walked

theorem runSlot_works (i) (s : State) : SlotWorks i s (s.runSlot i) := by
  unfold runSlot
  split
  · split
    · exact passes_works _ i s
    · exact .refl i s
  · split
    · exact measureSlot_works i s
    · exact .refl i s
  all_goals exact .refl i s

/-! ## Slots that are not in assembly, and a sequencer that is not RUNNING -/

/-- From `s` to `t` the work that is due goes on: nothing leaves the transmit queue, and a line that is not in assembly stays. -/
structure GoesOn (s t : State) : Prop where
  queue : ∀ x ∈ s.link.queue, x ∈ t.link.queue
  lines : ∀ i, ¬InAssembly (s.slots.get i) → SameLine (s.slots.get i) (t.slots.get i)

theorem GoesOn.refl (s : State) : GoesOn s s := ⟨fun _ h => h, fun _ _ => .refl _⟩

theorem GoesOn.trans {s t u : State} (h : GoesOn s t) (k : GoesOn t u) : GoesOn s u where
  queue x hx := k.queue x (h.queue x hx)
  lines i hn := (h.lines i hn).trans (k.lines i (mt (h.lines i hn).assembly.1 hn))

theorem runSlot_goesOn (i) (s : State) : GoesOn s (s.runSlot i) := by
  have works := runSlot_works i s
  refine ⟨works.queue, fun j hn => ?_⟩
  rcases slotId_cases i j with rfl | rfl
  · rw [runSlot_idle (fun h => hn (.inl h)) fun h => hn (.inr (.inl h))]
    exact .refl _
  · exact works.beside hn

theorem offeredNotice_queue (d : Nat) (n : Notice) (s : State) : ∀ x ∈ s.link.queue, x ∈ (offeredNotice d n s).link.queue := by
  intro x hx
  unfold offeredNotice
  split
  · exact hx
  · unfold noticed
    split
    · exact (mem_insertTx ..).2 (.inr hx)
    · exact hx

theorem offeredNotice_goesOn (d : Nat) (n : Notice) (s : State) : GoesOn s (offeredNotice d n s) :=
  ⟨offeredNotice_queue d n s, fun _ _ => (offeredNotice_spared d n s).slots ▸ .refl _⟩

theorem takeReady_goesOn {i : SlotId} {s : State} (hr : (s.slots.get i).state = .ready) : GoesOn s (s.takeReady i) := by
  unfold takeReady
  split
  · rw [notify_offered]
    refine GoesOn.trans ?_ (offeredNotice_goesOn _ _ _)
    exact ⟨fun _ h => h, fun _ _ => .refl _⟩
  · refine ⟨fun _ h => h, fun j hn => ?_⟩
    have other : j ≠ i := fun hj => hn (hj ▸ .inr (.inr hr))
    have same : (s.transfer i).slots.get j = s.slots.get j := (Slots.get_put ..).trans (if_neg other)
    exact same ▸ .refl _

theorem dispatch_goesOn (s : State) : GoesOn s s.dispatch := by
  unfold dispatch
  split
  · split
    · split
      · rename_i hr
        exact takeReady_goesOn hr
      · exact .refl s
    · exact .refl s
  · exact .refl s

theorem settle_goesOn (s : State) : GoesOn s s.settle := by
  have left : GoesOn s s.leaveProof := by
    rw [leaveProof_seq]
    exact ⟨fun _ h => h, fun _ _ => .refl _⟩
  exact (((left.trans (runSlot_goesOn _ _)).trans (dispatch_goesOn _)).trans (runSlot_goesOn _ _)).trans (dispatch_goesOn _)

/-- A sequencer that waits neither for a line nor for a PROCEED stays, and the head is sent nothing. -/
theorem settle_stands {s : State} (hr : s.seq.state ≠ .running) (hp : ∀ i, s.seq.state ≠ .proofWait i) :
    s.settle.seq.state = s.seq.state ∧ s.settle.head = s.head := by
  have run (i) (u : State) : (u.runSlot i).seq.state = u.seq.state := (runSlot_steady i u).seq
  unfold settle
  dsimp only
  rw [leaveProof_other hp, dispatch_stands (s := s.runSlot _) (by rwa [run]), dispatch_stands (by rwa [run, run])]
  exact ⟨(run _ _).trans (run _ _), (runSlot_works _ _).head.trans (runSlot_works _ _).head⟩

end State
end Sys2Proof.Machine
end

section
/-! SUPPORT. EXPOSED: the galley, the alarm, and what is due when the sequencer leaves EXPOSING (R152, R153, R157, R158). -/

namespace Sys2Proof.Machine

theorem advanceGalley_advances {q : Sequencer} {g : Galley} {full : Bool} (h : GalleyAdvances q g full) :
    advanceGalley q.columns q.depth q.galley = (g, full) := by
  unfold advanceGalley
  rcases h with ⟨hl, rfl, rfl⟩ | ⟨hl, hc, rfl, rfl⟩ | ⟨hl, hc, rfl, rfl⟩
  · rw [if_neg hl]
  · rw [if_pos hl, if_neg hc]
  · rw [if_pos hl, if_pos hc]

theorem galleyAdvances (q : Sequencer) : ∃ g full, GalleyAdvances q g full := by
  by_cases hl : q.galley.line + 1 = q.depth
  · by_cases hc : q.galley.column + 1 = q.columns
    · exact ⟨_, _, .inr (.inr ⟨hl, hc, rfl, rfl⟩)⟩
    · exact ⟨_, _, .inr (.inl ⟨hl, hc, rfl, rfl⟩)⟩
  · exact ⟨_, _, .inl ⟨hl, rfl, rfl⟩⟩

theorem alarmMatches_iff (a : Alarm) (g : Galley) : alarmMatches a g = true ↔
    ((a.maskLine = true ∨ a.maskCol = true ∨ a.maskPage = true) ∧ (a.maskLine = true → g.line = a.line) ∧
      (a.maskCol = true → g.column = a.column) ∧ (a.maskPage = true → g.page % 32 = a.page)) := by
  have masked (m : Bool) (x y : Nat) : (!m || x == y) = true ↔ (m = true → x = y) := by cases m <;> simp
  simp only [alarmMatches, Bool.and_eq_true, masked, Bool.or_eq_true, or_assoc, and_assoc]

namespace State

/-! ## The line that was exposed -/

theorem finishLine_some (i o w g) (s : State) : ∃ fs, Offers fs s (s.finishLine i o w g) ∧ fs.length ≤ 1 := by
  cases hh : (s.slots.get i).header with
  | none =>
    have same : s.finishLine i o w g = s := by
      unfold finishLine
      simp only [slot_eq, hh]
    rw [same]
    exact ⟨[], .refl s, Nat.zero_le 1⟩
  | some hd => exact ⟨_, (finishLine_offers hh o w g).1, Nat.le_refl 1⟩

/-- The head has no message outstanding, and nothing has been sent in this step. -/
def headDone (s : State) : State := { s with out := [], head := .none }

theorem endExposure_some (s : State) : ∃ fs, Offers fs s.headDone s.fresh.endExposure ∧ fs.length ≤ 1 := by
  unfold endExposure
  split
  · exact finishLine_some _ _ _ _ s.headDone
  · exact ⟨[], .refl s.headDone, Nat.zero_le 1⟩

/-- The galley as advanced, and the alarm compare (R152, R157). -/
def advanced (g : Galley) (matched : Bool) (v : State) : State :=
  if matched then
    offeredNotice (v.seq.owner.getD 0) (.alarm g)
      { v with seq := { v.seq with galley := g, exposedSinceCut := true, acc := { v.seq.acc with alarm := true } } }
  else { v with seq := { v.seq with galley := g, exposedSinceCut := true } }

theorem advanced_of_soundAlarm (g : Galley) (matched : Bool) (v : State) :
    (v.mapSeq fun q => { q with galley := g, exposedSinceCut := true }).soundAlarm matched = advanced g matched v := by
  cases matched
  · rfl
  · exact notify_offered ..

theorem advanced_seq (g : Galley) (matched : Bool) (v : State) :
    { (advanced g matched v).seq with acc := v.seq.acc } = { v.seq with galley := g, exposedSinceCut := true } := by
  cases matched
  · rfl
  · exact congrArg (fun q : Sequencer => { q with acc := v.seq.acc }) (offeredNotice_spared (v.seq.owner.getD 0) (.alarm g)
      { v with seq := { v.seq with galley := g, exposedSinceCut := true, acc := { v.seq.acc with alarm := true } } }).seq

end State

theorem exec_exposed {s : State} (hh : s.head = .line) (hs : s.seq.state = .exposing) {g : Galley} {full : Bool}
    (hg : GalleyAdvances s.seq g full) : exec .exposed s = .next (State.settle (State.takeHeldExpiry
      (State.leaveExposing full (alarmMatches s.seq.alarm g)
        (State.advanced g (alarmMatches s.seq.alarm g) s.fresh.endExposure)))) := by
  have after : s.fresh.galleyAfter = (g, full) := advanceGalley_advances hg
  have matched : s.fresh.alarmAfter = alarmMatches s.seq.alarm g := by
    unfold State.alarmAfter
    rw [after]
    rfl
  have due : s.fresh.head = .line ∧ s.fresh.seq.state = .exposing := ⟨hh, hs⟩
  change execExposed s = _
  unfold execExposed
  dsimp only
  rw [if_pos due]
  unfold State.lineExposed
  dsimp only
  rw [after, matched, State.advanced_of_soundAlarm]

namespace State

/-! ## What is due when the sequencer leaves EXPOSING -/

section
variable {w : State} (hx : w.seq.exposedSinceCut = true) {matched : Bool}

theorem leaveExposing_notFull : w.leaveExposing false matched =
    if (matched && w.seq.alarm.autoCut) = true then w.sendCut .alarm false
    else if w.seq.cutPending = true then w.sendCut .commanded (!(w.seq.stopPending || (matched && w.seq.alarm.autoCut)))
    else if w.seq.stopPending = true then { w with seq := { w.seq with state := .stopped, stopPending := false } }
    else { w with seq := { w.seq with state := .running } } := by
  unfold leaveExposing
  exact if_neg Bool.false_ne_true

theorem leaveExposing_leaves (hc : (matched && w.seq.alarm.autoCut) = false) (hp : w.seq.cutPending = false) :
    w.leaveExposing false matched = if w.seq.stopPending then { w with seq := { w.seq with state := .stopped, stopPending := false } }
      else { w with seq := { w.seq with state := .running } } := by
  rw [leaveExposing_notFull, if_neg (Bool.eq_false_iff.1 hc), if_neg (Bool.eq_false_iff.1 hp)]

include hx

theorem sendCut_sent (k : CutKind) (runs : Bool) :
    w.sendCut k runs = cutSent { kind := k, renumbers := k != .pageFull, runs := runs } w := by
  have renumbers : (k != .pageFull && w.seq.exposedSinceCut) = (k != .pageFull) := by rw [hx, Bool.and_true]
  unfold sendCut
  rw [mapSeq_eq, renumbers]
  rfl

theorem leaveExposing_full : w.leaveExposing true matched = cutSent
    { kind := .pageFull, renumbers := false, runs := !(w.seq.stopPending || (matched && w.seq.alarm.autoCut)) } w :=
  sendCut_sent hx .pageFull _

theorem leaveExposing_alarm (hc : (matched && w.seq.alarm.autoCut) = true) :
    w.leaveExposing false matched = cutSent { kind := .alarm, renumbers := true, runs := false } w := by
  rw [leaveExposing_notFull, if_pos hc, sendCut_sent hx]
  rfl

theorem leaveExposing_commanded (hc : (matched && w.seq.alarm.autoCut) = false) (hp : w.seq.cutPending = true) :
    w.leaveExposing false matched = cutSent { kind := .commanded, renumbers := true, runs := !w.seq.stopPending } w := by
  rw [leaveExposing_notFull, if_neg (Bool.eq_false_iff.1 hc), if_pos hp, hc, Bool.or_false, sendCut_sent hx]
  rfl

end

theorem takeHeldExpiry_busy {s : State} (h : s.seq.state = .cutting) : s.takeHeldExpiry = s := by
  have busy : s.headBusy = true := headBusy_iff.2 (.inr h)
  exact if_neg (by simp [busy])

/-! ## What stays as the work goes on -/

/-- From `s` to `t` the work goes on, and an expiry that was held may be taken: the geometry, the galley, the marks and the alarm stand. -/
structure Late (s t : State) : Prop where
  seq : { t.seq with
    state := s.seq.state, acc := s.seq.acc, page := s.seq.page, closing := s.seq.closing, closeTimer := s.seq.closeTimer
    expiryHeld := s.seq.expiryHeld } = s.seq
  alarm : t.seq.acc.alarm = s.seq.acc.alarm
  tables : t.tables = s.tables
  patrol : t.patrol = s.patrol
  index : t.store.index = s.store.index
  memory : t.store.memory = s.store.memory
  entries : t.dir.entries = s.dir.entries
  queue : ∀ x ∈ s.link.queue, x ∈ t.link.queue
  out : s.out <+: t.out

theorem Late.refl (s : State) : Late s s := ⟨rfl, rfl, rfl, rfl, rfl, rfl, rfl, fun _ h => h, List.prefix_rfl⟩

theorem Late.trans {s t u : State} (h : Late s t) (k : Late t u) : Late s u where
  seq := (congrArg (fun q : Sequencer => { q with
    state := s.seq.state, acc := s.seq.acc, page := s.seq.page, closing := s.seq.closing, closeTimer := s.seq.closeTimer
    expiryHeld := s.seq.expiryHeld }) k.seq).trans h.seq
  alarm := k.alarm.trans h.alarm
  tables := k.tables.trans h.tables
  patrol := k.patrol.trans h.patrol
  index := k.index.trans h.index
  memory := k.memory.trans h.memory
  entries := k.entries.trans h.entries
  queue x hx := k.queue x (h.queue x hx)
  out := h.out.trans k.out

theorem late_settle (s : State) : Late s s.settle := by
  have quiet := settle_quiet s
  refine ⟨congrArg (fun q : Sequencer => { q with
      page := s.seq.page, closing := s.seq.closing, closeTimer := s.seq.closeTimer, expiryHeld := s.seq.expiryHeld }) quiet.seq,
    quiet.acc.alarm, quiet.tables, quiet.patrol, quiet.index, quiet.memory, (congrArg Directory.entries quiet.dir :),
    (settle_goesOn s).queue, (settle_rises s).out⟩

theorem late_offers {fs : List TxFrame} {s t : State} (h : Offers fs s t) : Late s t := by
  have seq := h.seq
  refine ⟨?_, (congrArg (fun q => q.acc.alarm) seq :), h.tables, h.patrol, h.index, h.memory, (congrArg Directory.entries h.dir :),
    offers_queue h, h.out ▸ List.prefix_rfl⟩
  exact (congrArg (fun q : Sequencer => { q with
    state := s.seq.state, acc := s.seq.acc, page := s.seq.page, closing := s.seq.closing, closeTimer := s.seq.closeTimer
    expiryHeld := s.seq.expiryHeld }) seq : _)

theorem linesOver_some (m : ReportMark) (s : State) : ∃ fs, Offers fs s (s.linesOver m) := by
  have slot (i : SlotId) (u : State) : ∃ fs, Offers fs u (u.endAssembly (outcomeOf m) i) := by
    unfold endAssembly
    split
    · obtain ⟨fs, offers, -⟩ := finishLine_some i (outcomeOf m) (widthsOf (u.slot i)) none u
      exact ⟨fs, offers⟩
    · exact ⟨[], .refl u⟩
  obtain ⟨fs, first⟩ := slot s.slots.older s
  obtain ⟨gs, second⟩ := slot s.slots.older.other (s.endAssembly (outcomeOf m) s.slots.older)
  obtain ⟨offers, -⟩ := reportQueued_offers m (s.endBoth (outcomeOf m))
  exact ⟨_, (first.trans second).trans offers⟩

theorem late_expireClose (s : State) : Late s s.expireClose := by
  obtain ⟨fs, offers⟩ := linesOver_some .closed s.pageClosing
  have closing : Late s s.pageClosing := ⟨rfl, rfl, rfl, rfl, rfl, rfl, rfl, fun _ h => h, List.prefix_rfl⟩
  exact (closing.trans (late_offers offers)).trans (late_settle _)

theorem late_takeHeldExpiry (s : State) : Late s s.takeHeldExpiry := by
  unfold takeHeldExpiry
  split
  · exact late_expireClose s
  · exact .refl s

/-- A sequencer that is STOPPED or in FAULT stays so as an expiry is taken, and the head is sent nothing. -/
theorem expireClose_stands {s : State} (hr : s.seq.state ≠ .running) (hp : ∀ i, s.seq.state ≠ .proofWait i) :
    s.expireClose.seq.state = s.seq.state ∧ s.expireClose.head = s.head := by
  obtain ⟨fs, offers⟩ := linesOver_some .closed s.pageClosing
  have state : (s.pageClosing.linesOver .closed).seq.state = s.seq.state := offers.seqState
  obtain ⟨stands, head⟩ := settle_stands (s := s.pageClosing.linesOver .closed) (by rwa [state]) (by rwa [state])
  exact ⟨stands.trans state, head.trans offers.head⟩

theorem takeHeldExpiry_stands {s : State} (hr : s.seq.state ≠ .running) (hp : ∀ i, s.seq.state ≠ .proofWait i) :
    s.takeHeldExpiry.seq.state = s.seq.state ∧ s.takeHeldExpiry.head = s.head := by
  unfold takeHeldExpiry
  split
  · exact expireClose_stands hr hp
  · exact ⟨rfl, rfl⟩

end State
end Sys2Proof.Machine
end

section
/-! SUPPORT. What EXPOSED leaves, by what is due (R152, R153, R157, R158). -/

namespace Sys2Proof.Machine

namespace State

/-- Leaving EXPOSING changes the sequencer and the head's message alone. -/
theorem leaveExposing_rest (full matched : Bool) (w : State) : { w.leaveExposing full matched with
    head := w.head, out := w.out
    seq := { (w.leaveExposing full matched).seq with
      state := w.seq.state, cutPending := w.seq.cutPending, stopPending := w.seq.stopPending, cutRecord := w.seq.cutRecord } } = w := by
  unfold leaveExposing
  dsimp only
  repeat' split
  all_goals rfl

/-- A cut that is sent stands, whatever else is due. -/
theorem cutSent_stands (r : CutRecord) (w : State) :
    (cutSent r w).takeHeldExpiry.settle.seq.state = .cutting ∧ (cutSent r w).takeHeldExpiry.settle.head = .cut ∧
      (cutSent r w).takeHeldExpiry.settle.seq.cutPending = false ∧ .cut ∈ (cutSent r w).takeHeldExpiry.settle.out ∧
      (cutSent r w).takeHeldExpiry.settle.seq.cutRecord = some r := by
  rw [takeHeldExpiry_busy rfl]
  obtain ⟨state, head⟩ := settle_stands (s := cutSent r w) (by simp [cutSent]) (by simp [cutSent])
  have late := late_settle (cutSent r w)
  exact ⟨state, head, (congrArg Sequencer.cutPending late.seq :), late.out.subset (List.mem_append_right _ (.head _)),
    (congrArg Sequencer.cutRecord late.seq :)⟩

theorem stopped_stands {w : State} (h : w.head = .none) :
    let t := State.settle (State.takeHeldExpiry { w with seq := { w.seq with state := .stopped, stopPending := false } })
    t.seq.state = .stopped ∧ t.head = .none ∧ t.seq.stopPending = false := by
  intro t
  obtain ⟨state, head⟩ := takeHeldExpiry_stands (s := { w with seq := { w.seq with state := .stopped, stopPending := false } })
    (by simp) (by simp)
  obtain ⟨state', head'⟩ := settle_stands
    (s := State.takeHeldExpiry { w with seq := { w.seq with state := .stopped, stopPending := false } })
    (by rw [state]; simp) (by rw [state]; simp)
  have late := (late_takeHeldExpiry { w with seq := { w.seq with state := .stopped, stopPending := false } }).trans (late_settle _)
  exact ⟨state'.trans state, (head'.trans head).trans h, (congrArg Sequencer.stopPending late.seq :)⟩

section
variable (g : Galley) (matched : Bool) (s : State)

/-- The station as the exposed line has ended, with the galley advanced and the alarm compared. -/
def exposedAs : State := advanced g matched s.fresh.endExposure

theorem exposedAs_seq : { (exposedAs g matched s).seq with acc := s.seq.acc } = { s.seq with galley := g, exposedSinceCut := true } := by
  obtain ⟨fs, offers, -⟩ := endExposure_some s
  have line : { s.fresh.endExposure.seq with acc := s.seq.acc } = s.seq :=
    congrArg (fun q : Sequencer => { q with acc := s.seq.acc }) offers.seq
  exact (congrArg (fun q : Sequencer => { q with acc := s.seq.acc }) (advanced_seq g matched s.fresh.endExposure)).trans
    (congrArg (fun q : Sequencer => { q with galley := g, exposedSinceCut := true }) line)

theorem exposedAs_head : (exposedAs g matched s).head = .none := by
  obtain ⟨fs, offers, -⟩ := endExposure_some s
  refine Eq.trans ?_ offers.head
  cases matched
  · rfl
  · exact (offeredNotice_spared ..).head

theorem exposedAs_keeps : (exposedAs g matched s).tables = s.tables ∧ (exposedAs g matched s).patrol = s.patrol ∧
    (exposedAs g matched s).store.memory = s.store.memory ∧ (exposedAs g matched s).store.index = s.store.index := by
  obtain ⟨fs, offers, -⟩ := endExposure_some s
  cases matched
  · exact ⟨offers.tables, offers.patrol, offers.memory, offers.index⟩
  · have quiet := notify_quiet (s.fresh.endExposure.seq.owner.getD 0) (.alarm g) { s.fresh.endExposure with
      seq := { s.fresh.endExposure.seq with
        galley := g, exposedSinceCut := true, acc := { s.fresh.endExposure.seq.acc with alarm := true } } }
    rw [notify_offered] at quiet
    exact ⟨quiet.tables.trans offers.tables, quiet.patrol.trans offers.patrol, quiet.memory.trans offers.memory,
      quiet.index.trans offers.index⟩

theorem exposedAs_flag : (exposedAs g true s).seq.acc.alarm = true := by
  have quiet := notify_quiet (s.fresh.endExposure.seq.owner.getD 0) (.alarm g) { s.fresh.endExposure with
    seq := { s.fresh.endExposure.seq with
      galley := g, exposedSinceCut := true, acc := { s.fresh.endExposure.seq.acc with alarm := true } } }
  rw [notify_offered] at quiet
  exact quiet.acc.alarm

/-- The report of the exposed line takes one place at most, and the alarm's notice the next. -/
theorem exposedAs_notice (hm : s.link.state ≠ .mute) (hq : s.link.queue.length < 11) :
    { frame := .notice (s.seq.owner.getD 0) (.alarm g), attempts := 0, onLink := false } ∈ (exposedAs g true s).link.queue := by
  obtain ⟨fs, offers, one⟩ := endExposure_some s
  have owner : s.fresh.endExposure.seq.owner = s.seq.owner := (congrArg Sequencer.owner offers.seq :)
  have grown : s.fresh.endExposure.link.queue.length = s.link.queue.length + min (12 - s.link.queue.length) fs.length :=
    offers.queue_length hm
  have room : s.fresh.endExposure.link.queue.length < 12 := by omega
  have mute : s.fresh.endExposure.link.state ≠ .mute := offers.linkState ▸ hm
  have told : exposedAs g true s = noticed (s.fresh.endExposure.seq.owner.getD 0) (.alarm g) _ := if_neg mute
  rw [told, noticed, if_pos room, owner]
  exact (mem_insertTx ..).2 (.inl rfl)

end
end State

namespace State

/-- The state that EXPOSED leads to (R152, R153, R157, R158). -/
def exposureOver (g : Galley) (full matched : Bool) (s : State) : State :=
  State.settle (State.takeHeldExpiry (State.leaveExposing full matched (State.exposedAs g matched s)))

section
variable (g : Galley) (full matched : Bool) (s : State)

theorem exposureOver_late : Late (State.leaveExposing full matched (State.exposedAs g matched s)) (exposureOver g full matched s) :=
  (late_takeHeldExpiry _).trans (late_settle _)

/-- The sequencer but for its state, what is pending, the accumulator and the close of its page. -/
def standing (s : State) (q : Sequencer) : Sequencer :=
  { q with
    state := s.seq.state, acc := s.seq.acc, page := s.seq.page, closing := s.seq.closing, closeTimer := s.seq.closeTimer
    expiryHeld := s.seq.expiryHeld, cutPending := s.seq.cutPending, stopPending := s.seq.stopPending, cutRecord := s.seq.cutRecord }

/-- What EXPOSED leaves of the sequencer, whatever is due. -/
theorem exposureOver_seq :
    standing s (exposureOver g full matched s).seq = { s.seq with galley := g, exposedSinceCut := true } := by
  have late := congrArg (standing s) (exposureOver_late g full matched s).seq
  have left := congrArg (fun u : State => standing s u.seq) (leaveExposing_rest full matched (exposedAs g matched s))
  have seq := congrArg (standing s) (exposedAs_seq g matched s)
  exact (late.trans left).trans seq

theorem exposureOver_keeps : (exposureOver g full matched s).tables = s.tables ∧ (exposureOver g full matched s).patrol = s.patrol ∧
    (exposureOver g full matched s).store.memory = s.store.memory ∧ (exposureOver g full matched s).store.index = s.store.index := by
  have late := exposureOver_late g full matched s
  have left := leaveExposing_rest full matched (exposedAs g matched s)
  obtain ⟨tables, patrol, memory, index⟩ := exposedAs_keeps g matched s
  exact ⟨(late.tables.trans (congrArg State.tables left :)).trans tables, (late.patrol.trans (congrArg State.patrol left :)).trans patrol,
    (late.memory.trans (congrArg (fun u : State => u.store.memory) left :)).trans memory,
    (late.index.trans (congrArg (fun u : State => u.store.index) left :)).trans index⟩

/-- An alarm that matches sets its flag, and its notice is offered. -/
theorem exposureOver_alarm : (exposureOver g full true s).seq.acc.alarm = true ∧
    (s.link.state ≠ .mute → s.link.queue.length < 11 →
      { frame := .notice (s.seq.owner.getD 0) (.alarm g), attempts := 0, onLink := false } ∈ (exposureOver g full true s).link.queue) := by
  have late := exposureOver_late g full true s
  have left := leaveExposing_rest full true (exposedAs g true s)
  refine ⟨(late.alarm.trans (congrArg (fun u : State => u.seq.acc.alarm) left :)).trans (exposedAs_flag g s), fun hm hq => late.queue _ ?_⟩
  have queue : (leaveExposing full true (exposedAs g true s)).link.queue = (exposedAs g true s).link.queue :=
    (congrArg (fun u : State => u.link.queue) left :)
  rw [queue]
  exact exposedAs_notice g s hm hq

theorem exposureOver_page (h : s.seq.expiryHeld = false) : (exposureOver g full matched s).seq.page = s.seq.page := by
  have left := congrArg State.seq (leaveExposing_rest full matched (exposedAs g matched s))
  have seq := exposedAs_seq g matched s
  have held : (leaveExposing full matched (exposedAs g matched s)).seq.expiryHeld = false :=
    ((congrArg Sequencer.expiryHeld left :).trans (congrArg Sequencer.expiryHeld seq :)).trans h
  unfold exposureOver
  rw [takeHeldExpiry_none held]
  have quiet := (settle_quiet (leaveExposing full matched (exposedAs g matched s))).seq
  exact ((congrArg Sequencer.page quiet :).trans (congrArg Sequencer.page left :)).trans (congrArg Sequencer.page seq :)

end

section
variable {g : Galley} {full matched : Bool} {s : State}

theorem exposedAs_marks : (exposedAs g matched s).seq.exposedSinceCut = true ∧
    (exposedAs g matched s).seq.stopPending = s.seq.stopPending ∧ (exposedAs g matched s).seq.cutPending = s.seq.cutPending ∧
    (exposedAs g matched s).seq.alarm = s.seq.alarm := by
  have seq := exposedAs_seq g matched s
  exact ⟨(congrArg Sequencer.exposedSinceCut seq :), (congrArg Sequencer.stopPending seq :), (congrArg Sequencer.cutPending seq :),
    (congrArg Sequencer.alarm seq :)⟩

theorem exposureOver_full : exposureOver g true matched s = State.settle (State.takeHeldExpiry (cutSent
    { kind := .pageFull, renumbers := false, runs := !(s.seq.stopPending || (matched && s.seq.alarm.autoCut)) }
    (exposedAs g matched s))) := by
  obtain ⟨since, stop, -, auto⟩ := exposedAs_marks (g := g) (matched := matched) (s := s)
  unfold exposureOver
  rw [leaveExposing_full since, stop, auto]

theorem exposureOver_alarmCut (hc : (matched && s.seq.alarm.autoCut) = true) : exposureOver g false matched s =
    State.settle (State.takeHeldExpiry (cutSent { kind := .alarm, renumbers := true, runs := false } (exposedAs g matched s))) := by
  obtain ⟨since, -, -, auto⟩ := exposedAs_marks (g := g) (matched := matched) (s := s)
  unfold exposureOver
  rw [leaveExposing_alarm since (auto ▸ hc)]

theorem exposureOver_commanded (hc : (matched && s.seq.alarm.autoCut) = false) (hp : s.seq.cutPending = true) :
    exposureOver g false matched s = State.settle (State.takeHeldExpiry (cutSent
      { kind := .commanded, renumbers := true, runs := !s.seq.stopPending } (exposedAs g matched s))) := by
  obtain ⟨since, stop, pending, auto⟩ := exposedAs_marks (g := g) (matched := matched) (s := s)
  unfold exposureOver
  rw [leaveExposing_commanded since (auto ▸ hc) (pending.trans hp), stop]

theorem exposureOver_leaves (hc : (matched && s.seq.alarm.autoCut) = false) (hp : s.seq.cutPending = false) :
    exposureOver g false matched s = State.settle (State.takeHeldExpiry (if s.seq.stopPending then
        { exposedAs g matched s with seq := { (exposedAs g matched s).seq with state := .stopped, stopPending := false } }
      else { exposedAs g matched s with seq := { (exposedAs g matched s).seq with state := .running } })) := by
  obtain ⟨-, stop, pending, auto⟩ := exposedAs_marks (g := g) (matched := matched) (s := s)
  unfold exposureOver
  rw [leaveExposing_leaves (auto ▸ hc) (pending.trans hp), stop]

end

end State

section
variable {q : Sequencer} {g : Galley} {full : Bool} (h : GalleyAdvances q g full)
include h

theorem galley_line (hl : q.galley.line + 1 ≠ q.depth) : g = { q.galley with line := q.galley.line + 1 } := by
  rcases h with ⟨-, hg, -⟩ | ⟨hd, -⟩ | ⟨hd, -⟩
  · exact hg
  · exact absurd hd hl
  · exact absurd hd hl

theorem galley_column (hl : q.galley.line + 1 = q.depth) (hc : q.galley.column + 1 ≠ q.columns) :
    g = { q.galley with line := 0, column := q.galley.column + 1 } := by
  rcases h with ⟨hd, -⟩ | ⟨-, -, hg, -⟩ | ⟨-, hcol, -⟩
  · exact absurd hl hd
  · exact hg
  · exact absurd hcol hc

theorem galley_page (hl : q.galley.line + 1 = q.depth) (hc : q.galley.column + 1 = q.columns) :
    g = { page := (q.galley.page + 1) % 65536, column := 0, line := 0 } ∧ full = true := by
  rcases h with ⟨hd, -⟩ | ⟨-, hcol, -⟩ | ⟨-, -, hg, hf⟩
  · exact absurd hl hd
  · exact absurd hc hcol
  · exact ⟨hg, hf⟩

theorem galley_notFull (hn : ¬(q.galley.line + 1 = q.depth ∧ q.galley.column + 1 = q.columns)) : full = false := by
  rcases h with ⟨-, -, hf⟩ | ⟨-, -, -, hf⟩ | ⟨hl, hc, -⟩
  · exact hf
  · exact hf
  · exact absurd ⟨hl, hc⟩ hn

end

namespace State

theorem exposedAs_headed {g : Galley} {matched : Bool} {s : State} (h : SlotsHeaded s) : SlotsHeaded (exposedAs g matched s) := by
  have line : SlotsHeaded s.fresh.endExposure := by
    unfold endExposure
    split
    · exact fun i => (finishLine_rises _ _ _ _ (s.fresh.setHead .none)).headed i (h i)
    · exact h
  cases matched
  · exact line
  · have slots : (exposedAs g true s).slots = s.fresh.endExposure.slots := (offeredNotice_spared ..).slots
    exact fun i => slots ▸ line i

/-- A line is given its outcome beside an EMPTY slot, and its report is placed. -/
theorem finishLine_alone {i : SlotId} {s : State} {hd : LineHeader} (hh : (s.slots.get i).header = some hd)
    (hv : s.slots.get i.other = .vacant) (hm : s.link.state ≠ .mute) (hq : s.link.queue.length < 12) (o : LineOutcome)
    (w : Nat × Nat) (g : Option Galley) : s.finishLine i o w g = { s with
      slots := { slot0 := .vacant, slot1 := .vacant, age := none }
      cache := s.cache.unpinAll ((s.slots.get i).list.filterMap Placement.ref)
      store := { s.store with reads := s.store.reads.map (fun r => if r.slot = i then { r with live := false } else r) }
      link := { s.link with
        queue := State.insertTx
          { frame := .report hd.requester (lineReport o w g (s.slots.get i) hd), attempts := 0, onLink := false }
          s.link.queue }
      seq := { s.seq with acc := { s.seq.acc with line := s.seq.acc.line.or (s.slots.get i).flags } } } := by
  rw [finishLine_given hh]
  have flags : (lineReport o w g (s.slots.get i) hd).flags = (s.slots.get i).flags := rfl
  generalize lineReport o w g (s.slots.get i) hd = rep at flags
  have self : (s.outcomeGiven i (reportingSlot hd (s.slots.get i).flags rep)).slots.get i =
    reportingSlot hd (s.slots.get i).flags rep := (Slots.get_put ..).trans (if_pos rfl)
  have other : (s.outcomeGiven i (reportingSlot hd (s.slots.get i).flags rep)).slots.get i.other = .vacant :=
    ((Slots.get_put ..).trans (if_neg i.other_ne)).trans hv
  have empty : (s.outcomeGiven i (reportingSlot hd (s.slots.get i).flags rep)).slots.vacate i =
      { slot0 := .vacant, slot1 := .vacant, age := none } := by
    unfold Slots.vacate
    rw [other]
    cases i
    · exact congrArg (fun v => ({ slot0 := .vacant, slot1 := v, age := none } : Slots)) hv
    · exact congrArg (fun v => ({ slot0 := v, slot1 := .vacant, age := none } : Slots)) hv
  have placed := offerSlot_room (s := s.outcomeGiven i (reportingSlot hd (s.slots.get i).flags rep)) (i := i) (rep := rep) (hd := hd) hm
    (by rw [self]; rfl) (by rw [self]; rfl) (by rw [self]; rfl) hq
  rw [placed, empty, passesOver_free (by cases i <;> rfl), ← flags]
  rfl

section
variable {s : State} {i : SlotId} {g : Galley} {matched : Bool}

theorem endExposure_line (hi : (s.slots.get i).state = .exposing) (ho : (s.slots.get i.other).state ≠ .exposing) :
    s.fresh.endExposure = finishLine i .set (widthsOf (s.slots.get i)) (some s.seq.galley) s.headDone := by
  have slot : s.fresh.exposingSlot = some i := exposingSlot_one (s := s.fresh) hi ho
  unfold endExposure
  rw [slot]
  rfl

/-- The line leaves with nothing else due: the sequencer runs on. -/
theorem exposureOver_plain {w : State} (hw : exposedAs g matched s = w) (hc : (matched && s.seq.alarm.autoCut) = false)
    (hp : s.seq.cutPending = false) (hst : s.seq.stopPending = false) (hx : w.seq.expiryHeld = false)
    (rest : SlotsRest { w with seq := { w.seq with state := .running } }) :
    exposureOver g false matched s = { w with seq := { w.seq with state := .running } } := by
  rw [exposureOver_leaves hc hp, if_neg (by simp [hst]), hw,
    takeHeldExpiry_none (s := { w with seq := { w.seq with state := .running } }) hx, settle_rest rest]

/-- Without a cut, a close expiry that was held is taken as the exposure ends. -/
theorem exposureOver_held {u : State} (hc : (matched && s.seq.alarm.autoCut) = false) (hp : s.seq.cutPending = false)
    (hu : u = if s.seq.stopPending then
        { exposedAs g matched s with seq := { (exposedAs g matched s).seq with state := .stopped, stopPending := false } }
      else { exposedAs g matched s with seq := { (exposedAs g matched s).seq with state := .running } }) :
    (s.seq.expiryHeld = false → exposureOver g false matched s = u.settle) ∧
    (s.seq.expiryHeld = true → SlotsHeaded s → CloseExpired u (exposureOver g false matched s)) := by
  have kept : u.seq.expiryHeld = s.seq.expiryHeld ∧ u.slots = (exposedAs g matched s).slots ∧ u.seq.state ≠ .exposing ∧
      u.seq.state ≠ .cutting := by
    have seq := exposedAs_seq g matched s
    rw [hu]
    split <;> exact ⟨(congrArg Sequencer.expiryHeld seq :), rfl, by simp, by simp⟩
  obtain ⟨held, slots, exposing, cutting⟩ := kept
  rw [exposureOver_leaves hc hp, ← hu]
  exact ⟨fun hx => by rw [takeHeldExpiry_none (held.trans hx)], fun hx headed =>
    takeHeldExpiry_expired (fun j => slots ▸ exposedAs_headed headed j) (held.trans hx) exposing cutting⟩

end

end State

/-- Settles O51: the galley and the alarm, what is due, and the line that was exposed. -/
theorem exposedAdvancesTheGalley : Obligations.ExposedAdvancesTheGalley := by
  refine ⟨fun s hh hs => ?_, fun s i hd hh hs hi hhd hv hm hq hl ha hp hst hx => ?_,
    fun s v w i g full matched cuts hh hs hi ho hg hma hcu hv hw => ?_, alarmMatches_iff⟩
  · obtain ⟨g, full, hg⟩ := galleyAdvances s.seq
    obtain ⟨matched, hma⟩ : ∃ b, alarmMatches s.seq.alarm g = b := ⟨_, rfl⟩
    have done : exec .exposed s = .next (State.exposureOver g full matched s) := hma ▸ exec_exposed hh hs hg
    have seq := State.exposureOver_seq g full matched s
    obtain ⟨tables, patrol, memory, index⟩ := State.exposureOver_keeps g full matched s
    have galley : (State.exposureOver g full matched s).seq.galley = g := (congrArg Sequencer.galley seq :)
    refine ⟨_, done, (congrArg Sequencer.exposedSinceCut seq :), fun h1 => ?_, fun h1 h2 => ?_, fun h1 h2 => ?_, fun hn => ?_, fun ht => ?_,
      State.exposureOver_page g full matched s, (congrArg Sequencer.owner seq :), (congrArg Sequencer.columns seq :),
      (congrArg Sequencer.depth seq :), (congrArg Sequencer.alarm seq :), (congrArg Sequencer.proof seq :), tables, patrol, memory, index⟩
    · exact galley.trans (galley_line hg h1)
    · exact galley.trans (galley_column hg h1 h2)
    · obtain ⟨hpage, rfl⟩ := galley_page hg h1 h2
      refine ⟨galley.trans hpage, ?_⟩
      rw [galley, hma, State.exposureOver_full]
      exact State.cutSent_stands _ _
    · obtain rfl := galley_notFull hg hn
      rw [galley, hma]
      refine ⟨fun ht hauto => ?_, fun hc => ⟨fun hp => ?_, fun hp hst => ?_⟩⟩
      · rw [State.exposureOver_alarmCut (by rw [ht, hauto]; rfl)]
        exact State.cutSent_stands _ _
      · rw [State.exposureOver_commanded (Bool.and_eq_false_iff.2 hc) hp]
        exact State.cutSent_stands _ _
      · rw [State.exposureOver_leaves (Bool.and_eq_false_iff.2 hc) hp, if_pos hst]
        exact State.stopped_stands (State.exposedAs_head g matched s)
    · rw [galley] at ht ⊢
      obtain rfl : matched = true := hma.symm.trans ht
      exact State.exposureOver_alarm g full s
  · have hg : GalleyAdvances s.seq { s.seq.galley with line := s.seq.galley.line + 1 } false := .inl ⟨by omega, rfl, rfl⟩
    have line := State.endExposure_line hi (by simp [hv, Slot.vacant])
    rw [State.finishLine_alone (s := s.headDone) hhd hv hm hq] at line
    have left := State.exposureOver_plain (g := { s.seq.galley with line := s.seq.galley.line + 1 }) (matched := false)
      (congrArg (State.advanced _ false) line) rfl hp hst hx
      ⟨fun j => by cases j <;> simp [State.advanced, Slots.get, Slot.vacant], fun j => by simp⟩
    rw [exec_exposed hh hs hg, ha]
    exact congrArg Host.Outcome.next left
  · have line : s.fresh.endExposure = v := (State.endExposure_line hi ho).trans hv.symm
    have owner : v.seq.owner = s.seq.owner := by
      obtain ⟨fs, offers, -⟩ := State.endExposure_some s
      rw [← line]
      exact (congrArg Sequencer.owner offers.seq :)
    have after : State.exposedAs g matched s = w := by
      rw [hw, State.exposedAs, line, State.advanced, owner]
    have done : exec .exposed s = .next (State.exposureOver g full matched s) := hma ▸ exec_exposed hh hs hg
    rw [done]
    subst hcu after
    refine ⟨?_, ?_, ?_, ?_⟩
    · rintro rfl
      rw [State.exposureOver_full, State.takeHeldExpiry_busy rfl]
    · rintro rfl hc
      rw [State.exposureOver_alarmCut hc, State.takeHeldExpiry_busy rfl]
    · rintro rfl hc hp
      rw [State.exposureOver_commanded hc hp, State.takeHeldExpiry_busy rfl]
    · rintro rfl hc hp u hu
      obtain ⟨settles, expires⟩ := State.exposureOver_held hc hp hu
      exact ⟨fun hx => congrArg Host.Outcome.next (settles hx), fun hx headed => ⟨_, rfl, expires hx headed⟩⟩

end Sys2Proof.Machine
end

section
/-! SUPPORT. FILM-OUT and HEAD-FAULT (R158, R160, R161). -/

namespace Sys2Proof.Machine

namespace State

/-! ## The steps of a fault -/

/-- The sequencer in FAULT, with no head message outstanding. -/
def faultBegun (s : State) : State :=
  { s with
    out := [], head := .none
    seq := { s.seq with state := .fault, cutRecord := none, cutPending := false, stopPending := false } }

/-- The number of the line that was being exposed. -/
def faultNumber (s : State) : Option Nat :=
  match s.exposingSlot with
  | some i => (s.slots.get i).header.map LineHeader.number
  | none => none

/-- The line that was being exposed is cut short. -/
def lineCut (s : State) : State :=
  match s.exposingSlot with
  | some i => State.finishLine i .cutShort (widthsOf (s.slots.get i)) none s.faultBegun
  | none => s.faultBegun

/-- A CLOSE cut was being made. -/
def cutCloses (s : State) : Bool :=
  match s.seq.cutRecord with
  | some r => r.kind == .close
  | none => false

/-- A close with nothing left to drain ends. -/
def endDrained (s : State) : State := if s.drained then s.endClose else s

/-- The line is cut short, and a close that was cutting has ended. -/
def faultClosed (s : State) : State := if s.cutCloses then s.lineCut.endClose else s.lineCut

/-- The notice HEAD-FAULT is offered. -/
def faultNoticed (filmOut : Bool) (s : State) : State :=
  offeredNotice (s.faultClosed.seq.owner.getD 0) (.headFault filmOut s.faultNumber) s.faultClosed

theorem faultHead_eq {s : State} (h : s.seq.state ≠ .fault) (filmOut : Bool) :
    s.fresh.faultHead filmOut = State.settle (State.endDrained (State.takeHeldExpiry (s.faultNoticed filmOut))) := by
  refine (if_neg h).trans ?_
  dsimp only
  rw [notify_offered]
  rfl

/-! ## What each of them leaves -/

theorem lineCut_offers (s : State) : ∃ fs, Offers fs s.faultBegun s.lineCut ∧ fs.length ≤ 1 := by
  unfold lineCut
  split
  · exact finishLine_some _ _ _ _ s.faultBegun
  · exact ⟨[], .refl _, Nat.zero_le 1⟩

theorem endClose_eq (s : State) : s.endClose = s ∨ ∃ cause, s.endClose = pageEnded cause s := by
  cases hc : s.seq.closing with
  | none => exact .inl (by simp only [endClose, hc])
  | some cause => exact .inr ⟨cause, endClose_pageEnded hc⟩

theorem late_offeredNotice (d : Nat) (n : Notice) (s : State) : Late s (offeredNotice d n s) := by
  have quiet := notify_quiet d n s
  have spared := notify_spared d n s
  rw [notify_offered] at quiet spared
  exact ⟨congrArg (fun q : Sequencer => { q with state := s.seq.state, acc := s.seq.acc, page := s.seq.page, closing := s.seq.closing
                                                 closeTimer := s.seq.closeTimer, expiryHeld := s.seq.expiryHeld }) spared.seq,
    quiet.acc.alarm, quiet.tables, quiet.patrol, quiet.index, quiet.memory, (congrArg Directory.entries quiet.dir :),
    offeredNotice_queue d n s, spared.out ▸ List.prefix_rfl⟩

theorem late_pageEnded (cause : CloseCause) (s : State) : Late s (pageEnded cause s) := by
  refine (late_offeredNotice (s.seq.owner.getD 0) (.pageEnd cause s.seq.galley s.seq.acc) s).trans ?_
  exact ⟨rfl, rfl, rfl, rfl, rfl, rfl, rfl, fun _ h => h, List.prefix_rfl⟩

theorem late_endClose (s : State) : Late s s.endClose := by
  rcases endClose_eq s with h | ⟨cause, h⟩
  · rw [h]
    exact .refl s
  · rw [h]
    exact late_pageEnded cause s

theorem late_endDrained (s : State) : Late s s.endDrained := by
  unfold endDrained
  split
  · exact late_endClose s
  · exact .refl s

theorem late_faultNoticed (filmOut : Bool) (s : State) : Late s.faultBegun (s.faultNoticed filmOut) := by
  obtain ⟨fs, offers, -⟩ := lineCut_offers s
  have closed : Late s.lineCut s.faultClosed := by
    unfold faultClosed
    split
    · exact late_endClose _
    · exact .refl _
  exact ((late_offers offers).trans closed).trans (late_offeredNotice _ _ _)

/-- The sequencer's state and the head's message stand. -/
def Stands (s t : State) : Prop := t.seq.state = s.seq.state ∧ t.head = s.head

theorem Stands.trans {s t u : State} (h : Stands s t) (k : Stands t u) : Stands s u := ⟨k.1.trans h.1, k.2.trans h.2⟩

theorem offeredNotice_stands (d : Nat) (n : Notice) (s : State) : Stands s (offeredNotice d n s) :=
  ⟨(congrArg Sequencer.state (offeredNotice_spared d n s).seq :), (offeredNotice_spared d n s).head⟩

theorem endClose_stands (s : State) : Stands s s.endClose := by
  rcases endClose_eq s with h | ⟨cause, h⟩
  · rw [h]
    exact ⟨rfl, rfl⟩
  · rw [h]
    exact offeredNotice_stands ..

theorem endDrained_stands (s : State) : Stands s s.endDrained := by
  unfold endDrained
  split
  · exact endClose_stands s
  · exact ⟨rfl, rfl⟩

theorem faultNoticed_stands (filmOut : Bool) (s : State) : Stands s.faultBegun (s.faultNoticed filmOut) := by
  obtain ⟨fs, offers, -⟩ := lineCut_offers s
  have closed : Stands s.lineCut s.faultClosed := by
    unfold faultClosed
    split
    · exact endClose_stands _
    · exact ⟨rfl, rfl⟩
  exact (Stands.trans ⟨offers.seqState, offers.head⟩ closed).trans (offeredNotice_stands ..)

/-- A fault leaves FAULT, with no head message outstanding. -/
theorem faultOver_stands (filmOut : Bool) (s : State) :
    Stands s.faultBegun (State.settle (State.endDrained (State.takeHeldExpiry (s.faultNoticed filmOut)))) := by
  have first := faultNoticed_stands filmOut s
  have fault : (s.faultNoticed filmOut).seq.state = .fault := first.1
  have held : Stands (s.faultNoticed filmOut) (s.faultNoticed filmOut).takeHeldExpiry :=
    takeHeldExpiry_stands (by simp [fault]) (by simp [fault])
  have ended := (first.trans held).trans (endDrained_stands _)
  have fault' : (s.faultNoticed filmOut).takeHeldExpiry.endDrained.seq.state = .fault := ended.1
  exact ended.trans (settle_stands (by simp [fault']) (by simp [fault']))

/-! ## The other lines -/

theorem endAssembly_goesOn (o : LineOutcome) (i : SlotId) (s : State) : GoesOn s (s.endAssembly o i) := by
  by_cases ha : InAssembly (s.slots.get i)
  · rw [endAssembly_some ha]
    have works := finishLine_works i o (widthsOf (s.slots.get i)) none s
    refine ⟨works.queue, fun j hn => ?_⟩
    rcases slotId_cases i j with rfl | rfl
    · exact absurd ha hn
    · exact works.beside hn
  · rw [endAssembly_none ha]
    exact .refl s

theorem expireClose_goesOn (s : State) : GoesOn s s.expireClose := by
  have closing : GoesOn s s.pageClosing := ⟨fun _ h => h, fun _ _ => .refl _⟩
  obtain ⟨offers, slots, -⟩ := reportQueued_offers .closed (s.pageClosing.endBoth .closed)
  have queued : GoesOn (s.pageClosing.endBoth .closed) (s.pageClosing.linesOver .closed) :=
    ⟨offers_queue offers, fun i _ => slots ▸ .refl _⟩
  exact (((closing.trans (endAssembly_goesOn _ _ _)).trans (endAssembly_goesOn _ _ _)).trans queued).trans (settle_goesOn _)

theorem takeHeldExpiry_goesOn (s : State) : GoesOn s s.takeHeldExpiry := by
  unfold takeHeldExpiry
  split
  · exact expireClose_goesOn s
  · exact .refl s

theorem endClose_goesOn (s : State) : GoesOn s s.endClose := by
  rcases endClose_eq s with h | ⟨cause, h⟩
  · rw [h]
    exact .refl s
  · rw [h]
    exact (offeredNotice_goesOn ..).trans ⟨fun _ h => h, fun _ _ => .refl _⟩

theorem endDrained_goesOn (s : State) : GoesOn s s.endDrained := by
  unfold endDrained
  split
  · exact endClose_goesOn s
  · exact .refl s

theorem faultClosed_goesOn (s : State) : GoesOn s.lineCut s.faultClosed := by
  unfold faultClosed
  split
  · exact endClose_goesOn _
  · exact .refl _

theorem faultOver_goesOn (filmOut : Bool) (s : State) :
    GoesOn (s.faultNoticed filmOut) (State.settle (State.endDrained (State.takeHeldExpiry (s.faultNoticed filmOut)))) :=
  ((takeHeldExpiry_goesOn _).trans (endDrained_goesOn _)).trans (settle_goesOn _)

theorem faultNoticed_goesOn (filmOut : Bool) (s : State) : GoesOn s.lineCut (s.faultNoticed filmOut) :=
  (faultClosed_goesOn s).trans (offeredNotice_goesOn ..)

end State
end Sys2Proof.Machine
end

section
/-! SUPPORT. What FILM-LOW, FILM-OUT, HEAD-FAULT and READY leave (R142, R161, R162). -/

namespace Sys2Proof.Machine

namespace State

theorem offers_single {f : TxFrame} {s t : State} (h : Offers [f] s t) (hm : s.link.state ≠ .mute) (hq : s.link.queue.length < 12) :
    { frame := f, attempts := 0, onLink := false } ∈ t.link.queue := by
  have all : [f].take (12 - s.link.queue.length) = [f] := List.take_of_length_le (by rw [List.length_singleton]; omega)
  rw [(h.room hm).1, all]
  exact (mem_insertTx ..).2 (.inl rfl)

section
variable {s : State} {i : SlotId}

theorem lineCut_none (h : ∀ i, (s.slots.get i).state ≠ .exposing) : s.lineCut = s.faultBegun ∧ s.faultNumber = none := by
  have none : s.exposingSlot = none := (if_neg (h .zero)).trans (if_neg (h .one))
  unfold lineCut faultNumber
  rw [none]
  exact ⟨rfl, rfl⟩

theorem lineCut_some (hi : s.exposingSlot = some i) :
    s.lineCut = State.finishLine i .cutShort (widthsOf (s.slots.get i)) none s.faultBegun ∧
    s.faultNumber = (s.slots.get i).header.map LineHeader.number := by
  unfold lineCut faultNumber
  rw [hi]
  exact ⟨rfl, rfl⟩

variable {hd : LineHeader} (hi : s.exposingSlot = some i) (hh : (s.slots.get i).header = some hd)
include hi hh

/-- The line that was being exposed is cut short: its slot is EMPTY, or REPORTING with its report. -/
theorem lineCut_slot :
    (s.link.state = .mute ∨ s.link.queue.length < 12 → s.lineCut.slots.get i = .vacant) ∧
    (s.link.state ≠ .mute → 12 ≤ s.link.queue.length → s.lineCut.slots.get i = reportingSlot hd (s.slots.get i).flags
      (lineReport .cutShort (widthsOf (s.slots.get i)) none (s.slots.get i) hd)) := by
  obtain ⟨-, -, placed, full, -⟩ := finishLine_offers (s := s.faultBegun) hh .cutShort (widthsOf (s.slots.get i)) none
  rw [(lineCut_some hi).1]
  exact ⟨placed, full⟩

theorem lineCut_states : (s.lineCut.slots.get i).state = .reporting ∨ (s.lineCut.slots.get i).state = .empty := by
  obtain ⟨placed, full⟩ := lineCut_slot hi hh
  by_cases hp : s.link.state = .mute ∨ s.link.queue.length < 12
  · exact .inr (by rw [placed hp]; rfl)
  · obtain ⟨hm, hq⟩ := not_or.1 hp
    exact .inl (by rw [full hm (Nat.not_lt.1 hq)]; rfl)

/-- The slot stays so, whatever is then due. -/
theorem faultOver_slot (filmOut : Bool) : SameLine (s.lineCut.slots.get i)
    ((State.settle (State.endDrained (State.takeHeldExpiry (s.faultNoticed filmOut)))).slots.get i) := by
  have quiet : ¬InAssembly (s.lineCut.slots.get i) := by
    rcases lineCut_states hi hh with h | h <;> simp [InAssembly, h]
  exact ((faultNoticed_goesOn filmOut s).trans (faultOver_goesOn filmOut s)).lines i quiet

theorem lineCut_report (hm : s.link.state ≠ .mute) (hq : s.link.queue.length < 12) :
    { frame := .report hd.requester (lineReport .cutShort (widthsOf (s.slots.get i)) none (s.slots.get i) hd)
      attempts := 0, onLink := false } ∈ s.lineCut.link.queue := by
  obtain ⟨offers, -⟩ := finishLine_offers (s := s.faultBegun) hh .cutShort (widthsOf (s.slots.get i)) none
  rw [(lineCut_some hi).1]
  exact offers_single offers hm hq

end

theorem offeredNotice_length (d : Nat) (n : Notice) (s : State) :
    (offeredNotice d n s).link.queue.length ≤ s.link.queue.length + 1 := by
  unfold offeredNotice noticed
  repeat' split
  · exact Nat.le_succ _
  · exact Nat.le_of_eq (insertTx_length ..)
  · exact Nat.le_succ _

theorem offeredNotice_placed {s : State} (hm : s.link.state ≠ .mute) (hq : s.link.queue.length < 12) (d : Nat) (n : Notice) :
    { frame := .notice d n, attempts := 0, onLink := false } ∈ (offeredNotice d n s).link.queue := by
  have told : offeredNotice d n s = noticed d n s := if_neg hm
  rw [told, noticed, if_pos hq]
  exact (mem_insertTx ..).2 (.inl rfl)

/-- The report and a PAGE-END notice take two places at most, and the notice HEAD-FAULT the next. -/
theorem faultNoticed_notice {s : State} (hm : s.link.state ≠ .mute) (hq : s.link.queue.length < 10) (filmOut : Bool) :
    { frame := .notice (s.seq.owner.getD 0) (.headFault filmOut s.faultNumber), attempts := 0, onLink := false } ∈
      (s.faultNoticed filmOut).link.queue := by
  obtain ⟨fs, offers, one⟩ := lineCut_offers s
  have grown : s.lineCut.link.queue.length = s.link.queue.length + min (12 - s.link.queue.length) fs.length := offers.queue_length hm
  have closed : s.faultClosed.link.queue.length ≤ s.lineCut.link.queue.length + 1 ∧ s.faultClosed.link.state = s.lineCut.link.state ∧
      s.faultClosed.seq.owner = s.lineCut.seq.owner := by
    have ended : s.lineCut.endClose.link.queue.length ≤ s.lineCut.link.queue.length + 1 ∧
        s.lineCut.endClose.link.state = s.lineCut.link.state ∧ s.lineCut.endClose.seq.owner = s.lineCut.seq.owner := by
      rcases endClose_eq s.lineCut with h | ⟨cause, h⟩
      · rw [h]
        exact ⟨Nat.le_succ _, rfl, rfl⟩
      · rw [h]
        have spared := offeredNotice_spared (s.lineCut.seq.owner.getD 0)
          (.pageEnd cause s.lineCut.seq.galley s.lineCut.seq.acc) s.lineCut
        exact ⟨offeredNotice_length .., (congrArg Link.state spared.link :), (congrArg Sequencer.owner spared.seq :)⟩
    unfold faultClosed
    split
    · exact ended
    · exact ⟨Nat.le_succ _, rfl, rfl⟩
  obtain ⟨length, state, owner⟩ := closed
  have owner' : s.faultClosed.seq.owner = s.seq.owner := owner.trans (congrArg Sequencer.owner offers.seq :)
  have mute : s.faultClosed.link.state ≠ .mute := state ▸ offers.linkState ▸ hm
  unfold faultNoticed
  rw [owner']
  exact offeredNotice_placed mute (by omega) _ _

/-! ## The line cut short, and the close -/

/-- The sequencer as a fault leaves it, but for the accumulator. -/
theorem lineCut_seq (s : State) : { s.lineCut.seq with acc := s.seq.acc } = s.faultBegun.seq := by
  obtain ⟨fs, offers, -⟩ := lineCut_offers s
  exact congrArg (fun q : Sequencer => { q with acc := s.seq.acc }) offers.seq

theorem lineCut_headed {s : State} (h : SlotsHeaded s) : SlotsHeaded s.lineCut := by
  unfold lineCut
  split
  · exact fun i => (finishLine_rises _ _ _ _ s.faultBegun).headed i (h i)
  · exact h

theorem faultNoticed_slots {s : State} (h : s.faultClosed = s.lineCut) (filmOut : Bool) :
    (s.faultNoticed filmOut).slots = s.lineCut.slots ∧ (s.faultNoticed filmOut).lines = s.lineCut.lines := by
  have spared := offeredNotice_spared (s.faultClosed.seq.owner.getD 0) (.headFault filmOut s.faultNumber) s.faultClosed
  exact ⟨spared.slots.trans (congrArg State.slots h), spared.lines.trans (congrArg State.lines h)⟩

theorem freed_exposing {t : Slot} (h : t.state ≠ .exposing) : (freed t).state ≠ .exposing := by
  have carried := Carried.freed t
  by_cases ha : InAssembly t
  · intro he
    rcases carried.assembly.2 ha with ha | ha | ha <;> simp [he] at ha
  · rwa [carried.state ha]

/-- The line that was being exposed, if one was, has left its slot, and the other lines are as they were. -/
theorem lineCut_lines {s : State} (h : (∀ i, (s.slots.get i).state ≠ .exposing) ∨ ∃ i hd, (s.slots.get i).state = .exposing ∧
    (s.slots.get i.other).state ≠ .exposing ∧ (s.slots.get i).header = some hd) :
    s.lineCut.lines = s.lines ∧ (∀ j, InAssembly (s.lineCut.slots.get j) ↔ InAssembly (s.slots.get j)) ∧
      ∀ j, (s.lineCut.slots.get j).state ≠ .exposing := by
  rcases h with h | ⟨i, hd, hi, ho, hh⟩
  · rw [(lineCut_none h).1]
    exact ⟨rfl, fun _ => .rfl, h⟩
  · have slot := exposingSlot_one hi ho
    have states := lineCut_states slot hh
    obtain ⟨-, lines, -, -, other⟩ := finishLine_offers (s := s.faultBegun) hh .cutShort (widthsOf (s.slots.get i)) none
    rw [← (lineCut_some slot).1] at lines other
    have other : s.lineCut.slots.get i.other =
      if (s.slots.get i.other).held = 0 then s.slots.get i.other else freed (s.slots.get i.other) := other
    refine ⟨lines, fun j => ?_, fun j => ?_⟩
    · rcases slotId_cases i j with rfl | rfl
      · exact iff_of_false (by rcases states with h | h <;> simp [InAssembly, h]) (by simp [InAssembly, hi])
      · rw [other]
        split
        · rfl
        · exact (Carried.freed _).assembly
    · rcases slotId_cases i j with rfl | rfl
      · rcases states with h | h <;> simp [h]
      · rw [other]
        split
        · exact ho
        · exact freed_exposing ho

section
variable {s : State}

theorem cutCloses_iff : s.cutCloses = true ↔ ∃ r, s.seq.cutRecord = some r ∧ r.kind = .close := by
  unfold cutCloses
  cases s.seq.cutRecord <;> simp

theorem endClose_none (h : s.seq.closing = none) : s.endClose = s := by simp only [endClose, h]

theorem endDrained_none (h : s.seq.closing = none) : s.endDrained = s := by
  unfold endDrained
  rw [endClose_none h, ite_self]

theorem cutCloses_not (h : ∀ r, s.seq.cutRecord = some r → r.kind ≠ .close) : ¬s.cutCloses = true := fun hc => by
  obtain ⟨r, hr, hk⟩ := cutCloses_iff.1 hc
  exact h r hr hk

theorem faultClosed_not (h : s.seq.closing = none ∨ ¬s.cutCloses = true) : s.faultClosed = s.lineCut := by
  rcases h with h | h
  · have closing : s.lineCut.seq.closing = none := (congrArg Sequencer.closing (lineCut_seq s) :).trans h
    unfold faultClosed
    rw [endClose_none closing, ite_self]
  · exact if_neg h

theorem faultNoticed_not (h : s.seq.closing = none ∨ ¬s.cutCloses = true) (filmOut : Bool) :
    s.faultNoticed filmOut = offeredNotice (s.seq.owner.getD 0) (.headFault filmOut s.faultNumber) s.lineCut := by
  have owner : s.lineCut.seq.owner = s.seq.owner := (congrArg Sequencer.owner (lineCut_seq s) :)
  unfold faultNoticed
  rw [faultClosed_not h, owner]

theorem faultNoticed_closes (h : s.cutCloses = true) {cause : CloseCause} (hc : s.seq.closing = some cause) (filmOut : Bool) :
    s.faultNoticed filmOut =
      offeredNotice (s.seq.owner.getD 0) (.headFault filmOut s.faultNumber) (pageEnded cause s.lineCut) := by
  have seq := lineCut_seq s
  have closing : s.lineCut.seq.closing = some cause := (congrArg Sequencer.closing seq :).trans hc
  have closed : s.faultClosed = pageEnded cause s.lineCut := (if_pos h).trans (endClose_pageEnded closing)
  have owner : (pageEnded cause s.lineCut).seq.owner = s.seq.owner :=
    (congrArg Sequencer.owner (pageEnded_seq cause s.lineCut) :).trans (congrArg Sequencer.owner seq :)
  unfold faultNoticed
  rw [closed, owner]

/-- What the sequencer takes over from before the fault, when no CLOSE cut was being made. -/
theorem faultNoticed_seq (h : s.seq.closing = none ∨ ¬s.cutCloses = true) (filmOut : Bool) :
    (s.faultNoticed filmOut).seq.closing = s.seq.closing ∧ (s.faultNoticed filmOut).seq.expiryHeld = s.seq.expiryHeld ∧
      (s.faultNoticed filmOut).seq.state = .fault := by
  rw [faultNoticed_not h]
  have told := (offeredNotice_spared (s.seq.owner.getD 0) (.headFault filmOut s.faultNumber) s.lineCut).seq
  have seq := lineCut_seq s
  exact ⟨(congrArg Sequencer.closing told :).trans (congrArg Sequencer.closing seq :),
    (congrArg Sequencer.expiryHeld told :).trans (congrArg Sequencer.expiryHeld seq :),
    (congrArg Sequencer.state told :).trans (congrArg Sequencer.state seq :)⟩

end

theorem expireClose_exposing {s : State} (h : SlotsHeaded s) (i : SlotId) :
    (s.expireClose.slots.get i).state = .exposing ↔ (s.slots.get i).state = .exposing := by
  obtain ⟨ended, -⟩ := linesOver_slots (s := s.pageClosing) h .closed
  have same := linesOver_exposing (s := s.pageClosing) h .closed i
  rw [expireClose_eq, settle_noAssembly ended, leaveProof_seq]
  exact same

/-- In FAULT an expiry leaves nothing to drain, and the close ends (R158, R160). -/
theorem expireClose_faulted {s : State} (h : SlotsHeaded s) (hf : s.seq.state = .fault) (he : ∀ i, (s.slots.get i).state ≠ .exposing) :
    ∃ cause, s.expireClose.seq.closing = some cause ∧ s.expireClose.endDrained.settle = pageEnded cause s.expireClose := by
  obtain ⟨-, -, -, fresh, begun, -, -, -, quiet, marked, -, -, -, -, -, -, -, stays, -⟩ := expireClose_expired h
  have closing : ∃ cause, s.expireClose.seq.closing = some cause := by
    cases hc : s.seq.closing with
    | none => exact ⟨_, fresh (.inl hc)⟩
    | some cause =>
      cases cause with
      | expiry => exact ⟨_, fresh (.inr hc)⟩
      | pageEnd => exact ⟨_, begun hc⟩
  obtain ⟨cause, hcause⟩ := closing
  have fault : s.expireClose.seq.state = .fault := (stays (by simp [hf])).trans hf
  have drained : s.expireClose.drained = true := drained_iff.2 ⟨marked, fun i => ⟨quiet i, mt (expireClose_exposing h i).1 (he i)⟩,
    by simp [fault], by simp [fault]⟩
  have ended : s.expireClose.endDrained = pageEnded cause s.expireClose := (if_pos drained).trans (endClose_pageEnded hcause)
  have state : (pageEnded cause s.expireClose).seq.state = .fault :=
    (congrArg Sequencer.state (pageEnded_seq cause s.expireClose) :).trans fault
  refine ⟨cause, hcause, ?_⟩
  rw [ended, settle_noAssembly (pageEnded_slots cause s.expireClose ▸ quiet), leaveProof_other (by simp [state])]

end State

theorem exec_faults {c : Instr} (hc : c = .filmOut ∨ c = .headFault) (s : State) :
    exec c s = .next (s.fresh.faultHead (decide (c = .filmOut))) := by
  rcases hc with rfl | rfl <;> rfl

theorem exec_fault {c : Instr} (hc : c = .filmOut ∨ c = .headFault) {s : State} (hs : s.seq.state ≠ .fault) : exec c s =
    .next (State.settle (State.endDrained (State.takeHeldExpiry (s.faultNoticed (decide (c = .filmOut)))))) := by
  rw [exec_faults hc, State.faultHead_eq hs]

/-- The line cut short, in the two cases of the slots. -/
theorem lineCut_eq {s f v : State} {number : Option Nat} (hf : f = s.faultBegun)
    (hv : ((∀ i, (s.slots.get i).state ≠ .exposing) ∧ v = f ∧ number = none) ∨
      ∃ i hd, (s.slots.get i).state = .exposing ∧ (s.slots.get i.other).state ≠ .exposing ∧ (s.slots.get i).header = some hd ∧
        v = State.finishLine i .cutShort (State.widthsOf (s.slots.get i)) none f ∧ number = some hd.number) :
    s.lineCut = v ∧ s.faultNumber = number ∧ ((∀ i, (s.slots.get i).state ≠ .exposing) ∨ ∃ i hd, (s.slots.get i).state = .exposing ∧
      (s.slots.get i.other).state ≠ .exposing ∧ (s.slots.get i).header = some hd) := by
  rcases hv with ⟨he, rfl, rfl⟩ | ⟨i, hd, hi, ho, hh, rfl, rfl⟩
  · obtain ⟨line, number⟩ := State.lineCut_none he
    exact ⟨line.trans hf.symm, number, .inl he⟩
  · obtain ⟨line, number⟩ := State.lineCut_some (State.exposingSlot_one hi ho)
    exact ⟨hf ▸ line, by rw [number, hh]; rfl, .inr ⟨i, hd, hi, ho, hh⟩⟩

/-- In FAULT nothing is left to drain when nothing was before, but for the line that was being exposed. -/
theorem drained_iff_nothing {s : State} (hn : s.seq.closing = none ∨ ¬s.cutCloses = true) (filmOut : Bool)
    (h : (∀ i, (s.slots.get i).state ≠ .exposing) ∨ ∃ i hd, (s.slots.get i).state = .exposing ∧
      (s.slots.get i.other).state ≠ .exposing ∧ (s.slots.get i).header = some hd) :
    (s.faultNoticed filmOut).drained = true ↔ NothingToDrain s := by
  obtain ⟨lines, assembly, exposing⟩ := State.lineCut_lines h
  obtain ⟨slots, kept⟩ := State.faultNoticed_slots (State.faultClosed_not hn) filmOut
  obtain ⟨-, -, fault⟩ := State.faultNoticed_seq hn filmOut
  rw [State.drained_iff, slots, kept, lines, fault]
  exact ⟨fun ⟨marked, quiet, _⟩ => ⟨marked, fun i => mt (assembly i).2 (quiet i).1⟩,
    fun ⟨marked, quiet⟩ => ⟨marked, fun i => ⟨mt (assembly i).1 (quiet i), exposing i⟩, by simp, by simp⟩⟩

/-! ## The ends of a fault: the line it reports, a close that goes on, ends or expires -/

section Ends

variable {s : State} {c : Instr} {i : SlotId} {hd : LineHeader}

/-- The slot that was being exposed is REPORTING, or EMPTY when its report has left. -/
theorem faultOver_exposed (headed : SlotsHeaded s) (hi : s.exposingSlot = some i) (he : (s.slots.get i).state = .exposing)
    (filmOut : Bool) :
    ((State.settle (State.endDrained (State.takeHeldExpiry (s.faultNoticed filmOut)))).slots.get i).state = .reporting ∨
      ((State.settle (State.endDrained (State.takeHeldExpiry (s.faultNoticed filmOut)))).slots.get i).state = .empty := by
  obtain ⟨hd, hh⟩ := Option.ne_none_iff_exists'.1 (headed i (by simp [he]))
  rw [(State.faultOver_slot hi hh _).state]
  exact State.lineCut_states hi hh

/-- The report of the line that was being exposed, with room for it and without, and the notice that names the line. -/
theorem faultOver_report (slot : s.exposingSlot = some i) (hh : (s.slots.get i).header = some hd) (hm : s.link.state ≠ .mute)
    (filmOut : Bool) {t : State} (ht : State.settle (State.endDrained (State.takeHeldExpiry (s.faultNoticed filmOut))) = t)
    {rep : LineReport} (hrep : State.lineReport .cutShort (State.widthsOf (s.slots.get i)) none (s.slots.get i) hd = rep) :
    (s.link.queue.length < 12 → (t.slots.get i).state = .empty ∧
      { frame := .report hd.requester rep, attempts := 0, onLink := false } ∈ t.link.queue) ∧
    (12 ≤ s.link.queue.length → (t.slots.get i).state = .reporting ∧ (t.slots.get i).report = some rep) ∧
    (s.link.queue.length < 10 →
      { frame := .notice (s.seq.owner.getD 0) (.headFault filmOut (some hd.number)), attempts := 0, onLink := false } ∈
        t.link.queue) := by
  subst ht hrep
  have goesOn := State.faultOver_goesOn filmOut s
  obtain ⟨placed, full⟩ := State.lineCut_slot slot hh
  obtain ⟨n, same⟩ := State.faultOver_slot slot hh filmOut
  have number : s.faultNumber = some hd.number := by
    rw [(State.lineCut_some slot).2, hh]
    rfl
  refine ⟨fun hq => ⟨?_, ?_⟩, fun hq => ?_, fun hq => ?_⟩
  · rw [same, placed (.inr hq)]
    rfl
  · exact goesOn.queue _ ((State.faultNoticed_goesOn _ s).queue _ (State.lineCut_report slot hh hm hq))
  · rw [same, full hm hq]
    exact ⟨rfl, rfl⟩
  · rw [← number]
    exact goesOn.queue _ (State.faultNoticed_notice hm hq _)

/-- The cut of a close had been under way: the page ends at once, before the notice. -/
theorem exec_fault_closes (hc : c = .filmOut ∨ c = .headFault) (hs : s.seq.state ≠ .fault) (closes : s.cutCloses = true)
    {cause : CloseCause} (hcl : s.seq.closing = some cause) :
    exec c s = .next (State.settle (offeredNotice (s.seq.owner.getD 0) (.headFault (decide (c = .filmOut)) s.faultNumber)
      (pageEnded cause s.lineCut))) := by
  have seq := (State.offeredNotice_spared (s.seq.owner.getD 0) (.headFault (decide (c = .filmOut)) s.faultNumber)
    (pageEnded cause s.lineCut)).seq
  have ended := State.pageEnded_seq cause s.lineCut
  rw [exec_fault hc hs, State.faultNoticed_closes closes hcl, State.takeHeldExpiry_none, State.endDrained_none]
  · exact (congrArg Sequencer.closing seq :).trans (congrArg Sequencer.closing ended :)
  · exact (congrArg Sequencer.expiryHeld seq :).trans (congrArg Sequencer.expiryHeld ended :)

variable (hc : c = .filmOut ∨ c = .headFault) (hs : s.seq.state ≠ .fault) (not : ¬s.cutCloses = true)
  (lines : (∀ i, (s.slots.get i).state ≠ .exposing) ∨ ∃ i hd, (s.slots.get i).state = .exposing ∧
    (s.slots.get i.other).state ≠ .exposing ∧ (s.slots.get i).header = some hd)
include hc hs not lines

theorem exec_fault_waits (hx : s.seq.expiryHeld = false) (hd : s.seq.closing = none ∨ ¬NothingToDrain s) :
    exec c s = .next (s.faultNoticed (decide (c = .filmOut))).settle := by
  obtain ⟨closing, held, -⟩ := State.faultNoticed_seq (.inr not) (decide (c = .filmOut))
  have waits : (s.faultNoticed (decide (c = .filmOut))).endDrained = s.faultNoticed (decide (c = .filmOut)) := by
    rcases hd with hd | hd
    · exact State.endDrained_none (closing.trans hd)
    · exact if_neg (mt (drained_iff_nothing (.inr not) _ lines).1 hd)
  rw [exec_fault hc hs, State.takeHeldExpiry_none (held.trans hx), waits]

theorem exec_fault_ends {cause : CloseCause} (hx : s.seq.expiryHeld = false) (hcl : s.seq.closing = some cause)
    (hd : NothingToDrain s) : exec c s = .next (pageEnded cause (s.faultNoticed (decide (c = .filmOut)))).settle := by
  obtain ⟨closing, held, -⟩ := State.faultNoticed_seq (.inr not) (decide (c = .filmOut))
  have ends : (s.faultNoticed (decide (c = .filmOut))).endDrained = pageEnded cause (s.faultNoticed (decide (c = .filmOut))) :=
    (if_pos ((drained_iff_nothing (.inr not) _ lines).2 hd)).trans (State.endClose_pageEnded (closing.trans hcl))
  rw [exec_fault hc hs, State.takeHeldExpiry_none (held.trans hx), ends]

theorem exec_fault_expires (hx : s.seq.expiryHeld = true) (headed : SlotsHeaded s) :
    ∃ u cause, CloseExpired (s.faultNoticed (decide (c = .filmOut))) u ∧ u.seq.closing = some cause ∧
      exec c s = .next (pageEnded cause u) := by
  obtain ⟨-, held, fault⟩ := State.faultNoticed_seq (.inr not) (decide (c = .filmOut))
  obtain ⟨slots, -⟩ := State.faultNoticed_slots (State.faultClosed_not (.inr not)) (decide (c = .filmOut))
  obtain ⟨-, -, exposing⟩ := State.lineCut_lines lines
  have headed' : SlotsHeaded (s.faultNoticed (decide (c = .filmOut))) := fun i => slots ▸ State.lineCut_headed headed i
  obtain ⟨cause, closing, ended⟩ := State.expireClose_faulted headed' fault fun i => slots ▸ exposing i
  refine ⟨_, cause, State.expireClose_expired headed', closing, ?_⟩
  rw [exec_fault hc hs, State.takeHeldExpiry_takes (held.trans hx) (by simp [fault]) (by simp [fault]), ended]

end Ends

/-- Settles O53: the fault by the line that was being exposed and by the close of the page, and READY. -/
theorem filmAndHeadFaults : Obligations.FilmAndHeadFaults := by
  intro s
  refine ⟨fun hm => ?_, fun hs headed c hc => ?_, fun hs c f v number n hc hf hv hn => ⟨fun r cause hr hk hcl => ?_,
    fun hk => ?_⟩, fun hs rest he hcl hx hm c hc => ?_, fun hs => ⟨?_, ?_, ?_⟩, fun hs => ?_, fun hh => ?_, fun hh => ?_⟩
  · exact congrArg Host.Outcome.next (State.notify_noticed (s := { s with
      out := [], seq := { s.seq with acc := { s.seq.acc with filmLow := true } } }) hm (s.seq.owner.getD 0) .filmLow)
  · obtain ⟨state, head⟩ := State.faultOver_stands (decide (c = .filmOut)) s
    have late := (((State.late_faultNoticed (decide (c = .filmOut)) s).trans (State.late_takeHeldExpiry _)).trans
      (State.late_endDrained _)).trans (State.late_settle _)
    have seq := late.seq
    refine ⟨_, exec_fault hc hs, state, head, (congrArg Sequencer.galley seq :), (congrArg Sequencer.exposedSinceCut seq :),
      (congrArg Sequencer.cutRecord seq :), (congrArg Sequencer.cutPending seq :), (congrArg Sequencer.stopPending seq :),
      (congrArg Sequencer.owner seq :), late.entries, late.tables, fun h0 => faultOver_exposed headed (if_pos h0) h0 _,
      fun h0 h1 => faultOver_exposed headed ((if_neg h0).trans (if_pos h1)) h1 _, fun i hd rep hi ho hh hm hrep =>
        faultOver_report (State.exposingSlot_one hi ho) hh hm _ rfl hrep.symm⟩
  · obtain ⟨rfl, rfl, -⟩ := lineCut_eq hf hv
    rw [exec_fault_closes hc hs (State.cutCloses_iff.2 ⟨r, hr, hk⟩) hcl, hn]
  · obtain ⟨rfl, rfl, lines⟩ := lineCut_eq hf hv
    have not := State.cutCloses_not hk
    have same := State.faultNoticed_not (.inr not) (decide (c = .filmOut))
    rw [hn, ← same]
    exact ⟨exec_fault_waits hc hs not lines, fun _ => exec_fault_ends hc hs not lines, exec_fault_expires hc hs not lines⟩
  · have noticed := State.faultNoticed_not (.inl hcl) (decide (c = .filmOut))
    obtain ⟨closing, held, fault⟩ := State.faultNoticed_seq (.inl hcl) (decide (c = .filmOut))
    obtain ⟨slots, -⟩ := State.faultNoticed_slots (State.faultClosed_not (.inl hcl)) (decide (c = .filmOut))
    obtain ⟨line, number⟩ := State.lineCut_none he
    have quiet : SlotsRest (s.faultNoticed (decide (c = .filmOut))) := by
      refine ⟨fun i => ?_, fun i => by simp [fault]⟩
      rw [slots, line]
      exact rest.1 i
    rw [exec_fault hc hs, State.takeHeldExpiry_none (held.trans hx), State.endDrained_none (closing.trans hcl), State.settle_rest quiet,
      noticed, line, number]
    exact congrArg Host.Outcome.next (if_neg hm)
  · exact congrArg Host.Outcome.next (if_pos hs)
  · exact congrArg Host.Outcome.next (if_pos hs)
  · exact congrArg Host.Outcome.next (if_pos hs)
  · exact congrArg Host.Outcome.next (if_neg hs)
  · exact congrArg Host.Outcome.next (if_neg fun h => hh h.1)
  · change execCutDone s = _
    unfold execCutDone
    dsimp only
    split
    · rename_i head _ _
      exact absurd head hh
    · rfl

end Sys2Proof.Machine
end

section
/-! SUPPORT. The layouts read back: a field of one, two or three bytes, a key and its range, and the frames made of them. -/

namespace Sys2Proof.Machine

/-! ## Fields -/

theorem bytesOf_one (v : Nat) : bytesOf 1 v = [BitVec.ofNat 8 v] := rfl

theorem bytesOf_two (v : Nat) : bytesOf 2 v = [BitVec.ofNat 8 (v / 256), BitVec.ofNat 8 v] := rfl

theorem read1_ofNat {v : Nat} (h : v < 256) : read1 (BitVec.ofNat 8 v) = v := by
  rw [read1, BitVec.toNat_ofNat, Nat.mod_eq_of_lt h]

theorem read2_ofNat {v : Nat} (h : v < 65536) : read2 (BitVec.ofNat 8 (v / 256)) (BitVec.ofNat 8 v) = v := by
  rw [read2, BitVec.toNat_ofNat, BitVec.toNat_ofNat]
  omega

theorem readSigned_ofInt {v : Int} (hl : -32768 ≤ v) (hu : v < 32768) :
    readSigned (BitVec.ofNat 8 ((BitVec.ofInt 16 v).toNat / 256)) (BitVec.ofNat 8 (BitVec.ofInt 16 v).toNat) = v := by
  rw [readSigned, read2_ofNat (BitVec.isLt _), BitVec.ofNat_toNat, BitVec.setWidth_eq, BitVec.toInt_ofInt]
  exact Int.bmod_eq_of_le (by omega) (by omega)

/-! ## Keys and ranges -/

theorem Key.wf_iff {k : Key} : k.wf = true ↔ k.face < 256 ∧ k.index < 65536 := by
  simp [Key.wf, fits]

theorem keyBytes_eq (k : Key) :
    keyBytes k = [BitVec.ofNat 8 k.face, BitVec.ofNat 8 (k.index / 256), BitVec.ofNat 8 k.index] := rfl

theorem readKey_ofNat {k : Key} (h : k.wf = true) :
    readKey (BitVec.ofNat 8 k.face) (BitVec.ofNat 8 (k.index / 256)) (BitVec.ofNat 8 k.index) = k := by
  obtain ⟨face, index⟩ := Key.wf_iff.1 h
  rw [readKey, read1_ofNat face, read2_ofNat index]

/-- Ranges that are written one after the other are read one after the other. -/
theorem readRanges_rangeBytes (rs : List KeyRange) (h : ∀ r ∈ rs, r.wf = true) :
    readRanges (rs.map rangeBytes).flatten = some rs := by
  induction rs with
  | nil => rfl
  | cons r rs ih =>
    obtain ⟨first, last⟩ := (Bool.and_eq_true_iff (x := r.first.wf)).1 (h r List.mem_cons_self)
    have rest := ih fun x hx => h x (List.mem_cons_of_mem _ hx)
    simp only [List.map_cons, List.flatten_cons, rangeBytes, keyBytes_eq, List.cons_append, List.nil_append, readRanges, rest,
      readKey_ofNat first, readKey_ofNat last, Option.map_some]

theorem readWithdraw_withdrawBytes (rs : List KeyRange) (hn : rs.length < 256) (h : ∀ r ∈ rs, r.wf = true) :
    readWithdraw (withdrawBytes rs) = some rs := by
  have ranges := readRanges_rangeBytes rs h
  have count := read1_ofNat hn
  simp only [withdrawBytes, bytesOf_one, List.cons_append, List.nil_append, readWithdraw, ranges, count, if_true]

/-! ## The flags of an ENROL -/

theorem enrolFlags (spare head : Bool) :
    (BitVec.ofNat 8 (bitsToNat [spare, head])).getLsbD 0 = spare ∧ (BitVec.ofNat 8 (bitsToNat [spare, head])).getLsbD 1 = head := by
  revert spare head
  decide

/-! ## The record of an image -/

theorem ImageRecord.wellFormed_iff {r : ImageRecord} : r.wellFormed = true ↔
    (r.advanceWidth ≤ 2000 ∧ -1000 ≤ r.originX ∧ r.originX ≤ 1000 ∧ -1000 ≤ r.originY ∧ r.originY ≤ 1000 ∧
      8 ≤ r.imageLength ∧ r.imageLength ≤ 512) ∧ r.bytes.length = r.imageLength := by
  simp [ImageRecord.wellFormed, fieldsInRange, and_assoc]

theorem readImage_payload {r : ImageRecord} (h : r.wellFormed = true) (hk : r.key.wf = true) :
    readImage (Reply.image r).payload = some r := by
  obtain ⟨⟨width, xl, xu, yl, yu, -, len⟩, bytes⟩ := ImageRecord.wellFormed_iff.1 h
  have key := readKey_ofNat hk
  have width := read2_ofNat (v := r.advanceWidth) (by omega)
  have x := readSigned_ofInt (v := r.originX) (by omega) (by omega)
  have y := readSigned_ofInt (v := r.originY) (by omega) (by omega)
  have len := read2_ofNat (v := r.imageLength) (by omega)
  simp only [Reply.payload, imageFields, signedBytes, keyBytes_eq, bytesOf_two, List.cons_append, List.nil_append, readImage, key,
    width, x, y, len, if_pos bytes]

/-- Settles O55: a frame built from fields in range is read as those fields. -/
theorem framesReadBackAsSent : Obligations.FramesReadBackAsSent := by
  refine ⟨fun src e hs hb hr => ?_, fun src rs hn h => ?_, fun src target k hk => ?_, fun r hr hk => readImage_payload hr hk⟩
  · obtain ⟨spare, head⟩ := enrolFlags e.spare e.head
    change some (Instr.enrol _ (read1 _) (read1 _) _ _ (read2 _ _)) = _
    rw [read1_ofNat hs, read1_ofNat hb, read2_ofNat hr, spare, head]
    rfl
  · change (readWithdraw (withdrawBytes rs)).map _ = _
    rw [readWithdraw_withdrawBytes rs hn h]
    rfl
  · change some (Instr.fetch _ (readKey _ _ _) _) = _
    rw [readKey_ofNat hk]
    rfl

end Sys2Proof.Machine
end
